-- ==== Sys2Proof/Word.lean ====
section
/-! DEFINITION. The plain types the manual's values are made of: bytes, tags, times and the index of each table. -/

namespace Sys2Proof

/-- One byte of the Request Port, of a lane or of a record image (R204). -/
abbrev Byte := BitVec 8

/-- A subinterval tag; all tag arithmetic is modulo 256 (overview, section 5.4). -/
abbrev Tag := BitVec 8

/-- A time: whole seconds since 2000-01-01 00:00:00 (R204). -/
abbrev Seconds := Nat

/-- An account slot, 0 to 63 (R1). -/
abbrev Slot := Fin 64

/-- An intake number, 0 to 95 (R85). -/
abbrev IntakeNo := Fin 96

/-- A tariff index, 0 to 15 (R28). -/
abbrev TariffNo := Fin 16

/-- A lane number, 0 to 3 (R63). -/
abbrev LaneNo := Fin 4

/-- A time band: A is 0, B is 1, C is 2, D is 3 (R30). -/
abbrev Band := Fin 4

end Sys2Proof
end

