-- ==== Sys2Proof/Syntax.lean ====
section
/-! DEFINITION. The commands of the device: one constructor for each row of spec/opcode_table.json. -/

namespace Sys2Proof

/-- The fields of an INCREMENT frame (Table 4-2). The intake number is carried as it arrived and is judged
at placement only (R64). -/
structure IncrementFrame where
  seq : Byte
  intake : Byte
  tag : Tag
  imp : BitVec 16
  exp : BitVec 16
  lag : BitVec 16
  lead : BitVec 16
  last : Bool
  doubtful : Bool
  deriving DecidableEq, Repr

/-- The commands. A request command is the Request Engine's execution of the request that EXECUTE started
(R195); its parameters lie in the request buffer (R196), so it has no operand here (log 3). -/
inductive Instr where
  /-- WRITE_REQUEST with its data bytes (R191). -/
  | writeRequest (data : List Byte)
  /-- EXECUTE, and how many further bytes the host clocks (R192). -/
  | execute (clocked : Nat)
  /-- READ_STATUS, and how many bytes the host clocks after the transaction byte (R193). -/
  | readStatus (clocked : Nat)
  /-- READ_RESPONSE, and how many bytes the host clocks after the transaction byte (R194). -/
  | readResponse (clocked : Nat)
  /-- A transaction byte that names no transaction, or none when it was cut short (R189). -/
  | unknownTransaction (code : Option Byte) (clocked : Nat)
  | openAccount
  | amendAccount
  | suspendAccount
  | resumeAccount
  | retireAccount
  | findAccount
  | readAccount
  | listAccounts
  | writeTariff
  | deleteTariff
  | readTariff
  | setTime
  | trimTime
  | readTime
  | restoreLane
  | setLane
  | readLane
  | defineIntake
  | assignIntake
  | unassignIntake
  | readIntake
  | collectHeld
  | holdAccumulation
  | releaseAccumulation
  | readDemand
  | closeNow
  | changeTariff
  | releaseSettlement
  | repairAccount
  | discardAccount
  | repairIntake
  | verifyStore
  | startRun
  | stopRun
  | setRunParameters
  | readPartStatus
  | setAttentionMask
  | ackAttention
  /-- A well-formed HELLO frame taken on a lane (R67, R68). -/
  | hello (lane : LaneNo) (frontEnd : BitVec 16) (firstSeq : Byte)
  /-- A well-formed INCREMENT frame taken on a lane (R70 to R76). -/
  | increment (lane : LaneNo) (frame : IncrementFrame)
  /-- The bytes between two flags of a lane, when they form a malformed frame (R64, R71, R205). -/
  | malformedFrame (lane : LaneNo) (content : List Byte)
  | carrierLoss (lane : LaneNo)
  | carrierAppear (lane : LaneNo)
  | resyncTimerExpiry (lane : LaneNo)
  | transmitFrame (lane : LaneNo)
  | laneBoundary
  | minuteEvent
  | boundaryEvent
  | graceExpiry
  | bandNotifyCheck
  | boundaryAgeing
  | fold
  | accountVisit
  | slotClosure
  | placeEntry
  | settlementExamination
  | sweepVerify
  | restartCatchUp
  | powerLoss
  | resetAssert
  | vbakDip
  /-- A start; `cutShort` when power loss or RESET_N interrupts it before its last write (R176, R184). -/
  | deviceStart (cutShort : Bool)
  | passageOfASecond
  deriving DecidableEq, Repr

end Sys2Proof
end

