-- ==== Sys2Proof/Decode.lean ====
section
/-! DEFINITION. The command that a word spells by the bits of spec/opcode_table.json. The table gives bits for none of
its rows, so no word spells a command (log 30). -/

namespace Sys2Proof

/-- The command a word of `nbits` bits spells: none, since no row of the table gives bits. -/
def decodeTableWord (_nbits _w : Nat) : Option Instr := none

end Sys2Proof
end

