-- ==== Sys2Proof/Config.lean ====
section
/-! DEFINITION. What is fixed for every device: the limits and capacities of the overview (sections 5.2 and 7), and the
one value that the manual leaves open, the retained signature's (R176), as two free values that nothing constrains. -/

namespace Sys2Proof.Config

/-- The largest 16-bit value: lane counters and period counts saturate here (overview, 5.2). -/
def max16 : Nat := 65535

/-- The largest 32-bit value: demands and slot energies saturate here (overview, 5.2). -/
def max32 : Nat := 4294967295

/-- The largest 48-bit value: period and held energies saturate here (overview, 5.2; R86). -/
def max48 : Nat := 281474976710655

/-- 2099-12-31 23:59:59, the calendar's last second (R47; its number is given by R204). -/
def lastSecond : Nat := 3155759999

/-- An account holds at most 8 members (R9). -/
def memberLimit : Nat := 8

/-- Both buffers of the Request Port hold 128 bytes (R190). -/
def bufferSize : Nat := 128

/-- The largest scale of an intake (R86). -/
def maxScale : Nat := 1000000

/-- The Arrival Queue holds up to 32 entries (R79). -/
def arrivalCapacity : Nat := 32

/-- The largest credit allotment of a lane (R63). -/
def maxAllotment : Nat := 8

/-- The window has 12 storage positions (R6). -/
def windowPositions : Nat := 12

/-- An increment whose tag distance is above 15 is refused (R99). -/
def lateDistance : Nat := 15

/-- An owner-since tag that has reached age 16 is cleared (R88). -/
def ageLimit : Nat := 16

/-- The one fixed value of the retained signature (R176): a free value, since the spec does not state it (log 18). -/
opaque fixedSignature : BitVec 32

/-- The words that a cold start has to choose from when it first writes the signature (R176): a free value for each
choice (log 18). -/
opaque freeSignature : Nat → BitVec 32

/-- The value other than the fixed one that a cold start first writes (R176): the free word of that choice, inverted when
it is the fixed value. -/
def otherSignature (choice : Nat) : BitVec 32 :=
  if freeSignature choice = fixedSignature then ~~~fixedSignature else freeSignature choice

end Sys2Proof.Config
end

