-- ==== Sys2Proof/Machine/Dates.lean ====
section
/-! DEFINITION. The calendar's dates, weekdays, minutes and boundary instants (R46, R47, R49, R51). -/

namespace Sys2Proof.Machine

open Sys2Proof

/-- A date and time of day as READ_TIME presents it and SET_TIME gives it (R204). -/
structure DateTime where
  year : Nat
  month : Nat
  day : Nat
  hour : Nat
  minute : Nat
  second : Nat
  deriving DecidableEq, Repr

/-- Every year of 2000 to 2099 that is divisible by four is a leap year (R47). -/
def isLeap (year : Nat) : Bool := year % 4 = 0

/-- The lengths of the twelve months of a year (R47). -/
def monthLengths (year : Nat) : List Nat :=
  [31, if isLeap year then 29 else 28, 31, 30, 31, 30, 31, 31, 30, 31, 30, 31]

/-- The length of a month, 1 to 12, in a year. -/
def monthLength (year month : Nat) : Nat := (monthLengths year).getD (month - 1) 0

/-- The days before 1 January of a year, counted from 2000-01-01 (R47). -/
def daysBeforeYear (year : Nat) : Nat := 365 * (year - 2000) + (year - 2000 + 3) / 4

/-- The day number of a date, counted from 2000-01-01 (R47). -/
def dayNumber (year month day : Nat) : Nat :=
  daysBeforeYear year + ((monthLengths year).take (month - 1)).sum + (day - 1)

/-- The seconds of a date and time. -/
def DateTime.toSeconds (d : DateTime) : Seconds :=
  dayNumber d.year d.month d.day * 86400 + d.hour * 3600 + d.minute * 60 + d.second

/-- The month and day that lie `day` days after 1 January, given the month lengths that remain. -/
def monthDay : (lengths : List Nat) → (month day : Nat) → Nat × Nat
  | [], m, d => (m, d + 1)
  | len :: rest, m, d => if d < len then (m, d + 1) else monthDay rest (m + 1) (d - len)

/-- The year of a day number: four years have 1461 days and the first of them is the leap year (R47). -/
def yearOfDay (day : Nat) : Nat :=
  2000 + 4 * (day / 1461) + (if day % 1461 < 366 then 0 else (day % 1461 - 366) / 365 + 1)

/-- The date and time of a count of seconds (R46). -/
def dateTimeOf (t : Seconds) : DateTime :=
  let day := t / 86400
  let year := yearOfDay day
  let md := monthDay (monthLengths year) 1 (day - daysBeforeYear year)
  { year := year, month := md.1, day := md.2,
    hour := t % 86400 / 3600, minute := t % 3600 / 60, second := t % 60 }

/-- The weekday of a day number, Monday 0 to Sunday 6; 2000-01-01 is a Saturday (R47). -/
def weekdayOf (day : Nat) : Nat := (day + 5) % 7

/-- The minute of day of a time, 0 to 1439 (overview, 5.3). -/
def minuteOfDay (t : Seconds) : Nat := t % 86400 / 60

/-- The start of the minute that holds a time. -/
def minuteStart (t : Seconds) : Seconds := t / 60 * 60

/-- The values SET_TIME admits (R49). -/
def DateTime.inRange (d : DateTime) : Bool :=
  2000 ≤ d.year && d.year ≤ 2099 && 1 ≤ d.month && d.month ≤ 12 && 1 ≤ d.day &&
    d.day ≤ monthLength d.year d.month && d.hour ≤ 23 && d.minute ≤ 59 && d.second ≤ 59

/-- The latest boundary instant at or before a time. S divides 1440, so the boundary instants are the
multiples of S minutes counted from 2000-01-01 00:00:00 (R51). -/
def boundaryAtOrBefore (s : Nat) (t : Seconds) : Seconds := t / (s * 60) * (s * 60)

/-- The first boundary instant strictly later than a time (R51). -/
def boundaryAfter (s : Nat) (t : Seconds) : Seconds := boundaryAtOrBefore s t + s * 60

/-- The number of boundary instants strictly after `a` and at or before `b` (R131). -/
def boundariesBetween (s : Nat) (a b : Seconds) : Nat := b / (s * 60) - a / (s * 60)

/-- Second 0 of minute 0 of a close hour on a close day of the month after `k` months from `year`-01. -/
def closeInstant (year month0 closeDay closeHour : Nat) : Seconds :=
  dayNumber (year + month0 / 12) (month0 % 12 + 1) closeDay * 86400 + closeHour * 3600

/-- The first close instant of a close day and hour strictly later than a time: that of the time's own month,
or that of the next (R53, R157). -/
def closeInstantAfter (t : Seconds) (closeDay closeHour : Nat) : Seconds :=
  let d := dateTimeOf t
  let here := closeInstant d.year (d.month - 1) closeDay closeHour
  if t < here then here else closeInstant d.year d.month closeDay closeHour

/-- A boundary instant is aligned when its minutes since midnight are a multiple of N × S (R121). -/
def aligned (n s : Nat) (t : Seconds) : Bool := minuteOfDay t % (n * s) = 0

end Sys2Proof.Machine
end

