-- ==== Sys2Proof/Machine/Records.lean ====
section
/-! DEFINITION. The records of the Record Store, field by field: accounts (R4 to R7), intakes (R86), tariffs (R30)
and switch points (R32), each with its fault mark (R160). -/

namespace Sys2Proof.Machine

open Sys2Proof

/-- Import, export, lag and lead energy, in Wh and varh. -/
structure Energy where
  imp : Nat
  exp : Nat
  lag : Nat
  lead : Nat
  deriving DecidableEq, Repr

/-- Import, lag and lead energy: what a slot holds, and what is kept of late energy. -/
structure SlotEnergy where
  imp : Nat
  lag : Nat
  lead : Nat
  deriving DecidableEq, Repr

/-- The state of an account as the Record Store reports it (Table 1-1). -/
inductive AccountState where
  | free | active | suspended | final | faulted
  deriving DecidableEq, Repr

/-- The state field stored in the account record. FAULTED is not stored: the fault mark stands for it (R160). -/
inductive AccountPhase where
  | free | active | suspended | final
  deriving DecidableEq, Repr

/-- A band maximum (Table 1-2). -/
structure BandMaximum where
  value : Nat
  time : Seconds
  estimated : Bool
  deriving DecidableEq, Repr

/-- The running period of an account (Table 1-2). -/
structure Period where
  start : Option Seconds
  energy : Energy
  late : SlotEnergy
  maxima : Vector (Option BandMaximum) 4
  exceedances : Nat
  exceeded : Bool
  incompleteSlots : Nat
  outageSlots : Nat
  subintervals : Nat
  ratchetCarry : Nat
  saturated : Bool
  deriving DecidableEq, Repr

/-- The state of a window slot (Table 1-3). -/
inductive SlotState where
  | empty | complete | incomplete | outage
  deriving DecidableEq, Repr

/-- A window slot (Table 1-3). -/
structure WindowSlot where
  energy : SlotEnergy
  state : SlotState
  deriving DecidableEq, Repr

/-- An expected member of a pending slot, and whether it has reported: the reported-member set is a subset of
the expected-member set (R6). -/
structure ExpectedMember where
  intake : IntakeNo
  reported : Bool
  deriving DecidableEq, Repr

/-- The pending slot of an account (Table 1-3); the expected members stand in member-list order (Table 11-6). -/
structure PendingSlot where
  tag : Tag
  energy : SlotEnergy
  expected : List ExpectedMember
  doubtful : Bool
  deriving DecidableEq, Repr

/-- The cause of a close due (R137). -/
inductive DueCause where
  | scheduled | host
  deriving DecidableEq, Repr

/-- A close due (R137). -/
structure CloseDue where
  cause : DueCause
  time : Seconds
  deriving DecidableEq, Repr

/-- The cause of a period close (Table 7-1). -/
inductive CloseCause where
  | scheduled | host | tariffChange | retire
  deriving DecidableEq, Repr

/-- The result of one band in a settled section (Table 7-1). -/
structure BandResult where
  maximum : Option BandMaximum
  billing : Nat
  deriving DecidableEq, Repr

/-- The settled section (Table 7-1). -/
structure Settled where
  cause : CloseCause
  late : Bool
  saturated : Bool
  estimatedMax : Bool
  periodStart : Option Seconds
  periodEnd : Seconds
  dueTime : Option Seconds
  tariff : TariffNo
  tariffId : Nat
  bands : Vector BandResult 4
  ratchetReference : Option Nat
  energy : Energy
  lateEnergy : SlotEnergy
  powerFactor : Option Nat
  excessReactive : Nat
  incompleteSlots : Nat
  outageSlots : Nat
  exceedances : Nat
  subintervals : Nat
  deriving DecidableEq, Repr

/-- An account record (R4 to R7) with its fault mark (R160). -/
structure Account where
  number : Nat
  phase : AccountPhase
  tariff : TariffNo
  contractDemand : Nat
  minPercent : Nat
  closeDay : Nat
  closeHour : Nat
  members : List IntakeNo
  period : Period
  window : Vector WindowSlot 12
  ringPos : Nat
  storedSlot : Option PendingSlot
  ratchet : Vector (Option Nat) 11
  closeDue : Option CloseDue
  closeBlocked : Bool
  settled : Option Settled
  checkWord : BitVec 16
  faultMark : Bool
  deriving DecidableEq, Repr

/-- The state of an intake as the Record Store reports it (R85). -/
inductive IntakeState where
  | undefined | free | member | faulted
  deriving DecidableEq, Repr

/-- The state field stored in the intake entry; the fault mark stands for FAULTED (R160). -/
inductive IntakePhase where
  | undefined | free | member
  deriving DecidableEq, Repr

/-- A pending change: a join when a target is named, a leave when none is (R89). -/
structure PendingChange where
  target : Option Slot
  tag : Tag
  deriving DecidableEq, Repr

/-- An intake entry (R86) with its fault mark (R160). -/
structure Intake where
  phase : IntakePhase
  lane : LaneNo
  scale : Nat
  owner : Option Slot
  ownerSince : Option Tag
  change : Option PendingChange
  lastReported : Option Tag
  silentCount : Nat
  silent : Bool
  held : Energy
  checkWord : BitVec 16
  faultMark : Bool
  deriving DecidableEq, Repr

/-- How a tariff evaluates demand (R30). -/
inductive Evaluation where
  | rolling | block
  deriving DecidableEq, Repr

/-- The demand quantity of a tariff (R30). -/
inductive DemandQuantity where
  | kw | kva
  deriving DecidableEq, Repr

/-- The lead policy of a tariff (R30). -/
inductive LeadPolicy where
  | ignore | add | net
  deriving DecidableEq, Repr

/-- The incomplete policy of a tariff (R30). -/
inductive IncompletePolicy where
  | incl | excl
  deriving DecidableEq, Repr

/-- The state of a tariff (R28). -/
inductive TariffState where
  | empty | ready | faulted
  deriving DecidableEq, Repr

/-- A switch-point list of a tariff: working-day or rest-day (R32). -/
inductive ListKind where
  | working | rest
  deriving DecidableEq, Repr

/-- A switch point (R34): from its minute on, its band is in force. -/
structure SwitchPoint where
  minute : Nat
  band : Band
  notify : Bool
  deriving DecidableEq, Repr

/-- A tariff record (R30) with its fault mark (R160). A list head may name any number, so that a damaged head
can be told from a pool index (R38); none is end-of-list. -/
structure Tariff where
  id : Nat
  evaluation : Evaluation
  n : Nat
  quantity : DemandQuantity
  bandCount : Nat
  ratchetPercent : Nat
  ratchetBand : Band
  allowance : Nat
  leadPolicy : LeadPolicy
  incompletePolicy : IncompletePolicy
  weekMask : BitVec 7
  workHead : Option Nat
  workCount : Nat
  restHead : Option Nat
  restCount : Nat
  checkWord : BitVec 16
  faultMark : Bool
  deriving DecidableEq, Repr

/-- The owner of a pool entry (Table 2-2). -/
structure PoolOwner where
  tariff : TariffNo
  list : ListKind
  deriving DecidableEq, Repr

/-- A switch-point pool entry (Table 2-2); `next` is none at end-of-list and may name any number (R38). -/
structure PoolEntry where
  point : SwitchPoint
  next : Option Nat
  owner : Option PoolOwner
  deriving DecidableEq, Repr

end Sys2Proof.Machine
end

