-- ==== Sys2Proof/Machine/Blocks.lean ====
section
/-! DEFINITION. The state of the blocks outside the Record Store: lanes (R63), calendar (R46), Arrival Queue entries
(R76), work lists (R111), Request Port (R190), arbiter (R162, R163), sweep (R173) and modes (R178). -/

namespace Sys2Proof.Machine

open Sys2Proof

/-- The operating mode (R178). -/
inductive Mode where
  | commissioning | run | restarting
  deriving DecidableEq, Repr

/-- The run parameters (Table 3-2): S in minutes, G in seconds, L in subintervals, P in boundaries. -/
structure RunParameters where
  subinterval : Nat
  grace : Nat
  silenceLimit : Nat
  countPeriod : Nat
  deriving DecidableEq, Repr

/-- The grace timer when armed (R55). -/
structure GraceTimer where
  tag : Tag
  expiry : Seconds
  deriving DecidableEq, Repr

/-- The Calendar Unit (Table 3-1), with the model's own note of how the present second was reached: `reachedByPassage`
holds when a second passed onto it while the blocks were not at rest (R50, log 43). -/
structure Calendar where
  time : Seconds
  reachedByPassage : Bool
  isSet : Bool
  currentTag : Tag
  lastBoundary : Option Seconds
  lastMinute : Option Seconds
  grace : Option GraceTimer
  boundaryCount : Nat
  params : RunParameters
  deriving DecidableEq, Repr

/-- The state of a lane (R63). -/
inductive LaneState where
  | down | syncing | active | isolated
  deriving DecidableEq, Repr

/-- A frame that waits to be sent (R78). A waiting CREDIT holds no count: its count is credits to send when it
is sent. -/
inductive WaitingFrame where
  | boundary (tag : Tag) (time : Option Seconds)
  | credit
  | resync
  deriving DecidableEq, Repr

/-- The five lane counters (Table 4-1, R82). -/
structure LaneCounters where
  crcErrors : Nat
  sequenceGaps : Nat
  duplicates : Nat
  creditViolations : Nat
  refusals : Nat
  deriving DecidableEq, Repr

/-- A lane (Table 4-1), with its one-second timer (R66), its waiting frames (R78) and the bytes of the frame its
transmitter last put on the lane (the model's own view of the output, log 24). -/
structure Lane where
  state : LaneState
  carrier : Bool
  frontEnd : Option (BitVec 16)
  lastSeq : Option Byte
  expectedSeq : Option Byte
  outstanding : Nat
  toSend : Nat
  queued : Nat
  allotment : Nat
  errorLimit : Nat
  errorCount : Nat
  attempts : Nat
  counters : LaneCounters
  timer : Bool
  waiting : List WaitingFrame
  lineOut : List Byte
  deriving DecidableEq, Repr

/-- An Arrival Queue entry (R76). -/
structure QueueEntry where
  lane : LaneNo
  intake : Byte
  tag : Tag
  imp : BitVec 16
  exp : BitVec 16
  lag : BitVec 16
  lead : BitVec 16
  last : Bool
  doubtful : Bool
  deriving DecidableEq, Repr

/-- The state of the Accumulation Engine (R98). -/
inductive EngineState where
  | running | stopping | held
  deriving DecidableEq, Repr

/-- How far the boundary work of a boundary item has come (R112): ageing still to do, folding, or visiting the
accounts from a slot on. -/
inductive BoundaryPhase where
  | ageing | folds | visits (next : Nat)
  deriving DecidableEq, Repr

/-- The items of the Interval Engine's work list (R111); a grace item holds the slot from which its visits go on. -/
inductive WorkItem where
  | boundary (tag : Tag) (time : Seconds) (phase : BoundaryPhase)
  | grace (tag : Tag) (next : Nat)
  | completeness (slot : Slot) (tag : Tag)
  | minute (time : Seconds)
  deriving DecidableEq, Repr

/-- The requesters of the arbiter's first level (R162). -/
inductive Requester where
  | requestEngine | accumulationEngine | closingGroup
  deriving DecidableEq, Repr

/-- The members of the Closing Group (R163). -/
inductive GroupMember where
  | intervalEngine | settlementEngine | integritySweep
  deriving DecidableEq, Repr

/-- What the arbiter holds: the requester last granted and the group member last granted (R162, R163). -/
structure Arbiter where
  last : Option Requester
  lastMember : Option GroupMember
  deriving DecidableEq, Repr

/-- The next record of the integrity sweep (R174). -/
inductive SweepPosition where
  | tariff (i : TariffNo)
  | account (i : Slot)
  | intake (i : IntakeNo)
  deriving DecidableEq, Repr

/-- The integrity sweep: ACTIVE exactly while it has a position (R173). -/
structure Sweep where
  position : Option SweepPosition
  faultCount : Nat
  deriving DecidableEq, Repr

/-- The Request Port (Table 10-1) but for the attention set, with the bytes clocked out on MISO in the last
transaction (the model's own view of the pin, log 24). -/
structure Port where
  requestBuffer : List Byte
  fillCount : Nat
  responseBuffer : List Byte
  busy : Bool
  responseReady : Bool
  overrun : Bool
  writeWhileBusy : Bool
  strayExecute : Bool
  mask : BitVec 12
  miso : List Byte
  deriving DecidableEq, Repr

/-- What a record store operation may write: the records (R160), the attention set, which every block raises
(R199), and the Settlement Engine's work list, to which operations hand accounts (R139). -/
structure Ledger where
  accounts : Vector Account 64
  intakes : Vector Intake 96
  tariffs : Vector Tariff 16
  pool : Vector PoolEntry 128
  attention : BitVec 12
  closeWork : List Slot
  deriving DecidableEq, Repr

end Sys2Proof.Machine
end

