-- ==== Sys2Proof/Machine/Bytes.lean ====
section
/-! DEFINITION. Byte order and the cyclic check (R204, R206). -/

namespace Sys2Proof.Machine

open Sys2Proof

/-- The byte that holds the low eight bits of a number. -/
def byte (n : Nat) : Byte := BitVec.ofNat 8 n

/-- A number in `width` bytes, least significant byte first (overview, 5.5). -/
def le : (width : Nat) → Nat → List Byte
  | 0, _ => []
  | w + 1, n => byte n :: le w (n / 256)

/-- The number that a list of bytes spells, least significant byte first. -/
def leValue : List Byte → Nat
  | [] => 0
  | b :: bs => b.toNat + 256 * leValue bs

/-- The number in `width` bytes from `offset` on. -/
def field (offset width : Nat) (bytes : List Byte) : Nat := leValue ((bytes.drop offset).take width)

/-- Flags as the bits of one number, bit 0 first (R204). -/
def bits : List Bool → Nat
  | [] => 0
  | f :: fs => f.toNat + 2 * bits fs

/-- A list brought to exactly `n` bytes, with `fill` after its own bytes. -/
def padTo (n : Nat) (fill : Byte) (bytes : List Byte) : List Byte :=
  bytes.take n ++ List.replicate (n - bytes.length) fill

/-- FFFFFFFF hex, the form of an absent optional time (R204). -/
def absentTime : Nat := 0xFFFFFFFF

/-- An optional time in 4 bytes (R204). -/
def leTime (t : Option Seconds) : List Byte := le 4 (t.getD absentTime)

/-- FF hex, the form of an absent slot, intake or owner number (R204). -/
def absentNumber : Nat := 0xFF

/-- One step of the cyclic check: shift left, and XOR with the generator when a 1 was shifted out (R206). -/
def crcBit (r : BitVec 16) : BitVec 16 := if r.msb then (r <<< 1) ^^^ 0x1021#16 else r <<< 1

/-- One byte of the cyclic check: XOR into the upper eight bits, then eight steps (R206). -/
def crcByte (r : BitVec 16) (b : Byte) : BitVec 16 := Nat.repeat crcBit 8 (r ^^^ (b.zeroExtend 16 <<< 8))

/-- The register after a list of bytes. (The match on its number changes nothing: it makes the kernel
evaluate the register byte by byte.) -/
def crcBytes (r : BitVec 16) : List Byte → BitVec 16
  | [] => r
  | b :: bs =>
    match (crcByte r b).toNat with
    | 0 => crcBytes 0#16 bs
    | n + 1 => crcBytes (BitVec.ofNat 16 (n + 1)) bs

/-- The cyclic check of a list of bytes: the register starts at FFFF hex, no final inversion (R206). -/
def crc (bytes : List Byte) : BitVec 16 := crcBytes 0xFFFF#16 bytes

end Sys2Proof.Machine
end

