-- ==== Sys2Proof/Machine/Flags.lean ====
section
/-! DEFINITION. The attention sources (Table 10-4, R207), raising and clearing them (R199, R202), the ATTN_N line (R200)
and the port status byte (R207). -/

namespace Sys2Proof.Machine

open Sys2Proof

/-- The twelve attention sources, in the order of their bit positions (R207). -/
inductive AttentionSource where
  | settlementReady | closeBlocked | demandOver | intakeSilent | heldEnergy | laneIsolated | laneDown
  | integrityFault | sweepDone | bandNotify | boundaryCount | restartDone
  deriving DecidableEq, Repr

/-- The bit position of a source in the attention set and in both masks (R207). -/
def AttentionSource.position : AttentionSource → Nat
  | .settlementReady => 0 | .closeBlocked => 1 | .demandOver => 2 | .intakeSilent => 3 | .heldEnergy => 4
  | .laneIsolated => 5 | .laneDown => 6 | .integrityFault => 7 | .sweepDone => 8 | .bandNotify => 9
  | .boundaryCount => 10 | .restartDone => 11

/-- The attention set with one source alone. -/
def AttentionSource.bit (source : AttentionSource) : BitVec 12 := 1#12 <<< source.position

/-- A source becomes set; one already set stays set and nothing else changes (R199). -/
def Ledger.raise (source : AttentionSource) (l : Ledger) : Ledger :=
  { l with attention := l.attention ||| source.bit }

/-- A source is raised when a condition holds. -/
def Ledger.raiseIf (condition : Bool) (source : AttentionSource) (l : Ledger) : Ledger :=
  if condition then l.raise source else l

/-- ATTN_N is low exactly while an enabled source is set (R200). -/
def attnLow (attention mask : BitVec 12) : Bool := attention &&& mask != 0

/-- The port status byte (R207): ATTN is not held, it reads set while ATTN_N is low. -/
def Port.statusByte (attention : BitVec 12) (p : Port) : Byte :=
  byte (bits [p.busy, p.responseReady, p.overrun, p.writeWhileBusy, p.strayExecute, attnLow attention p.mask])

/-- A mask whose bits 12 to 15 are clear, as the twelve enables; none when it names a position that holds no source
(R201, R202). -/
def maskOf (value : Nat) : Option (BitVec 12) := if value < 4096 then some (BitVec.ofNat 12 value) else none

end Sys2Proof.Machine
end

