-- ==== Sys2Proof/Machine/Operands.lean ====
section
/-! DEFINITION. The operands of requests: request codes, parameter lengths and admitting modes (Tables 10-2 and 11-3),
response codes (R207), and the readers of parameters that are numbers of records or enumerated codes (R204). -/

namespace Sys2Proof.Machine

open Sys2Proof

/-- The requests of Table 10-2. -/
inductive RequestCode where
  | openAccount | amendAccount | suspendAccount | resumeAccount | retireAccount | findAccount | readAccount
  | listAccounts | writeTariff | deleteTariff | readTariff | setTime | trimTime | readTime | restoreLane | setLane
  | readLane | defineIntake | assignIntake | unassignIntake | readIntake | collectHeld | holdAccumulation
  | releaseAccumulation | readDemand | closeNow | changeTariff | releaseSettlement | repairAccount | discardAccount
  | repairIntake | verifyStore | startRun | stopRun | setRunParameters | readPartStatus | setAttentionMask
  | ackAttention
  deriving DecidableEq, Repr

/-- The value of a request code (Table 11-3, read as hexadecimal: DEDUCED, log 14). -/
def RequestCode.value : RequestCode → Byte
  | .openAccount => 0x10 | .amendAccount => 0x11 | .suspendAccount => 0x12 | .resumeAccount => 0x13
  | .retireAccount => 0x14 | .findAccount => 0x15 | .readAccount => 0x16 | .listAccounts => 0x17
  | .writeTariff => 0x20 | .deleteTariff => 0x21 | .readTariff => 0x22
  | .setTime => 0x30 | .trimTime => 0x31 | .readTime => 0x32
  | .restoreLane => 0x40 | .setLane => 0x41 | .readLane => 0x42
  | .defineIntake => 0x50 | .assignIntake => 0x51 | .unassignIntake => 0x52 | .readIntake => 0x53
  | .collectHeld => 0x54 | .holdAccumulation => 0x55 | .releaseAccumulation => 0x56
  | .readDemand => 0x60
  | .closeNow => 0x70 | .changeTariff => 0x71 | .releaseSettlement => 0x72
  | .repairAccount => 0x80 | .discardAccount => 0x81 | .repairIntake => 0x82 | .verifyStore => 0x83
  | .startRun => 0x90 | .stopRun => 0x91 | .setRunParameters => 0x92 | .readPartStatus => 0x93
  | .setAttentionMask => 0xA0 | .ackAttention => 0xA1

/-- Every request of the catalogue. -/
def RequestCode.all : List RequestCode :=
  [.openAccount, .amendAccount, .suspendAccount, .resumeAccount, .retireAccount, .findAccount, .readAccount,
    .listAccounts, .writeTariff, .deleteTariff, .readTariff, .setTime, .trimTime, .readTime, .restoreLane, .setLane,
    .readLane, .defineIntake, .assignIntake, .unassignIntake, .readIntake, .collectHeld, .holdAccumulation] ++
  [.releaseAccumulation, .readDemand, .closeNow, .changeTariff, .releaseSettlement, .repairAccount, .discardAccount,
    .repairIntake, .verifyStore, .startRun, .stopRun, .setRunParameters, .readPartStatus, .setAttentionMask,
    .ackAttention]

/-- The request that a code byte names, if any (R197). -/
def RequestCode.ofByte (b : Byte) : Option RequestCode := RequestCode.all.find? (·.value == b)

/-- The parameter length of each request (Table 11-3), but for WRITE_TARIFF, whose header has 16 bytes. -/
def RequestCode.fixedLength : RequestCode → Nat
  | .openAccount => 12 | .amendAccount => 8 | .suspendAccount => 1 | .resumeAccount => 1 | .retireAccount => 1
  | .findAccount => 4 | .readAccount => 3 | .listAccounts => 1
  | .writeTariff => 16 | .deleteTariff => 1 | .readTariff => 1
  | .setTime => 7 | .trimTime => 1 | .readTime => 0
  | .restoreLane => 1 | .setLane => 3 | .readLane => 1
  | .defineIntake => 6 | .assignIntake => 2 | .unassignIntake => 1 | .readIntake => 1
  | .collectHeld => 1 | .holdAccumulation => 0 | .releaseAccumulation => 0
  | .readDemand => 1
  | .closeNow => 1 | .changeTariff => 2 | .releaseSettlement => 1
  | .repairAccount => 59 | .discardAccount => 1 | .repairIntake => 6 | .verifyStore => 0
  | .startRun => 0 | .stopRun => 0 | .setRunParameters => 4 | .readPartStatus => 0
  | .setAttentionMask => 2 | .ackAttention => 2

/-- The length check of a request's parameters: WRITE_TARIFF has two more bytes for each point that its two counts,
in bytes 14 and 15, announce (R197, Table 11-3). -/
def RequestCode.lengthFits (k : RequestCode) (params : List Byte) : Bool :=
  match k with
  | .writeTariff =>
    16 ≤ params.length && params.length == 16 + 2 * (field 14 1 params + field 15 1 params)
  | _ => params.length == k.fixedLength

/-- The response codes (Table 10-3). -/
inductive RespCode where
  | ok | badRequest | outOfRange | wrongMode | restarting | noSuchAccount | duplicateAccount | noFreeSlot | wrongState
  | settlementPending | closeAlreadyDue | closureInProgress | nothingSettled | noSuchTariff | tariffInUse
  | poolExhausted | badSwitchList | noSuchIntake | intakeOwned | changePending | membersFull | faulted | sweepActive
  | timeUnset | notEmpty
  deriving DecidableEq, Repr

/-- The value of a response code (R207). -/
def RespCode.value : RespCode → Nat
  | .ok => 1 | .badRequest => 2 | .outOfRange => 3 | .wrongMode => 4 | .restarting => 5 | .noSuchAccount => 6
  | .duplicateAccount => 7 | .noFreeSlot => 8 | .wrongState => 9 | .settlementPending => 10 | .closeAlreadyDue => 11
  | .closureInProgress => 12 | .nothingSettled => 13 | .noSuchTariff => 14 | .tariffInUse => 15 | .poolExhausted => 16
  | .badSwitchList => 17 | .noSuchIntake => 18 | .intakeOwned => 19 | .changePending => 20 | .membersFull => 21
  | .faulted => 22 | .sweepActive => 23 | .timeUnset => 24 | .notEmpty => 25

/-- The mode check of R197 over Table 10-2: none when the mode admits the request, and otherwise the code that
refuses it. -/
def RequestCode.modeRefusal (k : RequestCode) (mode : Mode) : Option RespCode :=
  match mode with
  | .restarting => if k = .readPartStatus ∨ k = .setAttentionMask then none else some .restarting
  | .commissioning =>
    if k = .suspendAccount ∨ k = .resumeAccount ∨ k = .closeNow ∨ k = .stopRun then some .wrongMode else none
  | .run => if k = .setTime ∨ k = .startRun ∨ k = .setRunParameters then some .wrongMode else none

/-! ### Numbers of records -/

/-- The account slot a number names, 0 to 63. -/
def slotOf (n : Nat) : Option Slot := if h : n < 64 then some ⟨n, h⟩ else none

/-- The intake a number names, 0 to 95. -/
def intakeOf (n : Nat) : Option IntakeNo := if h : n < 96 then some ⟨n, h⟩ else none

/-- The tariff an index names, 0 to 15. -/
def tariffOf (n : Nat) : Option TariffNo := if h : n < 16 then some ⟨n, h⟩ else none

/-- The lane a number names, 0 to 3. -/
def laneOf (n : Nat) : Option LaneNo := if h : n < 4 then some ⟨n, h⟩ else none

/-- The band a code names, 0 to 3. -/
def bandOf (n : Nat) : Option Band := if h : n < 4 then some ⟨n, h⟩ else none

/-! ### Enumerated codes of Table 11-1 -/

def Evaluation.ofCode : Nat → Option Evaluation
  | 0 => some .rolling | 1 => some .block | _ => none

def DemandQuantity.ofCode : Nat → Option DemandQuantity
  | 0 => some .kw | 1 => some .kva | _ => none

def LeadPolicy.ofCode : Nat → Option LeadPolicy
  | 0 => some .ignore | 1 => some .add | 2 => some .net | _ => none

def IncompletePolicy.ofCode : Nat → Option IncompletePolicy
  | 0 => some .incl | 1 => some .excl | _ => none

/-- The sections of READ_ACCOUNT (R24). -/
inductive AccountSection where
  | identity | running | window | ratchet | settled
  deriving DecidableEq, Repr

def AccountSection.ofCode : Nat → Option AccountSection
  | 1 => some .identity | 2 => some .running | 3 => some .window | 4 => some .ratchet | 5 => some .settled | _ => none

/-- The filters of LIST_ACCOUNTS (R26). -/
inductive AccountFilter where
  | nonfree | settledPresent | closeBlocked | faulted | exceeded
  deriving DecidableEq, Repr

def AccountFilter.ofCode : Nat → Option AccountFilter
  | 1 => some .nonfree | 2 => some .settledPresent | 3 => some .closeBlocked | 4 => some .faulted | 5 => some .exceeded
  | _ => none

/-! ### Groups of parameters -/

/-- Contract terms: minimum percent at most 100, close day 1 to 28, close hour at most 23 (R12, R14, R168). -/
def termsInRange (minPercent closeDay closeHour : Nat) : Bool :=
  minPercent ≤ 100 && 1 ≤ closeDay && closeDay ≤ 28 && closeHour ≤ 23

/-- A switch point as WRITE_TARIFF carries it: its minute may be any value of 11 bits (R204). -/
def SwitchPoint.ofNat (v : Nat) : SwitchPoint :=
  { minute := v % 2048, band := ⟨v / 2048 % 4, Nat.mod_lt _ (by decide)⟩, notify := v / 8192 % 2 == 1 }

/-- `count` switch points from the head of a list of bytes. -/
def readPoints : (count : Nat) → List Byte → List SwitchPoint
  | 0, _ => []
  | k + 1, bytes => SwitchPoint.ofNat (field 0 2 bytes) :: readPoints k (bytes.drop 2)

/-- The date and time of SET_TIME (R204). -/
def DateTime.ofBytes (p : List Byte) : DateTime :=
  { year := field 0 2 p, month := field 2 1 p, day := field 3 1 p, hour := field 4 1 p, minute := field 5 1 p,
    second := field 6 1 p }

/-- A signed number of seconds, in two's complement (TRIM_TIME, Table 11-3). -/
def signedByte (p : List Byte) : Int := (p.getD 0 0).toInt

end Sys2Proof.Machine
end

