-- ==== Sys2Proof/Machine/Arith.lean ====
section
/-! DEFINITION. Saturating sums and the integer square root of the overview (section 5.2). -/

namespace Sys2Proof.Machine

open Sys2Proof

/-- A sum that stays at `limit` once it would pass it (overview, 5.2). -/
def satAdd (limit a b : Nat) : Nat := min (a + b) limit

/-- One more, saturating: the counts of R5 and the lane counters of R63. -/
def satSucc (limit a : Nat) : Nat := satAdd limit a 1

/-- The root's bits below `k`, found from the highest down: each is kept while the square stays at or below `v`. -/
def isqrtBits (v : Nat) : Nat → Nat → Nat
  | 0, r => r
  | k + 1, r => if (r + 2 ^ k) * (r + 2 ^ k) ≤ v then isqrtBits v k (r + 2 ^ k) else isqrtBits v k r

/-- The integer square root rounded down: the largest r with r × r not above v (overview, 5.2). -/
def isqrt (v : Nat) : Nat := isqrtBits v (Nat.log2 v / 2 + 1) 0

/-- The absolute difference of two energies (lead policy NET, R125, R146). -/
def absDiff (a b : Nat) : Nat := (a - b) + (b - a)

end Sys2Proof.Machine
end

