-- ==== Sys2Proof/Machine/Images.lean ====
section
/-! DEFINITION. The layouts of the returned sections (R208, Tables 11-4 to 11-8), the record images and check words
made of them (R206), the cold content of every record, and the verification of one record (R165). -/

namespace Sys2Proof.Machine

open Sys2Proof

/-! ### Codes of Table 11-1 -/

def AccountState.code : AccountState → Nat
  | .free => 0 | .active => 1 | .suspended => 2 | .final => 3 | .faulted => 4

def IntakeState.code : IntakeState → Nat
  | .undefined => 0 | .free => 1 | .member => 2 | .faulted => 3

def SlotState.code : SlotState → Nat
  | .empty => 0 | .complete => 1 | .incomplete => 2 | .outage => 3

def CloseCause.code : CloseCause → Nat
  | .scheduled => 0 | .host => 1 | .tariffChange => 2 | .retire => 3

/-- The cause of the close that a due brings (R137). -/
def DueCause.toCause : DueCause → CloseCause
  | .scheduled => .scheduled | .host => .host

def Evaluation.code : Evaluation → Nat
  | .rolling => 0 | .block => 1

def DemandQuantity.code : DemandQuantity → Nat
  | .kw => 0 | .kva => 1

def LeadPolicy.code : LeadPolicy → Nat
  | .ignore => 0 | .add => 1 | .net => 2

def IncompletePolicy.code : IncompletePolicy → Nat
  | .incl => 0 | .excl => 1

/-! ### States that the fault mark decides (R160) -/

/-- The state a stored field stands for while no fault mark is set. -/
def AccountPhase.state : AccountPhase → AccountState
  | .free => .free | .active => .active | .suspended => .suspended | .final => .final

def IntakePhase.state : IntakePhase → IntakeState
  | .undefined => .undefined | .free => .free | .member => .member

/-- While the mark is set the record's state is FAULTED, whatever the stored state field holds (R160). -/
def Account.state (a : Account) : AccountState := if a.faultMark then .faulted else a.phase.state

def Intake.state (x : Intake) : IntakeState := if x.faultMark then .faulted else x.phase.state

/-- A marked tariff is FAULTED; otherwise it is EMPTY when both its point counts are 0, and READY when they are
not (R28). -/
def Tariff.state (t : Tariff) : TariffState :=
  if t.faultMark then .faulted else if t.workCount = 0 ∧ t.restCount = 0 then .empty else .ready

/-- The pending slot an operation finds: a FAULTED account holds none, though the stored field stands (R120). -/
def Account.pendingSlot (a : Account) : Option PendingSlot := if a.faultMark then none else a.storedSlot

/-! ### Layouts -/

def Energy.bytes (e : Energy) : List Byte := le 6 e.imp ++ le 6 e.exp ++ le 6 e.lag ++ le 6 e.lead

def SlotEnergy.bytes (width : Nat) (e : SlotEnergy) : List Byte := le width e.imp ++ le width e.lag ++ le width e.lead

/-- READ_ACCOUNT IDENTITY (Table 11-4), with the state as `state`. (The cause bits without a close due are sent as 0,
DEDUCED, log 13.) -/
def Account.identityBytes (state : AccountState) (a : Account) : List Byte :=
  le 4 a.number ++ [byte state.code, byte a.tariff] ++ le 4 a.contractDemand ++
    [byte a.minPercent, byte a.closeDay, byte a.closeHour, byte a.members.length] ++
    padTo 8 (byte absentNumber) (a.members.map fun i => byte i.val) ++
    [byte (match a.closeDue with | none => 0 | some d => 128 + d.cause.toCause.code)] ++
    leTime (a.closeDue.map (·.time)) ++ [byte (bits [a.closeBlocked, a.settled.isSome])]

/-- A band maximum in RUNNING: value and time, 0 and FFFFFFFF when absent (Table 11-5). -/
def maximumBytes (m : Option BandMaximum) : List Byte :=
  le 4 ((m.map (·.value)).getD 0) ++ leTime (m.map (·.time))

/-- The estimated flag of a band maximum, clear when absent (DEDUCED, log 13). -/
def maximumEstimated (m : Option BandMaximum) : Bool := (m.map (·.estimated)).getD false

/-- READ_ACCOUNT RUNNING (Table 11-5). -/
def Period.bytes (p : Period) : List Byte :=
  leTime p.start ++ p.energy.bytes ++ p.late.bytes 6 ++ (p.maxima.toList.map maximumBytes).flatten ++
    [byte (bits (p.maxima.toList.map maximumEstimated ++ [p.exceeded, p.saturated]))] ++
    le 2 p.exceedances ++ le 2 p.incompleteSlots ++ le 2 p.outageSlots ++ le 2 p.subintervals ++ le 4 p.ratchetCarry

/-- READ_ACCOUNT RATCHET (Table 11-5): presence, positions 1 to 11 with 0 for an absent one, the carry. -/
def Account.ratchetBytes (a : Account) : List Byte :=
  le 2 (bits (a.ratchet.toList.map (·.isSome))) ++ (a.ratchet.toList.map fun v => le 4 (v.getD 0)).flatten ++
    le 4 a.period.ratchetCarry

/-- READ_ACCOUNT SETTLED (Table 11-5). (The maximum value of an absent maximum is sent as 0, DEDUCED, log 13.) -/
def Settled.bytes (x : Settled) : List Byte :=
  [byte (x.cause.code + 4 * bits [x.late, x.saturated, x.estimatedMax, x.ratchetReference.isSome]),
    byte (bits (x.bands.toList.map fun b => maximumEstimated b.maximum) + 16 * x.tariff)] ++
    le 2 x.tariffId ++ leTime x.periodStart ++ le 4 x.periodEnd ++ leTime x.dueTime ++
    (x.bands.toList.map fun b => maximumBytes b.maximum ++ le 4 b.billing).flatten ++
    le 4 (x.ratchetReference.getD 0) ++ x.energy.bytes ++ x.lateEnergy.bytes 6 ++
    le 2 (x.powerFactor.getD 0xFFFF) ++ le 6 x.excessReactive ++
    le 2 x.incompleteSlots ++ le 2 x.outageSlots ++ le 2 x.exceedances ++ le 2 x.subintervals

/-- A window slot in 13 bytes (Table 11-6). -/
def WindowSlot.bytes (w : WindowSlot) : List Byte := w.energy.bytes 4 ++ [byte w.state.code]

/-- The pending slot in 24 bytes, all 0 when absent (Table 11-6). -/
def pendingSlotBytes : Option PendingSlot → List Byte
  | none => List.replicate 24 0
  | some p =>
    [byte (bits [true, p.doubtful]), p.tag] ++ p.energy.bytes 4 ++ [byte p.expected.length] ++
      padTo 8 (byte absentNumber) (p.expected.map fun m => byte m.intake.val) ++
      [byte (bits (p.expected.map (·.reported)))]

/-- The image of an account (R206): formed from the stored fields; the fault mark and the check word are no part. -/
def Account.image (a : Account) : List Byte :=
  a.identityBytes a.phase.state ++ a.period.bytes ++ a.ratchetBytes ++
    (match a.settled with | none => List.replicate 126 0 | some x => x.bytes) ++
    (a.window.toList.map WindowSlot.bytes).flatten ++ [byte a.ringPos] ++ pendingSlotBytes a.storedSlot

/-- READ_INTAKE (Table 11-7), with the state as `state`. (The leave flag without a pending change is sent as 0, DEDUCED,
log 13.) -/
def Intake.bytes (state : IntakeState) (x : Intake) : List Byte :=
  [byte state.code, byte x.lane] ++ le 4 x.scale ++
    [byte (x.owner.elim absentNumber (·.val)),
      byte (bits [x.ownerSince.isSome, x.change.isSome, x.change.elim false (·.target.isNone),
        x.lastReported.isSome, x.silent]),
      x.ownerSince.getD 0, byte ((x.change.bind (·.target)).elim absentNumber (·.val)),
      x.change.elim 0 (·.tag), x.lastReported.getD 0, byte x.silentCount] ++ x.held.bytes

/-- The image of an intake (R206). -/
def Intake.image (x : Intake) : List Byte := x.bytes x.phase.state

/-- A switch point in 2 bytes: minute in bits 0 to 10, band in bits 11 and 12, notify in bit 13 (R204). -/
def SwitchPoint.bytes (p : SwitchPoint) : List Byte := le 2 (p.minute + 2048 * p.band + 8192 * p.notify.toNat)

/-- The 15 header bytes of a tariff: WRITE_TARIFF parameter bytes 1 to 15 (Tables 11-3 and 11-8). -/
def Tariff.headerBytes (t : Tariff) : List Byte :=
  le 2 t.id ++ [byte t.evaluation.code, byte t.n, byte t.quantity.code, byte t.bandCount, byte t.ratchetPercent,
    byte t.ratchetBand] ++ le 2 t.allowance ++ [byte t.leadPolicy.code, byte t.incompletePolicy.code,
    byte t.weekMask.toNat, byte t.workCount, byte t.restCount]

/-- The image of a tariff over the points of its two lists, in list order (R38, R206). -/
def Tariff.image (t : Tariff) (work rest : List SwitchPoint) : List Byte :=
  t.headerBytes ++ (work.map SwitchPoint.bytes).flatten ++ (rest.map SwitchPoint.bytes).flatten

/-! ### Check words (R164) -/

/-- The account with its check word computed afresh. -/
def Account.seal (a : Account) : Account := { a with checkWord := crc a.image }

/-- The intake with its check word computed afresh. -/
def Intake.seal (x : Intake) : Intake := { x with checkWord := crc x.image }

/-! ### Cold content -/

def Energy.zero : Energy := { imp := 0, exp := 0, lag := 0, lead := 0 }

def SlotEnergy.zero : SlotEnergy := { imp := 0, lag := 0, lead := 0 }

/-- An EMPTY window slot with zero energies. -/
def WindowSlot.cleared : WindowSlot := { energy := .zero, state := .empty }

/-- The running period's cold values (Table 1-2). -/
def Period.cold : Period :=
  { start := none, energy := .zero, late := .zero, maxima := Vector.replicate 4 none, exceedances := 0,
    exceeded := false, incompleteSlots := 0, outageSlots := 0, subintervals := 0, ratchetCarry := 0, saturated := false }

/-- The cold values of an account's fields (Tables 1-1 to 1-4), before the check word is computed. -/
def Account.coldContent : Account :=
  { number := 0, phase := .free, tariff := 0, contractDemand := 0, minPercent := 0, closeDay := 1, closeHour := 0,
    members := [], period := .cold, window := Vector.replicate 12 .cleared, ringPos := 0, storedSlot := none,
    ratchet := Vector.replicate 11 none, closeDue := none, closeBlocked := false, settled := none,
    checkWord := 0, faultMark := false }

/-- The FREE account: what a slot holds whichever way it became FREE (R1). -/
def Account.free : Account := Account.coldContent.seal

/-- The UNDEFINED intake (Table 5-1). -/
def Intake.undefined : Intake :=
  Intake.seal
    { phase := .undefined, lane := 0, scale := 1, owner := none, ownerSince := none, change := none,
      lastReported := none, silentCount := 0, silent := false, held := .zero, checkWord := 0, faultMark := false }

/-- The cold values of a tariff's fields (Table 2-1), before the check word is computed. -/
def Tariff.coldContent : Tariff :=
  { id := 0, evaluation := .rolling, n := 1, quantity := .kw, bandCount := 1, ratchetPercent := 0, ratchetBand := 0,
    allowance := 0, leadPolicy := .ignore, incompletePolicy := .incl, weekMask := 0, workHead := none, workCount := 0,
    restHead := none, restCount := 0, checkWord := 0, faultMark := false }

/-- The EMPTY tariff (R28). -/
def Tariff.empty : Tariff :=
  { Tariff.coldContent with checkWord := crc (Tariff.coldContent.image [] []) }

/-- The free pool entry (Table 2-2). -/
def PoolEntry.free : PoolEntry :=
  { point := { minute := 0, band := 0, notify := false }, next := none, owner := none }

/-! ### Verification of one record (R165) -/

/-- The account's check word holds over its content as it stands. -/
def Account.checks (a : Account) : Bool := crc a.image == a.checkWord

/-- The intake's check word holds; an UNDEFINED intake is verified against its cold content as well (R165). -/
def Intake.checks (x : Intake) : Bool :=
  crc x.image == x.checkWord && (x.phase != .undefined || x.image == Intake.undefined.image)

/-- Walks a list of a tariff from a link, over `count` entries: it fails at an index outside the pool, at an entry
that is free or has another owner, when the chain has not ended after `count` entries, and when it ends early (R38). -/
def walk (pool : Vector PoolEntry 128) (owner : PoolOwner) : (count : Nat) → Option Nat → Option (List SwitchPoint)
  | 0, none => some []
  | 0, some _ => none
  | _ + 1, none => none
  | k + 1, some i =>
    if h : i < 128 then
      if pool[i].owner = some owner then (walk pool owner k pool[i].next).map (pool[i].point :: ·) else none
    else none

/-- The working-day points and the rest-day points of tariff `i`, or none when a walk fails (R38). -/
def Tariff.points (pool : Vector PoolEntry 128) (i : TariffNo) (t : Tariff) :
    Option (List SwitchPoint × List SwitchPoint) :=
  match walk pool ⟨i, .working⟩ t.workCount t.workHead, walk pool ⟨i, .rest⟩ t.restCount t.restHead with
  | some work, some rest => some (work, rest)
  | _, _ => none

/-- Both walks succeed and the check word holds over the header and the points reached; an EMPTY tariff is verified
against its cold content as well (R38, R165). -/
def Tariff.checks (pool : Vector PoolEntry 128) (i : TariffNo) (t : Tariff) : Bool :=
  match t.points pool i with
  | none => false
  | some (work, rest) =>
    crc (t.image work rest) == t.checkWord &&
      (t.state != .empty || t.image work rest == Tariff.empty.image [] [])

end Sys2Proof.Machine
end

