-- ==== Sys2Proof/Machine/Cold.lean ====
section
/-! DEFINITION. The cold values of every block (Tables 3-1, 3-2, 4-1, 10-1; R84, R111, R139, R173, R177, R184). -/

namespace Sys2Proof.Machine

open Sys2Proof

/-- Cold run parameters: 15 minutes, 60 seconds, 3 subintervals, 0 (Table 3-2). -/
def RunParameters.cold : RunParameters := { subinterval := 15, grace := 60, silenceLimit := 3, countPeriod := 0 }

/-- The Calendar Unit after a cold start (Table 3-1): 2000-01-01 00:00:00, UNSET. -/
def Calendar.cold : Calendar :=
  { time := 0, reachedByPassage := false, isSet := false, currentTag := 0, lastBoundary := none, lastMinute := none, grace := none,
    boundaryCount := 0, params := .cold }

def LaneCounters.zero : LaneCounters :=
  { crcErrors := 0, sequenceGaps := 0, duplicates := 0, creditViolations := 0, refusals := 0 }

/-- A lane with the cold values of Table 4-1 but for the allotment and the error limit given, and the carrier as
detected. -/
def Lane.fresh (carrier : Bool) (allotment errorLimit : Nat) : Lane :=
  { state := .down, carrier := carrier, frontEnd := none, lastSeq := none, expectedSeq := none, outstanding := 0,
    toSend := 0, queued := 0, allotment := allotment, errorLimit := errorLimit, errorCount := 0, attempts := 0,
    counters := .zero, timer := false, waiting := [], lineOut := [] }

/-- A lane after a cold start: allotment 4, error limit 8 (R63, R84). -/
def Lane.cold (carrier : Bool) : Lane := Lane.fresh carrier 4 8

/-- The Request Port after a start, with the attention mask given (R198). -/
def Port.fresh (mask : BitVec 12) : Port :=
  { requestBuffer := List.replicate Config.bufferSize 0, fillCount := 0,
    responseBuffer := List.replicate Config.bufferSize 0, busy := false, responseReady := false, overrun := false,
    writeWhileBusy := false, strayExecute := false, mask := mask, miso := [] }

def Arbiter.fresh : Arbiter := { last := none, lastMember := none }

/-- The records, the attention set and the Settlement Engine's list after a cold start. -/
def Ledger.cold : Ledger :=
  { accounts := Vector.replicate 64 .free, intakes := Vector.replicate 96 .undefined,
    tariffs := Vector.replicate 16 .empty, pool := Vector.replicate 128 .free, attention := 0, closeWork := [] }

end Sys2Proof.Machine
end

