-- ==== Sys2Proof/Machine/State.lean ====
section
/-! DEFINITION. The state of the device, the reasons a step can stop, and the state after reset. -/

namespace Sys2Proof.Machine

open Sys2Proof

/-- The whole state of the device (INVENTORY.md, "State"), and the queue of the commands that wait. `signatureChoices` is
the model's own: how many times a start has had to choose a value other than the fixed one for the signature (log 18). -/
structure State where
  ledger : Ledger
  signature : BitVec 32
  signatureChoices : Nat
  dipLatch : Bool
  arbiter : Arbiter
  sweep : Sweep
  calendar : Calendar
  lanes : Vector Lane 4
  arrivals : List QueueEntry
  laneBoundaries : List (Tag × Seconds)
  engine : EngineState
  work : List WorkItem
  port : Port
  mode : Mode
  powered : Bool
  resetHeld : Bool
  pending : List Instr
  deriving DecidableEq, Repr

/-- The device stops with no fault: whatever goes wrong is answered by a response code, a counter, an attention or a
fault mark, and the device goes on. -/
inductive Fault where
  deriving DecidableEq, Repr

/-- The reasons a command is refused. -/
inductive Refusal where
  /-- Raised by an arm of `exec` for a command without a meaning. No arm raises it: every command has one. Safe. -/
  | notModelled (mnemonic : String)
  deriving DecidableEq, Repr

/-- The device right after a cold start has completed (R184): every block at its cold values, the signature complete,
main power present, RESET_N released. The spec gives the carrier of a lane as detected; here every lane's carrier is
absent (DESIGN CHOICE, log 20). -/
def State.reset : State :=
  { ledger := .cold, signature := Config.fixedSignature, signatureChoices := 0, dipLatch := false, arbiter := .fresh,
    sweep := { position := none, faultCount := 0 }, calendar := .cold, lanes := Vector.replicate 4 (.cold false),
    arrivals := [], laneBoundaries := [], engine := .running, work := [], port := .fresh 0, mode := .commissioning,
    powered := true, resetHeld := false, pending := [] }

end Sys2Proof.Machine
end

