-- ==== Sys2Proof/Machine/Ops.lean ====
section
/-! DEFINITION. The operations that every command is made of: reading, verifying and writing one record (R161, R164, R165),
the Settlement Engine's work list (R139), and the arbiter's choice (R162, R163). -/

namespace Sys2Proof.Machine

open Sys2Proof

/-! ### Records -/

def Ledger.account (l : Ledger) (i : Slot) : Account := l.accounts[i.val]

def Ledger.intake (l : Ledger) (i : IntakeNo) : Intake := l.intakes[i.val]

def Ledger.tariff (l : Ledger) (i : TariffNo) : Tariff := l.tariffs[i.val]

/-- Stores an account record as it is given. -/
def Ledger.storeAccount (i : Slot) (a : Account) (l : Ledger) : Ledger :=
  { l with accounts := l.accounts.set i.val a }

def Ledger.storeIntake (i : IntakeNo) (x : Intake) (l : Ledger) : Ledger :=
  { l with intakes := l.intakes.set i.val x }

def Ledger.storeTariff (i : TariffNo) (t : Tariff) (l : Ledger) : Ledger :=
  { l with tariffs := l.tariffs.set i.val t }

/-- Writes an account's content: its check word is computed afresh (R164). -/
def Ledger.putAccount (i : Slot) (a : Account) (l : Ledger) : Ledger := l.storeAccount i a.seal

/-- Writes an intake's content: its check word is computed afresh (R164). -/
def Ledger.putIntake (i : IntakeNo) (x : Intake) (l : Ledger) : Ledger := l.storeIntake i x.seal

/-! ### Verification (R165)

Each check leaves a record that is marked, or whose check word holds, as it is. Otherwise it sets the fault mark, without
a new check word, and raises INTEGRITY_FAULT. What the operation then does, it decides from the record's mark. -/

/-- Verifies an account; a FREE slot that fails is written afresh instead of being marked. -/
def Ledger.checkAccount (i : Slot) (l : Ledger) : Ledger :=
  let a := l.account i
  if a.faultMark || a.checks then l
  else if a.phase = .free then (l.storeAccount i .free).raise .integrityFault
  else (l.storeAccount i { a with faultMark := true }).raise .integrityFault

def Ledger.checkIntake (i : IntakeNo) (l : Ledger) : Ledger :=
  let x := l.intake i
  if x.faultMark || x.checks then l
  else (l.storeIntake i { x with faultMark := true }).raise .integrityFault

/-- Verifies a tariff: both walks, then the check word (R38). -/
def Ledger.checkTariff (i : TariffNo) (l : Ledger) : Ledger :=
  let t := l.tariff i
  if t.faultMark || t.checks l.pool i then l
  else (l.storeTariff i { t with faultMark := true }).raise .integrityFault

/-- An operation over a list of records, one after another. -/
def eachOf {α : Type} (numbers : List α) (act : α → Ledger → Ledger) (l : Ledger) : Ledger :=
  numbers.foldl (fun l i => act i l) l

/-- Every account slot, in ascending order. -/
def allSlots : List Slot := List.finRange 64

/-- Every intake number, in ascending order. -/
def allIntakes : List IntakeNo := List.finRange 96

/-- Every tariff index, in ascending order. -/
def allTariffs : List TariffNo := List.finRange 16

/-- Verifies every intake: what an operation over the whole intake table does first (R165). -/
def Ledger.checkIntakes (l : Ledger) : Ledger := eachOf allIntakes Ledger.checkIntake l

/-- Verifies an account that is not FREE. -/
def checkNonFree (i : Slot) (l : Ledger) : Ledger := if (l.account i).state = .free then l else l.checkAccount i

/-- Verifies every account that is not FREE: what an operation that reads a field of each of them does (R165; log 11). -/
def Ledger.checkAccounts (l : Ledger) : Ledger := eachOf allSlots checkNonFree l

/-- An account in one of the two billing states (section 1.3). -/
def Account.bills (a : Account) : Bool := a.state = .active || a.state = .suspended

/-- An account names a tariff by its stored index, in every state but FREE (R29). -/
def Account.names (t : TariffNo) (a : Account) : Bool := a.state != .free && a.tariff == t

/-- The accounts that name a tariff. -/
def Ledger.naming (t : TariffNo) (l : Ledger) : List Slot := allSlots.filter fun i => (l.account i).names t

/-- A non-FREE slot other than `except` that holds an account number (R2). -/
def Ledger.holder (number : Nat) (except : Option Slot) (l : Ledger) : Option Slot :=
  allSlots.find? fun i => some i != except && (l.account i).state != .free && (l.account i).number == number

/-- The window with every position EMPTY and the ring position 0 (R6). -/
def Account.clearWindow (a : Account) : Account :=
  { a with window := Vector.replicate 12 .cleared, ringPos := 0 }

/-! ### The Settlement Engine's work list -/

/-- Hands an account to the Settlement Engine; one already on the list keeps its place (R139). -/
def Ledger.handToSettlement (i : Slot) (l : Ledger) : Ledger :=
  if i ∈ l.closeWork then l else { l with closeWork := l.closeWork ++ [i] }

/-- Hands an account over when it holds a close due. -/
def Ledger.handIfDue (i : Slot) (l : Ledger) : Ledger :=
  if (l.account i).closeDue.isSome then l.handToSettlement i else l

/-! ### The arbiter (R162, R163) -/

/-- The requesters of level one from the one after the last granted, in the fixed cycle. -/
def requesterOrder : Option Requester → List Requester
  | some .requestEngine => [.accumulationEngine, .closingGroup, .requestEngine]
  | some .accumulationEngine => [.closingGroup, .requestEngine, .accumulationEngine]
  | some .closingGroup | none => [.requestEngine, .accumulationEngine, .closingGroup]

/-- The members of the Closing Group from the one after the last granted, in the fixed cycle. -/
def memberOrder : Option GroupMember → List GroupMember
  | some .intervalEngine => [.settlementEngine, .integritySweep, .intervalEngine]
  | some .settlementEngine => [.integritySweep, .intervalEngine, .settlementEngine]
  | some .integritySweep | none => [.intervalEngine, .settlementEngine, .integritySweep]

/-- The requester that level one grants next, among those that wait. -/
def Arbiter.nextRequester (waiting : List Requester) (b : Arbiter) : Option Requester :=
  (requesterOrder b.last).find? fun r => decide (r ∈ waiting)

/-- The member that a group turn is given to, among those that wait. -/
def Arbiter.nextMember (waiting : List GroupMember) (b : Arbiter) : Option GroupMember :=
  (memberOrder b.lastMember).find? fun m => decide (m ∈ waiting)

/-- The arbiter after a grant to a requester. -/
def Arbiter.grant (r : Requester) (b : Arbiter) : Arbiter := { b with last := some r }

/-- The arbiter after a group turn of a member. -/
def Arbiter.grantMember (m : GroupMember) (_ : Arbiter) : Arbiter :=
  { last := some .closingGroup, lastMember := some m }

/-! ### The state -/

/-- The blocks are at rest while main power is absent or RESET_N is held asserted (R184). -/
def State.atRest (s : State) : Bool := !s.powered || s.resetHeld

/-- The state with the ledger as an operation left it. -/
def State.withLedger (l : Ledger) (s : State) : State := { s with ledger := l }

def State.raise (source : AttentionSource) (s : State) : State := s.withLedger (s.ledger.raise source)

/-- The state after an operation of a Closing Group member has left the ledger so. -/
def State.groupTurn (m : GroupMember) (l : Ledger) (s : State) : State :=
  { s with ledger := l, arbiter := s.arbiter.grantMember m }

def State.lane (s : State) (k : LaneNo) : Lane := s.lanes[k.val]

def State.putLane (k : LaneNo) (lane : Lane) (s : State) : State := { s with lanes := s.lanes.set k.val lane }

def State.mapLanes (f : Lane → Lane) (s : State) : State := { s with lanes := s.lanes.map f }

end Sys2Proof.Machine
end

