-- ==== Sys2Proof/Machine/Waiting.lean ====
section
/-! DEFINITION. Who waits for an operation (R111, R98, R139, R173), and the Request Engine's turn (R162). The work list of
the Interval Engine as it finds it: an item that needs no further operation leaves the list with the next operation of the
engine or the next placement (log 31). -/

namespace Sys2Proof.Machine

open Sys2Proof

/-! ### The Interval Engine's work list -/

/-- The age of a tag (R87). -/
def Calendar.age (tag : Tag) (c : Calendar) : Nat := (c.currentTag - tag).toNat

/-- A pending change is due at a boundary: its effective tag is the tag that the boundary ends, or an earlier one, in the
sense of R87. R95 folds the changes of that tag; a change left over by a boundary that a power loss cut short has an
earlier tag, and R134 has it folded at the first boundary in RUN (log 16). -/
def PendingChange.dueAt (c : Calendar) (tag : Tag) (p : PendingChange) : Bool := c.age tag ≤ c.age p.tag

/-- The lowest intake, not FAULTED, whose pending change is due at the boundary that ends a tag (R95, R112). -/
def Ledger.dueFold (c : Calendar) (tag : Tag) (l : Ledger) : Option IntakeNo :=
  allIntakes.find? fun i => !(l.intake i).faultMark && (l.intake i).change.any (PendingChange.dueAt c tag)

/-- The next account to visit at a boundary, from a slot on (R112). -/
def Ledger.nextVisit (start : Nat) (l : Ledger) : Option Slot :=
  allSlots.find? fun i => decide (start ≤ i.val) && (l.account i).bills

/-- The next account, from a slot on, that holds a pending slot with a tag (R116). -/
def Ledger.nextHolding (tag : Tag) (start : Nat) (l : Ledger) : Option Slot :=
  allSlots.find? fun i => decide (start ≤ i.val) && (l.account i).pendingSlot.any fun p => p.tag == tag

/-- An item that needs no further operation. -/
def workDone (c : Calendar) (l : Ledger) : WorkItem → Bool
  | .boundary _ _ .ageing => false
  | .boundary tag _ .folds => (l.dueFold c tag).isNone && (l.nextVisit 0).isNone
  | .boundary _ _ (.visits k) => (l.nextVisit k).isNone
  | .grace tag k => (l.nextHolding tag k).isNone
  | .completeness _ _ => false
  | .minute _ => false

/-- The work list from the first item that still needs an operation. -/
def openWork (c : Calendar) (l : Ledger) (work : List WorkItem) : List WorkItem := work.dropWhile (workDone c l)

def WorkItem.isBoundary : WorkItem → Bool
  | .boundary _ _ _ => true
  | _ => false

/-- The work list as the Interval Engine finds it. -/
def State.currentWork (s : State) : List WorkItem := openWork s.calendar s.ledger s.work

/-- A boundary's work is not complete, so that the Accumulation Engine takes no entry (R98). -/
def State.boundaryOpen (s : State) : Bool := s.currentWork.any WorkItem.isBoundary

/-! ### Who waits (R162, R163)

The spec has a requester wait from the moment it asks, and does not say when it asks. Each asks as soon as there is an
operation for it to take (DESIGN CHOICE, log 4). -/

/-- The Accumulation Engine takes the head entry unless it is HELD or waits for a boundary's work (R98). One that a boundary
event finds STOPPING, before its placement, stays so and waits for that boundary's work like a RUNNING one (DESIGN CHOICE,
log 44). -/
def State.placementOpen (s : State) : Bool := !s.atRest && s.engine != .held && !s.boundaryOpen

/-- The Accumulation Engine waits for an operation while it may take an entry and there is one (R98, R162). -/
def State.placementWaits (s : State) : Bool := s.placementOpen && !s.arrivals.isEmpty

/-- The restart catch-up is to be taken: in RESTARTING, once the sweep has ended (R131). -/
def State.catchUpDue (s : State) : Bool := s.mode == .restarting && s.sweep.position.isNone

/-- A member of the Closing Group waits for an operation (R163): the Interval Engine for the item at the head of its list
or for the restart catch-up, the Settlement Engine for the next account of its list, the sweep for its next record. -/
def State.memberWaits (s : State) : GroupMember → Bool
  | .intervalEngine => !s.currentWork.isEmpty || s.catchUpDue
  | .settlementEngine => !s.ledger.closeWork.isEmpty
  | .integritySweep => s.sweep.position.isSome

/-- The members of the Closing Group that wait; none at rest (R163, R184). -/
def State.membersWaiting (s : State) : List GroupMember :=
  if s.atRest then [] else [.intervalEngine, .settlementEngine, .integritySweep].filter s.memberWaits

/-- The requesters that wait beside the Request Engine: the Closing Group does while any of its members does (R162). -/
def State.enginesWaiting (s : State) : List Requester :=
  (if s.placementWaits then [.accumulationEngine] else []) ++ if s.membersWaiting.isEmpty then [] else [.closingGroup]

/-- A request that asks for an operation is granted it next (R162). -/
def State.requestTurn (s : State) : Bool :=
  s.arbiter.nextRequester (.requestEngine :: s.enginesWaiting) == some .requestEngine

end Sys2Proof.Machine
end

