-- ==== Sys2Proof/Machine/Requests.lean ====
section
/-! DEFINITION. Carrying out a request (R195 to R197), and the addressing checks (R11, R90). -/

namespace Sys2Proof.Machine

open Sys2Proof

/-- A response: its code, and the payload that the code's rule gives. -/
structure Answer where
  code : RespCode
  payload : List Byte
  deriving DecidableEq, Repr

/-- A refusal carries a length of 0 and no payload (R196). -/
def refuse (code : RespCode) : Answer := { code := code, payload := [] }

/-- OK, with the payload given. -/
def okWith (payload : List Byte) : Answer := { code := .ok, payload := payload }

/-- OK without a payload. -/
def okDone : Answer := okWith []

/-- The response record: status code, payload length, payload (R207). -/
def Answer.bytes (a : Answer) : List Byte := [byte a.code.value, byte a.payload.length] ++ a.payload

/-- The response is written over the cleared response buffer as a whole, BUSY is cleared and RESPONSE_READY set
(R195); the bytes beyond the record keep their values (R196). -/
def Port.respond (a : Answer) (p : Port) : Port :=
  { p with
    responseBuffer := (a.bytes ++ p.responseBuffer.drop a.bytes.length).take Config.bufferSize
    busy := false
    responseReady := true }

def State.respond (a : Answer) (s : State) : State := { s with port := s.port.respond a }

/-- The request record: the bytes of the request buffer below the fill count (R196). -/
def Port.record (p : Port) : List Byte := p.requestBuffer.take p.fillCount

/-- The request that a record names: none for a record below 2 bytes and for a code outside the catalogue (R197,
checks 1 and 2). -/
def requestNamed (record : List Byte) : Option RequestCode :=
  if record.length < 2 then none else RequestCode.ofByte (record.getD 0 0)

/-- The parameters of a request, when the length check passes (R197, check 3). -/
def parametersOf (k : RequestCode) (record : List Byte) : Option (List Byte) :=
  let length := (record.getD 1 0).toNat
  let params := (record.drop 2).take length
  if record.length < 2 + length then none else if k.lengthFits params then some params else none

/-- The Request Engine carries out the request in the buffer, when it is request `k` and one is in execution: the checks
of R197 in their order, then the request's own work, then the response. A record that names no request is answered with
BAD_REQUEST whichever request command comes (log 3). -/
def runRequest (k : RequestCode) (own : List Byte → State → State × Answer) (s : State) : State :=
  if s.atRest || !s.port.busy then s
  else
    match requestNamed s.port.record with
    | none => s.respond (refuse .badRequest)
    | some named =>
      if named = k then
        match parametersOf k s.port.record with
        | none => s.respond (refuse .badRequest)
        | some params =>
          match k.modeRefusal s.mode with
          | some code => s.respond (refuse code)
          | none =>
            let outcome := own params s
            outcome.1.respond outcome.2
      else s

/-- The state once the arbiter has granted the Request Engine an operation. -/
def State.requestGrant (s : State) : State := { s with arbiter := s.arbiter.grant .requestEngine }

/-- The parameters of request `k`, when it is in execution and passes the port's checks (R197, checks 1 to 4). -/
def State.admitted (k : RequestCode) (s : State) : Option (List Byte) :=
  if s.atRest || !s.port.busy || requestNamed s.port.record != some k || (k.modeRefusal s.mode).isSome then none
  else parametersOf k s.port.record

/-- Carries out a request that asks for a record store operation, under the condition given. One that asks is carried out
when the arbiter grants it the operation; until its turn comes the request goes on waiting, and nothing happens (R162,
R195). One that its own checks refuse without asking changes nothing but the response (R197). -/
def runOperation (k : RequestCode) (asks : List Byte → State → Bool) (own : List Byte → State → State × Answer)
    (s : State) : State :=
  if (s.admitted k).any fun params => asks params s then
    if s.requestTurn then runRequest k own s.requestGrant else s
  else runRequest k own s

/-- The codes that refuse a request on record data by its parameters alone, before it reads a record (R11, R34, R90). -/
def RespCode.onParameters (code : RespCode) : Bool := code == .outOfRange || code == .badSwitchList

/-- A request on the ledger asks for its operation unless its parameters alone refuse it (log 5). -/
def recordAsks (own : List Byte → Calendar → Mode → Ledger → Ledger × Answer) (params : List Byte) (s : State) : Bool :=
  !(own params s.calendar s.mode s.ledger).2.code.onParameters

/-- A request whose work is one record store operation on the ledger. -/
def runRecordRequest (k : RequestCode) (own : List Byte → Calendar → Mode → Ledger → Ledger × Answer) (s : State) :
    State :=
  runOperation k (recordAsks own) (fun params s =>
    let outcome := own params s.calendar s.mode s.ledger
    (s.withLedger outcome.1, outcome.2)) s

/-- The addressing checks of R11: the ranges, then a FREE slot, then a FAULTED one or one that fails its check word. -/
def addressAccount (slot : Nat) (rangesHold : Bool) (l : Ledger)
    (own : Slot → Account → Ledger → Ledger × Answer) : Ledger × Answer :=
  match slotOf slot with
  | none => (l, refuse .outOfRange)
  | some i =>
    if !rangesHold then (l, refuse .outOfRange)
    else if (l.account i).state = .free then (l, refuse .noSuchAccount)
    else
      let l := l.checkAccount i
      if (l.account i).faultMark then (l, refuse .faulted) else own i (l.account i) l

/-- The addressing checks of R11 for the requests admitted on a FAULTED account, and their check that the slot is
FAULTED; the slot is not verified (R168, R170). -/
def addressFaulted (slot : Nat) (rangesHold : Bool) (l : Ledger)
    (own : Slot → Account → Ledger × Answer) : Ledger × Answer :=
  match slotOf slot with
  | none => (l, refuse .outOfRange)
  | some i =>
    if !rangesHold then (l, refuse .outOfRange)
    else if (l.account i).state = .free then (l, refuse .noSuchAccount)
    else if !(l.account i).faultMark then (l, refuse .wrongState)
    else own i (l.account i)

/-- The checks of R90: the ranges, then an UNDEFINED intake unless the request admits it, then a FAULTED one or one
that fails its check word. -/
def addressIntake (number : Nat) (rangesHold admitsUndefined : Bool) (l : Ledger)
    (own : IntakeNo → Intake → Ledger → Ledger × Answer) : Ledger × Answer :=
  match intakeOf number with
  | none => (l, refuse .outOfRange)
  | some i =>
    if !rangesHold then (l, refuse .outOfRange)
    else if (l.intake i).state = .undefined && !admitsUndefined then (l, refuse .noSuchIntake)
    else
      let l := l.checkIntake i
      if (l.intake i).faultMark then (l, refuse .faulted) else own i (l.intake i) l

end Sys2Proof.Machine
end

