-- ==== Sys2Proof/Machine/Demand.lean ====
section
/-! DEFINITION. The band in force (R35 to R37) and the demand that a window yields (R121 to R127). -/

namespace Sys2Proof.Machine

open Sys2Proof

/-- The two switch-point lists of a tariff, as its walks reach them. -/
structure Schedule where
  work : List SwitchPoint
  rest : List SwitchPoint
  deriving DecidableEq, Repr

/-- The schedule of a tariff in the ledger; empty when a walk fails. -/
def Ledger.schedule (i : TariffNo) (l : Ledger) : Schedule :=
  match (l.tariff i).points l.pool i with
  | some (work, rest) => { work := work, rest := rest }
  | none => { work := [], rest := [] }

/-- A day is a working day when the week mask flags its weekday (R35). -/
def Tariff.workingDay (t : Tariff) (day : Nat) : Bool := t.weekMask.getLsbD (weekdayOf day)

/-- The list that governs a day under a tariff (R35). -/
def Schedule.listOn (t : Tariff) (day : Nat) (p : Schedule) : List SwitchPoint :=
  if t.workingDay day then p.work else p.rest

/-- The band of the last point whose minute is at or below `minute` (R36). -/
def bandInForce (points : List SwitchPoint) (minute : Nat) : Band :=
  match (points.filter fun p => decide (p.minute ≤ minute)).getLast? with
  | some p => p.band
  | none => 0

/-- The band in force during the minute that holds a time (R36). -/
def bandAt (t : Tariff) (p : Schedule) (time : Seconds) : Band :=
  bandInForce (p.listOn t (time / 86400)) (minuteOfDay time)

/-- The band of a window: that of the minute which ends at its boundary time (R37). -/
def bandOfWindow (t : Tariff) (p : Schedule) (boundary : Seconds) : Band := bandAt t p (boundary - 60)

/-- Reactive energy under a lead policy (R125, R146). -/
def LeadPolicy.reactive (policy : LeadPolicy) (lag lead : Nat) : Nat :=
  match policy with
  | .ignore => lag
  | .add => lag + lead
  | .net => absDiff lag lead

/-- The slots of a ring of `n`, in position order. -/
def Account.ring (n : Nat) (a : Account) : List WindowSlot := a.window.toList.take n

/-- The slots of a ring of `n` from the oldest, the one at the ring position (R6, R209). -/
def Account.ringOldestFirst (n : Nat) (a : Account) : List WindowSlot :=
  (a.ring n).drop a.ringPos ++ (a.ring n).take a.ringPos

/-- The sum of one energy over the slots of a ring. -/
def ringSum (energy : SlotEnergy → Nat) (ring : List WindowSlot) : Nat := (ring.map fun w => energy w.energy).sum

/-- The quantity a demand is formed from: import energy under KW, and the root of the sum of squares under KVA (R124,
R125). -/
def windowQuantity (t : Tariff) (ring : List WindowSlot) : Nat :=
  let p := ringSum (·.imp) ring
  match t.quantity with
  | .kw => p
  | .kva =>
    let q := t.leadPolicy.reactive (ringSum (·.lag) ring) (ringSum (·.lead) ring)
    isqrt (p * p + q * q)

/-- The demand of a window: the quantity times 60, divided by N × S, saturating at 2^32 − 1 (R124, R125). -/
def windowDemand (t : Tariff) (s : Nat) (ring : List WindowSlot) : Nat :=
  min (windowQuantity t ring * 60 / (t.n * s)) Config.max32

/-- A window is whole when no slot of its ring is EMPTY (R122). -/
def ringWhole (ring : List WindowSlot) : Bool := ring.all fun w => w.state != .empty

/-- A window is estimated when any of its slots is INCOMPLETE or OUTAGE (R123). -/
def ringEstimated (ring : List WindowSlot) : Bool :=
  ring.any fun w => w.state == .incomplete || w.state == .outage

/-- Whether an evaluated window's demand is eligible (R123). -/
def Tariff.eligible (t : Tariff) (estimated : Bool) : Bool := !estimated || t.incompletePolicy == .incl

/-- The band maximum after an eligible demand: replaced when absent or strictly below it (R126). -/
def raiseMaximum (new : BandMaximum) (present : Option BandMaximum) : Option BandMaximum :=
  match present with
  | none => some new
  | some old => if old.value < new.value then some new else some old

/-- Evaluates a whole window that ends at `boundary` (R122 to R127): the running period after it, and whether DEMAND_OVER
is raised. -/
def evaluateWindow (t : Tariff) (p : Schedule) (s : Nat) (boundary : Seconds) (a : Account) : Account × Bool :=
  let ring := a.ring t.n
  let demand := windowDemand t s ring
  let estimated := ringEstimated ring
  let band := bandOfWindow t p boundary
  let maxima :=
    if t.eligible estimated then
      a.period.maxima.set band.val
        (raiseMaximum { value := demand, time := boundary, estimated := estimated } a.period.maxima[band.val])
    else a.period.maxima
  if a.contractDemand != 0 && a.contractDemand < demand then
    ({ a with period :=
        { a.period with
          maxima := maxima, exceedances := satSucc Config.max16 a.period.exceedances, exceeded := true } },
      !a.period.exceeded)
  else ({ a with period := { a.period with maxima := maxima } }, false)

end Sys2Proof.Machine
end

