-- ==== Sys2Proof/Machine/Close.lean ====
section
/-! DEFINITION. The period close (R142 to R149) and the Settlement Engine's examination (R138, R140). -/

namespace Sys2Proof.Machine

open Sys2Proof

/-- The largest value held in the ratchet history, if any (R145). -/
def Account.largestRatchet (a : Account) : Option Nat := (a.ratchet.toList.filterMap id).max?

/-- The ratchet reference (R145). -/
def ratchetReference (t : Tariff) (a : Account) : Option Nat :=
  if t.ratchetPercent = 0 then none else a.largestRatchet.map fun v => t.ratchetPercent * v / 100

/-- The maximum of a band, or 0 when it is absent. -/
def Period.maximumOf (b : Band) (p : Period) : Nat := (p.maxima[b.val].map (·.value)).getD 0

/-- The billing demand of a band (R145). -/
def billingDemand (t : Tariff) (a : Account) (b : Band) : Nat :=
  if b = t.ratchetBand then
    max (a.period.maximumOf b)
      (max ((ratchetReference t a).getD 0) (a.minPercent * a.contractDemand / 100))
  else a.period.maximumOf b

/-- The average power factor in thousandths (R146). -/
def powerFactor (p q : Nat) : Option Nat := if p = 0 ∧ q = 0 then none else some (p * 1000 / isqrt (p * p + q * q))

/-- The excess reactive energy (R146). -/
def excessReactive (allowance p q : Nat) : Nat := min (q - p * allowance / 1000) Config.max48

/-- The settled section that a close writes (R143 to R146). -/
def settledSection (cause : CloseCause) (late : Bool) (now : Seconds) (t : Tariff) (a : Account) : Settled :=
  let p := a.period
  let q := t.leadPolicy.reactive p.energy.lag p.energy.lead
  { cause := cause, late := late, saturated := p.saturated,
    estimatedMax := p.maxima.toList.any maximumEstimated,
    periodStart := p.start, periodEnd := now,
    dueTime := if late then a.closeDue.map (·.time) else none,
    tariff := a.tariff, tariffId := t.id,
    bands := Vector.ofFn fun b => { maximum := p.maxima[b.val], billing := billingDemand t a b },
    ratchetReference := ratchetReference t a, energy := p.energy, lateEnergy := p.late,
    powerFactor := powerFactor p.energy.imp q, excessReactive := excessReactive t.allowance p.energy.imp q,
    incompleteSlots := p.incompleteSlots, outageSlots := p.outageSlots, exceedances := p.exceedances,
    subintervals := p.subintervals }

/-- A ratchet history with a value pushed into position 1 (R147). -/
def pushRatchet (value : Nat) (history : Vector (Option Nat) 11) : Vector (Option Nat) 11 :=
  Vector.ofFn fun k => if k.val = 0 then some value else history[k.val - 1]

/-- The ratchet history and carry after a close (R147). -/
def ratchetStep (cause : CloseCause) (t : Tariff) (a : Account) : Vector (Option Nat) 11 × Nat :=
  let larger := max a.period.ratchetCarry (a.period.maximumOf t.ratchetBand)
  match cause with
  | .scheduled => (pushRatchet larger a.ratchet, 0)
  | .host | .tariffChange => (a.ratchet, larger)
  | .retire => (a.ratchet, a.period.ratchetCarry)

/-- A period close on an account that names the tariff given (R142): the section is written, the ratchet steps, and
the period starts again at the close time. -/
def Account.closePeriod (cause : CloseCause) (late : Bool) (now : Seconds) (t : Tariff) (a : Account) : Account :=
  let step := ratchetStep cause t a
  { a with
    settled := some (settledSection cause late now t a)
    ratchet := step.1
    period := { Period.cold with start := some now, ratchetCarry := step.2 }
    closeDue := none
    closeBlocked := false }

/-- Performs a close in the ledger: the account's record, and SETTLEMENT_READY (R142, R149). -/
def performClose (cause : CloseCause) (late : Bool) (now : Seconds) (i : Slot) (l : Ledger) : Ledger :=
  let a := l.account i
  (l.putAccount i (a.closePeriod cause late now (l.tariff a.tariff))).raise .settlementReady

/-- A close due found blocked: CLOSE_BLOCKED is raised when the flag goes from clear to set (R138). -/
def blockClose (i : Slot) (l : Ledger) : Ledger :=
  let a := l.account i
  if a.closeBlocked then l else (l.putAccount i { a with closeBlocked := true }).raise .closeBlocked

/-- The examination of an account by the cases of R140. `late` is set in the restart catch-up (R144, R158). -/
def examine (late : Bool) (now : Seconds) (i : Slot) (l : Ledger) : Ledger :=
  let l := l.checkAccount i
  let a := l.account i
  match a.closeDue with
  | none => l
  | some due =>
    if !a.bills then l
    else if a.pendingSlot.isSome then l
    else if a.settled.isSome then blockClose i l
    else
      let l := l.checkTariff a.tariff
      if (l.tariff a.tariff).state = .ready then
        performClose due.cause.toCause (late || a.closeBlocked) now i l
      else blockClose i l

end Sys2Proof.Machine
end

