-- ==== Sys2Proof/Machine/Closure.lean ====
section
/-! DEFINITION. The closure of a pending slot (R116 to R122, R128), with the silence it counts (R105). -/

namespace Sys2Proof.Machine

open Sys2Proof

/-- What a closure is taken for: an ordinary closure or one forced by SUSPEND_ACCOUNT; one forced by RETIRE_ACCOUNT,
whose close follows in the same operation (log 26); or that of a stale slot by the restart catch-up (R132). -/
inductive ClosureKind where
  | ordinary | forRetirement | stale
  deriving DecidableEq, Repr

/-- The tag E of the most recently ended subinterval (overview, section 5.4). -/
def Calendar.endedTag (c : Calendar) : Tag := c.currentTag - 1

/-- The boundary time of a pending slot (R117). -/
def Calendar.boundaryOf (tag : Tag) (c : Calendar) : Seconds :=
  c.lastBoundary.getD 0 - (c.endedTag - tag).toNat * (c.params.subinterval * 60)

/-- The silent count and SILENT flag of an unreported intake after a closure (R105). -/
def Intake.unreported (limit : Nat) (x : Intake) : Intake :=
  let count := satAdd 255 x.silentCount 1
  { x with silentCount := count, silent := x.silent || decide (limit ≤ count) }

/-- Silence of one expected intake in a closure (R105): it is verified when its count is written (R119). -/
def countSilence (limit : Nat) (m : ExpectedMember) (l : Ledger) : Ledger :=
  let l := l.checkIntake m.intake
  let x := l.intake m.intake
  if x.faultMark then l
  else if m.reported then l.putIntake m.intake { x with silentCount := 0 }
  else
    (l.putIntake m.intake (x.unreported limit)).raiseIf (!x.silent && (x.unreported limit).silent) .intakeSilent

/-- A slot enters the window at the ring position, which advances modulo the ring's length (R121). -/
def Account.enterSlot (length : Nat) (w : WindowSlot) (a : Account) : Account :=
  { a with window := a.window.setIfInBounds a.ringPos w, ringPos := (a.ringPos + 1) % length }

/-- The length of the ring under a tariff: 12 when the tariff's N cannot be trusted (R121). -/
def Tariff.ringLength (t : Tariff) : Nat := if t.state = .ready then t.n else Config.windowPositions

/-- A boundary time ends a BLOCK group of a READY tariff, so that the window is reloaded (R121, R128). -/
def Tariff.endsBlock (s : Nat) (boundary : Seconds) (t : Tariff) : Bool :=
  t.state = .ready && t.evaluation = .block && aligned t.n s boundary

/-- Whether a closure at a boundary time evaluates the window (R122). -/
def Tariff.evaluates (s : Nat) (boundary : Seconds) (a : Account) (t : Tariff) : Bool :=
  t.state = .ready && (t.evaluation = .rolling || aligned t.n s boundary) && ringWhole (a.ring t.n)

/-- The slot that a pending slot closes into (R119, steps 2 and 4). -/
def PendingSlot.closed (kind : ClosureKind) (p : PendingSlot) : WindowSlot :=
  { energy := p.energy,
    state := if kind != .stale && p.expected.all (·.reported) && !p.doubtful then .complete else .incomplete }

/-- The account with its pending slot in the window (R119, steps 2 and 4). -/
def Account.closeInto (length : Nat) (w : WindowSlot) (a : Account) : Account :=
  { a.enterSlot length w with
    storedSlot := none
    period :=
      { a.period with
        incompleteSlots :=
          if w.state = .incomplete then satSucc Config.max16 a.period.incompleteSlots else a.period.incompleteSlots
        subintervals := satSucc Config.max16 a.period.subintervals } }

/-- The account's part of a closure (R119, steps 2, 4 and 5, and the reload of R121), and whether DEMAND_OVER is
raised. -/
def Account.close (kind : ClosureKind) (t : Tariff) (schedule : Schedule) (c : Calendar) (p : PendingSlot)
    (a : Account) : Account × Bool :=
  let s := c.params.subinterval
  let boundary := c.boundaryOf p.tag
  let entered := a.closeInto t.ringLength (p.closed kind)
  let evaluated :=
    if kind != .stale && t.evaluates s boundary entered then evaluateWindow t schedule s boundary entered
    else (entered, false)
  (if t.endsBlock s boundary then evaluated.1.clearWindow else evaluated.1, evaluated.2)

/-- The closure of an account's pending slot (R119). -/
def closeSlot (kind : ClosureKind) (c : Calendar) (i : Slot) (l : Ledger) : Ledger :=
  let l := l.checkAccount i
  match (l.account i).pendingSlot with
  | none => l
  | some p =>
    let t := (l.account i).tariff
    let l := l.checkTariff t
    let l := eachOf p.expected (countSilence c.params.silenceLimit) l
    let closed := (l.account i).close kind (l.tariff t) (l.schedule t) c p
    let l := (l.putAccount i closed.1).raiseIf closed.2 .demandOver
    if kind = .ordinary then l.handIfDue i else l

end Sys2Proof.Machine
end

