-- ==== Sys2Proof/Machine/Membership.lean ====
section
/-! DEFINITION. Ownership of intakes: age of tags (R87), ageing (R88), folds of pending changes (R95), and the release
of an account's members (R20). -/

namespace Sys2Proof.Machine

open Sys2Proof

/-- The intake without an owner. Its pending change is removed. -/
def Intake.released (x : Intake) : Intake :=
  { x with phase := .free, owner := none, ownerSince := none, change := none }

/-- The intake owned by an account from a tag on, with no pending change. -/
def Intake.ownedBy (a : Slot) (since : Tag) (x : Intake) : Intake :=
  { x with phase := .member, owner := some a, ownerSince := some since, change := none }

/-- The intake with its pending change removed. -/
def Intake.withoutChange (x : Intake) : Intake := { x with change := none }

/-- The account with an intake appended to its member list (R9). -/
def Account.join (i : IntakeNo) (a : Account) : Account := { a with members := a.members ++ [i] }

/-- The account with an intake removed from its member list; the others keep their order (R9). -/
def Account.leave (i : IntakeNo) (a : Account) : Account := { a with members := a.members.filter (· != i) }

/-- Rewrites an intake, which the operation has verified, unless it is FAULTED. -/
def rewriteIntake (f : Intake → Intake) (i : IntakeNo) (l : Ledger) : Ledger :=
  if (l.intake i).faultMark then l else l.putIntake i (f (l.intake i))

/-- Clears the owner-since tag of every intake whose tag's age, with `missed` boundaries added, is 16 or more (R88,
R135). The operation uses the tag of every intake, so it verifies all 96 before it writes any (R165; log 11). -/
def ageOwners (c : Calendar) (missed : Nat) (l : Ledger) : Ledger :=
  eachOf allIntakes (fun i l =>
    match (l.intake i).ownerSince with
    | none => l
    | some since =>
      if Config.ageLimit ≤ c.age since + missed then rewriteIntake (fun x => { x with ownerSince := none }) i l
      else l) l.checkIntakes

/-- The fold of a pending join (R95): a target that is not ACTIVE or SUSPENDED abandons it. -/
def foldJoin (i : IntakeNo) (target : Slot) (tag : Tag) (l : Ledger) : Ledger :=
  let l := l.checkAccount target
  if (l.account target).bills then
    (l.putIntake i ((l.intake i).ownedBy target tag)).putAccount target ((l.account target).join i)
  else l.putIntake i (l.intake i).withoutChange

/-- The account loses a member, unless it is FAULTED or fails its check word here (R95). -/
def dropMember (i : IntakeNo) (owner : Option Slot) (l : Ledger) : Ledger :=
  match owner with
  | none => l
  | some a =>
    let l := l.checkAccount a
    if (l.account a).faultMark then l else l.putAccount a ((l.account a).leave i)

/-- The fold of a pending leave (R95). -/
def foldLeave (i : IntakeNo) (l : Ledger) : Ledger :=
  let l := dropMember i (l.intake i).owner l
  l.putIntake i (l.intake i).released

/-- The fold of an intake's pending change (R95): an intake that fails its check word here keeps its change. -/
def foldChange (i : IntakeNo) (l : Ledger) : Ledger :=
  let l := l.checkIntake i
  if (l.intake i).faultMark then l
  else
    match (l.intake i).change with
    | none => l
    | some { target := some a, tag := tag } => foldJoin i a tag l
    | some { target := none, tag := _ } => foldLeave i l

/-- Whether an intake holds a pending join that names an account (R89). -/
def Intake.joining (a : Slot) (x : Intake) : Bool :=
  match x.change with
  | some { target := some b, tag := _ } => a == b
  | _ => false

/-- Releases the members of an account and cancels the pending joins that name it; a FAULTED intake is not written
(R20, step 3). The pending change of every intake decides, so all 96 are verified before any is written (R165; R20 itself
does not say which, log 11). -/
def releaseMembers (a : Slot) (l : Ledger) : Ledger :=
  let members := (l.account a).members
  eachOf allIntakes (fun i l =>
    if i ∈ members then rewriteIntake Intake.released i l
    else if (l.intake i).joining a then rewriteIntake Intake.withoutChange i l
    else l) l.checkIntakes

end Sys2Proof.Machine
end

