-- ==== Sys2Proof/Machine/AccountRequests.lean ====
section
/-! DEFINITION. The account requests (chapter 1: R11 to R26). -/

namespace Sys2Proof.Machine

open Sys2Proof

/-- The time a period starts at when an account is opened or repaired: the calendar time in RUN, absent otherwise (R13,
R169). -/
def periodStartIn (mode : Mode) (c : Calendar) : Option Seconds := if mode = .run then some c.time else none

/-- The identity that OPEN_ACCOUNT and REPAIR_ACCOUNT carry. -/
structure IdentityRequest where
  number : Nat
  tariff : Nat
  contractDemand : Nat
  minPercent : Nat
  closeDay : Nat
  closeHour : Nat
  deriving DecidableEq, Repr

/-- Reads the 12 bytes of an identity (Table 11-3). -/
def IdentityRequest.ofBytes (p : List Byte) : IdentityRequest :=
  { number := field 0 4 p, tariff := field 4 1 p, contractDemand := field 5 4 p, minPercent := field 9 1 p,
    closeDay := field 10 1 p, closeHour := field 11 1 p }

/-- The ranges of an identity but for the tariff index (R12, R168). -/
def IdentityRequest.inRange (r : IdentityRequest) : Bool :=
  r.number != 0 && termsInRange r.minPercent r.closeDay r.closeHour

/-- The account that OPEN_ACCOUNT writes over a FREE slot (R13). -/
def Account.opened (r : IdentityRequest) (tariff : TariffNo) (start : Option Seconds) : Account :=
  { Account.coldContent with
    number := r.number
    phase := .active
    tariff := tariff
    contractDemand := r.contractDemand
    minPercent := r.minPercent
    closeDay := r.closeDay
    closeHour := r.closeHour
    period := { Period.cold with start := start } }

/-- OPEN_ACCOUNT (R12, R13). The check of the number reads the stored number of every account that is not FREE, and
verifies them all (R2, R165); the slot it allocates is not verified. -/
def openAccount (p : List Byte) (c : Calendar) (mode : Mode) (l : Ledger) : Ledger × Answer :=
  let r := IdentityRequest.ofBytes p
  match tariffOf r.tariff with
  | none => (l, refuse .outOfRange)
  | some t =>
    if !r.inRange then (l, refuse .outOfRange)
    else
      let l := l.checkTariff t
      if (l.tariff t).state != .ready then (l, refuse .noSuchTariff)
      else
        let l := l.checkAccounts
        if (l.holder r.number none).isSome then (l, refuse .duplicateAccount)
        else
          match allSlots.find? (fun i => (l.account i).state = .free) with
          | none => (l, refuse .noFreeSlot)
          | some i => (l.putAccount i (.opened r t (periodStartIn mode c)), okWith [byte i.val])

def execOpenAccount (s : State) : Host.Outcome State Fault Refusal :=
  .next (runRecordRequest .openAccount openAccount s)

/-- AMEND_ACCOUNT (R14). -/
def amendAccount (p : List Byte) (_ : Calendar) (_ : Mode) (l : Ledger) : Ledger × Answer :=
  addressAccount (field 0 1 p) (termsInRange (field 5 1 p) (field 6 1 p) (field 7 1 p)) l fun i a l =>
    if a.state = .final then (l, refuse .wrongState)
    else
      (l.putAccount i
        { a with
          contractDemand := field 1 4 p
          minPercent := field 5 1 p
          closeDay := field 6 1 p
          closeHour := field 7 1 p },
        okDone)

def execAmendAccount (s : State) : Host.Outcome State Fault Refusal :=
  .next (runRecordRequest .amendAccount amendAccount s)

/-- SUSPEND_ACCOUNT (R16). -/
def suspendAccount (p : List Byte) (c : Calendar) (_ : Mode) (l : Ledger) : Ledger × Answer :=
  addressAccount (field 0 1 p) true l fun i a l =>
    if a.state != .active then (l, refuse .wrongState)
    else
      let l := closeSlot .ordinary c i l
      (l.putAccount i { l.account i with phase := .suspended }, okDone)

def execSuspendAccount (s : State) : Host.Outcome State Fault Refusal :=
  .next (runRecordRequest .suspendAccount suspendAccount s)

/-- RESUME_ACCOUNT (R18). -/
def resumeAccount (p : List Byte) (_ : Calendar) (_ : Mode) (l : Ledger) : Ledger × Answer :=
  addressAccount (field 0 1 p) true l fun i a l =>
    if a.state != .suspended then (l, refuse .wrongState)
    else (l.putAccount i { a.clearWindow with phase := .active }, okDone)

def execResumeAccount (s : State) : Host.Outcome State Fault Refusal :=
  .next (runRecordRequest .resumeAccount resumeAccount s)

/-- The retirement in RUN (R20): forced closure, final close, release of members, state FINAL. -/
def retireInRun (c : Calendar) (i : Slot) (l : Ledger) : Ledger :=
  let l := closeSlot .forRetirement c i l
  let l := performClose .retire false c.time i l
  let l := releaseMembers i l
  l.putAccount i { l.account i with members := [], phase := .final }

/-- The retirement in COMMISSIONING (R21): release of members, slot FREE. -/
def retireInCommissioning (i : Slot) (l : Ledger) : Ledger :=
  (releaseMembers i l).storeAccount i .free

/-- RETIRE_ACCOUNT (R19 to R21). -/
def retireAccount (p : List Byte) (c : Calendar) (mode : Mode) (l : Ledger) : Ledger × Answer :=
  addressAccount (field 0 1 p) true l fun i a l =>
    if a.state = .final then (l, refuse .wrongState)
    else if a.settled.isSome then (l, refuse .settlementPending)
    else
      let l := l.checkTariff a.tariff
      if (l.tariff a.tariff).state != .ready then (l, refuse .faulted)
      else (if mode = .run then retireInRun c i l else retireInCommissioning i l, okDone)

def execRetireAccount (s : State) : Host.Outcome State Fault Refusal :=
  .next (runRecordRequest .retireAccount retireAccount s)

/-- FIND_ACCOUNT (R23): with FAULTED the payload still carries the slot and the state (R196). -/
def findAccount (p : List Byte) (_ : Calendar) (_ : Mode) (l : Ledger) : Ledger × Answer :=
  let number := field 0 4 p
  if number = 0 then (l, refuse .outOfRange)
  else
    match l.holder number none with
    | none => (l, refuse .noSuchAccount)
    | some i =>
      let l := l.checkAccount i
      let a := l.account i
      (l, { code := if a.faultMark then .faulted else .ok, payload := [byte i.val, byte a.state.code] })

def execFindAccount (s : State) : Host.Outcome State Fault Refusal :=
  .next (runRecordRequest .findAccount findAccount s)

/-- The fields that both parts of WINDOW repeat (R209). -/
def windowHeader (n : Nat) (a : Account) : List Byte := [byte n, byte a.ringPos] ++ le 2 a.period.subintervals

/-- The slots of the ring from the oldest in 12 places, those above N as 13 bytes of 0 (R209). -/
def windowPlaces (n : Nat) (a : Account) : List (List Byte) :=
  ((a.ringOldestFirst n).map WindowSlot.bytes ++ List.replicate 12 zeroSlot).take 12
where
  /-- A place above N. -/
  zeroSlot : List Byte := List.replicate 13 0

/-- The two parts of READ_ACCOUNT WINDOW (Table 11-6, R209). -/
def windowPart (n part : Nat) (a : Account) : List Byte :=
  if part = 0 then windowHeader n a ++ ((windowPlaces n a).take 6).flatten
  else windowHeader n a ++ ((windowPlaces n a).drop 6).flatten ++ pendingSlotBytes a.storedSlot

/-- A section code and a part are in range: part 0, and part 1 of WINDOW (R24, R209). -/
def sectionInRange (code part : Nat) : Bool :=
  match AccountSection.ofCode code with
  | none => false
  | some .window => part ≤ 1
  | some _ => part = 0

/-- A section of a sound account (R25). -/
def readSection (i : Slot) (part : Nat) (sec : AccountSection) (l : Ledger) : Ledger × Answer :=
  let a := l.account i
  match sec with
  | .identity => (l, okWith (a.identityBytes a.state))
  | .running => (l, okWith a.period.bytes)
  | .ratchet => (l, okWith a.ratchetBytes)
  | .settled =>
    match a.settled with
    | none => (l, refuse .nothingSettled)
    | some x => (l, okWith x.bytes)
  | .window =>
    let l := l.checkTariff a.tariff
    if (l.tariff a.tariff).state != .ready then (l, refuse .faulted)
    else (l, okWith (windowPart (l.tariff a.tariff).n part a))

/-- READ_ACCOUNT (R24, R25, R209): a FAULTED account answers section IDENTITY alone. -/
def readAccount (p : List Byte) (_ : Calendar) (_ : Mode) (l : Ledger) : Ledger × Answer :=
  match slotOf (field 0 1 p), AccountSection.ofCode (field 1 1 p) with
  | some i, some sec =>
    if !sectionInRange (field 1 1 p) (field 2 1 p) then (l, refuse .outOfRange)
    else if (l.account i).state = .free then (l, refuse .noSuchAccount)
    else
      let l := l.checkAccount i
      if (l.account i).faultMark && sec != .identity then (l, refuse .faulted)
      else readSection i (field 2 1 p) sec l
  | _, _ => (l, refuse .outOfRange)

def execReadAccount (s : State) : Host.Outcome State Fault Refusal :=
  .next (runRecordRequest .readAccount readAccount s)

/-- Whether an account matches a filter of LIST_ACCOUNTS (R26). -/
def AccountFilter.admits (a : Account) : AccountFilter → Bool
  | .nonfree => a.state != .free
  | .settledPresent => !a.faultMark && a.settled.isSome
  | .closeBlocked => !a.faultMark && a.closeBlocked
  | .faulted => a.faultMark
  | .exceeded => !a.faultMark && a.period.exceeded

/-- LIST_ACCOUNTS (R26). -/
def listAccounts (p : List Byte) (_ : Calendar) (_ : Mode) (l : Ledger) : Ledger × Answer :=
  match AccountFilter.ofCode (field 0 1 p) with
  | none => (l, refuse .outOfRange)
  | some filter =>
    let l := l.checkAccounts
    let found := allSlots.filter fun i => filter.admits (l.account i)
    (l, okWith (byte found.length :: found.map fun i => byte i.val))

def execListAccounts (s : State) : Host.Outcome State Fault Refusal :=
  .next (runRecordRequest .listAccounts listAccounts s)

end Sys2Proof.Machine
end

