-- ==== Sys2Proof/Machine/CalendarEvents.lean ====
section
/-! DEFINITION. The passage of a second and the events of the Calendar Unit (R46 to R58): an event falls due when the
calendar reaches its instant, and is taken as a command of its own; one not yet taken when the next second passes is
taken first, in the order grace expiry, minute event, boundary event (log 6). -/

namespace Sys2Proof.Machine

open Sys2Proof

/-- The calendar moves on and produces events: it is SET and below its last second (R47, R48), and the device is not
RESTARTING (R62). -/
def State.calendarProduces (s : State) : Bool :=
  s.calendar.isSet && s.calendar.time < Config.lastSecond && s.mode != .restarting

/-- A minute start is later than the last minute event (R50). -/
def Calendar.minuteIsNew (start : Seconds) (c : Calendar) : Bool := c.lastMinute.all (· < start)

/-- The next boundary, in RUN (R51). -/
def State.nextBoundary (s : State) : Option Seconds :=
  if s.mode = .run then s.calendar.lastBoundary.map (boundaryAfter s.calendar.params.subinterval) else none

/-- A minute event is due: the passage of a second has brought the calendar to second 0 of a new minute (R50, log 7). -/
def State.minuteDue (s : State) : Bool :=
  s.calendarProduces && s.calendar.reachedByPassage && s.calendar.time % 60 == 0 &&
    s.calendar.minuteIsNew s.calendar.time

/-- A grace expiry is due: the calendar has reached the expiry time (R55). -/
def State.graceDue (s : State) : Bool :=
  s.calendarProduces && s.calendar.grace.any fun g => g.expiry ≤ s.calendar.time

/-- A boundary event is due: the calendar has reached the next boundary (R51). -/
def State.boundaryDue (s : State) : Bool :=
  s.calendarProduces && s.nextBoundary.any fun t => t ≤ s.calendar.time

/-- The minute event of a minute's start; in RUN it is handed to the Interval Engine (R50). -/
def State.produceMinute (start : Seconds) (s : State) : State :=
  { s with
    calendar := { s.calendar with lastMinute := some start }
    work := if s.mode = .run then s.work ++ [.minute start] else s.work }

/-- The grace expiry of the armed timer: its tag is handed to the Interval Engine and the timer discarded (R55). -/
def State.produceGrace (s : State) : State :=
  match s.calendar.grace with
  | none => s
  | some g => { s with calendar := { s.calendar with grace := none }, work := s.work ++ [.grace g.tag 0] }

/-- The boundary-count counter after a boundary event, and whether it has reached P (R54). -/
def Calendar.countBoundary (c : Calendar) : Nat × Bool :=
  if c.params.countPeriod = 0 then (0, false)
  else if c.boundaryCount + 1 = c.params.countPeriod then (0, true)
  else (c.boundaryCount + 1, false)

/-- The calendar after a boundary event at `t` (R52, steps 1 to 4). -/
def Calendar.atBoundary (t : Seconds) (c : Calendar) : Calendar :=
  { c with
    currentTag := c.currentTag + 1
    lastBoundary := some t
    grace := some { tag := c.currentTag, expiry := t + c.params.grace }
    boundaryCount := c.countBoundary.1 }

/-- The boundary event at `t` (R52): a timer still armed expires first (R56), and the boundary is handed to the Intake
Link Controller and to the Interval Engine. -/
def State.produceBoundary (t : Seconds) (s : State) : State :=
  let s := s.produceGrace
  let ended := s.calendar.currentTag
  { s with
    ledger := s.ledger.raiseIf s.calendar.countBoundary.2 .boundaryCount
    calendar := s.calendar.atBoundary t
    laneBoundaries := s.laneBoundaries ++ [(ended, t)]
    work := s.work ++ [.boundary ended t .ageing] }

def State.takeGrace (s : State) : State := if s.graceDue then s.produceGrace else s

def State.takeMinute (s : State) : State := if s.minuteDue then s.produceMinute s.calendar.time else s

def State.takeBoundary (s : State) : State :=
  if s.boundaryDue then
    match s.nextBoundary with
    | some t => s.produceBoundary t
    | none => s
  else s

/-- The events that the calendar has reached and that have not been taken yet. -/
def State.takeOwed (s : State) : State := s.takeGrace.takeMinute.takeBoundary

/-- The calendar one second later: it advances while SET, up to its last second (R46, R47). A minute start that it
passes onto is reached for R50 while the blocks are `awake`, and not at rest (log 43). -/
def Calendar.tick (awake : Bool) (c : Calendar) : Calendar :=
  if c.isSet ∧ c.time < Config.lastSecond then { c with time := c.time + 1, reachedByPassage := awake } else c

def State.tick (awake : Bool) (s : State) : State := { s with calendar := s.calendar.tick awake }

/-- The passage of a second: it goes on at rest as well, where nothing else happens (R46, R184). -/
def execPassageOfASecond (s : State) : Host.Outcome State Fault Refusal :=
  .next (if s.atRest then s.tick false else s.takeOwed.tick true)

def execMinuteEvent (s : State) : Host.Outcome State Fault Refusal := .next (if s.atRest then s else s.takeMinute)

def execBoundaryEvent (s : State) : Host.Outcome State Fault Refusal := .next (if s.atRest then s else s.takeBoundary)

def execGraceExpiry (s : State) : Host.Outcome State Fault Refusal := .next (if s.atRest then s else s.takeGrace)

end Sys2Proof.Machine
end

