-- ==== Sys2Proof/Machine/CalendarRequests.lean ====
section
/-! DEFINITION. SET_TIME, TRIM_TIME and READ_TIME (R49, R57 to R60). -/

namespace Sys2Proof.Machine

open Sys2Proof

/-- The calendar set to a time (R49). No second has passed onto it (R50, log 43). -/
def Calendar.setTo (t : Seconds) (c : Calendar) : Calendar :=
  { c with time := t, reachedByPassage := false, isSet := true, lastMinute := some (minuteStart t) }

/-- SET_TIME (R49). -/
def setTime (p : List Byte) (s : State) : State × Answer :=
  let d := DateTime.ofBytes p
  if !d.inRange then (s, refuse .outOfRange)
  else ({ s with calendar := s.calendar.setTo d.toSeconds }, okDone)

def execSetTime (s : State) : Host.Outcome State Fault Refusal := .next (runRequest .setTime setTime s)

/-- A number of seconds moved by a signed amount. -/
def moveBy (amount : Int) (t : Seconds) : Seconds := (Int.ofNat t + amount).toNat

/-- The calendar moved by a trim: the expiry time of an armed grace timer moves with it (R57). The second it stands on
was not reached by passage (R50, R59, log 43). -/
def Calendar.moved (amount : Int) (c : Calendar) : Calendar :=
  { c with
    time := moveBy amount c.time
    reachedByPassage := false
    grace := c.grace.map fun g => { g with expiry := moveBy amount g.expiry } }

/-- The minute event that a move from `before` reaches (R58). -/
def State.reachMinute (before : Seconds) (s : State) : State :=
  let start := minuteStart s.calendar.time
  if before < start && s.calendar.minuteIsNew start then s.produceMinute start else s

/-- The boundary event that a move from `before` reaches, with the boundary instant as its time (R58). -/
def State.reachBoundary (before : Seconds) (s : State) : State :=
  match s.nextBoundary with
  | some t => if before < t && t ≤ s.calendar.time then s.produceBoundary t else s
  | none => s

/-- The grace expiry that a forward trim reaches. A timer armed before the trim has moved with it and is not reached; one
that the trim's own boundary has armed is, when T + G lies in the span of the trim (R55, R58; log 41). At the last second
none is produced (R47). -/
def State.reachGrace (s : State) : State :=
  if s.calendar.grace.any fun g => g.expiry ≤ s.calendar.time && g.expiry < Config.lastSecond then s.produceGrace else s

/-- A trim that has passed its checks (R57 to R59). Events that the calendar had already reached are taken before it
moves (log 6). A backward trim from the calendar's last second sets the calendar going again (log 8). -/
def State.trim (amount : Int) (s : State) : State :=
  let s := s.takeOwed
  let before := s.calendar.time
  let s := { s with calendar := s.calendar.moved amount }
  if 0 < amount then ((s.reachMinute before).reachBoundary before).reachGrace else s

/-- TRIM_TIME (R57). -/
def trimTime (p : List Byte) (s : State) : State × Answer :=
  let amount := signedByte p
  if amount < -59 ∨ 59 < amount then (s, refuse .outOfRange)
  else if !s.calendar.isSet then (s, refuse .timeUnset)
  else if Int.ofNat s.calendar.time + amount < 0 ∨ Int.ofNat Config.lastSecond < Int.ofNat s.calendar.time + amount then
    (s, refuse .outOfRange)
  else (if amount = 0 then s else s.trim amount, okDone)

def execTrimTime (s : State) : Host.Outcome State Fault Refusal := .next (runRequest .trimTime trimTime s)

/-- The date-time in 7 bytes (R204). -/
def DateTime.bytes (d : DateTime) : List Byte :=
  le 2 d.year ++ [byte d.month, byte d.day, byte d.hour, byte d.minute, byte d.second]

/-- The payload of READ_TIME (R60, Table 11-3). -/
def Calendar.bytes (c : Calendar) : List Byte :=
  [byte (bits [c.isSet, c.grace.isSome])] ++ (dateTimeOf c.time).bytes ++
    [byte (weekdayOf (c.time / 86400) + 1), c.currentTag] ++ leTime c.lastBoundary ++
    [(c.grace.map (·.tag)).getD 0] ++ leTime (c.grace.map (·.expiry))

/-- READ_TIME (R60). -/
def readTime (_ : List Byte) (s : State) : State × Answer := (s, okWith s.calendar.bytes)

def execReadTime (s : State) : Host.Outcome State Fault Refusal := .next (runRequest .readTime readTime s)

end Sys2Proof.Machine
end

