-- ==== Sys2Proof/Machine/DemandRequests.lean ====
section
/-! DEFINITION. READ_DEMAND (R129, R130). -/

namespace Sys2Proof.Machine

open Sys2Proof

/-- The payload of READ_DEMAND (R130, Table 11-3). (An absent value or band is sent as 0, DEDUCED, log 13.) -/
def demandBytes (c : Calendar) (t : Tariff) (p : Schedule) (a : Account) : List Byte :=
  let ring := a.ring t.n
  let present := ringWhole ring
  let estimated := ringEstimated ring
  [byte t.quantity.code, byte t.n,
    byte (bits [present, present && estimated, present && t.eligible estimated, c.isSet])] ++
    le 4 (if present then windowDemand t c.params.subinterval ring else 0) ++
    [byte (if c.isSet then (bandAt t p c.time).val else 0)]

/-- READ_DEMAND (R129). -/
def readDemand (p : List Byte) (c : Calendar) (_ : Mode) (l : Ledger) : Ledger × Answer :=
  addressAccount (field 0 1 p) true l fun _ a l =>
    let l := l.checkTariff a.tariff
    if (l.tariff a.tariff).state != .ready then (l, refuse .faulted)
    else (l, okWith (demandBytes c (l.tariff a.tariff) (l.schedule a.tariff) a))

def execReadDemand (s : State) : Host.Outcome State Fault Refusal :=
  .next (runRecordRequest .readDemand readDemand s)

end Sys2Proof.Machine
end

