-- ==== Sys2Proof/Machine/IntakeRequests.lean ====
section
/-! DEFINITION. The intake requests (R90 to R97). -/

namespace Sys2Proof.Machine

open Sys2Proof

/-- The ranges of a lane and a scale (R91, R171). -/
def laneAndScale (p : List Byte) : Option (LaneNo × Nat) :=
  match laneOf (field 1 1 p) with
  | none => none
  | some k => if 1 ≤ field 2 4 p ∧ field 2 4 p ≤ Config.maxScale then some (k, field 2 4 p) else none

/-- The intake with a lane and a scale; the silence it had built is forgotten (R91). -/
def Intake.defined (k : LaneNo) (scale : Nat) (x : Intake) : Intake :=
  { x with phase := .free, lane := k, scale := scale, lastReported := none, silentCount := 0, silent := false }

/-- DEFINE_INTAKE (R91). -/
def defineIntake (p : List Byte) (_ : Calendar) (_ : Mode) (l : Ledger) : Ledger × Answer :=
  match laneAndScale p with
  | none => (l, refuse .outOfRange)
  | some (k, scale) =>
    addressIntake (field 0 1 p) true true l fun i x l =>
      if x.state = .member then (l, refuse .intakeOwned)
      else if x.change.isSome then (l, refuse .changePending)
      else (l.putIntake i (x.defined k scale), okDone)

def execDefineIntake (s : State) : Host.Outcome State Fault Refusal :=
  .next (runRecordRequest .defineIntake defineIntake s)

/-- The intakes whose pending join names an account, whatever their marks (R92). -/
def Ledger.joiners (a : Slot) (l : Ledger) : List IntakeNo := allIntakes.filter fun i => (l.intake i).joining a

/-- An ASSIGN_INTAKE that has passed its checks (R93). -/
def assign (c : Calendar) (mode : Mode) (i : IntakeNo) (a : Slot) (l : Ledger) : Ledger :=
  if mode = .run then
    l.putIntake i { l.intake i with change := some { target := some a, tag := c.currentTag } }
  else (l.putIntake i ((l.intake i).ownedBy a c.currentTag)).putAccount a ((l.account a).join i)

/-- ASSIGN_INTAKE (R92, R93). Step 4 verifies all 96 intakes. -/
def assignIntake (p : List Byte) (c : Calendar) (mode : Mode) (l : Ledger) : Ledger × Answer :=
  match slotOf (field 1 1 p) with
  | none => (l, refuse .outOfRange)
  | some a =>
    addressIntake (field 0 1 p) true false l fun i x l =>
      if (l.account a).state = .free then (l, refuse .noSuchAccount)
      else
        let l := l.checkAccount a
        if (l.account a).faultMark then (l, refuse .faulted)
        else if x.state = .member then (l, refuse .intakeOwned)
        else if x.change.isSome then (l, refuse .changePending)
        else if !(l.account a).bills then (l, refuse .wrongState)
        else
          let l := l.checkIntakes
          if Config.memberLimit ≤ (l.account a).members.length + (l.joiners a).length then (l, refuse .membersFull)
          else (assign c mode i a l, okDone)

def execAssignIntake (s : State) : Host.Outcome State Fault Refusal :=
  .next (runRecordRequest .assignIntake assignIntake s)

/-- UNASSIGN_INTAKE of a MEMBER intake without a pending change (R94). -/
def unassignMember (c : Calendar) (mode : Mode) (i : IntakeNo) (owner : Slot) (l : Ledger) : Ledger × Answer :=
  let l := l.checkAccount owner
  if (l.account owner).faultMark then (l, refuse .faulted)
  else if mode = .run then
    (l.putIntake i { l.intake i with change := some { target := none, tag := c.currentTag } }, okDone)
  else
    ((l.putAccount owner ((l.account owner).leave i)).putIntake i (l.intake i).released, okDone)

/-- UNASSIGN_INTAKE (R94). (A MEMBER intake always names an owner; one without any would be refused, log 32.) -/
def unassignIntake (p : List Byte) (c : Calendar) (mode : Mode) (l : Ledger) : Ledger × Answer :=
  addressIntake (field 0 1 p) true false l fun i x l =>
    if x.state = .member then
      if x.change.isSome then (l, refuse .changePending)
      else
        match x.owner with
        | some a => unassignMember c mode i a l
        | none => (l, refuse .wrongState)
    else if x.change.isSome then (l.putIntake i x.withoutChange, okDone)
    else (l, refuse .wrongState)

def execUnassignIntake (s : State) : Host.Outcome State Fault Refusal :=
  .next (runRecordRequest .unassignIntake unassignIntake s)

/-- READ_INTAKE (R96). -/
def readIntake (p : List Byte) (_ : Calendar) (_ : Mode) (l : Ledger) : Ledger × Answer :=
  addressIntake (field 0 1 p) true false l fun _ x l => (l, okWith (x.bytes x.state))

def execReadIntake (s : State) : Host.Outcome State Fault Refusal :=
  .next (runRecordRequest .readIntake readIntake s)

/-- COLLECT_HELD (R97). -/
def collectHeld (p : List Byte) (_ : Calendar) (_ : Mode) (l : Ledger) : Ledger × Answer :=
  addressIntake (field 0 1 p) true false l fun i x l =>
    (l.putIntake i { x with held := .zero }, okWith x.held.bytes)

def execCollectHeld (s : State) : Host.Outcome State Fault Refusal :=
  .next (runRecordRequest .collectHeld collectHeld s)

end Sys2Proof.Machine
end

