-- ==== Sys2Proof/Machine/Frames.lean ====
section
/-! DEFINITION. Link frames: their layouts, the CRC that ends them, the escaping on the lane, and the receiver that finds
the frames in a lane's bytes and tells a HELLO, an INCREMENT and a malformed frame apart (R64, R205, R206). -/

namespace Sys2Proof.Machine

open Sys2Proof

/-- The frames of the link (Table 4-2). -/
inductive LinkFrame where
  | hello (frontEnd : BitVec 16) (firstSeq : Byte)
  | increment (frame : IncrementFrame)
  | boundary (tag : Tag) (time : Option Seconds)
  | credit (count : Nat)
  | resync
  deriving DecidableEq, Repr

/-- The kind byte and the fields of a frame, without its CRC (Table 11-2). -/
def LinkFrame.content : LinkFrame → List Byte
  | .hello id seq => [0x01#8] ++ le 2 id.toNat ++ [seq]
  | .increment f =>
    [0x02#8, f.seq, f.intake, f.tag] ++ le 2 f.imp.toNat ++ le 2 f.exp.toNat ++ le 2 f.lag.toNat ++
      le 2 f.lead.toNat ++ [byte (bits [f.last, f.doubtful])]
  | .boundary tag time => [0x81#8, tag] ++ leTime time
  | .credit n => [0x82#8, byte n]
  | .resync => [0x83#8]

/-- The decoded bytes of a frame: its content and its CRC, low byte first (R206). -/
def LinkFrame.decoded (f : LinkFrame) : List Byte := f.content ++ le 2 (crc f.content).toNat

/-- A data byte of 7E or 7D hex is sent as 7D followed by the byte with bit 5 inverted (R205). -/
def escape : List Byte → List Byte
  | [] => []
  | b :: bs => if b = 0x7E#8 ∨ b = 0x7D#8 then 0x7D#8 :: (b ^^^ 0x20#8) :: escape bs else b :: escape bs

/-- The bytes between two flags decoded: none when a 7D is followed directly by the closing flag (R205). -/
def unescape : List Byte → Option (List Byte)
  | [] => some []
  | b :: bs =>
    if b = 0x7D#8 then
      match bs with
      | [] => none
      | c :: cs => (unescape cs).map ((c ^^^ 0x20#8) :: ·)
    else (unescape bs).map (b :: ·)

/-- A frame as the transmitter puts it on the lane: flag, escaped bytes, flag (R205). -/
def LinkFrame.wire (f : LinkFrame) : List Byte := [0x7E#8] ++ escape f.decoded ++ [0x7E#8]

/-- What the receiver makes of the bytes between two flags. -/
inductive Received where
  | nothing
  | hello (frontEnd : BitVec 16) (firstSeq : Byte)
  | increment (frame : IncrementFrame)
  | malformed
  deriving DecidableEq, Repr

/-- The INCREMENT whose decoded bytes are given; flag bits 2 to 7 are ignored (R204, Table 11-2). -/
def readIncrement (d : List Byte) : IncrementFrame :=
  { seq := d.getD 1 0, intake := d.getD 2 0, tag := d.getD 3 0,
    imp := BitVec.ofNat 16 (field 4 2 d), exp := BitVec.ofNat 16 (field 6 2 d),
    lag := BitVec.ofNat 16 (field 8 2 d), lead := BitVec.ofNat 16 (field 10 2 d),
    last := (d.getD 12 0).getLsbD 0, doubtful := (d.getD 12 0).getLsbD 1 }

/-- The decoded bytes of a frame end with the CRC of the bytes before it. -/
def crcMatches (d : List Byte) : Bool :=
  let body := d.take (d.length - 2)
  (crc body).toNat == field (d.length - 2) 2 d

/-- The decoded bytes judged by kind, length and CRC (R64, R205). -/
def classify (d : List Byte) : Received :=
  if d.length = 6 ∧ d.getD 0 0 = 0x01#8 ∧ crcMatches d then
    .hello (BitVec.ofNat 16 (field 1 2 d)) (d.getD 3 0)
  else if d.length = 15 ∧ d.getD 0 0 = 0x02#8 ∧ crcMatches d then .increment (readIncrement d)
  else .malformed

/-- The receiver (R205): two flags in a row bound no frame; a 7D before the closing flag, a wrong kind, length or CRC
make the frame malformed. -/
def receive (content : List Byte) : Received :=
  if content = [] then .nothing
  else match unescape content with
    | none => .malformed
    | some d => classify d

/-- What stands between the flags of a lane's bytes, in order (R205). `inside` is what has been taken, the newest byte
first, since the flag that opened the frame, and none outside a frame. Bytes outside a frame are discarded, a flag closes
a frame and opens the next, two flags in a row bound no frame, and a frame without its closing flag is none. -/
def framesFrom (inside : Option (List Byte)) : List Byte → List (List Byte)
  | [] => []
  | b :: bs =>
    if b = 0x7E#8 then
      match inside with
      | some (c :: cs) => (c :: cs).reverse :: framesFrom (some []) bs
      | _ => framesFrom (some []) bs
    else framesFrom (inside.map (b :: ·)) bs

/-- The contents of the frames that a lane's bytes hold, the lane standing outside a frame at the first (R205). -/
def laneFrames (bytes : List Byte) : List (List Byte) := framesFrom none bytes

/-- The command that a frame received on a lane is: a well-formed HELLO or INCREMENT with its decoded fields, or a
malformed frame (R64, R205). -/
def Received.command (k : LaneNo) (content : List Byte) : Received → Option Instr
  | .nothing => none
  | .hello frontEnd firstSeq => some (.hello k frontEnd firstSeq)
  | .increment frame => some (.increment k frame)
  | .malformed => some (.malformedFrame k content)

/-- The commands that a lane's bytes give, in their order (R205; log 40). -/
def laneCommands (k : LaneNo) (bytes : List Byte) : List Instr :=
  (laneFrames bytes).filterMap fun content => (receive content).command k content

end Sys2Proof.Machine
end

