-- ==== Sys2Proof/Machine/LinkOps.lean ====
section
/-! DEFINITION. Operations on a lane: waiting frames (R78), credits (R74, R75), errors and isolation (R69, R70), entry
to SYNCING and to RUN (R66, R83), and the checks of an increment (R71 to R73). -/

namespace Sys2Proof.Machine

open Sys2Proof

/-- A frame produced takes its place behind the frames that wait (R78). -/
def Lane.send (f : WaitingFrame) (n : Lane) : Lane := { n with waiting := n.waiting ++ [f] }

/-- Credits granted: outstanding from now, and to send; a CREDIT frame takes its place when credits to send rises from
0 (R75, R78). Credits to send are counted on while the CREDIT waits, also past the 8 of Table 4-1 (log 37). -/
def Lane.grant (k : Nat) (n : Lane) : Lane :=
  if k = 0 then n
  else
    { n with
      outstanding := n.outstanding + k
      toSend := n.toSend + k
      waiting := if n.toSend = 0 then n.waiting ++ [.credit] else n.waiting }

/-- The waiting frames are discarded and no credit is outstanding or to send (R65, R66, R69). -/
def Lane.quiet (n : Lane) : Lane := { n with waiting := [], outstanding := 0, toSend := 0 }

/-- No front-end is known and no sequence number is expected. -/
def Lane.forget (n : Lane) : Lane := { n with frontEnd := none, lastSeq := none, expectedSeq := none }

/-- Entry to SYNCING: one RESYNC is sent and the one-second timer starts (R66). -/
def Lane.enterSyncing (n : Lane) : Lane :=
  { n.quiet.forget with state := .syncing, waiting := [.resync], attempts := 1, timer := true }

/-- The lane becomes ISOLATED (R69). The RESYNC attempts are left as they stood (DESIGN CHOICE, log 46). -/
def Lane.isolate (n : Lane) : Lane := { n.quiet with state := .isolated, timer := false }

/-- The lane becomes DOWN as its carrier is lost (R65). -/
def Lane.lose (n : Lane) : Lane :=
  { n.quiet.forget with state := .down, carrier := false, timer := false, attempts := 0, errorCount := 0 }

/-- One error toward the limit, and whether it isolates the lane (R70). -/
def Lane.countError (n : Lane) : Lane × Bool :=
  let counted := { n with errorCount := satAdd 255 n.errorCount 1 }
  if n.errorLimit ≤ counted.errorCount then (counted.isolate, true) else (counted, false)

/-- A credit is returned: granted back on an ACTIVE lane in RUN below its allotment, and absorbed otherwise (R75, steps
2 and 3). -/
def Lane.returnCredit (mode : Mode) (n : Lane) : Lane :=
  if n.state = .active ∧ mode = .run ∧ n.outstanding + n.queued < n.allotment then n.grant 1 else n

/-- A frame discarded on an ACTIVE lane is taken to have spent a credit if one was outstanding, and the credit is
returned at once (R74). -/
def Lane.discardFrame (mode : Mode) (n : Lane) : Lane :=
  if 0 < n.outstanding then Lane.returnCredit mode { n with outstanding := n.outstanding - 1 } else n

/-- A BOUNDARY frame with the tag E and the last boundary processed (R67). -/
def Lane.announce (tag : Tag) (time : Option Seconds) (n : Lane) : Lane := n.send (.boundary tag time)

/-- The session that a HELLO opens: BOUNDARY and a whole allotment in RUN, nothing in the other modes (R67, R68). -/
def Lane.openSession (mode : Mode) (tag : Tag) (time : Option Seconds) (n : Lane) : Lane :=
  let n := { n with outstanding := 0, toSend := 0 }
  if mode = .run then (n.announce tag time).grant (n.allotment - n.queued) else n

/-- A HELLO taken on a SYNCING or an ACTIVE lane; on others it is discarded (R67 to R69). -/
def Lane.takeHello (mode : Mode) (tag : Tag) (time : Option Seconds) (frontEnd : BitVec 16) (firstSeq : Byte)
    (n : Lane) : Lane :=
  let known := { n with frontEnd := some frontEnd, expectedSeq := some firstSeq, lastSeq := none }
  match n.state with
  | .syncing =>
    Lane.openSession mode tag time { known with state := .active, timer := false, attempts := 0, errorCount := 0 }
  | .active => Lane.openSession mode tag time { known with waiting := n.waiting.filter (· != .credit) }
  | .down | .isolated => n

/-- The lane at the entry to RUN (R83). While a CREDIT from before STOP_RUN still waits, the grant is added to it, ahead of
the BOUNDARY (R78; log 38). -/
def Lane.enterRun (tag : Tag) (time : Option Seconds) (n : Lane) : Lane :=
  let n := { n with errorCount := 0 }
  if n.state = .active then (n.announce tag time).grant (n.allotment - n.queued - n.outstanding) else n

/-- What becomes of an increment on a lane. -/
inductive Reception where
  | discarded | queued | isolated
  deriving DecidableEq, Repr

/-- The credit check (R73): the increment spends a credit, or is a credit violation. -/
def Lane.checkCredit (n : Lane) : Lane × Reception :=
  if 0 < n.outstanding then ({ n with outstanding := n.outstanding - 1, queued := n.queued + 1 }, .queued)
  else
    let counted :=
      Lane.countError
        { n with counters := { n.counters with creditViolations := satSucc Config.max16 n.counters.creditViolations } }
    (counted.1, if counted.2 then .isolated else .discarded)

/-- The sequence state after a kept frame (R72). -/
def Lane.advance (seq : Byte) (n : Lane) : Lane := { n with lastSeq := some seq, expectedSeq := some (seq + 1) }

/-- The sequence and credit checks of a well-formed INCREMENT on an ACTIVE lane (R72, R73). -/
def Lane.takeIncrement (mode : Mode) (seq : Byte) (n : Lane) : Lane × Reception :=
  if n.lastSeq = some seq then
    (Lane.discardFrame mode
      { n with counters := { n.counters with duplicates := satSucc Config.max16 n.counters.duplicates } }, .discarded)
  else if n.expectedSeq = some seq then (n.advance seq).checkCredit
  else
    let counted :=
      Lane.countError
        { n with counters := { n.counters with sequenceGaps := satSucc Config.max16 n.counters.sequenceGaps } }
    if counted.2 then (counted.1, .isolated) else (counted.1.advance seq).checkCredit

/-- One more malformed frame in the CRC error counter. -/
def Lane.countCrc (n : Lane) : Lane :=
  { n with counters := { n.counters with crcErrors := satSucc Config.max16 n.counters.crcErrors } }

/-- A malformed frame by lane state (Table 4-3, R71). -/
def Lane.takeMalformed (mode : Mode) (n : Lane) : Lane × Reception :=
  match n.state with
  | .down | .isolated => (n, .discarded)
  | .syncing => (n.countCrc, .discarded)
  | .active =>
    let counted := n.countCrc.countError
    if counted.2 then (counted.1, .isolated) else (counted.1.discardFrame mode, .discarded)

/-- The lane once an entry of it has left the Arrival Queue (R75, R82). -/
def Lane.entryLeft (mode : Mode) (refused : Bool) (n : Lane) : Lane :=
  Lane.returnCredit mode
    { n with
      queued := n.queued - 1
      counters :=
        if refused then { n.counters with refusals := satSucc Config.max16 n.counters.refusals } else n.counters }

/-- The state with a lane as its controller left it; a lane just isolated raises LANE_ISOLATED (R69). -/
def State.laneOutcome (k : LaneNo) (outcome : Lane × Reception) (s : State) : State :=
  let s := s.putLane k outcome.1
  if outcome.2 = .isolated then s.raise .laneIsolated else s

end Sys2Proof.Machine
end

