-- ==== Sys2Proof/Machine/LaneRequests.lean ====
section
/-! DEFINITION. RESTORE_LANE, SET_LANE and READ_LANE (R80 to R82). -/

namespace Sys2Proof.Machine

open Sys2Proof

/-- RESTORE_LANE (R80). -/
def restoreLane (p : List Byte) (s : State) : State × Answer :=
  match laneOf (field 0 1 p) with
  | none => (s, refuse .outOfRange)
  | some k =>
    let n := s.lane k
    if n.state = .isolated ∨ (n.state = .down ∧ n.carrier) then (s.putLane k n.enterSyncing, okDone)
    else (s, refuse .wrongState)

def execRestoreLane (s : State) : Host.Outcome State Fault Refusal := .next (runRequest .restoreLane restoreLane s)

/-- A lane with a new allotment and error limit: a raised allotment is granted at once on an ACTIVE lane in RUN (R81). -/
def Lane.set (mode : Mode) (allotment errorLimit : Nat) (n : Lane) : Lane :=
  let n := { n with allotment := allotment, errorLimit := errorLimit }
  if n.state = .active ∧ mode = .run then n.grant (allotment - (n.outstanding + n.queued)) else n

/-- SET_LANE (R81). -/
def setLane (p : List Byte) (s : State) : State × Answer :=
  match laneOf (field 0 1 p) with
  | none => (s, refuse .outOfRange)
  | some k =>
    if 1 ≤ field 1 1 p ∧ field 1 1 p ≤ Config.maxAllotment ∧ 1 ≤ field 2 1 p ∧ field 2 1 p ≤ 255 then
      (s.putLane k (Lane.set s.mode (field 1 1 p) (field 2 1 p) (s.lane k)), okDone)
    else (s, refuse .outOfRange)

def execSetLane (s : State) : Host.Outcome State Fault Refusal := .next (runRequest .setLane setLane s)

/-- The code of a lane state (Table 11-1). -/
def LaneState.code : LaneState → Nat
  | .down => 0 | .syncing => 1 | .active => 2 | .isolated => 3

/-- The five counters, 2 bytes each (R82). -/
def LaneCounters.bytes (c : LaneCounters) : List Byte :=
  le 2 c.crcErrors ++ le 2 c.sequenceGaps ++ le 2 c.duplicates ++ le 2 c.creditViolations ++ le 2 c.refusals

/-- The payload of READ_LANE (Table 11-3). (An absent id or sequence is sent as 0, DEDUCED, log 13.) -/
def Lane.bytes (n : Lane) : List Byte :=
  [byte n.state.code, byte (bits [n.frontEnd.isSome, n.lastSeq.isSome, n.expectedSeq.isSome, n.carrier])] ++
    le 2 (n.frontEnd.getD 0).toNat ++ [n.lastSeq.getD 0, n.expectedSeq.getD 0] ++
    [byte n.outstanding, byte n.toSend, byte n.queued, byte n.allotment, byte n.errorLimit, byte n.errorCount,
      byte n.attempts] ++ n.counters.bytes

/-- READ_LANE (R82): the five counters are set to 0 in the same step. -/
def readLane (p : List Byte) (s : State) : State × Answer :=
  match laneOf (field 0 1 p) with
  | none => (s, refuse .outOfRange)
  | some k => (s.putLane k { s.lane k with counters := .zero }, okWith (s.lane k).bytes)

def execReadLane (s : State) : Host.Outcome State Fault Refusal := .next (runRequest .readLane readLane s)

end Sys2Proof.Machine
end

