-- ==== Sys2Proof/Machine/TariffRequests.lean ====
section
/-! DEFINITION. The tariff requests and the switch-point pool (R31 to R34, R40 to R43). -/

namespace Sys2Proof.Machine

open Sys2Proof

/-- What WRITE_TARIFF carries: the index, the header (with no list heads), and the points of both lists. -/
structure TariffWrite where
  index : TariffNo
  header : Tariff
  work : List SwitchPoint
  rest : List SwitchPoint
  deriving DecidableEq, Repr

/-- Reads a WRITE_TARIFF and checks its ranges (R40, step 1); none when one does not hold. -/
def TariffWrite.ofBytes (p : List Byte) : Option TariffWrite :=
  match tariffOf (field 0 1 p), Evaluation.ofCode (field 3 1 p), DemandQuantity.ofCode (field 5 1 p),
    bandOf (field 8 1 p), LeadPolicy.ofCode (field 11 1 p), IncompletePolicy.ofCode (field 12 1 p) with
  | some index, some evaluation, some quantity, some ratchetBand, some leadPolicy, some incompletePolicy =>
    if 1 ≤ field 4 1 p ∧ field 4 1 p ≤ 12 ∧ 1 ≤ field 6 1 p ∧ field 6 1 p ≤ 4 ∧ field 7 1 p ≤ 100 ∧
        field 8 1 p < field 6 1 p ∧ field 9 2 p ≤ 2000 then
      some
        { index := index
          header :=
            { Tariff.coldContent with
              id := field 1 2 p, evaluation := evaluation, n := field 4 1 p, quantity := quantity,
              bandCount := field 6 1 p, ratchetPercent := field 7 1 p, ratchetBand := ratchetBand,
              allowance := field 9 2 p, leadPolicy := leadPolicy, incompletePolicy := incompletePolicy,
              weekMask := BitVec.ofNat 7 (field 13 1 p), workCount := field 14 1 p, restCount := field 15 1 p }
          work := readPoints (field 14 1 p) (p.drop 16)
          rest := readPoints (field 15 1 p) (p.drop (16 + 2 * field 14 1 p)) }
    else none
  | _, _, _, _, _, _ => none

/-- The minutes of a list strictly increase (R34). -/
def increasing : List SwitchPoint → Bool
  | a :: b :: rest => decide (a.minute < b.minute) && increasing (b :: rest)
  | _ => true

/-- A switch-point list is valid (R34). -/
def validList (bandCount : Nat) (points : List SwitchPoint) : Bool :=
  1 ≤ points.length && points.length ≤ 16 && points.head?.any (fun p => p.minute == 0) &&
    points.all (fun p => p.minute ≤ 1439 && p.band.val < bandCount) && increasing points

/-- N × S divides 1440 (R31). -/
def blockFits (n s : Nat) : Bool := 1440 % (n * s) = 0

/-- The free entries of the pool, the lowest-numbered first (R32). -/
def freeEntries (pool : Vector PoolEntry 128) : List (Fin 128) :=
  (List.finRange 128).filter fun k => pool[k.val].owner.isNone

/-- Writes a chain over the entries given: each names the next one, and the last holds end-of-list (R33). -/
def writeChain (owner : PoolOwner) : List (Fin 128 × SwitchPoint) → Vector PoolEntry 128 → Vector PoolEntry 128
  | [], pool => pool
  | (k, point) :: rest, pool =>
    writeChain owner rest
      (pool.set k.val { point := point, next := rest.head?.map (·.1.val), owner := some owner })

/-- Frees every entry that a tariff owns and that is not among those kept (R33). -/
def freeOwned (t : TariffNo) (kept : List (Fin 128)) (pool : Vector PoolEntry 128) : Vector PoolEntry 128 :=
  Vector.ofFn fun k =>
    if (pool[k.val].owner.map (·.tariff)) = some t ∧ k ∉ kept then PoolEntry.free else pool[k.val]

/-- The pool after a WRITE_TARIFF: the new chains are taken from the free entries before the old ones are freed
(R33). -/
def Ledger.placeLists (w : TariffWrite) (l : Ledger) : Ledger × Tariff :=
  let free := freeEntries l.pool
  let workEntries := free.take w.work.length
  let restEntries := (free.drop w.work.length).take w.rest.length
  let pool := writeChain { tariff := w.index, list := .working } (workEntries.zip w.work) l.pool
  let pool := writeChain { tariff := w.index, list := .rest } (restEntries.zip w.rest) pool
  let pool := freeOwned w.index (workEntries ++ restEntries) pool
  ({ l with pool := pool },
    { w.header with workHead := workEntries.head?.map (·.val), restHead := restEntries.head?.map (·.val) })

/-- The account of a tariff just written: its window is cleared, and a billing account loses the maxima of bands at or
above the band count (R41, step 4). -/
def Account.underNewTariff (bandCount : Nat) (a : Account) : Account :=
  let cleared := a.clearWindow
  if a.bills then
    { cleared with
      period :=
        { cleared.period with
          maxima := Vector.ofFn fun b => if b.val < bandCount then cleared.period.maxima[b.val] else none } }
  else cleared

/-- Step 4 of R41 on one account; after a repair, a billing account with a close due is handed over (R139). -/
def renewAccount (t : TariffNo) (bandCount : Nat) (repair : Bool) (i : Slot) (l : Ledger) : Ledger :=
  let a := l.account i
  if a.faultMark || !a.names t then l
  else
    let l := l.checkAccount i
    if (l.account i).faultMark then l
    else
      let l := l.putAccount i ((l.account i).underNewTariff bandCount)
      if repair && (l.account i).bills then l.handIfDue i else l

/-- A WRITE_TARIFF that has passed its checks (R41). The accounts are taken in ascending slot order, so a repair hands
those with a close due to the Settlement Engine in that order (log 17). -/
def carryOutWrite (w : TariffWrite) (repair : Bool) (l : Ledger) : Ledger :=
  let placed := l.placeLists w
  let l := eachOf allSlots (renewAccount w.index w.header.bandCount repair) placed.1
  l.storeTariff w.index { placed.2 with checkWord := crc (placed.2.image w.work w.rest) }

/-- WRITE_TARIFF (R40, R41). -/
def writeTariff (p : List Byte) (c : Calendar) (mode : Mode) (l : Ledger) : Ledger × Answer :=
  match TariffWrite.ofBytes p with
  | none => (l, refuse .outOfRange)
  | some w =>
    if !(validList w.header.bandCount w.work && validList w.header.bandCount w.rest) then (l, refuse .badSwitchList)
    else if w.header.evaluation = .block && !blockFits w.header.n c.params.subinterval then (l, refuse .outOfRange)
    else
      let l := l.checkTariff w.index
      let state := (l.tariff w.index).state
      if state = .ready && mode = .run && !(l.naming w.index).isEmpty then (l, refuse .tariffInUse)
      else if (freeEntries l.pool).length < w.work.length + w.rest.length then (l, refuse .poolExhausted)
      else (carryOutWrite w (state == .faulted) l, okDone)

def execWriteTariff (s : State) : Host.Outcome State Fault Refusal :=
  .next (runRecordRequest .writeTariff writeTariff s)

/-- DELETE_TARIFF (R42): the tariff is not verified. The accounts are judged by their stored states, tariff indices and fault
marks, and none is verified: the model's choice (log 48). -/
def deleteTariff (p : List Byte) (_ : Calendar) (_ : Mode) (l : Ledger) : Ledger × Answer :=
  match tariffOf (field 0 1 p) with
  | none => (l, refuse .outOfRange)
  | some t =>
    if (l.tariff t).state = .empty then (l, refuse .noSuchTariff)
    else if !(l.naming t).isEmpty then (l, refuse .tariffInUse)
    else if allSlots.any fun i => (l.account i).faultMark then (l, refuse .faulted)
    else (Ledger.storeTariff t .empty { l with pool := freeOwned t [] l.pool }, okDone)

def execDeleteTariff (s : State) : Host.Outcome State Fault Refusal :=
  .next (runRecordRequest .deleteTariff deleteTariff s)

/-- READ_TARIFF (R43, Table 11-8): the in-use count is computed, without verifying any account. -/
def readTariff (p : List Byte) (_ : Calendar) (_ : Mode) (l : Ledger) : Ledger × Answer :=
  match tariffOf (field 0 1 p) with
  | none => (l, refuse .outOfRange)
  | some t =>
    if (l.tariff t).state = .empty then (l, refuse .noSuchTariff)
    else
      let l := l.checkTariff t
      match (l.tariff t).state, (l.tariff t).points l.pool t with
      | .ready, some (work, rest) =>
        (l, okWith (byte (l.naming t).length :: (l.tariff t).image work rest))
      | _, _ => (l, refuse .faulted)

def execReadTariff (s : State) : Host.Outcome State Fault Refusal :=
  .next (runRecordRequest .readTariff readTariff s)

end Sys2Proof.Machine
end

