-- ==== Sys2Proof/Machine/ModeRequests.lean ====
section
/-! DEFINITION. START_RUN, STOP_RUN, SET_RUN_PARAMETERS and READ_PART_STATUS (R179 to R183), and the attention requests
(R201, R202). -/

namespace Sys2Proof.Machine

open Sys2Proof

/-- The period start of every sound ACTIVE account (R180, step 1). -/
def startAccount (t : Seconds) (i : Slot) (l : Ledger) : Ledger :=
  if (l.account i).state = .active then
    let l := l.checkAccount i
    let a := l.account i
    if a.faultMark then l else l.putAccount i { a with period := { a.period with start := some t } }
  else l

/-- The calendar as a run starts: the anchor, no counted boundary, no grace timer (R180, step 2). -/
def Calendar.anchored (c : Calendar) : Calendar :=
  { c with
    lastBoundary := some (boundaryAtOrBefore c.params.subinterval c.time)
    boundaryCount := 0
    grace := none }

/-- The entry to RUN: the mode, and what the Intake Link Controller does on every lane (R83, R180). -/
def State.enterRun (s : State) : State :=
  { s.mapLanes (Lane.enterRun s.calendar.endedTag s.calendar.lastBoundary) with mode := .run }

/-- START_RUN (R179, R180). -/
def startRun (_ : List Byte) (s : State) : State × Answer :=
  if !s.calendar.isSet then (s, refuse .timeUnset)
  else
    let started := s.withLedger (eachOf allSlots (startAccount s.calendar.time) s.ledger)
    (State.enterRun { started with calendar := s.calendar.anchored }, okDone)

/-- START_RUN asks for its operation once its check on the calendar has passed (R180). -/
def startRunAsks (_ : List Byte) (s : State) : Bool := s.calendar.isSet

def execStartRun (s : State) : Host.Outcome State Fault Refusal :=
  .next (runOperation .startRun startRunAsks startRun s)

/-- STOP_RUN (R181): the slots are read by state, and the work lists of the Interval Engine and of the Intake Link
Controller are emptied (log 10). Frames that wait on the lanes stay (log 47). -/
def stopRun (_ : List Byte) (s : State) : State × Answer :=
  if allSlots.any fun i => (s.ledger.account i).state != .free then (s, refuse .notEmpty)
  else
    ({ s with
        calendar := { s.calendar with grace := none }, mode := .commissioning, work := [], laneBoundaries := [] },
      okDone)

/-- A request that asks for its operation whatever its parameters are. -/
def alwaysAsks (_ : List Byte) (_ : State) : Bool := true

def execStopRun (s : State) : Host.Outcome State Fault Refusal := .next (runOperation .stopRun alwaysAsks stopRun s)

/-- The values that S may take (Table 3-2). -/
def subintervals : List Nat := [1, 2, 3, 5, 10, 15, 30]

/-- The ranges of Table 3-2, and G below S × 60 (R61). -/
def RunParameters.inRange (r : RunParameters) : Bool :=
  subintervals.contains r.subinterval && 5 ≤ r.grace && r.grace ≤ 120 && r.grace < r.subinterval * 60 &&
    1 ≤ r.silenceLimit && r.silenceLimit ≤ 255 && r.countPeriod ≤ 255

/-- The alignment check of R182 on a tariff: READY BLOCK tariffs alone count, and none is verified. -/
def Tariff.admitsSubinterval (s : Nat) (t : Tariff) : Bool :=
  t.state != .ready || t.evaluation != .block || blockFits t.n s

/-- The run parameters that SET_RUN_PARAMETERS carries (Table 11-3). -/
def RunParameters.ofBytes (p : List Byte) : RunParameters :=
  { subinterval := field 0 1 p, grace := field 1 1 p, silenceLimit := field 2 1 p, countPeriod := field 3 1 p }

/-- SET_RUN_PARAMETERS (R182). -/
def setRunParameters (p : List Byte) (s : State) : State × Answer :=
  let r := RunParameters.ofBytes p
  if !r.inRange then (s, refuse .outOfRange)
  else if !(allTariffs.all fun t => (s.ledger.tariff t).admitsSubinterval r.subinterval) then (s, refuse .outOfRange)
  else ({ s with calendar := { s.calendar with params := r, boundaryCount := 0 } }, okDone)

/-- SET_RUN_PARAMETERS asks for its operation once its values lie in their ranges: the alignment check reads the tariffs
(R182). -/
def setRunParametersAsks (p : List Byte) (_ : State) : Bool := (RunParameters.ofBytes p).inRange

def execSetRunParameters (s : State) : Host.Outcome State Fault Refusal :=
  .next (runOperation .setRunParameters setRunParametersAsks setRunParameters s)

/-- The codes of the mode and of the Accumulation Engine's state (Table 11-1). -/
def Mode.code : Mode → Nat
  | .commissioning => 0 | .run => 1 | .restarting => 2

def EngineState.code : EngineState → Nat
  | .running => 0 | .stopping => 1 | .held => 2

/-- The payload of READ_PART_STATUS (R183, Table 11-3). -/
def State.partStatus (s : State) : List Byte :=
  [byte s.mode.code, byte (bits [s.calendar.isSet, s.sweep.position.isSome]), byte s.engine.code,
    byte s.sweep.faultCount,
    byte ((s.lane 0).state.code + 4 * (s.lane 1).state.code + 16 * (s.lane 2).state.code +
      64 * (s.lane 3).state.code),
    byte (allSlots.filter fun i => (s.ledger.account i).state = .free).length,
    byte (freeEntries s.ledger.pool).length, byte s.arrivals.length] ++ le 2 s.port.mask.toNat

/-- READ_PART_STATUS (R183): its two counts are taken in one operation. -/
def readPartStatus (_ : List Byte) (s : State) : State × Answer := (s, okWith s.partStatus)

def execReadPartStatus (s : State) : Host.Outcome State Fault Refusal :=
  .next (runOperation .readPartStatus alwaysAsks readPartStatus s)

/-- SET_ATTENTION_MASK (R201): it answers with the new mask and the attention set. -/
def setAttentionMask (p : List Byte) (s : State) : State × Answer :=
  match maskOf (field 0 2 p) with
  | none => (s, refuse .outOfRange)
  | some m =>
    ({ s with port := { s.port with mask := m } }, okWith (le 2 m.toNat ++ le 2 s.ledger.attention.toNat))

def execSetAttentionMask (s : State) : Host.Outcome State Fault Refusal :=
  .next (runRequest .setAttentionMask setAttentionMask s)

/-- ACK_ATTENTION (R202): it answers with the attention set after the clearing. -/
def ackAttention (p : List Byte) (s : State) : State × Answer :=
  match maskOf (field 0 2 p) with
  | none => (s, refuse .outOfRange)
  | some m =>
    let left := s.ledger.attention &&& ~~~m
    (s.withLedger { s.ledger with attention := left }, okWith (le 2 left.toNat))

def execAckAttention (s : State) : Host.Outcome State Fault Refusal :=
  .next (runRequest .ackAttention ackAttention s)

end Sys2Proof.Machine
end

