-- ==== Sys2Proof/Machine/IntervalEngine.lean ====
section
/-! DEFINITION. The Interval Engine's operations (R111 to R116, R44). An item that needs no further operation leaves the
work list with the next operation of the engine or the next placement (log 31). -/

namespace Sys2Proof.Machine

open Sys2Proof

/-- The state after an operation of the Interval Engine. -/
def State.intervalTurn (l : Ledger) (work : List WorkItem) (s : State) : State :=
  { s.groupTurn .intervalEngine l with work := openWork s.calendar l work }

/-- BOUNDARY_AGEING: step 1 of the boundary work (R112). -/
def State.ageStep (s : State) : State :=
  match s.currentWork with
  | .boundary tag time .ageing :: rest =>
    s.intervalTurn (ageOwners s.calendar 0 s.ledger) (.boundary tag time .folds :: rest)
  | _ => s

/-- FOLD: one operation of step 2 of the boundary work (R95, R112). -/
def State.foldStep (s : State) : State :=
  match s.currentWork with
  | .boundary tag time .folds :: rest =>
    match s.ledger.dueFold s.calendar tag with
    | some i => s.intervalTurn (foldChange i s.ledger) (.boundary tag time .folds :: rest)
    | none => s
  | _ => s

/-- The boundary time is the scheduled close instant of an account (R53). -/
def Account.closesAt (t : Seconds) (a : Account) : Bool :=
  let d := dateTimeOf t
  d.day = a.closeDay && d.hour = a.closeHour && d.minute = 0

/-- A close due is placed; one already present is kept (R137). -/
def Account.placeDue (due : CloseDue) (a : Account) : Account :=
  match a.closeDue with
  | some _ => a
  | none => { a with closeDue := some due }

/-- The pending slot opened for an account at the boundary that ends a tag (R113). -/
def Account.newSlot (tag : Tag) (a : Account) : PendingSlot :=
  { tag := tag, energy := .zero, expected := a.members.map fun i => { intake := i, reported := false },
    doubtful := false }

/-- The scheduled close detection of a visit: the due, and the account handed to the Settlement Engine when a due is
placed (R53, R139). -/
def detectClose (t : Seconds) (i : Slot) (l : Ledger) : Ledger :=
  let a := l.account i
  if a.closesAt t && a.closeDue.isNone then
    (l.putAccount i (a.placeDue { cause := .scheduled, time := t })).handToSettlement i
  else l

/-- The visit of an account at the boundary {tag, t} (R112 to R114). -/
def visitAccount (c : Calendar) (tag : Tag) (t : Seconds) (i : Slot) (l : Ledger) : Ledger :=
  let l := l.checkAccount i
  if (l.account i).faultMark then l
  else
    let l := detectClose t i l
    let a := l.account i
    if a.state = .active then
      let l := l.putAccount i { a with storedSlot := some (a.newSlot tag) }
      if a.members.isEmpty then closeSlot .ordinary c i l else l
    else l

/-- Where the account visits of a boundary item start, if that is what it needs next: after its last fold, or from the
slot it has reached. -/
def BoundaryPhase.visitStart (c : Calendar) (l : Ledger) (tag : Tag) : BoundaryPhase → Option Nat
  | .ageing => none
  | .folds => if (l.dueFold c tag).isNone then some 0 else none
  | .visits k => some k

/-- ACCOUNT_VISIT: one operation of step 3 of the boundary work (R112). -/
def State.visitStep (s : State) : State :=
  match s.currentWork with
  | .boundary tag time phase :: rest =>
    match (phase.visitStart s.calendar s.ledger tag).bind fun k => s.ledger.nextVisit k with
    | some i =>
      s.intervalTurn (visitAccount s.calendar tag time i s.ledger) (.boundary tag time (.visits (i.val + 1)) :: rest)
    | none => s
  | _ => s

/-- The closure of a completeness item: made when the account is ACTIVE and holds a pending slot with the tag (R116). -/
def closeIfHolding (c : Calendar) (tag : Tag) (i : Slot) (l : Ledger) : Ledger :=
  let a := l.account i
  if a.state = .active && a.pendingSlot.any (fun p => p.tag == tag) then closeSlot .ordinary c i l else l

/-- SLOT_CLOSURE: one closure of a grace expiry, or that of a completeness item (R116). A completeness item that is
discarded without effect counts as a turn of the Interval Engine too (log 39). -/
def State.closureStep (s : State) : State :=
  match s.currentWork with
  | .grace tag k :: rest =>
    match s.ledger.nextHolding tag k with
    | some i => s.intervalTurn (closeSlot .ordinary s.calendar i s.ledger) (.grace tag (i.val + 1) :: rest)
    | none => s
  | .completeness i tag :: rest => s.intervalTurn (closeIfHolding s.calendar tag i s.ledger) rest
  | _ => s

/-- Whether a tariff's list for a day holds a notify point at a minute (R44). -/
def notifies (t : Tariff) (p : Schedule) (time : Seconds) : Bool :=
  (p.listOn t (time / 86400)).any fun q => q.minute == minuteOfDay time && q.notify

/-- The band-notify check of one tariff: a READY tariff that an account names is verified and looked at; the answer says
whether a point notifies (R44). -/
def notifyCheck (time : Seconds) (t : TariffNo) (found : Ledger × Bool) : Ledger × Bool :=
  let l := found.1
  if (l.tariff t).state = .ready && !(l.naming t).isEmpty then
    let l := l.checkTariff t
    (l, found.2 || ((l.tariff t).state = .ready && notifies (l.tariff t) (l.schedule t) time))
  else found

/-- The band-notify check of a minute event: BAND_NOTIFY is raised at most once (R44). -/
def bandNotify (time : Seconds) (l : Ledger) : Ledger :=
  let found := allTariffs.foldl (fun found t => notifyCheck time t found) (l, false)
  found.1.raiseIf found.2 .bandNotify

/-- BAND_NOTIFY_CHECK: the operation of a minute item; outside RUN the item is discarded without a check (R44, R180),
which counts as a turn of the Interval Engine too (log 39). -/
def State.notifyStep (s : State) : State :=
  match s.currentWork with
  | .minute time :: rest =>
    s.intervalTurn (if s.mode = .run then bandNotify time s.ledger else s.ledger) rest
  | _ => s

end Sys2Proof.Machine
end

