-- ==== Sys2Proof/Machine/Placement.lean ====
section
/-! DEFINITION. The Accumulation Engine: the placement of an entry (R98 to R104), and the hold (R108, R109). -/

namespace Sys2Proof.Machine

open Sys2Proof

/-- The energy of an entry: its counts times the intake's scale, in full (R100). -/
def QueueEntry.energy (scale : Nat) (e : QueueEntry) : Energy :=
  { imp := e.imp.toNat * scale, exp := e.exp.toNat * scale, lag := e.lag.toNat * scale, lead := e.lead.toNat * scale }

/-- Energies added, each saturating at 48 bits (R5, R86). -/
def Energy.add (a b : Energy) : Energy :=
  { imp := satAdd Config.max48 a.imp b.imp, exp := satAdd Config.max48 a.exp b.exp,
    lag := satAdd Config.max48 a.lag b.lag, lead := satAdd Config.max48 a.lead b.lead }

/-- The part of an energy that a slot or a late field takes. -/
def Energy.slotPart (e : Energy) : SlotEnergy := { imp := e.imp, lag := e.lag, lead := e.lead }

/-- Slot energies added, each saturating at a limit. -/
def SlotEnergy.add (limit : Nat) (a b : SlotEnergy) : SlotEnergy :=
  { imp := satAdd limit a.imp b.imp, lag := satAdd limit a.lag b.lag, lead := satAdd limit a.lead b.lead }

/-- Some accumulator of the period stands at its limit (R5). -/
def Period.atLimit (p : Period) : Bool :=
  p.energy.imp == Config.max48 || p.energy.exp == Config.max48 || p.energy.lag == Config.max48 ||
    p.energy.lead == Config.max48 || p.late.imp == Config.max48 || p.late.lag == Config.max48 ||
    p.late.lead == Config.max48

/-- The SATURATED flag is set once an accumulator has reached its limit, and stays set (R5). -/
def Period.flagSaturation (p : Period) : Period := { p with saturated := p.saturated || p.atLimit }

/-- On-time energy in the period (R102). -/
def Period.addOnTime (e : Energy) (p : Period) : Period := Period.flagSaturation { p with energy := p.energy.add e }

/-- Late energy in the period: in the energies and in the late part (R103). -/
def Period.addLate (e : Energy) (p : Period) : Period :=
  Period.flagSaturation { p with energy := p.energy.add e, late := p.late.add Config.max48 e.slotPart }

/-- The expected members once one of them has reported (R102). -/
def markReported (i : IntakeNo) (expected : List ExpectedMember) : List ExpectedMember :=
  expected.map fun m => if m.intake = i then { m with reported := true } else m

/-- A pending slot after an on-time entry (R102, steps 1 to 3). -/
def PendingSlot.take (i : IntakeNo) (e : Energy) (last doubtful : Bool) (p : PendingSlot) : PendingSlot :=
  { p with
    energy := p.energy.add Config.max32 e.slotPart
    expected := if last then markReported i p.expected else p.expected
    doubtful := p.doubtful || doubtful }

/-- Every expected member has reported (R102, step 4). -/
def PendingSlot.complete (p : PendingSlot) : Bool := p.expected.all (·.reported)

/-- The effective owner of an entry's tag (R100), and whether it is the present owner. -/
def Intake.effectiveOwner (c : Calendar) (tag : Tag) (x : Intake) : Option Slot × Bool :=
  match x.change with
  | some change => if c.age tag ≤ c.age change.tag then (change.target, change.target = x.owner) else (x.owner, true)
  | none => (x.owner, true)

/-- The intake after a report placed on time or late (R102, R103). -/
def Intake.reportPlaced (tag : Tag) (x : Intake) : Intake := { x with lastReported := some tag, silent := false }

/-- All four held energies are zero (R101). -/
def Energy.isZero (e : Energy) : Bool := e.imp == 0 && e.exp == 0 && e.lag == 0 && e.lead == 0

/-- An entry's energy goes to the intake's held energy (R101); nothing else of the intake changes (log 15). -/
def holdEnergy (i : IntakeNo) (e : Energy) (l : Ledger) : Ledger :=
  let x := l.intake i
  let held := x.held.add e
  (l.putIntake i { x with held := held }).raiseIf (x.held.isZero && !held.isZero) .heldEnergy

/-- The tag distance of an entry (R99). -/
def Calendar.distance (tag : Tag) (c : Calendar) : Nat := (c.endedTag - tag).toNat

/-- What a placement leaves: the ledger, whether the entry was refused, and an account whose slot it completed. -/
structure Placed where
  ledger : Ledger
  refused : Bool
  completed : Option Slot
  deriving DecidableEq, Repr

/-- The account takes an entry's energy, on time or late (R102, R103). -/
def placeInAccount (c : Calendar) (e : QueueEntry) (i : IntakeNo) (a : Slot) (l : Ledger) : Placed :=
  let x := l.intake i
  let acc := l.account a
  let energy := e.energy x.scale
  let l := l.putIntake i (x.reportPlaced e.tag)
  match acc.storedSlot with
  | some p =>
    if c.distance e.tag = 0 ∧ p.tag = e.tag then
      let slot := p.take i energy e.last e.doubtful
      { ledger := l.putAccount a { acc with period := acc.period.addOnTime energy, storedSlot := some slot },
        refused := false, completed := if slot.complete then some a else none }
    else
      { ledger := l.putAccount a { acc with period := acc.period.addLate energy }, refused := false, completed := none }
  | none =>
    { ledger := l.putAccount a { acc with period := acc.period.addLate energy }, refused := false, completed := none }

/-- The entry's tag is earlier than the present owner's owner-since tag (R101). -/
def Intake.beforeOwner (c : Calendar) (tag : Tag) (x : Intake) : Bool :=
  match x.ownerSince with
  | none => false
  | some since => c.age since < c.age tag

/-- Places an entry that is not refused: its effective owner is verified, and R101 decides whether its energy is
held. -/
def placeEnergy (c : Calendar) (mode : Mode) (e : QueueEntry) (i : IntakeNo) (l : Ledger) : Placed :=
  let x := l.intake i
  let owner := x.effectiveOwner c e.tag
  let hold (l : Ledger) : Placed :=
    { ledger := holdEnergy i (e.energy x.scale) l, refused := false, completed := none }
  match owner.1 with
  | none => hold l
  | some a =>
    let l := l.checkAccount a
    if (l.account a).state != .active || (owner.2 && x.beforeOwner c e.tag) || mode == .commissioning then hold l
    else placeInAccount c e i a l

/-- An entry is refused on its intake or its tag (R99); the intake has been verified. -/
def refusesEntry (c : Calendar) (e : QueueEntry) (x : Intake) : Bool :=
  x.state == .undefined || x.state == .faulted || e.lane != x.lane || Config.lateDistance < c.distance e.tag

/-- The placement or refusal of an entry, in one operation (R99 to R103). -/
def placeEntry (c : Calendar) (mode : Mode) (e : QueueEntry) (l : Ledger) : Placed :=
  match intakeOf e.intake.toNat with
  | none => { ledger := l, refused := true, completed := none }
  | some i =>
    let l := l.checkIntake i
    if refusesEntry c e (l.intake i) then { ledger := l, refused := true, completed := none }
    else placeEnergy c mode e i l

/-- A completeness item is handed to the Interval Engine, at most one for an account slot (R111). -/
def addCompleteness (tag : Tag) (i : Slot) (work : List WorkItem) : List WorkItem :=
  if work.any (fun w => match w with | .completeness j _ => i == j | _ => false) then work
  else work ++ [.completeness i tag]

/-- The engine once its placement is complete (R108). -/
def EngineState.afterPlacement : EngineState → EngineState
  | .stopping => .held
  | e => e

/-- The entry at the head leaves the Arrival Queue, placed or refused (R75, R79, R82). A boundary item whose work is
complete has left the Interval Engine's list, since only then is a placement taken (R98, R112; log 31). -/
def State.finishPlacement (e : QueueEntry) (rest : List QueueEntry) (p : Placed) (s : State) : State :=
  { s.putLane e.lane (Lane.entryLeft s.mode p.refused (s.lane e.lane)) with
    ledger := p.ledger
    arrivals := rest
    arbiter := s.arbiter.grant .accumulationEngine
    engine := s.engine.afterPlacement
    work := match p.completed with | none => s.currentWork | some i => addCompleteness e.tag i s.currentWork }

/-- The Accumulation Engine takes the entry at the head (R98). -/
def State.takeEntry (s : State) : State :=
  match s.arrivals with
  | [] => s
  | e :: rest => s.finishPlacement e rest (placeEntry s.calendar s.mode e s.ledger)

/-- A placement is in progress when the engine is RUNNING and has an entry that it may take (R108, log 9). -/
def State.placing (s : State) : Bool := !s.arrivals.isEmpty && !s.boundaryOpen

/-- HOLD_ACCUMULATION (R108). -/
def holdAccumulation (_ : List Byte) (s : State) : State × Answer :=
  if s.engine = .running then ({ s with engine := if s.placing then .stopping else .held }, okDone)
  else (s, refuse .wrongState)

def execHoldAccumulation (s : State) : Host.Outcome State Fault Refusal :=
  .next (runRequest .holdAccumulation holdAccumulation s)

/-- RELEASE_ACCUMULATION (R109). -/
def releaseAccumulation (_ : List Byte) (s : State) : State × Answer :=
  if s.engine = .running then (s, refuse .wrongState) else ({ s with engine := .running }, okDone)

def execReleaseAccumulation (s : State) : Host.Outcome State Fault Refusal :=
  .next (runRequest .releaseAccumulation releaseAccumulation s)

end Sys2Proof.Machine
end

