-- ==== Sys2Proof/Machine/RepairRequests.lean ====
section
/-! DEFINITION. REPAIR_ACCOUNT, DISCARD_ACCOUNT, REPAIR_INTAKE (R168 to R171), VERIFY_STORE and the integrity sweep (R173
to R175). -/

namespace Sys2Proof.Machine

open Sys2Proof

/-- The sound intakes that name a slot as their owner, in ascending number (R169). -/
def Ledger.owned (a : Slot) (l : Ledger) : List IntakeNo :=
  allIntakes.filter fun i => (l.intake i).state == .member && (l.intake i).owner == some a

/-- The sound intakes whose pending join names a slot (R169). -/
def Ledger.soundJoiners (a : Slot) (l : Ledger) : List IntakeNo :=
  allIntakes.filter fun i => !(l.intake i).faultMark && (l.intake i).joining a

/-- Rewrites each intake of a list. -/
def rewriteEach (f : Intake → Intake) (numbers : List IntakeNo) (l : Ledger) : Ledger :=
  eachOf numbers (fun i l => l.putIntake i (f (l.intake i))) l

/-- A ratchet history as REPAIR_ACCOUNT carries it: position k is present when bit k − 1 is set (Table 11-3). -/
def ratchetOfBytes (p : List Byte) : Vector (Option Nat) 11 :=
  Vector.ofFn fun k => if (field 0 2 p).testBit k.val then some (field (2 + 4 * k.val) 4 p) else none

/-- The account that a repair leaves (R169, steps 1 to 6). -/
def Account.repaired (r : IdentityRequest) (tariff : TariffNo) (ratchet : Vector (Option Nat) 11)
    (members : List IntakeNo) (start : Option Seconds) : Account :=
  { Account.opened r tariff start with members := members, ratchet := ratchet }

/-- A REPAIR_ACCOUNT that has passed its checks (R169). -/
def carryOutRepair (r : IdentityRequest) (tariff : TariffNo) (ratchet : Vector (Option Nat) 11)
    (start : Option Seconds) (i : Slot) (l : Ledger) : Ledger :=
  let l := l.checkIntakes
  let members := (l.owned i).take Config.memberLimit
  let l := rewriteEach Intake.released ((l.owned i).drop Config.memberLimit) l
  let l := rewriteEach Intake.withoutChange ((l.soundJoiners i).drop (Config.memberLimit - members.length)) l
  l.putAccount i (.repaired r tariff ratchet members start)

/-- REPAIR_ACCOUNT (R168, R169). The check of the number reads the stored number of every other account that is not FREE,
and verifies them (R2, R165); the slot it repairs is FAULTED and is not verified. -/
def repairAccount (p : List Byte) (c : Calendar) (mode : Mode) (l : Ledger) : Ledger × Answer :=
  let r := IdentityRequest.ofBytes (p.drop 1)
  match tariffOf r.tariff with
  | none => (l, refuse .outOfRange)
  | some t =>
    addressFaulted (field 0 1 p) r.inRange l fun i _ =>
      let l := l.checkTariff t
      if (l.tariff t).state != .ready then (l, refuse .noSuchTariff)
      else
        let l := l.checkAccounts
        if (l.holder r.number (some i)).isSome then (l, refuse .duplicateAccount)
        else (carryOutRepair r t (ratchetOfBytes (p.drop 13)) (periodStartIn mode c) i l, okDone)

def execRepairAccount (s : State) : Host.Outcome State Fault Refusal :=
  .next (runRecordRequest .repairAccount repairAccount s)

/-- DISCARD_ACCOUNT (R170): a FAULTED intake is not written (R167). -/
def discardAccount (p : List Byte) (_ : Calendar) (_ : Mode) (l : Ledger) : Ledger × Answer :=
  addressFaulted (field 0 1 p) true l fun i _ =>
    let l := l.checkIntakes
    let l := rewriteEach Intake.released (l.owned i) l
    let l := rewriteEach Intake.withoutChange (l.soundJoiners i) l
    (l.storeAccount i .free, okDone)

def execDiscardAccount (s : State) : Host.Outcome State Fault Refusal :=
  .next (runRecordRequest .discardAccount discardAccount s)

/-- The intake that a repair leaves, with the owner found (R171). -/
def Intake.repaired (k : LaneNo) (scale : Nat) (owner : Option Slot) (c : Calendar) : Intake :=
  { phase := if owner.isSome then .member else .free, lane := k, scale := scale, owner := owner,
    ownerSince := owner.map fun _ => c.currentTag, change := none, lastReported := none, silentCount := 0,
    silent := false, held := .zero, checkWord := 0, faultMark := false }

/-- The sound billing accounts that list an intake (R171). -/
def Ledger.listing (i : IntakeNo) (l : Ledger) : List Slot :=
  allSlots.filter fun a => (l.account a).bills && (l.account a).members.contains i

/-- A REPAIR_INTAKE that has passed its checks (R171). -/
def carryOutIntakeRepair (k : LaneNo) (scale : Nat) (c : Calendar) (i : IntakeNo) (l : Ledger) : Ledger :=
  let l := l.checkAccounts
  let found := l.listing i
  let l := eachOf found.tail (fun a l => l.putAccount a ((l.account a).leave i)) l
  l.putIntake i (.repaired k scale found.head? c)

/-- REPAIR_INTAKE (R171). The intake it names is judged by its mark and is not verified (DESIGN CHOICE, log 45). -/
def repairIntake (p : List Byte) (c : Calendar) (_ : Mode) (l : Ledger) : Ledger × Answer :=
  match intakeOf (field 0 1 p), laneAndScale p with
  | some i, some (k, scale) =>
    if (l.intake i).faultMark then (carryOutIntakeRepair k scale c i l, okDone) else (l, refuse .wrongState)
  | _, _ => (l, refuse .outOfRange)

def execRepairIntake (s : State) : Host.Outcome State Fault Refusal :=
  .next (runRecordRequest .repairIntake repairIntake s)

/-- A sweep that begins at tariff 0 with a fault count of 0 (R173, R186). -/
def Sweep.begun : Sweep := { position := some (.tariff 0), faultCount := 0 }

/-- VERIFY_STORE (R173). -/
def verifyStore (_ : List Byte) (s : State) : State × Answer :=
  if s.sweep.position.isSome then (s, refuse .sweepActive) else ({ s with sweep := .begun }, okDone)

def execVerifyStore (s : State) : Host.Outcome State Fault Refusal := .next (runRequest .verifyStore verifyStore s)

/-- The record after one in the order of the sweep (R174). -/
def SweepPosition.following : SweepPosition → Option SweepPosition
  | .tariff i => some (if h : i.val + 1 < 16 then .tariff ⟨i.val + 1, h⟩ else .account 0)
  | .account i => some (if h : i.val + 1 < 64 then .account ⟨i.val + 1, h⟩ else .intake 0)
  | .intake i => if h : i.val + 1 < 96 then some (.intake ⟨i.val + 1, h⟩) else none

/-- Verifies one record of the sweep (R174). -/
def SweepPosition.check (l : Ledger) : SweepPosition → Ledger
  | .tariff i => l.checkTariff i
  | .account i => l.checkAccount i
  | .intake i => l.checkIntake i

/-- The record of the sweep is not marked and fails its verification (R174). -/
def SweepPosition.fails (l : Ledger) : SweepPosition → Bool
  | .tariff i => !(l.tariff i).faultMark && !(l.tariff i).checks l.pool i
  | .account i => !(l.account i).faultMark && !(l.account i).checks
  | .intake i => !(l.intake i).faultMark && !(l.intake i).checks

/-- The sweep after the operation for a record (R174, R175). -/
def Sweep.advance (l : Ledger) (at' : SweepPosition) (w : Sweep) : Sweep :=
  { position := at'.following, faultCount := if at'.fails l then w.faultCount + 1 else w.faultCount }

/-- SWEEP_VERIFY: one operation of the sweep; the last one raises SWEEP_DONE (R174, R175). -/
def State.sweepStep (s : State) : State :=
  match s.sweep.position with
  | none => s
  | some p =>
    let l := (p.check s.ledger).raiseIf p.following.isNone .sweepDone
    { s.groupTurn .integritySweep l with sweep := s.sweep.advance s.ledger p }

end Sys2Proof.Machine
end

