-- ==== Sys2Proof/Machine/Settlement.lean ====
section
/-! DEFINITION. The close requests (R150 to R153) and the Settlement Engine's work (R139, R140). -/

namespace Sys2Proof.Machine

open Sys2Proof

/-- CLOSE_NOW (R150). -/
def closeNow (p : List Byte) (c : Calendar) (_ : Mode) (l : Ledger) : Ledger × Answer :=
  addressAccount (field 0 1 p) true l fun i a l =>
    if a.state = .final then (l, refuse .wrongState)
    else if a.closeDue.isSome then (l, refuse .closeAlreadyDue)
    else ((l.putAccount i { a with closeDue := some { cause := .host, time := c.time } }).handToSettlement i, okDone)

def execCloseNow (s : State) : Host.Outcome State Fault Refusal :=
  .next (runRecordRequest .closeNow closeNow s)

/-- A CHANGE_TARIFF that has passed its checks (R152): no close is made while the period start is absent. -/
def switchTariff (c : Calendar) (i : Slot) (t : TariffNo) (l : Ledger) : Ledger :=
  let l := if (l.account i).period.start.isSome then performClose .tariffChange false c.time i l else l
  l.putAccount i { (l.account i).clearWindow with tariff := t }

/-- CHANGE_TARIFF (R151, R152). -/
def changeTariff (p : List Byte) (c : Calendar) (_ : Mode) (l : Ledger) : Ledger × Answer :=
  match tariffOf (field 1 1 p) with
  | none => (l, refuse .outOfRange)
  | some t =>
    addressAccount (field 0 1 p) true l fun i a l =>
      if a.state = .final then (l, refuse .wrongState)
      else if a.settled.isSome then (l, refuse .settlementPending)
      else if a.pendingSlot.isSome then (l, refuse .closureInProgress)
      else if a.closeDue.isSome then (l, refuse .closeAlreadyDue)
      else
        let l := l.checkTariff a.tariff
        if (l.tariff a.tariff).state != .ready then (l, refuse .faulted)
        else
          let l := l.checkTariff t
          if (l.tariff t).state != .ready then (l, refuse .noSuchTariff)
          else (switchTariff c i t l, okDone)

def execChangeTariff (s : State) : Host.Outcome State Fault Refusal :=
  .next (runRecordRequest .changeTariff changeTariff s)

/-- RELEASE_SETTLEMENT (R153). -/
def releaseSettlement (p : List Byte) (_ : Calendar) (_ : Mode) (l : Ledger) : Ledger × Answer :=
  addressAccount (field 0 1 p) true l fun i a l =>
    if a.settled.isNone then (l, refuse .nothingSettled)
    else if a.state = .final then (l.storeAccount i .free, okDone)
    else ((l.putAccount i { a with settled := none }).handIfDue i, okDone)

def execReleaseSettlement (s : State) : Host.Outcome State Fault Refusal :=
  .next (runRecordRequest .releaseSettlement releaseSettlement s)

/-- The Settlement Engine examines the account at the head of its list, which leaves the list (R139). -/
def settleNext (now : Seconds) (l : Ledger) : Ledger :=
  match l.closeWork with
  | [] => l
  | i :: rest => { examine false now i l with closeWork := rest }

/-- The Settlement Engine's operation (R139, R140). -/
def State.settleStep (s : State) : State :=
  if s.ledger.closeWork.isEmpty then s else s.groupTurn .settlementEngine (settleNext s.calendar.time s.ledger)

end Sys2Proof.Machine
end

