-- ==== Sys2Proof/Machine/Starts.lean ====
section
/-! DEFINITION. The supply events and the two kinds of start (R176, R178, R184, R185, R188), and the restart catch-up
(R131 to R135, R157, R158, R186). -/

namespace Sys2Proof.Machine

open Sys2Proof

/-- Main power is lost: the blocks are at rest until the next start (R184, R185). -/
def execPowerLoss (s : State) : Host.Outcome State Fault Refusal := .next { s with powered := false }

/-- RESET_N is asserted: the blocks are at rest until the start at its release (R184). -/
def execResetAssert (s : State) : Host.Outcome State Fault Refusal := .next { s with resetHeld := true }

/-- VBAK has dipped below its holding level: the backup monitor latch records it (R176). -/
def execVbakDip (s : State) : Host.Outcome State Fault Refusal := .next { s with dipLatch := true }

/-- The retained store is valid (R176). -/
def State.storeValid (s : State) : Bool := !s.dipLatch && s.signature == Config.fixedSignature

/-- A lane after a start: a lane whose carrier is present enters SYNCING (R63, R66, R84). -/
def Lane.started (n : Lane) : Lane := if n.carrier then n.enterSyncing else n

/-- The state after a cold start (R176, R184): no attention is raised. The signature, first written to another value, ends
at its fixed value. -/
def State.coldStart (s : State) : State :=
  { ledger := .cold, signature := Config.fixedSignature, signatureChoices := s.signatureChoices + 1,
    dipLatch := false, arbiter := .fresh, sweep := { position := none, faultCount := 0 }, calendar := .cold,
    lanes := s.lanes.map fun (n : Lane) => Lane.started (.cold n.carrier),
    arrivals := [], laneBoundaries := [], engine := .running, work := [], port := .fresh 0, mode := .commissioning,
    powered := true, resetHeld := false, pending := s.pending }

/-- The ledger across a warm start: the records are kept, the attention set and the work list are cleared (R185). -/
def Ledger.warm (l : Ledger) : Ledger := { l with attention := 0, closeWork := [] }

/-- The state after a warm start (Table 9-3): from COMMISSIONING with RESTART_DONE raised (R188), from RUN or RESTARTING
in RESTARTING with the sweep begun (R186, R187). -/
def State.warmStart (s : State) : State :=
  let kept :=
    { s with
      ledger := s.ledger.warm
      arbiter := .fresh
      calendar := { s.calendar with grace := none }
      lanes := s.lanes.map fun (n : Lane) => Lane.started (.fresh n.carrier n.allotment n.errorLimit)
      arrivals := []
      laneBoundaries := []
      engine := .running
      work := []
      port := .fresh s.port.mask
      powered := true
      resetHeld := false }
  if s.mode = .commissioning then
    { kept with ledger := s.ledger.warm.raise .restartDone, sweep := { s.sweep with position := none } }
  else { kept with mode := .restarting, sweep := .begun }

/-- A start that power loss or RESET_N interrupts: an interrupted cold start leaves the signature invalid (R176), an
interrupted warm start leaves the retained state as it was (R187). The device is at rest again (log 19). -/
def State.interruptedStart (s : State) : State :=
  if s.storeValid then { s with resetHeld := true }
  else
    { s with
      signature := Config.otherSignature s.signatureChoices
      signatureChoices := s.signatureChoices + 1
      resetHeld := true }

/-- DEVICE_START: the retained store decides whether it is cold or warm (R184). -/
def execDeviceStart (cutShort : Bool) (s : State) : Host.Outcome State Fault Refusal :=
  .next (if cutShort then s.interruptedStart else if s.storeValid then s.warmStart else s.coldStart)

/-! ### The restart catch-up -/

/-- A pending slot that survived the outage is closed (R132). -/
def closeStale (c : Calendar) (i : Slot) (l : Ledger) : Ledger :=
  if (l.account i).pendingSlot.isSome then closeSlot .stale c i l else l

/-- The slot of a missed boundary (R133). -/
def WindowSlot.outage : WindowSlot := { energy := .zero, state := .outage }

/-- The slot of a missed boundary enters the window; under a READY BLOCK tariff an aligned one is followed by the reload
(R133). -/
def Account.enterOutage (t : Tariff) (s : Nat) (boundary : Seconds) (a : Account) : Account :=
  let entered := a.enterSlot t.ringLength .outage
  if t.endsBlock s boundary then entered.clearWindow else entered

/-- The last `k` of the missed boundary instants, the oldest first (R133). -/
def lastInstants (s k : Nat) (latest : Seconds) : List Seconds :=
  (List.range k).map fun j => latest - (k - 1 - j) * (s * 60)

/-- The OUTAGE slots of an ACTIVE account (R133). -/
def enterOutages (c : Calendar) (missed : Nat) (i : Slot) (l : Ledger) : Ledger :=
  if (l.account i).state = .active then
    let l := l.checkAccount i
    let a := l.account i
    if a.faultMark then l
    else
      let l := l.checkTariff a.tariff
      let t := l.tariff a.tariff
      let s := c.params.subinterval
      let k := min missed t.ringLength
      let a := (lastInstants s k (boundaryAtOrBefore s c.time)).foldl (fun a b => a.enterOutage t s b) a
      l.putAccount i { a with period := { a.period with outageSlots := satAdd Config.max16 a.period.outageSlots k } }
  else l

/-- The pending change of an intake is folded in the catch-up (R134). -/
def foldMissed (i : IntakeNo) (l : Ledger) : Ledger :=
  if (l.intake i).change.isSome then foldChange i l else l

/-- The earliest missed close instant of an account, if there is any (R157). -/
def Account.missedClose (c : Calendar) (a : Account) : Option Seconds :=
  let t := closeInstantAfter (c.lastBoundary.getD 0) a.closeDay a.closeHour
  if t ≤ boundaryAtOrBefore c.params.subinterval c.time then some t else none

/-- The collapsed close due of an account's missed closes (R157). -/
def placeMissedDue (c : Calendar) (i : Slot) (l : Ledger) : Ledger :=
  let a := l.account i
  match a.missedClose c with
  | none => l
  | some t =>
    if a.bills && a.closeDue.isNone then
      let l := l.checkAccount i
      if (l.account i).faultMark then l
      else l.putAccount i ((l.account i).placeDue { cause := .scheduled, time := t })
    else l

/-- The examination of an account that holds a close due, at the end of the catch-up (R158). -/
def examineMissed (now : Seconds) (i : Slot) (l : Ledger) : Ledger :=
  if (l.account i).bills && (l.account i).closeDue.isSome then examine true now i l else l

/-- The number of boundaries missed (R131). -/
def Calendar.missedBoundaries (c : Calendar) : Nat :=
  boundariesBetween c.params.subinterval (c.lastBoundary.getD 0) c.time

/-- The calendar after the catch-up (R62, R135). -/
def Calendar.caughtUp (c : Calendar) : Calendar :=
  let m := c.missedBoundaries
  { c with
    currentTag := c.currentTag + BitVec.ofNat 8 m
    lastBoundary := if m = 0 then c.lastBoundary else some (boundaryAtOrBefore c.params.subinterval c.time)
    lastMinute := some (minuteStart c.time)
    grace := none }

/-- What the catch-up does when boundaries were missed: the OUTAGE slots, then the folds (R133, R134). -/
def bridgeGap (c : Calendar) (m : Nat) (l : Ledger) : Ledger :=
  if m = 0 then l else eachOf allIntakes foldMissed (eachOf allSlots (enterOutages c m) l)

/-- The missed closes at the end of the catch-up (R157, R158); CLOSE_BLOCKED is raised once when any account's flag is
set, that of a FAULTED account included. -/
def missedCloses (c : Calendar) (m : Nat) (l : Ledger) : Ledger :=
  let l := if m = 0 then l else eachOf allSlots (placeMissedDue c) l
  let l := eachOf allSlots (examineMissed c.time) l
  l.raiseIf (allSlots.any fun i => (l.account i).closeBlocked) .closeBlocked

/-- The ledger after the catch-up's operation (R131). -/
def catchUp (c : Calendar) (l : Ledger) : Ledger :=
  let m := c.missedBoundaries
  let l := eachOf allSlots (closeStale c) l
  let l := bridgeGap c m l
  let l := ageOwners c m l
  missedCloses c m l

/-- The catch-up and the entry to RUN that completes the restart (R186). -/
def State.restart (s : State) : State :=
  let l := (catchUp s.calendar s.ledger).raise .restartDone
  State.enterRun { s.groupTurn .intervalEngine l with calendar := s.calendar.caughtUp }

end Sys2Proof.Machine
end

