-- ==== Sys2Proof/Machine/Engines.lean ====
section
/-! DEFINITION. The turns of the engines (R162, R163), and their operations: each runs when the arbiter grants its engine
the next operation, and otherwise leaves the state as it is. -/

namespace Sys2Proof.Machine

open Sys2Proof

/-- Whether a request that has passed the port's checks asks for a record store operation (log 5). The calendar, lane,
accumulation, sweep and attention requests touch no record. -/
def requestAsks : RequestCode → List Byte → State → Bool
  | .openAccount => recordAsks openAccount
  | .amendAccount => recordAsks amendAccount
  | .suspendAccount => recordAsks suspendAccount
  | .resumeAccount => recordAsks resumeAccount
  | .retireAccount => recordAsks retireAccount
  | .findAccount => recordAsks findAccount
  | .readAccount => recordAsks readAccount
  | .listAccounts => recordAsks listAccounts
  | .writeTariff => recordAsks writeTariff
  | .deleteTariff => recordAsks deleteTariff
  | .readTariff => recordAsks readTariff
  | .defineIntake => recordAsks defineIntake
  | .assignIntake => recordAsks assignIntake
  | .unassignIntake => recordAsks unassignIntake
  | .readIntake => recordAsks readIntake
  | .collectHeld => recordAsks collectHeld
  | .readDemand => recordAsks readDemand
  | .closeNow => recordAsks closeNow
  | .changeTariff => recordAsks changeTariff
  | .releaseSettlement => recordAsks releaseSettlement
  | .repairAccount => recordAsks repairAccount
  | .discardAccount => recordAsks discardAccount
  | .repairIntake => recordAsks repairIntake
  | .startRun => startRunAsks
  | .setRunParameters => setRunParametersAsks
  | .stopRun | .readPartStatus => alwaysAsks
  | .setTime | .trimTime | .readTime | .restoreLane | .setLane | .readLane | .holdAccumulation | .releaseAccumulation
  | .verifyStore | .setAttentionMask | .ackAttention => fun _ _ => false

/-- The Request Engine waits for an operation: from EXECUTE, while the request in execution asks for one (R162, R195). -/
def State.requestWaits (s : State) : Bool :=
  match requestNamed s.port.record with
  | none => false
  | some k => (s.admitted k).any fun params => requestAsks k params s

/-- The requesters that wait for an operation (R162). -/
def State.requestersWaiting (s : State) : List Requester :=
  (if s.requestWaits then [.requestEngine] else []) ++ s.enginesWaiting

/-- The arbiter's first level grants this requester the next operation (R162). -/
def State.turn (r : Requester) (s : State) : Bool := s.arbiter.nextRequester s.requestersWaiting == some r

/-- The next operation is a group turn of this member (R163). -/
def State.memberTurn (m : GroupMember) (s : State) : Bool :=
  s.turn .closingGroup && s.arbiter.nextMember s.membersWaiting == some m

/-- BOUNDARY_AGEING (R112). -/
def execBoundaryAgeing (s : State) : Host.Outcome State Fault Refusal :=
  .next (if s.memberTurn .intervalEngine then s.ageStep else s)

/-- FOLD (R95, R112). -/
def execFold (s : State) : Host.Outcome State Fault Refusal :=
  .next (if s.memberTurn .intervalEngine then s.foldStep else s)

/-- ACCOUNT_VISIT (R112). -/
def execAccountVisit (s : State) : Host.Outcome State Fault Refusal :=
  .next (if s.memberTurn .intervalEngine then s.visitStep else s)

/-- SLOT_CLOSURE (R116). -/
def execSlotClosure (s : State) : Host.Outcome State Fault Refusal :=
  .next (if s.memberTurn .intervalEngine then s.closureStep else s)

/-- BAND_NOTIFY_CHECK (R44). -/
def execBandNotifyCheck (s : State) : Host.Outcome State Fault Refusal :=
  .next (if s.memberTurn .intervalEngine then s.notifyStep else s)

/-- RESTART_CATCH_UP: an operation of the Interval Engine, taken in RESTARTING once the sweep has ended (R131). -/
def execRestartCatchUp (s : State) : Host.Outcome State Fault Refusal :=
  .next (if s.catchUpDue && s.memberTurn .intervalEngine then s.restart else s)

/-- SETTLEMENT_EXAMINATION (R139, R140). -/
def execSettlementExamination (s : State) : Host.Outcome State Fault Refusal :=
  .next (if s.memberTurn .settlementEngine then s.settleStep else s)

/-- SWEEP_VERIFY (R174). -/
def execSweepVerify (s : State) : Host.Outcome State Fault Refusal :=
  .next (if s.memberTurn .integritySweep then s.sweepStep else s)

/-- PLACE_ENTRY (R98, R99). -/
def execPlaceEntry (s : State) : Host.Outcome State Fault Refusal :=
  .next (if s.turn .accumulationEngine then s.takeEntry else s)

end Sys2Proof.Machine
end

