-- ==== Sys2Proof/Machine/Link.lean ====
section
/-! DEFINITION. What happens on the lanes: frames received (R64 to R76), carrier (R65, R66), the one-second timer (R66),
boundaries taken by the Intake Link Controller (R77), and frames sent (R78). -/

namespace Sys2Proof.Machine

open Sys2Proof

/-- A change of one lane that raises nothing; nothing happens at rest. -/
def State.onLane (k : LaneNo) (f : Lane → Lane) (s : State) : State :=
  if s.atRest then s else s.putLane k (f (s.lane k))

/-- A well-formed HELLO (R67, R68); discarded on a DOWN or ISOLATED lane (Table 4-3). Its BOUNDARY carries E as it stands
in the Calendar Unit, also between a boundary event and the lanes' taking of it (R67 against R77; log 36). -/
def execHello (k : LaneNo) (frontEnd : BitVec 16) (firstSeq : Byte) (s : State) : Host.Outcome State Fault Refusal :=
  .next (s.onLane k (Lane.takeHello s.mode s.calendar.endedTag s.calendar.lastBoundary frontEnd firstSeq))

/-- The Arrival Queue entry of an increment (R76). -/
def arrivalOf (k : LaneNo) (f : IncrementFrame) : QueueEntry :=
  { lane := k, intake := f.intake, tag := f.tag, imp := f.imp, exp := f.exp, lag := f.lag, lead := f.lead,
    last := f.last, doubtful := f.doubtful }

/-- A well-formed INCREMENT on an ACTIVE lane passes the sequence and credit checks and enters the Arrival Queue
(R71 to R76). -/
def State.receiveIncrement (k : LaneNo) (f : IncrementFrame) (s : State) : State :=
  let outcome := Lane.takeIncrement s.mode f.seq (s.lane k)
  let s := s.laneOutcome k outcome
  if outcome.2 = .queued then { s with arrivals := s.arrivals ++ [arrivalOf k f] } else s

/-- A well-formed INCREMENT; discarded and counted nowhere unless the lane is ACTIVE (Table 4-3). -/
def execIncrement (k : LaneNo) (f : IncrementFrame) (s : State) : Host.Outcome State Fault Refusal :=
  .next (if s.atRest || (s.lane k).state != .active then s else s.receiveIncrement k f)

/-- A malformed frame (Table 4-3, R71); bytes that are not malformed are no such command. -/
def execMalformedFrame (k : LaneNo) (content : List Byte) (s : State) : Host.Outcome State Fault Refusal :=
  .next (if s.atRest || receive content != .malformed then s else s.laneOutcome k (Lane.takeMalformed s.mode (s.lane k)))

/-- The carrier of a lane is lost (R65). At rest only the receiver sees it. -/
def execCarrierLoss (k : LaneNo) (s : State) : Host.Outcome State Fault Refusal :=
  .next
    (if s.atRest then s.putLane k { s.lane k with carrier := false }
    else
      let lost := s.putLane k (s.lane k).lose
      if (s.lane k).state = .down then lost else lost.raise .laneDown)

/-- The carrier of a lane appears: a DOWN lane enters SYNCING (R66). At rest only the receiver sees it. -/
def execCarrierAppear (k : LaneNo) (s : State) : Host.Outcome State Fault Refusal :=
  let n := { s.lane k with carrier := true }
  .next (s.putLane k (if !s.atRest && n.state == .down then n.enterSyncing else n))

/-- The one-second timer of a SYNCING lane expires (R66). -/
def Lane.timerExpires (n : Lane) : Lane × Reception :=
  if n.state = .syncing ∧ n.timer then
    if n.attempts < 3 then ({ n.send .resync with attempts := n.attempts + 1 }, .discarded) else (n.isolate, .isolated)
  else (n, .discarded)

def execResyncTimerExpiry (k : LaneNo) (s : State) : Host.Outcome State Fault Refusal :=
  .next (if s.atRest then s else s.laneOutcome k (s.lane k).timerExpires)

/-- The frame that a waiting frame becomes as it is sent; a CREDIT carries the credits to send (R78). -/
def WaitingFrame.frame (toSend : Nat) : WaitingFrame → LinkFrame
  | .boundary tag time => .boundary tag time
  | .credit => .credit toSend
  | .resync => .resync

/-- The transmitter sends the frame that has waited longest (R78), in every mode: a BOUNDARY produced in RUN that still waits
at STOP_RUN is sent in COMMISSIONING (DESIGN CHOICE, log 47). -/
def Lane.transmit (n : Lane) : Lane :=
  match n.waiting with
  | [] => n
  | f :: rest =>
    { n with
      waiting := rest
      toSend := if f = .credit then 0 else n.toSend
      lineOut := (f.frame n.toSend).wire }

def execTransmitFrame (k : LaneNo) (s : State) : Host.Outcome State Fault Refusal := .next (s.onLane k Lane.transmit)

/-- A boundary on a lane: the error count restarts, and an ACTIVE lane is told (R70, R77). -/
def Lane.atBoundary (tag : Tag) (time : Seconds) (n : Lane) : Lane :=
  let n := { n with errorCount := 0 }
  if n.state = .active then n.announce tag (some time) else n

/-- The Intake Link Controller takes the oldest boundary handed to it (R52, R77). One taken outside RUN is dropped. -/
def State.takeLaneBoundary (s : State) : State :=
  match s.laneBoundaries with
  | [] => s
  | (tag, time) :: rest =>
    let taken := { s with laneBoundaries := rest }
    if s.mode = .run then taken.mapLanes (Lane.atBoundary tag time) else taken

def execLaneBoundary (s : State) : Host.Outcome State Fault Refusal :=
  .next (if s.atRest then s else s.takeLaneBoundary)

end Sys2Proof.Machine
end

