-- ==== Sys2Proof/Machine/PortTransactions.lean ====
section
/-! DEFINITION. The transactions of the serial target (R189 to R194). A transaction is taken whole, with the whole bytes
it carried; a byte cut short is no part of it (R189, log 22). While RESET_N is held, or without power, the port takes
none. -/

namespace Sys2Proof.Machine

open Sys2Proof

/-- `n` bytes of 0 on MISO. -/
def zeros (n : Nat) : List Byte := List.replicate n 0

/-- A transaction changes the port alone, and nothing while the blocks are at rest. -/
def State.transact (f : Port → Port) (s : State) : State := if s.atRest then s else { s with port := f s.port }

/-- WRITE_REQUEST (R191). One of more than 128 bytes that is taken while BUSY sets WRITE_WHILE_BUSY alone, and not OVERRUN
(DESIGN CHOICE, log 42). -/
def Port.write (data : List Byte) (p : Port) : Port :=
  if p.busy then { p with writeWhileBusy := true, miso := zeros (1 + data.length) }
  else
    let stored := data.take Config.bufferSize
    { p with
      requestBuffer := stored ++ p.requestBuffer.drop stored.length
      fillCount := stored.length
      overrun := p.overrun || decide (Config.bufferSize < data.length)
      miso := zeros (1 + data.length) }

def execWriteRequest (data : List Byte) (s : State) : Host.Outcome State Fault Refusal :=
  .next (s.transact (Port.write data))

/-- EXECUTE (R192). -/
def Port.execute (clocked : Nat) (p : Port) : Port :=
  if p.busy then { p with strayExecute := true, miso := zeros (1 + clocked) }
  else
    { p with
      busy := true
      responseReady := false
      responseBuffer := zeros Config.bufferSize
      miso := zeros (1 + clocked) }

def execExecute (clocked : Nat) (s : State) : Host.Outcome State Fault Refusal :=
  .next (s.transact (Port.execute clocked))

/-- READ_STATUS: the status byte and the attention set of one instant, then zeros; the three error flags are cleared
after the capture (R193). -/
def Port.readStatus (attention : BitVec 12) (clocked : Nat) (p : Port) : Port :=
  { p with
    miso := [0] ++ padTo clocked 0 ([p.statusByte attention] ++ le 2 attention.toNat)
    overrun := false
    writeWhileBusy := false
    strayExecute := false }

def execReadStatus (clocked : Nat) (s : State) : Host.Outcome State Fault Refusal :=
  .next (s.transact (Port.readStatus s.ledger.attention clocked))

/-- READ_RESPONSE: the response buffer from offset 0, then zeros (R194). -/
def Port.readResponse (clocked : Nat) (p : Port) : Port :=
  { p with miso := [0] ++ padTo clocked 0 p.responseBuffer }

def execReadResponse (clocked : Nat) (s : State) : Host.Outcome State Fault Refusal :=
  .next (s.transact (Port.readResponse clocked))

/-- A transaction byte that names no transaction, or none at all (R189). -/
def Port.ignore (code : Option Byte) (clocked : Nat) (p : Port) : Port :=
  { p with miso := match code with | none => [] | some _ => zeros (1 + clocked) }

def execUnknownTransaction (code : Option Byte) (clocked : Nat) (s : State) : Host.Outcome State Fault Refusal :=
  .next (s.transact (Port.ignore code clocked))

/-- The command that a transaction is, from its whole bytes on MOSI, the transaction byte first (R189, R207). EXECUTE
ignores what follows its transaction byte; READ_STATUS and READ_RESPONSE supply a byte for each that is clocked. -/
def transactionCommand : List Byte → Instr
  | [] => .unknownTransaction none 0
  | code :: data =>
    match code.toNat with
    | 0x01 => .writeRequest data
    | 0x02 => .execute data.length
    | 0x03 => .readStatus data.length
    | 0x04 => .readResponse data.length
    | _ => .unknownTransaction (some code) data.length

end Sys2Proof.Machine
end

