-- ==== Sys2Proof/Machine/Dispatch.lean ====
section
/-! DEFINITION. The meaning of each command. -/

namespace Sys2Proof.Machine

open Sys2Proof

def exec (i : Instr) (s : State) : Host.Outcome State Fault Refusal :=
  match i with
  | .writeRequest data => Sys2Proof.Machine.execWriteRequest data s
  | .execute clocked => Sys2Proof.Machine.execExecute clocked s
  | .readStatus clocked => Sys2Proof.Machine.execReadStatus clocked s
  | .readResponse clocked => Sys2Proof.Machine.execReadResponse clocked s
  | .unknownTransaction code clocked => Sys2Proof.Machine.execUnknownTransaction code clocked s
  | .openAccount => Sys2Proof.Machine.execOpenAccount s
  | .amendAccount => Sys2Proof.Machine.execAmendAccount s
  | .suspendAccount => Sys2Proof.Machine.execSuspendAccount s
  | .resumeAccount => Sys2Proof.Machine.execResumeAccount s
  | .retireAccount => Sys2Proof.Machine.execRetireAccount s
  | .findAccount => Sys2Proof.Machine.execFindAccount s
  | .readAccount => Sys2Proof.Machine.execReadAccount s
  | .listAccounts => Sys2Proof.Machine.execListAccounts s
  | .writeTariff => Sys2Proof.Machine.execWriteTariff s
  | .deleteTariff => Sys2Proof.Machine.execDeleteTariff s
  | .readTariff => Sys2Proof.Machine.execReadTariff s
  | .setTime => Sys2Proof.Machine.execSetTime s
  | .trimTime => Sys2Proof.Machine.execTrimTime s
  | .readTime => Sys2Proof.Machine.execReadTime s
  | .restoreLane => Sys2Proof.Machine.execRestoreLane s
  | .setLane => Sys2Proof.Machine.execSetLane s
  | .readLane => Sys2Proof.Machine.execReadLane s
  | .defineIntake => Sys2Proof.Machine.execDefineIntake s
  | .assignIntake => Sys2Proof.Machine.execAssignIntake s
  | .unassignIntake => Sys2Proof.Machine.execUnassignIntake s
  | .readIntake => Sys2Proof.Machine.execReadIntake s
  | .collectHeld => Sys2Proof.Machine.execCollectHeld s
  | .holdAccumulation => Sys2Proof.Machine.execHoldAccumulation s
  | .releaseAccumulation => Sys2Proof.Machine.execReleaseAccumulation s
  | .readDemand => Sys2Proof.Machine.execReadDemand s
  | .closeNow => Sys2Proof.Machine.execCloseNow s
  | .changeTariff => Sys2Proof.Machine.execChangeTariff s
  | .releaseSettlement => Sys2Proof.Machine.execReleaseSettlement s
  | .repairAccount => Sys2Proof.Machine.execRepairAccount s
  | .discardAccount => Sys2Proof.Machine.execDiscardAccount s
  | .repairIntake => Sys2Proof.Machine.execRepairIntake s
  | .verifyStore => Sys2Proof.Machine.execVerifyStore s
  | .startRun => Sys2Proof.Machine.execStartRun s
  | .stopRun => Sys2Proof.Machine.execStopRun s
  | .setRunParameters => Sys2Proof.Machine.execSetRunParameters s
  | .readPartStatus => Sys2Proof.Machine.execReadPartStatus s
  | .setAttentionMask => Sys2Proof.Machine.execSetAttentionMask s
  | .ackAttention => Sys2Proof.Machine.execAckAttention s
  | .hello lane frontEnd firstSeq => Sys2Proof.Machine.execHello lane frontEnd firstSeq s
  | .increment lane frame => Sys2Proof.Machine.execIncrement lane frame s
  | .malformedFrame lane content => Sys2Proof.Machine.execMalformedFrame lane content s
  | .carrierLoss lane => Sys2Proof.Machine.execCarrierLoss lane s
  | .carrierAppear lane => Sys2Proof.Machine.execCarrierAppear lane s
  | .resyncTimerExpiry lane => Sys2Proof.Machine.execResyncTimerExpiry lane s
  | .transmitFrame lane => Sys2Proof.Machine.execTransmitFrame lane s
  | .laneBoundary => Sys2Proof.Machine.execLaneBoundary s
  | .minuteEvent => Sys2Proof.Machine.execMinuteEvent s
  | .boundaryEvent => Sys2Proof.Machine.execBoundaryEvent s
  | .graceExpiry => Sys2Proof.Machine.execGraceExpiry s
  | .bandNotifyCheck => Sys2Proof.Machine.execBandNotifyCheck s
  | .boundaryAgeing => Sys2Proof.Machine.execBoundaryAgeing s
  | .fold => Sys2Proof.Machine.execFold s
  | .accountVisit => Sys2Proof.Machine.execAccountVisit s
  | .slotClosure => Sys2Proof.Machine.execSlotClosure s
  | .placeEntry => Sys2Proof.Machine.execPlaceEntry s
  | .settlementExamination => Sys2Proof.Machine.execSettlementExamination s
  | .sweepVerify => Sys2Proof.Machine.execSweepVerify s
  | .restartCatchUp => Sys2Proof.Machine.execRestartCatchUp s
  | .powerLoss => Sys2Proof.Machine.execPowerLoss s
  | .resetAssert => Sys2Proof.Machine.execResetAssert s
  | .vbakDip => Sys2Proof.Machine.execVbakDip s
  | .deviceStart cutShort => Sys2Proof.Machine.execDeviceStart cutShort s
  | .passageOfASecond => Sys2Proof.Machine.execPassageOfASecond s

end Sys2Proof.Machine
end

