-- ==== Sys2Proof/Safety.lean ====
section
/-! DEFINITION. The predicates that the obligations speak of: when a request is issued and what an answered request
leaves, which records are sound, the layouts of the answers, and the invariants of the device. -/

namespace Sys2Proof.Machine

open Sys2Proof

/-! ### Premises -/

/-- The command that carries out a request. -/
def RequestCode.command : RequestCode → Instr
  | .openAccount => .openAccount | .amendAccount => .amendAccount | .suspendAccount => .suspendAccount
  | .resumeAccount => .resumeAccount | .retireAccount => .retireAccount | .findAccount => .findAccount
  | .readAccount => .readAccount | .listAccounts => .listAccounts | .writeTariff => .writeTariff
  | .deleteTariff => .deleteTariff | .readTariff => .readTariff | .setTime => .setTime | .trimTime => .trimTime
  | .readTime => .readTime | .restoreLane => .restoreLane | .setLane => .setLane | .readLane => .readLane
  | .defineIntake => .defineIntake | .assignIntake => .assignIntake | .unassignIntake => .unassignIntake
  | .readIntake => .readIntake | .collectHeld => .collectHeld | .holdAccumulation => .holdAccumulation
  | .releaseAccumulation => .releaseAccumulation | .readDemand => .readDemand | .closeNow => .closeNow
  | .changeTariff => .changeTariff | .releaseSettlement => .releaseSettlement | .repairAccount => .repairAccount
  | .discardAccount => .discardAccount | .repairIntake => .repairIntake | .verifyStore => .verifyStore
  | .startRun => .startRun | .stopRun => .stopRun | .setRunParameters => .setRunParameters
  | .readPartStatus => .readPartStatus | .setAttentionMask => .setAttentionMask | .ackAttention => .ackAttention

/-- Request `k` with the parameters given is in execution and passes the port's checks of R197: the device is not at
rest, BUSY is set, the bytes below the fill count are the request record (with or without bytes beyond its parameters,
R196), its length fits, and the mode admits it. -/
def State.Issues (k : RequestCode) (params : List Byte) (s : State) : Prop :=
  s.atRest = false ∧ s.port.busy = true ∧ params.length ≤ 126 ∧ k.lengthFits params = true ∧
    (∃ rest, s.port.record = [k.value, byte params.length] ++ params ++ rest) ∧ k.modeRefusal s.mode = none

/-- Request `k` is issued, and should it ask for a record store operation, the arbiter grants it the next one (R162). -/
def State.Granted (k : RequestCode) (params : List Byte) (s : State) : Prop :=
  s.Issues k params ∧ s.requestTurn = true

/-- How many grants to others the first level can make ahead of a requester that waits (R162). -/
def Arbiter.requesterAhead (r : Requester) (b : Arbiter) : Nat := (requesterOrder b.last).idxOf r

/-- How many operations of others can run ahead of that of a member of the Closing Group that waits (R163): the other
requesters' before the next group turn, and for each member ahead of it a group turn and two other grants. -/
def Arbiter.memberAhead (m : GroupMember) (b : Arbiter) : Nat :=
  3 * (memberOrder b.lastMember).idxOf m + b.requesterAhead .closingGroup

/-- An account that is not marked and whose check word holds. -/
def Ledger.SoundAccount (i : Slot) (l : Ledger) : Prop :=
  (l.account i).faultMark = false ∧ (l.account i).checks = true

/-- An intake that is not marked and whose check word holds. -/
def Ledger.SoundIntake (i : IntakeNo) (l : Ledger) : Prop :=
  (l.intake i).faultMark = false ∧ (l.intake i).checks = true

/-- A tariff that is READY and verifies. -/
def Ledger.ReadyTariff (t : TariffNo) (l : Ledger) : Prop :=
  (l.tariff t).state = .ready ∧ (l.tariff t).checks l.pool t = true

/-- An account that is not FREE, is not marked and fails its check word. -/
def Ledger.FailingAccount (i : Slot) (l : Ledger) : Prop :=
  (l.account i).faultMark = false ∧ (l.account i).phase ≠ .free ∧ (l.account i).checks = false

/-- An intake that is not marked and fails its check word. -/
def Ledger.FailingIntake (i : IntakeNo) (l : Ledger) : Prop :=
  (l.intake i).faultMark = false ∧ (l.intake i).checks = false

/-- A tariff that is not marked and fails its verification. -/
def Ledger.FailingTariff (t : TariffNo) (l : Ledger) : Prop :=
  (l.tariff t).faultMark = false ∧ (l.tariff t).checks l.pool t = false

/-- No account fails its check word: each is marked or verifies. -/
def Ledger.AccountsSettled (l : Ledger) : Prop :=
  ∀ i, (l.account i).faultMark = true ∨ (l.account i).checks = true

/-- No intake fails its check word: each is marked or verifies. -/
def Ledger.IntakesSettled (l : Ledger) : Prop :=
  ∀ i, (l.intake i).faultMark = true ∨ (l.intake i).checks = true

/-! ### What an answered request leaves -/

/-- The ledger in which an operation has marked an account that failed its check word (R165). -/
def Ledger.withAccountMarked (i : Slot) (l : Ledger) : Ledger :=
  (l.storeAccount i { l.account i with faultMark := true }).raise .integrityFault

/-- The ledger in which an operation has marked an intake that failed its check word (R165). -/
def Ledger.withIntakeMarked (i : IntakeNo) (l : Ledger) : Ledger :=
  (l.storeIntake i { l.intake i with faultMark := true }).raise .integrityFault

/-- The ledger in which an operation has marked a tariff that failed its verification (R38, R165). -/
def Ledger.withTariffMarked (t : TariffNo) (l : Ledger) : Ledger :=
  (l.storeTariff t { l.tariff t with faultMark := true }).raise .integrityFault

/-- The state after a request whose operation left the ledger so: the arbiter has granted the Request Engine, the
response is written, BUSY is clear and RESPONSE_READY set, and nothing else has changed. -/
def State.answered (l : Ledger) (a : Answer) (s : State) : State := (s.requestGrant.withLedger l).respond a

/-- The state after an operation of the Interval Engine that left the ledger and the engine's work list so: the arbiter
has given the Closing Group's turn to the Interval Engine, and nothing else has changed. -/
def State.afterIntervalWork (l : Ledger) (work : List WorkItem) (s : State) : State :=
  { s with
    ledger := l, work := work, arbiter := { last := some .closingGroup, lastMember := some .intervalEngine } }

/-- The two ledgers hold the same records and pool but for one account. (The attention set and the Settlement Engine's list
are not compared.) -/
def Ledger.DiffersAtAccount (i : Slot) (l l' : Ledger) : Prop :=
  (∀ j, j ≠ i → l'.account j = l.account j) ∧ l'.intakes = l.intakes ∧ l'.tariffs = l.tariffs ∧ l'.pool = l.pool

/-- The two ledgers hold the same records and pool. -/
def Ledger.SameRecords (l l' : Ledger) : Prop :=
  l'.accounts = l.accounts ∧ l'.intakes = l.intakes ∧ l'.tariffs = l.tariffs ∧ l'.pool = l.pool

/-! ### Layouts of the answers (Tables 11-3 to 11-8)

A number stands in its bytes modulo their width; every field of a run fits its width. -/

/-- The bytes from an offset on spell a number. -/
def At (offset width value : Nat) (b : List Byte) : Prop := field offset width b = value % 2 ^ (8 * width)

/-- A bit of the byte at an offset is a flag. -/
def FlagAt (offset bit : Nat) (flag : Bool) (b : List Byte) : Prop := (field offset 1 b).testBit bit = flag

/-- An optional time as it is sent: FFFFFFFF when absent (R204). -/
def sentTime (t : Option Seconds) : Nat := t.getD 4294967295

/-- READ_ACCOUNT IDENTITY (Table 11-4). -/
def Account.IdentityLayout (state : AccountState) (a : Account) (b : List Byte) : Prop :=
  b.length = 28 ∧ At 0 4 a.number b ∧ At 4 1 state.code b ∧ At 5 1 a.tariff.val b ∧ At 6 4 a.contractDemand b ∧
    At 10 1 a.minPercent b ∧ At 11 1 a.closeDay b ∧ At 12 1 a.closeHour b ∧ At 13 1 a.members.length b ∧
    (∀ k < 8, At (14 + k) 1 (match a.members[k]? with | none => 255 | some i => i.val) b) ∧
    At 22 1
      (match a.closeDue with
      | none => 0
      | some { cause := .scheduled, time := _ } => 128
      | some { cause := .host, time := _ } => 129) b ∧
    At 23 4 (sentTime (a.closeDue.map (·.time))) b ∧ FlagAt 27 0 a.closeBlocked b ∧ FlagAt 27 1 a.settled.isSome b ∧
    field 27 1 b < 4

/-- Seven energies of 6 bytes each from an offset on: import, export, lag, lead, late import, late lag, late lead. -/
def EnergiesAt (offset : Nat) (e : Energy) (late : SlotEnergy) (b : List Byte) : Prop :=
  At offset 6 e.imp b ∧ At (offset + 6) 6 e.exp b ∧ At (offset + 12) 6 e.lag b ∧ At (offset + 18) 6 e.lead b ∧
    At (offset + 24) 6 late.imp b ∧ At (offset + 30) 6 late.lag b ∧ At (offset + 36) 6 late.lead b

/-- A band maximum at an offset: value and time, 0 and FFFFFFFF when absent. -/
def MaximumAt (offset : Nat) (m : Option BandMaximum) (b : List Byte) : Prop :=
  At offset 4 (match m with | none => 0 | some x => x.value) b ∧ At (offset + 4) 4 (sentTime (m.map (·.time))) b

/-- The estimated flag of a band maximum, clear when absent. -/
def isEstimated (m : Option BandMaximum) : Bool := match m with | none => false | some x => x.estimated

/-- READ_ACCOUNT RUNNING (Table 11-5). -/
def Period.RunningLayout (p : Period) (b : List Byte) : Prop :=
  b.length = 91 ∧ At 0 4 (sentTime p.start) b ∧ EnergiesAt 4 p.energy p.late b ∧
    (∀ x : Band, MaximumAt (46 + 8 * x.val) p.maxima[x.val] b ∧ FlagAt 78 x.val (isEstimated p.maxima[x.val]) b) ∧
    FlagAt 78 4 p.exceeded b ∧ FlagAt 78 5 p.saturated b ∧ field 78 1 b < 64 ∧ At 79 2 p.exceedances b ∧
    At 81 2 p.incompleteSlots b ∧ At 83 2 p.outageSlots b ∧ At 85 2 p.subintervals b ∧ At 87 4 p.ratchetCarry b

/-- READ_ACCOUNT RATCHET (Table 11-5): position k is present when bit k − 1 is set, and sent as 0 when absent. -/
def Account.RatchetLayout (a : Account) (b : List Byte) : Prop :=
  b.length = 50 ∧
    (∀ k : Fin 11, (field 0 2 b).testBit k.val = a.ratchet[k.val].isSome ∧
      At (2 + 4 * k.val) 4 (a.ratchet[k.val].getD 0) b) ∧
    field 0 2 b < 2048 ∧ At 46 4 a.period.ratchetCarry b

/-- READ_ACCOUNT SETTLED (Table 11-5). -/
def Settled.SettledLayout (x : Settled) (b : List Byte) : Prop :=
  b.length = 126 ∧ field 0 1 b % 4 = x.cause.code ∧ FlagAt 0 2 x.late b ∧ FlagAt 0 3 x.saturated b ∧
    FlagAt 0 4 x.estimatedMax b ∧ FlagAt 0 5 x.ratchetReference.isSome b ∧ field 0 1 b < 64 ∧
    field 1 1 b / 16 = x.tariff.val ∧ At 2 2 x.tariffId b ∧ At 4 4 (sentTime x.periodStart) b ∧ At 8 4 x.periodEnd b ∧
    At 12 4 (sentTime x.dueTime) b ∧
    (∀ k : Band, MaximumAt (16 + 12 * k.val) x.bands[k.val].maximum b ∧
      At (24 + 12 * k.val) 4 x.bands[k.val].billing b ∧ FlagAt 1 k.val (isEstimated x.bands[k.val].maximum) b) ∧
    At 64 4 (x.ratchetReference.getD 0) b ∧ EnergiesAt 68 x.energy x.lateEnergy b ∧
    At 110 2 (x.powerFactor.getD 65535) b ∧ At 112 6 x.excessReactive b ∧ At 118 2 x.incompleteSlots b ∧
    At 120 2 x.outageSlots b ∧ At 122 2 x.exceedances b ∧ At 124 2 x.subintervals b

/-- A window slot in 13 bytes at an offset, all 0 for a place above N (Table 11-6, R209). -/
def SlotAt (offset : Nat) (w : Option WindowSlot) (b : List Byte) : Prop :=
  At offset 4 (match w with | none => 0 | some x => x.energy.imp) b ∧
    At (offset + 4) 4 (match w with | none => 0 | some x => x.energy.lag) b ∧
    At (offset + 8) 4 (match w with | none => 0 | some x => x.energy.lead) b ∧
    At (offset + 12) 1 (match w with | none => 0 | some x => x.state.code) b

/-- The pending slot in the 24 bytes from an offset on (Table 11-6). -/
def PendingSlotAt (offset : Nat) (slot : Option PendingSlot) (b : List Byte) : Prop :=
  match slot with
  | none => ∀ k < 24, At (offset + k) 1 0 b
  | some p =>
    FlagAt offset 0 true b ∧ FlagAt offset 1 p.doubtful b ∧ field offset 1 b < 4 ∧ At (offset + 1) 1 p.tag.toNat b ∧
      At (offset + 2) 4 p.energy.imp b ∧ At (offset + 6) 4 p.energy.lag b ∧ At (offset + 10) 4 p.energy.lead b ∧
      At (offset + 14) 1 p.expected.length b ∧
      (∀ k < 8, At (offset + 15 + k) 1 (match p.expected[k]? with | none => 255 | some m => m.intake.val) b) ∧
      ∀ k < 8, FlagAt (offset + 23) k (match p.expected[k]? with | none => false | some m => m.reported) b

/-- READ_ACCOUNT WINDOW, part 0 or 1, under a window length N (Table 11-6, R209): slots 1 to 6 or 7 to 12, numbered from
the oldest, the one at the ring position; the pending slot in part 1. -/
def Account.WindowLayout (n part : Nat) (a : Account) (b : List Byte) : Prop :=
  b.length = (if part = 0 then 82 else 106) ∧ At 0 1 n b ∧ At 1 1 a.ringPos b ∧ At 2 2 a.period.subintervals b ∧
    (∀ k < 6,
      let number := k + (if part = 0 then 0 else 6)
      SlotAt (4 + 13 * k) (if number < n then a.window[(a.ringPos + number) % n]? else none) b) ∧
    (part = 1 → PendingSlotAt 82 a.storedSlot b)

/-- The header of a tariff: WRITE_TARIFF parameter bytes 1 to 15 (Tables 11-3 and 11-8). -/
def Tariff.HeaderLayout (t : Tariff) (b : List Byte) : Prop :=
  b.length = 15 ∧ At 0 2 t.id b ∧ At 2 1 t.evaluation.code b ∧ At 3 1 t.n b ∧ At 4 1 t.quantity.code b ∧
    At 5 1 t.bandCount b ∧ At 6 1 t.ratchetPercent b ∧ At 7 1 t.ratchetBand.val b ∧ At 8 2 t.allowance b ∧
    At 10 1 t.leadPolicy.code b ∧ At 11 1 t.incompletePolicy.code b ∧ At 12 1 t.weekMask.toNat b ∧
    At 13 1 t.workCount b ∧ At 14 1 t.restCount b

/-- A switch point: minute in bits 0 to 10, band in bits 11 and 12, notify flag in bit 13 (R204). -/
def SwitchPoint.PointLayout (q : SwitchPoint) (b : List Byte) : Prop :=
  b.length = 2 ∧ field 0 2 b % 2048 = q.minute ∧ field 0 2 b / 2048 % 4 = q.band.val ∧
    (field 0 2 b).testBit 13 = q.notify ∧ field 0 2 b < 16384

/-- READ_TIME (Table 11-3). -/
def Calendar.TimeLayout (c : Calendar) (b : List Byte) : Prop :=
  let d := dateTimeOf c.time
  b.length = 19 ∧ FlagAt 0 0 c.isSet b ∧ FlagAt 0 1 c.grace.isSome b ∧ field 0 1 b < 4 ∧ At 1 2 d.year b ∧
    At 3 1 d.month b ∧ At 4 1 d.day b ∧ At 5 1 d.hour b ∧ At 6 1 d.minute b ∧ At 7 1 d.second b ∧
    At 8 1 ((c.time / 86400 + 5) % 7 + 1) b ∧ At 9 1 c.currentTag.toNat b ∧ At 10 4 (sentTime c.lastBoundary) b ∧
    At 14 1 (match c.grace with | none => 0 | some g => g.tag.toNat) b ∧
    At 15 4 (sentTime (c.grace.map (·.expiry))) b

/-- READ_LANE (Table 11-3). -/
def Lane.LaneLayout (n : Lane) (b : List Byte) : Prop :=
  b.length = 23 ∧ At 0 1 n.state.code b ∧ FlagAt 1 0 n.frontEnd.isSome b ∧ FlagAt 1 1 n.lastSeq.isSome b ∧
    FlagAt 1 2 n.expectedSeq.isSome b ∧ FlagAt 1 3 n.carrier b ∧ field 1 1 b < 16 ∧
    At 2 2 (n.frontEnd.getD 0).toNat b ∧ At 4 1 (n.lastSeq.getD 0).toNat b ∧ At 5 1 (n.expectedSeq.getD 0).toNat b ∧
    At 6 1 n.outstanding b ∧ At 7 1 n.toSend b ∧ At 8 1 n.queued b ∧ At 9 1 n.allotment b ∧ At 10 1 n.errorLimit b ∧
    At 11 1 n.errorCount b ∧ At 12 1 n.attempts b ∧ At 13 2 n.counters.crcErrors b ∧ At 15 2 n.counters.sequenceGaps b ∧
    At 17 2 n.counters.duplicates b ∧ At 19 2 n.counters.creditViolations b ∧ At 21 2 n.counters.refusals b

/-- READ_INTAKE (Table 11-7). -/
def Intake.IntakeLayout (state : IntakeState) (x : Intake) (b : List Byte) : Prop :=
  b.length = 37 ∧ At 0 1 state.code b ∧ At 1 1 x.lane.val b ∧ At 2 4 x.scale b ∧
    At 6 1 (match x.owner with | none => 255 | some a => a.val) b ∧ FlagAt 7 0 x.ownerSince.isSome b ∧
    FlagAt 7 1 x.change.isSome b ∧
    FlagAt 7 2 (match x.change with | none => false | some p => p.target.isNone) b ∧
    FlagAt 7 3 x.lastReported.isSome b ∧ FlagAt 7 4 x.silent b ∧ field 7 1 b < 32 ∧
    At 8 1 (x.ownerSince.getD 0).toNat b ∧
    At 9 1 (match x.change with | some { target := some a, tag := _ } => a.val | _ => 255) b ∧
    At 10 1 (match x.change with | none => 0 | some p => p.tag.toNat) b ∧ At 11 1 (x.lastReported.getD 0).toNat b ∧
    At 12 1 x.silentCount b ∧ At 13 6 x.held.imp b ∧ At 19 6 x.held.exp b ∧ At 25 6 x.held.lag b ∧
    At 31 6 x.held.lead b

/-- READ_DEMAND (Table 11-3): the quantity's code, N, whether a value is present, estimated and eligible, the value, and
the band now when the calendar is SET. -/
def DemandLayout (quantity n : Nat) (value : Option Nat) (estimated eligible : Bool) (band : Option Band)
    (b : List Byte) : Prop :=
  b.length = 8 ∧ At 0 1 quantity b ∧ At 1 1 n b ∧ FlagAt 2 0 value.isSome b ∧ FlagAt 2 1 estimated b ∧
    FlagAt 2 2 eligible b ∧ FlagAt 2 3 band.isSome b ∧ field 2 1 b < 16 ∧ At 3 4 (value.getD 0) b ∧
    At 7 1 (match band with | none => 0 | some x => x.val) b

/-- READ_PART_STATUS (Table 11-3). -/
def State.PartStatusLayout (s : State) (b : List Byte) : Prop :=
  b.length = 10 ∧ At 0 1 s.mode.code b ∧ FlagAt 1 0 s.calendar.isSet b ∧ FlagAt 1 1 s.sweep.position.isSome b ∧
    field 1 1 b < 4 ∧ At 2 1 s.engine.code b ∧ At 3 1 s.sweep.faultCount b ∧
    (∀ k : LaneNo, field 4 1 b / 4 ^ k.val % 4 = (s.lane k).state.code) ∧
    At 5 1 (allSlots.countP fun i => (s.ledger.account i).state == .free) b ∧
    At 6 1 ((List.finRange 128).countP fun k => s.ledger.pool[k.val].owner.isNone) b ∧ At 7 1 s.arrivals.length b ∧
    At 8 2 s.port.mask.toNat b

/-! ### Invariants -/

/-- The law of the link (R76), with what it rests on: each lane's queued entries are its entries in the Arrival Queue,
its credits outstanding and queued entries never exceed 8, and its allotment lies from 1 to 8. -/
def State.LinkLaw (s : State) : Prop :=
  s.arrivals.length ≤ Config.arrivalCapacity ∧
    ∀ k : LaneNo, (s.lane k).outstanding + (s.lane k).queued ≤ Config.maxAllotment ∧
      (s.lane k).queued = s.arrivals.countP (fun e => e.lane == k) ∧
      1 ≤ (s.lane k).allotment ∧ (s.lane k).allotment ≤ Config.maxAllotment

/-- Every account and intake that is not marked carries the check word of its content (R164). -/
def State.RecordsSealed (s : State) : Prop :=
  (∀ i : Slot, (s.ledger.account i).faultMark = true ∨
      crc (s.ledger.account i).image = (s.ledger.account i).checkWord) ∧
    ∀ i : IntakeNo, (s.ledger.intake i).faultMark = true ∨
      crc (s.ledger.intake i).image = (s.ledger.intake i).checkWord

/-- Every tariff is marked, or both its walks succeed and its check word holds over what they reach (R38, R164). -/
def State.TariffsVerified (s : State) : Prop :=
  ∀ i : TariffNo, (s.ledger.tariff i).faultMark = true ∨ (s.ledger.tariff i).checks s.ledger.pool i = true

/-- Ownership between records that are not marked (R9, R29, R88, R89). An account's member list names exactly the MEMBER
intakes that name it as owner, each once; members and pending joins number at most 8; an account in neither billing state
has no member. A pending join stands on a FREE intake and a pending leave on a MEMBER one. An account that is not FREE
names a tariff that is not EMPTY. -/
def State.OwnershipAgrees (s : State) : Prop :=
  (∀ a : Slot, (s.ledger.account a).faultMark = false →
    (∀ i : IntakeNo, (s.ledger.intake i).faultMark = false →
      (i ∈ (s.ledger.account a).members ↔
        (s.ledger.intake i).phase = .member ∧ (s.ledger.intake i).owner = some a)) ∧
    (s.ledger.account a).members.Nodup ∧
    (s.ledger.account a).members.length +
        (allIntakes.countP fun i => !(s.ledger.intake i).faultMark && (s.ledger.intake i).joining a) ≤
      Config.memberLimit ∧
    ((s.ledger.account a).bills = false → (s.ledger.account a).members = []) ∧
    ((s.ledger.account a).phase ≠ .free → (s.ledger.tariff (s.ledger.account a).tariff).state ≠ .empty)) ∧
  ∀ i : IntakeNo, (s.ledger.intake i).faultMark = false → ∀ change, (s.ledger.intake i).change = some change →
    (change.target ≠ none → (s.ledger.intake i).phase = .free) ∧
    (change.target = none → (s.ledger.intake i).phase = .member)

/-- No two non-FREE accounts carry the same account number (R2). -/
def State.NumbersDistinct (s : State) : Prop :=
  ∀ i j : Slot, (s.ledger.account i).state ≠ .free → (s.ledger.account j).state ≠ .free →
    (s.ledger.account i).number = (s.ledger.account j).number → i = j

/-- Both buffers of the port hold 128 bytes and the fill count lies from 0 to 128 (R190). -/
def State.BuffersWhole (s : State) : Prop :=
  s.port.requestBuffer.length = Config.bufferSize ∧ s.port.responseBuffer.length = Config.bufferSize ∧
    s.port.fillCount ≤ Config.bufferSize

/-- The Settlement Engine's list holds each slot at most once (R139), and the Interval Engine's list at most one
completeness item for each account slot (R111). -/
def State.WorkListsProper (s : State) : Prop :=
  s.ledger.closeWork.Nodup ∧
    (s.work.filterMap fun w => match w with | .completeness i _ => some i | _ => none).Nodup

end Sys2Proof.Machine
end

