-- ==== Sys2Proof/WellFormed.lean ====
section
/-! DEFINITION. Which commands are well formed: operands that the device could be given. Lane numbers and field widths
are checked by their types. -/

namespace Sys2Proof

/-- A transaction byte names one of the four transactions (R207). -/
def namesTransaction (code : Byte) : Bool :=
  code == 0x01#8 || code == 0x02#8 || code == 0x03#8 || code == 0x04#8

/-- A command is well formed unless it is an UNKNOWN_TRANSACTION whose byte names a transaction (R189), a cut-short
transaction byte with bytes after it (R189), or a MALFORMED_FRAME whose bytes hold a flag or are not malformed
(R205). -/
def Instr.wellFormed : Instr → Bool
  | .unknownTransaction (some code) _ => !namesTransaction code
  | .unknownTransaction none clocked => clocked == 0
  | .malformedFrame _ content => !content.contains 0x7E#8 && Machine.receive content == .malformed
  | .writeRequest _ | .execute _ | .readStatus _ | .readResponse _ => true
  | .openAccount | .amendAccount | .suspendAccount | .resumeAccount | .retireAccount | .findAccount => true
  | .readAccount | .listAccounts | .writeTariff | .deleteTariff | .readTariff | .setTime | .trimTime => true
  | .readTime | .restoreLane | .setLane | .readLane | .defineIntake | .assignIntake | .unassignIntake => true
  | .readIntake | .collectHeld | .holdAccumulation | .releaseAccumulation | .readDemand | .closeNow => true
  | .changeTariff | .releaseSettlement | .repairAccount | .discardAccount | .repairIntake | .verifyStore => true
  | .startRun | .stopRun | .setRunParameters | .readPartStatus | .setAttentionMask | .ackAttention => true
  | .hello _ _ _ | .increment _ _ | .carrierLoss _ | .carrierAppear _ | .resyncTimerExpiry _ => true
  | .transmitFrame _ | .laneBoundary | .minuteEvent | .boundaryEvent | .graceExpiry | .bandNotifyCheck => true
  | .boundaryAgeing | .fold | .accountVisit | .slotClosure | .placeEntry | .settlementExamination => true
  | .sweepVerify | .restartCatchUp | .powerLoss | .resetAssert | .vbakDip | .deviceStart _ => true
  | .passageOfASecond => true

end Sys2Proof
end

