-- ==== Sys2Proof/Certificates/Slice0/Obligations.lean ====
section
/-! DEFINITION. The statements for the provers. Each is about every state unless it says otherwise; what an equation of
states does not name, it says is unchanged. -/

open Sys2Proof Sys2Proof.Machine

/-! ### The queue, rest and reset -/

/-- A step takes the command at the front of the queue and carries it out with the queue's rest. -/
def Obligations.StepRunsFrontCommand : Prop :=
  ∀ (c : Instr) (rest : List Instr) (s : State), s.pending = c :: rest → step s = exec c { s with pending := rest }

/-- Every command has a next state, in every state, and leaves the queue of the waiting commands as it is. (The spec
names the steps and when each is taken. That a command which is not due completes without an effect is the model's choice,
log 1, and so is the next state of a state that no run reaches, log 32.) -/
def Obligations.EveryCommandCompletesAndKeepsTheQueue : Prop :=
  ∀ (c : Instr) (s : State), ∃ t, exec c s = .next t ∧ t.pending = s.pending

/-- Commands without an effect. At rest the blocks take no step and the calendar's seconds pass (R46, R184). That a
command which is not due leaves the state unchanged is the model's choice (log 1): any other command at rest, a request
command outside an execution, an engine with nothing to do. That a change of carrier at rest changes that lane's carrier
alone is the model's too (log 28), and so is the note that no second passes onto a minute start at rest (log 43). -/
def Obligations.RestIgnoresCommands : Prop :=
  ∀ s : State,
    (s.atRest = true →
      ∀ c : Instr,
        match c with
        | .passageOfASecond => exec c s = .next { s with calendar := s.calendar.tick false }
        | .carrierLoss k => exec c s = .next (s.putLane k { s.lane k with carrier := false })
        | .carrierAppear k => exec c s = .next (s.putLane k { s.lane k with carrier := true })
        | .powerLoss | .resetAssert | .vbakDip | .deviceStart _ => True
        | _ => exec c s = .next s) ∧
    (s.port.busy = false → ∀ k : RequestCode, exec k.command s = .next s) ∧
    (s.work = [] →
      ∀ c ∈ [Instr.bandNotifyCheck, .boundaryAgeing, .fold, .accountVisit, .slotClosure], exec c s = .next s) ∧
    (s.arrivals = [] → exec .placeEntry s = .next s) ∧
    (s.ledger.closeWork = [] → exec .settlementExamination s = .next s) ∧
    (s.sweep.position = none → exec .sweepVerify s = .next s) ∧
    (s.mode ≠ .restarting ∨ s.sweep.position ≠ none → exec .restartCatchUp s = .next s)

/-- The state after reset holds the cold values: 64 FREE accounts, 96 UNDEFINED intakes, 16 EMPTY tariffs and 128 free
pool entries, the calendar UNSET with the cold run parameters, no attention and no mask, the engine RUNNING, the sweep
IDLE, the mode COMMISSIONING. (That it stands at the end of a cold start with no carrier is the model's choice, log 20.)
The state after reset satisfies every invariant stated below. -/
def Obligations.ResetIsColdAndMeetsTheInvariants : Prop :=
  ((∀ i, State.reset.ledger.account i = Account.free ∧ (State.reset.ledger.account i).state = .free) ∧
     (∀ i, (State.reset.ledger.intake i).state = .undefined) ∧
     (∀ i, (State.reset.ledger.tariff i).state = .empty) ∧
     (freeEntries State.reset.ledger.pool).length = 128 ∧
     State.reset.calendar.isSet = false ∧
     State.reset.calendar.params = { subinterval := 15, grace := 60, silenceLimit := 3, countPeriod := 0 } ∧
     State.reset.ledger.attention = 0 ∧ State.reset.port.mask = 0 ∧ State.reset.engine = .running ∧
     State.reset.sweep = { position := none, faultCount := 0 } ∧ State.reset.mode = .commissioning ∧
     State.reset.pending = []) ∧
  (State.reset.LinkLaw ∧ State.reset.RecordsSealed ∧ State.reset.TariffsVerified ∧ State.reset.NumbersDistinct ∧
     State.reset.OwnershipAgrees ∧ State.reset.BuffersWhole ∧ State.reset.WorkListsProper)

/-! ### The Request Port -/

/-- WRITE_REQUEST (R191): with BUSY clear the first 128 data bytes are stored from offset 0, later positions keep what
they held, the fill count is the number stored, and OVERRUN is set when bytes were dropped; with BUSY set only
WRITE_WHILE_BUSY is set. MISO carries 0 throughout. (That a write of more than 128 bytes leaves OVERRUN as it is while BUSY
is set is the model's choice, log 42.) -/
def Obligations.WriteRequestFillsTheBuffer : Prop :=
  ∀ (data : List Byte) (s : State), s.atRest = false →
    ∃ p : Port, exec (.writeRequest data) s = .next { s with port := p } ∧
      p.miso = List.replicate (1 + data.length) 0 ∧
      (s.port.busy = true → p = { s.port with writeWhileBusy := true, miso := p.miso }) ∧
      (s.port.busy = false →
        p.fillCount = min data.length 128 ∧
        (∀ k < 128, p.requestBuffer[k]? = if k < data.length then data[k]? else s.port.requestBuffer[k]?) ∧
        p.overrun = (s.port.overrun || decide (128 < data.length)) ∧
        p = { s.port with
          requestBuffer := p.requestBuffer, fillCount := p.fillCount, overrun := p.overrun, miso := p.miso })

/-- EXECUTE (R192): with BUSY clear it sets BUSY, clears RESPONSE_READY and zeroes the response buffer; with BUSY set it
sets STRAY_EXECUTE and is ignored otherwise. -/
def Obligations.ExecuteStartsTheRequest : Prop :=
  ∀ (n : Nat) (s : State), s.atRest = false →
    exec (.execute n) s =
      .next
        { s with
          port :=
            if s.port.busy then { s.port with strayExecute := true, miso := List.replicate (1 + n) 0 }
            else
              { s.port with
                busy := true
                responseReady := false
                responseBuffer := List.replicate 128 0
                miso := List.replicate (1 + n) 0 } }

/-- READ_STATUS (R193): the status byte and the two bytes of the attention set, as they stood before it, then zeros; the
three error flags are cleared and nothing else changes. -/
def Obligations.ReadStatusShowsAndClears : Prop :=
  ∀ (n : Nat) (s : State), s.atRest = false →
    ∃ shown : List Byte,
      exec (.readStatus n) s =
          .next
            { s with
              port := { s.port with overrun := false, writeWhileBusy := false, strayExecute := false, miso := shown } } ∧
        shown.length = 1 + n ∧ shown[0]? = some 0 ∧
        ∀ k < n,
          shown[k + 1]? =
            some
              (if k = 0 then s.port.statusByte s.ledger.attention
              else if k = 1 then s.ledger.attention.setWidth 8
              else if k = 2 then (s.ledger.attention >>> 8).setWidth 8
              else 0)

/-- READ_RESPONSE returns the response buffer from offset 0, then zeros, and changes nothing else (R194); an
unknown transaction byte clocks out zeros and sets no flag, and one cut short carries no byte (R189). The command that a
transaction is follows from its first byte: 01 WRITE_REQUEST, 02 EXECUTE, 03 READ_STATUS, 04 READ_RESPONSE, any other
byte none of the four (R207). -/
def Obligations.ReadResponseReturnsTheBuffer : Prop :=
  (∀ (n : Nat) (s : State), s.atRest = false →
    (∃ shown : List Byte,
      exec (.readResponse n) s = .next { s with port := { s.port with miso := shown } } ∧
        shown.length = 1 + n ∧ shown[0]? = some 0 ∧
        ∀ k < n, shown[k + 1]? = some (s.port.responseBuffer.getD k 0)) ∧
    exec (.unknownTransaction none 0) s = .next { s with port := { s.port with miso := [] } } ∧
    ∀ code : Byte, namesTransaction code = false →
      exec (.unknownTransaction (some code) n) s =
        .next { s with port := { s.port with miso := List.replicate (1 + n) 0 } }) ∧
  (∀ data : List Byte,
    transactionCommand (0x01#8 :: data) = .writeRequest data ∧
      transactionCommand (0x02#8 :: data) = .execute data.length ∧
      transactionCommand (0x03#8 :: data) = .readStatus data.length ∧
      transactionCommand (0x04#8 :: data) = .readResponse data.length ∧
      ∀ code : Byte, code ∉ [0x01#8, 0x02#8, 0x03#8, 0x04#8] →
        transactionCommand (code :: data) = .unknownTransaction (some code) data.length) ∧
  transactionCommand [] = .unknownTransaction none 0 ∧
  ∀ bytes : List Byte, (transactionCommand bytes).wellFormed = true

/-- The port status byte (R207), with ATTN set exactly while an enabled source is set (R200). The response record is
written as a whole over a buffer of 128 bytes: status code, payload length, payload, and the bytes beyond it stay; BUSY
is cleared and RESPONSE_READY set together (R195, R196). -/
def Obligations.StatusByteAndResponseRecord : Prop :=
  (∀ (attention : BitVec 12) (p : Port),
     let b := p.statusByte attention
     b.getLsbD 0 = p.busy ∧ b.getLsbD 1 = p.responseReady ∧ b.getLsbD 2 = p.overrun ∧
       b.getLsbD 3 = p.writeWhileBusy ∧ b.getLsbD 4 = p.strayExecute ∧
       (b.getLsbD 5 = true ↔ ∃ k < 12, attention.getLsbD k = true ∧ p.mask.getLsbD k = true) ∧
       b.getLsbD 6 = false ∧ b.getLsbD 7 = false) ∧
  ∀ (a : Answer) (p : Port), p.responseBuffer.length = 128 → a.payload.length ≤ 126 →
    (p.respond a).busy = false ∧ (p.respond a).responseReady = true ∧ (p.respond a).responseBuffer.length = 128 ∧
      (p.respond a).responseBuffer.take (2 + a.payload.length) =
        [byte a.code.value, byte a.payload.length] ++ a.payload ∧
      (p.respond a).responseBuffer.drop (2 + a.payload.length) = p.responseBuffer.drop (2 + a.payload.length) ∧
      p.respond a =
        { p with responseBuffer := (p.respond a).responseBuffer, busy := false, responseReady := true }

/-- The port's checks of a request in execution (R197), in their order, with the code each failure gives; a refused
request changes nothing but the port. (That a record which names no request is answered by whichever request command comes,
as the first two clauses say, is the model's reading, log 3.) -/
def Obligations.PortChecksRefuseInOrder : Prop :=
  ∀ (k : RequestCode) (s : State), s.atRest = false → s.port.busy = true →
    (s.port.record.length < 2 → exec k.command s = .next (s.respond (refuse .badRequest))) ∧
    (2 ≤ s.port.record.length →
      (∀ j : RequestCode, s.port.record.getD 0 0 ≠ j.value) →
        exec k.command s = .next (s.respond (refuse .badRequest))) ∧
    (2 ≤ s.port.record.length → s.port.record.getD 0 0 = k.value →
      (s.port.record.length < 2 + (s.port.record.getD 1 0).toNat ∨
          k.lengthFits ((s.port.record.drop 2).take (s.port.record.getD 1 0).toNat) = false →
        exec k.command s = .next (s.respond (refuse .badRequest))) ∧
      (2 + (s.port.record.getD 1 0).toNat ≤ s.port.record.length →
        k.lengthFits ((s.port.record.drop 2).take (s.port.record.getD 1 0).toNat) = true →
          (s.mode = .restarting → k ≠ .readPartStatus → k ≠ .setAttentionMask →
            exec k.command s = .next (s.respond (refuse .restarting))) ∧
          (s.mode = .commissioning → k ∈ [.suspendAccount, .resumeAccount, .closeNow, .stopRun] →
            exec k.command s = .next (s.respond (refuse .wrongMode))) ∧
          (s.mode = .run → k ∈ [.setTime, .startRun, .setRunParameters] →
            exec k.command s = .next (s.respond (refuse .wrongMode)))))

/-! ### Accounts -/

/-- OPEN_ACCOUNT on good parameters writes the lowest FREE slot (R3, R13): the identity given, state ACTIVE, everything
else at its FREE value, and the period start at the calendar time in RUN and absent in COMMISSIONING. (That it verifies every
account that is not FREE, Ledger.checkAccounts, as it reads the number of each, is the model's reading of R165, log 11.) -/
def Obligations.OpenAccountFillsTheLowestFreeSlot : Prop :=
  ∀ (s : State) (p : List Byte) (i : Slot) (t : TariffNo), s.Granted .openAccount p →
    field 0 4 p ≠ 0 → field 4 1 p = t.val → field 9 1 p ≤ 100 → 1 ≤ field 10 1 p → field 10 1 p ≤ 28 →
    field 11 1 p ≤ 23 → s.ledger.ReadyTariff t →
    (∀ j, (s.ledger.account j).state ≠ .free → (s.ledger.account j).number ≠ field 0 4 p) →
    (s.ledger.account i).state = .free → (∀ j, j < i → (s.ledger.account j).state ≠ .free) →
    exec .openAccount s =
      .next
        (s.answered
          (s.ledger.checkAccounts.putAccount i
            { Account.free with
              number := field 0 4 p
              phase := .active
              tariff := t
              contractDemand := field 5 4 p
              minPercent := field 9 1 p
              closeDay := field 10 1 p
              closeHour := field 11 1 p
              period := { Period.cold with start := if s.mode = .run then some s.calendar.time else none } })
          (okWith [byte i.val]))

/-- The checks of OPEN_ACCOUNT in their order, each with its code (R12); a tariff found failing is marked though the
request is refused. The comparison of the number verifies every account that is not FREE: one that fails is marked, with
INTEGRITY_FAULT, the others and everything else stay (R165; that this comparison is a use of each of them is the model's
reading, log 11). (That a request refused by its ranges asks for
no operation, and so is answered out of turn too, is the model's reading, log 5.) -/
def Obligations.OpenAccountChecks : Prop :=
  (∀ l : Ledger,
    l.checkAccounts.intakes = l.intakes ∧ l.checkAccounts.tariffs = l.tariffs ∧ l.checkAccounts.pool = l.pool ∧
      l.checkAccounts.closeWork = l.closeWork ∧
      ((∃ j, l.FailingAccount j) → l.checkAccounts.attention = (l.raise .integrityFault).attention) ∧
      ((∀ j, ¬l.FailingAccount j) → l.checkAccounts.attention = l.attention) ∧
      ∀ j,
        (l.FailingAccount j → l.checkAccounts.account j = { l.account j with faultMark := true }) ∧
        (¬l.FailingAccount j → l.checkAccounts.account j = l.account j)) ∧
  ∀ (s : State) (p : List Byte), s.Issues .openAccount p →
    let bad :=
      field 0 4 p = 0 ∨ 15 < field 4 1 p ∨ 100 < field 9 1 p ∨ field 10 1 p < 1 ∨ 28 < field 10 1 p ∨ 23 < field 11 1 p
    (bad → exec .openAccount s = .next (s.respond (refuse .outOfRange))) ∧
    ∀ t : TariffNo, s.requestTurn = true → ¬bad → field 4 1 p = t.val →
      (¬s.ledger.ReadyTariff t →
        exec .openAccount s = .next (s.answered (s.ledger.checkTariff t) (refuse .noSuchTariff))) ∧
      (s.ledger.ReadyTariff t →
        ((∃ j, (s.ledger.account j).state ≠ .free ∧ (s.ledger.account j).number = field 0 4 p) →
          exec .openAccount s = .next (s.answered s.ledger.checkAccounts (refuse .duplicateAccount))) ∧
        ((∀ j, (s.ledger.account j).state ≠ .free ∧ (s.ledger.account j).number ≠ field 0 4 p) →
          exec .openAccount s = .next (s.answered s.ledger.checkAccounts (refuse .noFreeSlot))))

/-- The addressing checks of R11 for seven other requests on a sound account: a slot above 63 (and a tariff index above 15 of
CHANGE_TARIFF) is refused with OUT_OF_RANGE, a FREE slot with NO_SUCH_ACCOUNT, and a FAULTED account, or one that fails its
check word here and is marked, with FAULTED. AMEND_ACCOUNT (R14): OUT_OF_RANGE; NO_SUCH_ACCOUNT for a FREE slot; FAULTED for
a marked account, and for one that fails its check word, which is then marked (R165); WRONG_STATE for a FINAL account.
Otherwise it replaces the four contract terms of the ACTIVE or SUSPENDED account, in COMMISSIONING and in RUN, and nothing
else. (That a request refused by its ranges asks for no operation, and so is answered out of turn too, is the model's
reading, log 5.) -/
def Obligations.AmendAccountReplacesTheTerms : Prop :=
  (∀ (s : State) (p : List Byte) (k : RequestCode),
    k ∈
      [.suspendAccount, .resumeAccount, .retireAccount, .readDemand, .closeNow, .releaseSettlement, .changeTariff] →
    s.Issues k p →
    let bad := 63 < field 0 1 p ∨ (k = .changeTariff ∧ 15 < field 1 1 p)
    (bad → exec k.command s = .next (s.respond (refuse .outOfRange))) ∧
    ∀ i : Slot, s.requestTurn = true → ¬bad → field 0 1 p = i.val →
      ((s.ledger.account i).state = .free →
        exec k.command s = .next (s.answered s.ledger (refuse .noSuchAccount))) ∧
      ((s.ledger.account i).faultMark = true →
        exec k.command s = .next (s.answered s.ledger (refuse .faulted))) ∧
      (s.ledger.FailingAccount i →
        exec k.command s = .next (s.answered (s.ledger.withAccountMarked i) (refuse .faulted)))) ∧
  ∀ (s : State) (p : List Byte), s.Issues .amendAccount p →
    let bad := 63 < field 0 1 p ∨ 100 < field 5 1 p ∨ field 6 1 p < 1 ∨ 28 < field 6 1 p ∨ 23 < field 7 1 p
    (bad → exec .amendAccount s = .next (s.respond (refuse .outOfRange))) ∧
    ∀ i : Slot, s.requestTurn = true → ¬bad → field 0 1 p = i.val →
      ((s.ledger.account i).state = .free →
        exec .amendAccount s = .next (s.answered s.ledger (refuse .noSuchAccount))) ∧
      ((s.ledger.account i).faultMark = true →
        exec .amendAccount s = .next (s.answered s.ledger (refuse .faulted))) ∧
      ((s.ledger.account i).faultMark = false → (s.ledger.account i).phase ≠ .free →
        (s.ledger.account i).checks = false →
          exec .amendAccount s =
            .next
              (s.answered
                ((s.ledger.storeAccount i { s.ledger.account i with faultMark := true }).raise .integrityFault)
                (refuse .faulted))) ∧
      (s.ledger.SoundAccount i →
        ((s.ledger.account i).phase = .active ∨ (s.ledger.account i).phase = .suspended →
          exec .amendAccount s =
            .next
              (s.answered
                (s.ledger.putAccount i
                  { s.ledger.account i with
                    contractDemand := field 1 4 p
                    minPercent := field 5 1 p
                    closeDay := field 6 1 p
                    closeHour := field 7 1 p })
                okDone)) ∧
        ((s.ledger.account i).phase = .final →
          exec .amendAccount s = .next (s.answered s.ledger (refuse .wrongState))))

/-- SUSPEND_ACCOUNT of a sound ACTIVE account: a pending slot is closed first, then the account becomes SUSPENDED (R16).
RESUME_ACCOUNT of a sound SUSPENDED one: it becomes ACTIVE with a cleared window (R18). In the other states each is
refused with WRONG_STATE. -/
def Obligations.SuspendAndResume : Prop :=
  ∀ (s : State) (p : List Byte) (i : Slot), field 0 1 p = i.val → s.ledger.SoundAccount i →
    (s.Granted .suspendAccount p →
      ((s.ledger.account i).phase = .active →
        ((s.ledger.account i).storedSlot = none →
          exec .suspendAccount s =
            .next (s.answered (s.ledger.putAccount i { s.ledger.account i with phase := .suspended }) okDone)) ∧
        ((s.ledger.account i).storedSlot ≠ none →
          let l := closeSlot .ordinary s.calendar i s.ledger
          exec .suspendAccount s =
            .next (s.answered (l.putAccount i { l.account i with phase := .suspended }) okDone))) ∧
      ((s.ledger.account i).phase = .suspended ∨ (s.ledger.account i).phase = .final →
        exec .suspendAccount s = .next (s.answered s.ledger (refuse .wrongState)))) ∧
    (s.Granted .resumeAccount p →
      ((s.ledger.account i).phase = .suspended →
        exec .resumeAccount s =
          .next
            (s.answered
              (s.ledger.putAccount i
                { s.ledger.account i with
                  phase := .active
                  window := Vector.replicate 12 { energy := { imp := 0, lag := 0, lead := 0 }, state := .empty }
                  ringPos := 0 })
              okDone)) ∧
      ((s.ledger.account i).phase = .active ∨ (s.ledger.account i).phase = .final →
        exec .resumeAccount s = .next (s.answered s.ledger (refuse .wrongState))))

/-- RETIRE_ACCOUNT of a sound ACTIVE or SUSPENDED account with no settled section, under a READY tariff (R20, R21). In
COMMISSIONING its members are released and the slot becomes FREE. In RUN a pending slot is closed (R119, without its last
step: that this closure hands no account over is the model's reading, log 26), a RETIRE close is made at the calendar time
without LATE, the members are released, and the account becomes FINAL. Its refusals (R19): a FINAL account with WRONG_STATE,
then a settled section with SETTLEMENT_PENDING, then a tariff that is FAULTED, or fails its verification here and is marked,
with FAULTED. The release of an account's members (R20, step 3; R167): a FAULTED intake is not written; a sound member
becomes FREE with no owner and no pending change; a sound intake with a pending join to the account loses it; every other
sound intake is unchanged. Held energy and everything else of each intake is kept, and no account is written. (That the
release verifies all 96 intakes, so that one that fails is marked, is the model's reading of R165, log 11.) -/
def Obligations.RetireSettlesOrFrees : Prop :=
  (∀ (s : State) (p : List Byte) (i : Slot), s.Granted .retireAccount p → field 0 1 p = i.val →
     s.ledger.SoundAccount i → (s.ledger.account i).bills = true → (s.ledger.account i).settled = none →
     s.ledger.ReadyTariff (s.ledger.account i).tariff →
     (s.mode = .commissioning →
       exec .retireAccount s =
         .next (s.answered ((releaseMembers i s.ledger).storeAccount i .free) okDone)) ∧
     (s.mode = .run →
       let l := closeSlot .forRetirement s.calendar i s.ledger
       let a := l.account i
       let l := (l.putAccount i (a.closePeriod .retire false s.calendar.time (l.tariff a.tariff))).raise .settlementReady
       let l := releaseMembers i l
       exec .retireAccount s =
         .next (s.answered (l.putAccount i { l.account i with members := [], phase := .final }) okDone))) ∧
  (∀ (s : State) (p : List Byte) (i : Slot), s.Granted .retireAccount p → field 0 1 p = i.val →
     s.ledger.SoundAccount i → (s.ledger.account i).phase ≠ .free →
     ((s.ledger.account i).phase = .final →
       exec .retireAccount s = .next (s.answered s.ledger (refuse .wrongState))) ∧
     ((s.ledger.account i).phase ≠ .final → (s.ledger.account i).settled ≠ none →
       exec .retireAccount s = .next (s.answered s.ledger (refuse .settlementPending))) ∧
     ((s.ledger.account i).phase ≠ .final → (s.ledger.account i).settled = none →
       let t := (s.ledger.account i).tariff
       ((s.ledger.tariff t).faultMark = true →
         exec .retireAccount s = .next (s.answered s.ledger (refuse .faulted))) ∧
       ((s.ledger.tariff t).faultMark = false → (s.ledger.tariff t).checks s.ledger.pool t = false →
         exec .retireAccount s =
           .next
             (s.answered
               ((s.ledger.storeTariff t { s.ledger.tariff t with faultMark := true }).raise .integrityFault)
               (refuse .faulted))))) ∧
  ∀ (a : Slot) (l : Ledger) (j : IntakeNo),
    ((l.intake j).faultMark = true → (releaseMembers a l).intake j = l.intake j) ∧
    (l.SoundIntake j → j ∈ (l.account a).members →
      (releaseMembers a l).intake j =
        Intake.seal { l.intake j with phase := .free, owner := none, ownerSince := none, change := none }) ∧
    (l.SoundIntake j → j ∉ (l.account a).members → (∃ tag, (l.intake j).change = some { target := some a, tag := tag }) →
      (releaseMembers a l).intake j = Intake.seal { l.intake j with change := none }) ∧
    (l.SoundIntake j → j ∉ (l.account a).members →
      (∀ tag, (l.intake j).change ≠ some { target := some a, tag := tag }) →
      (releaseMembers a l).intake j = l.intake j) ∧
    ((l.intake j).faultMark = false → (l.intake j).checks = false →
      (releaseMembers a l).intake j = { l.intake j with faultMark := true }) ∧
    (releaseMembers a l).accounts = l.accounts ∧ (releaseMembers a l).tariffs = l.tariffs ∧
    (releaseMembers a l).pool = l.pool ∧ (releaseMembers a l).closeWork = l.closeWork ∧
    (l.IntakesSettled → (releaseMembers a l).attention = l.attention)

/-- FIND_ACCOUNT answers with the first slot that holds the number and its state, with FAULTED and the same payload for a
FAULTED one, or one that fails its check word here and is marked; the number 0 is refused with OUT_OF_RANGE, and one that no
slot holds with NO_SUCH_ACCOUNT (R23). READ_ACCOUNT answers the sections of a sound account, SETTLED being refused with
NOTHING_SETTLED when absent, and WINDOW resting on the tariff's N (R24, R25): under a FAULTED tariff, or one that fails its
check word here and is marked, WINDOW is refused with FAULTED. Of a FAULTED account, or one that fails its check word here
and is marked, it answers IDENTITY alone. A slot, a section or a part out of range is refused with OUT_OF_RANGE, and a FREE
slot with NO_SUCH_ACCOUNT (R11, R24, R209). But for these marks, no record changes. The sections are laid out as Tables 11-4
to 11-6 give, with the codes of Table 11-1 (R208, R209). (That the value of an absent band maximum in SETTLED, the estimated
flag of an absent one and the cause bits without a close due are sent as 0 is the model's reading, log 13; that a request
refused by its ranges asks for no operation, and so is answered out of turn too, is log 5.) -/
def Obligations.LookUpsAnswerAndChangeNothing : Prop :=
  (∀ (s : State) (p : List Byte),
    let marked (i : Slot) : Ledger :=
      (s.ledger.storeAccount i { s.ledger.account i with faultMark := true }).raise .integrityFault
    let fails (i : Slot) : Prop :=
      (s.ledger.account i).faultMark = false ∧ (s.ledger.account i).phase ≠ .free ∧ (s.ledger.account i).checks = false
    (s.Issues .findAccount p →
      (field 0 4 p = 0 → exec .findAccount s = .next (s.respond (refuse .outOfRange))) ∧
      (s.requestTurn = true → field 0 4 p ≠ 0 →
        (∀ j, (s.ledger.account j).state ≠ .free → (s.ledger.account j).number ≠ field 0 4 p) →
        exec .findAccount s = .next (s.answered s.ledger (refuse .noSuchAccount))) ∧
      ∀ i : Slot, s.requestTurn = true → field 0 4 p ≠ 0 → fails i → (s.ledger.account i).number = field 0 4 p →
        (∀ j, j < i → (s.ledger.account j).state ≠ .free → (s.ledger.account j).number ≠ field 0 4 p) →
        exec .findAccount s = .next (s.answered (marked i) { code := .faulted, payload := [byte i.val, 4] })) ∧
    (s.Issues .readAccount p →
      let parts := if field 1 1 p = 3 then 1 else 0
      let bad := 63 < field 0 1 p ∨ field 1 1 p = 0 ∨ 5 < field 1 1 p ∨ parts < field 2 1 p
      (bad → exec .readAccount s = .next (s.respond (refuse .outOfRange))) ∧
      ∀ i : Slot, s.requestTurn = true → ¬bad → field 0 1 p = i.val →
        ((s.ledger.account i).state = .free →
          exec .readAccount s = .next (s.answered s.ledger (refuse .noSuchAccount))) ∧
        (fails i →
          (field 1 1 p = 1 →
            exec .readAccount s =
              .next (s.answered (marked i) (okWith ((s.ledger.account i).identityBytes .faulted)))) ∧
          (field 1 1 p ≠ 1 → exec .readAccount s = .next (s.answered (marked i) (refuse .faulted)))) ∧
        (s.ledger.SoundAccount i → (s.ledger.account i).phase ≠ .free → field 1 1 p = 3 →
          let t := (s.ledger.account i).tariff
          ((s.ledger.tariff t).faultMark = true →
            exec .readAccount s = .next (s.answered s.ledger (refuse .faulted))) ∧
          ((s.ledger.tariff t).faultMark = false → (s.ledger.tariff t).checks s.ledger.pool t = false →
            exec .readAccount s =
              .next
                (s.answered
                  ((s.ledger.storeTariff t { s.ledger.tariff t with faultMark := true }).raise .integrityFault)
                  (refuse .faulted)))))) ∧
  (∀ (s : State) (p : List Byte) (i : Slot),
    (s.Granted .findAccount p → (s.ledger.account i).state ≠ .free → (s.ledger.account i).number = field 0 4 p →
      field 0 4 p ≠ 0 →
      (∀ j, j < i → (s.ledger.account j).state ≠ .free → (s.ledger.account j).number ≠ field 0 4 p) →
      (s.ledger.SoundAccount i →
        exec .findAccount s =
          .next (s.answered s.ledger (okWith [byte i.val, byte (s.ledger.account i).state.code]))) ∧
      ((s.ledger.account i).faultMark = true →
        exec .findAccount s =
          .next (s.answered s.ledger { code := .faulted, payload := [byte i.val, 4] }))) ∧
    (s.Granted .readAccount p → field 0 1 p = i.val → s.ledger.SoundAccount i → (s.ledger.account i).phase ≠ .free →
      let a := s.ledger.account i
      (field 1 1 p = 1 → field 2 1 p = 0 →
        exec .readAccount s = .next (s.answered s.ledger (okWith (a.identityBytes a.state)))) ∧
      (field 1 1 p = 2 → field 2 1 p = 0 → exec .readAccount s = .next (s.answered s.ledger (okWith a.period.bytes))) ∧
      (field 1 1 p = 3 → field 2 1 p ≤ 1 → s.ledger.ReadyTariff a.tariff →
        exec .readAccount s =
          .next (s.answered s.ledger (okWith (windowPart (s.ledger.tariff a.tariff).n (field 2 1 p) a)))) ∧
      (field 1 1 p = 4 → field 2 1 p = 0 → exec .readAccount s = .next (s.answered s.ledger (okWith a.ratchetBytes))) ∧
      (field 1 1 p = 5 → field 2 1 p = 0 →
        (∀ x, a.settled = some x → exec .readAccount s = .next (s.answered s.ledger (okWith x.bytes))) ∧
        (a.settled = none → exec .readAccount s = .next (s.answered s.ledger (refuse .nothingSettled))))) ∧
    (s.Granted .readAccount p → field 0 1 p = i.val → (s.ledger.account i).faultMark = true →
      (field 1 1 p = 1 → field 2 1 p = 0 →
        exec .readAccount s =
          .next (s.answered s.ledger (okWith ((s.ledger.account i).identityBytes .faulted)))) ∧
      (2 ≤ field 1 1 p → field 1 1 p ≤ 5 → field 2 1 p = 0 →
        exec .readAccount s = .next (s.answered s.ledger (refuse .faulted))))) ∧
  ([AccountState.free, .active, .suspended, .final, .faulted].map (·.code) = [0, 1, 2, 3, 4] ∧
    [SlotState.empty, .complete, .incomplete, .outage].map (·.code) = [0, 1, 2, 3] ∧
    [CloseCause.scheduled, .host, .tariffChange, .retire].map (·.code) = [0, 1, 2, 3]) ∧
  (∀ (state : AccountState) (a : Account), a.members.length ≤ 8 →
    a.IdentityLayout state (a.identityBytes state)) ∧
  (∀ p : Period, p.RunningLayout p.bytes) ∧ (∀ a : Account, a.RatchetLayout a.ratchetBytes) ∧
  (∀ x : Settled, x.SettledLayout x.bytes) ∧
  ∀ (n part : Nat) (a : Account), 1 ≤ n → n ≤ 12 → a.ringPos < n → part ≤ 1 →
    (∀ p, a.storedSlot = some p → p.expected.length ≤ 8) → a.WindowLayout n part (windowPart n part a)

/-- LIST_ACCOUNTS verifies every account that is not FREE, marks those that fail (Ledger.checkAccounts) and changes nothing
else; it answers with the count and the slots that then match the filter, in ascending order (R26). Another filter is
refused with OUT_OF_RANGE. (That this refusal asks for no operation, and so comes out of turn too, is the model's reading,
log 5.) -/
def Obligations.ListAccountsAnswersTheFilter : Prop :=
  (∀ (s : State) (p : List Byte), s.Issues .listAccounts p → field 0 1 p = 0 ∨ 5 < field 0 1 p →
    exec .listAccounts s = .next (s.respond (refuse .outOfRange))) ∧
  ∀ (s : State) (p : List Byte), s.Granted .listAccounts p → 1 ≤ field 0 1 p → field 0 1 p ≤ 5 →
    ∃ slots : List Slot,
      exec .listAccounts s =
          .next
            (s.answered s.ledger.checkAccounts (okWith (byte slots.length :: slots.map fun i => byte i.val))) ∧
        slots.Pairwise (· < ·) ∧
        ∀ i, i ∈ slots ↔
          (let a := s.ledger.checkAccounts.account i
          (field 0 1 p = 1 ∧ a.state ≠ .free) ∨
            (field 0 1 p = 2 ∧ a.state ≠ .faulted ∧ a.settled ≠ none) ∨
            (field 0 1 p = 3 ∧ a.state ≠ .faulted ∧ a.closeBlocked = true) ∨
            (field 0 1 p = 4 ∧ a.state = .faulted) ∨
            (field 0 1 p = 5 ∧ a.state ≠ .faulted ∧ a.period.exceeded = true))

/-- No two non-FREE accounts carry the same account number, after any step (R2). -/
def Obligations.AccountNumbersStayDistinct : Prop :=
  ∀ s t : State, s.NumbersDistinct → step s = .next t → t.NumbersDistinct

/-! ### Tariffs -/

/-- WRITE_TARIFF on good parameters, with enough free pool entries, on a tariff that no account names and that is EMPTY,
READY or FAULTED (and, unless it is FAULTED, verifies): the request answers OK, the tariff is READY and verifies, its header
is the one given, the walks of its two lists reach exactly the points given, no other tariff, no account and no intake
changes, and entries of other tariffs stay (R33, R41). The parameters: which are in range, and the header and points they
give (R40, step 1; Table 11-3). The refusals (R40): OUT_OF_RANGE, BAD_SWITCH_LIST, OUT_OF_RANGE for a BLOCK tariff whose N ×
S does not divide 1440, then, with the tariff verified, TARIFF_IN_USE and POOL_EXHAUSTED. A write that passes, whatever
accounts name the tariff (R33, R41, R139): the new points take the lowest free entries in list order, every entry that the
tariff owned is freed, and the other entries stay. A sound account that names the tariff has its window cleared and, in a
billing state, loses the maxima of bands at or above the band count; one that fails its check word is marked; the others are
unchanged (that the accounts that name it are found by their stored fields, and only those verified, is the model's reading,
log 11). When the write repairs a FAULTED tariff, the sound billing accounts that name it and hold a close due are handed to
the Settlement Engine (in ascending slot order: the model's choice, log 17). (That a request refused with OUT_OF_RANGE or
BAD_SWITCH_LIST asks for no operation, and so is answered out of turn too, is the model's reading, log 5.) -/
def Obligations.WriteTariffInstallsTheLists : Prop :=
  (∀ (s : State) (p : List Byte) (w : TariffWrite), s.Granted .writeTariff p → TariffWrite.ofBytes p = some w →
    validList w.header.bandCount w.work = true → validList w.header.bandCount w.rest = true →
    (w.header.evaluation = .block → 1440 % (w.header.n * s.calendar.params.subinterval) = 0) →
    (∀ i, (s.ledger.account i).state ≠ .free → (s.ledger.account i).tariff ≠ w.index) →
    ((s.ledger.tariff w.index).faultMark = true ∨ (s.ledger.tariff w.index).checks s.ledger.pool w.index = true) →
    w.work.length + w.rest.length ≤ (freeEntries s.ledger.pool).length →
    ∃ l : Ledger, exec .writeTariff s = .next (s.answered l okDone) ∧
      l.accounts = s.ledger.accounts ∧ l.intakes = s.ledger.intakes ∧ l.attention = s.ledger.attention ∧
      l.closeWork = s.ledger.closeWork ∧
      (∀ j, j ≠ w.index → l.tariff j = s.ledger.tariff j) ∧
      (∀ k : Fin 128, ∀ o, s.ledger.pool[k.val].owner = some o → o.tariff ≠ w.index →
        l.pool[k.val] = s.ledger.pool[k.val]) ∧
      l.ReadyTariff w.index ∧
      (l.tariff w.index).points l.pool w.index = some (w.work, w.rest) ∧
      l.tariff w.index =
        { w.header with
          workHead := (l.tariff w.index).workHead
          restHead := (l.tariff w.index).restHead
          checkWord := (l.tariff w.index).checkWord }) ∧
  (∀ p : List Byte,
    (TariffWrite.ofBytes p = none ↔
      15 < field 0 1 p ∨ 1 < field 3 1 p ∨ field 4 1 p < 1 ∨ 12 < field 4 1 p ∨ 1 < field 5 1 p ∨ field 6 1 p < 1 ∨
        4 < field 6 1 p ∨ 100 < field 7 1 p ∨ field 6 1 p ≤ field 8 1 p ∨ 2000 < field 9 2 p ∨ 2 < field 11 1 p ∨
        1 < field 12 1 p) ∧
    ∀ w, TariffWrite.ofBytes p = some w →
      w.index.val = field 0 1 p ∧ w.header.id = field 1 2 p ∧ w.header.evaluation.code = field 3 1 p ∧
        w.header.n = field 4 1 p ∧ w.header.quantity.code = field 5 1 p ∧ w.header.bandCount = field 6 1 p ∧
        w.header.ratchetPercent = field 7 1 p ∧ w.header.ratchetBand.val = field 8 1 p ∧
        w.header.allowance = field 9 2 p ∧ w.header.leadPolicy.code = field 11 1 p ∧
        w.header.incompletePolicy.code = field 12 1 p ∧ w.header.weekMask.toNat = field 13 1 p % 128 ∧
        w.header.workCount = field 14 1 p ∧ w.header.restCount = field 15 1 p ∧ w.header.faultMark = false ∧
        w.work.length = field 14 1 p ∧ w.rest.length = field 15 1 p ∧
        let point (v : Nat) (q : SwitchPoint) : Prop :=
          q.minute = v % 2048 ∧ q.band.val = v / 2048 % 4 ∧ q.notify = v.testBit 13
        (∀ k q, w.work[k]? = some q → point (field (16 + 2 * k) 2 p) q) ∧
          ∀ k q, w.rest[k]? = some q → point (field (16 + 2 * w.work.length + 2 * k) 2 p) q) ∧
  (∀ (bandCount : Nat) (points : List SwitchPoint),
    validList bandCount points = true ↔
      1 ≤ points.length ∧ points.length ≤ 16 ∧ (∀ q, points[0]? = some q → q.minute = 0) ∧
        (∀ q ∈ points, q.minute ≤ 1439 ∧ q.band.val < bandCount) ∧ points.Pairwise fun q r => q.minute < r.minute) ∧
  (∀ (s : State) (p : List Byte), s.Issues .writeTariff p →
    (TariffWrite.ofBytes p = none → exec .writeTariff s = .next (s.respond (refuse .outOfRange))) ∧
    ∀ w, TariffWrite.ofBytes p = some w →
      let valid := validList w.header.bandCount w.work = true ∧ validList w.header.bandCount w.rest = true
      let fits := w.header.evaluation = .block → 1440 % (w.header.n * s.calendar.params.subinterval) = 0
      let l := s.ledger.checkTariff w.index
      let inUse :=
        s.mode = .run ∧ (l.tariff w.index).state = .ready ∧
          ∃ i, (s.ledger.account i).state ≠ .free ∧ (s.ledger.account i).tariff = w.index
      (¬valid → exec .writeTariff s = .next (s.respond (refuse .badSwitchList))) ∧
      (valid → ¬fits → exec .writeTariff s = .next (s.respond (refuse .outOfRange))) ∧
      (s.requestTurn = true → valid → fits → inUse → exec .writeTariff s = .next (s.answered l (refuse .tariffInUse))) ∧
      (s.requestTurn = true → valid → fits → ¬inUse → (freeEntries s.ledger.pool).length < w.work.length + w.rest.length →
        exec .writeTariff s = .next (s.answered l (refuse .poolExhausted)))) ∧
  ∀ (s : State) (p : List Byte) (w : TariffWrite), s.Granted .writeTariff p → TariffWrite.ofBytes p = some w →
    validList w.header.bandCount w.work = true → validList w.header.bandCount w.rest = true →
    (w.header.evaluation = .block → 1440 % (w.header.n * s.calendar.params.subinterval) = 0) →
    (s.mode ≠ .run ∨ ¬s.ledger.ReadyTariff w.index ∨
      ∀ i, (s.ledger.account i).state ≠ .free → (s.ledger.account i).tariff ≠ w.index) →
    let free := freeEntries s.ledger.pool
    w.work.length + w.rest.length ≤ free.length →
    let repair := (s.ledger.tariff w.index).faultMark || !(s.ledger.tariff w.index).checks s.ledger.pool w.index
    let names (a : Account) : Prop := a.phase ≠ .free ∧ a.tariff = w.index
    ∃ l : Ledger, exec .writeTariff s = .next (s.answered l okDone) ∧ l.intakes = s.ledger.intakes ∧
      (∀ j, j ≠ w.index → l.tariff j = s.ledger.tariff j) ∧ l.ReadyTariff w.index ∧
      (l.tariff w.index).points l.pool w.index = some (w.work, w.rest) ∧
      l.tariff w.index =
        { w.header with
          workHead := free[0]?.map (·.val)
          restHead := free[w.work.length]?.map (·.val)
          checkWord := crc ((l.tariff w.index).image w.work w.rest) } ∧
      (∀ (k : Nat) (q : SwitchPoint) (e : Fin 128), w.work[k]? = some q → free[k]? = some e →
        l.pool[e.val] =
          { point := q
            next := if k + 1 < w.work.length then free[k + 1]?.map (·.val) else none
            owner := some { tariff := w.index, list := .working } }) ∧
      (∀ (k : Nat) (q : SwitchPoint) (e : Fin 128), w.rest[k]? = some q → free[w.work.length + k]? = some e →
        l.pool[e.val] =
          { point := q
            next := if k + 1 < w.rest.length then free[w.work.length + k + 1]?.map (·.val) else none
            owner := some { tariff := w.index, list := .rest } }) ∧
      (∀ e : Fin 128, e ∉ free.take (w.work.length + w.rest.length) →
        l.pool[e.val] =
          (if s.ledger.pool[e.val].owner.map (·.tariff) = some w.index then PoolEntry.free
          else s.ledger.pool[e.val])) ∧
      (∀ i, let a := s.ledger.account i
        (a.faultMark = true ∨ ¬names a → l.account i = a) ∧
        (s.ledger.SoundAccount i → names a →
          l.account i =
            Account.seal
              { a with
                window := Vector.replicate 12 { energy := { imp := 0, lag := 0, lead := 0 }, state := .empty }
                ringPos := 0
                period :=
                  if a.phase = .final then a.period
                  else
                    { a.period with
                      maxima :=
                        Vector.ofFn fun b => if b.val < w.header.bandCount then a.period.maxima[b.val] else none } }) ∧
        (a.faultMark = false → names a → a.checks = false → l.account i = { a with faultMark := true })) ∧
      (s.ledger.AccountsSettled →
        (s.ledger.tariff w.index).faultMark = true ∨ (s.ledger.tariff w.index).checks s.ledger.pool w.index = true →
          l.attention = s.ledger.attention) ∧
      l.closeWork =
        s.ledger.closeWork ++
          (if repair then
            allSlots.filter fun i =>
              let a := s.ledger.account i
              a.bills && a.tariff == w.index && a.checks && a.closeDue.isSome && !s.ledger.closeWork.contains i
          else [])

/-- DELETE_TARIFF of a tariff that is not EMPTY, that no account names, while no account is FAULTED: the tariff takes its
EMPTY content and its entries are freed by owner (R33, R42). Its refusals in their order: an index above 15 with
OUT_OF_RANGE, an EMPTY tariff with NO_SUCH_TARIFF, a named one with TARIFF_IN_USE, and any other while an account is FAULTED
with FAULTED (that it judges the accounts by their stored fields and marks, and verifies none, is the model's choice, log
48). READ_TARIFF of a READY tariff that verifies answers with the number of accounts that name it, the header and the points
of both lists, and changes no record (R43); an index above 15 is refused with OUT_OF_RANGE, an EMPTY tariff with
NO_SUCH_TARIFF, and a FAULTED one, or one that fails its verification here and is marked, with FAULTED. The header and the
points are laid out as Tables 11-3 and 11-8 give, with the codes of Table 11-1. (That a request refused by its ranges asks
for no operation, and so is answered out of turn too, is the model's reading, log 5.) -/
def Obligations.TariffsAreDeletedAndRead : Prop :=
  (∀ t : Tariff, t.HeaderLayout t.headerBytes) ∧ (∀ q : SwitchPoint, q.minute < 2048 → q.PointLayout q.bytes) ∧
  ([Evaluation.rolling, .block].map (·.code) = [0, 1] ∧ [DemandQuantity.kw, .kva].map (·.code) = [0, 1] ∧
    [LeadPolicy.ignore, .add, .net].map (·.code) = [0, 1, 2] ∧
    [IncompletePolicy.incl, .excl].map (·.code) = [0, 1]) ∧
  (∀ (s : State) (p : List Byte), 15 < field 0 1 p →
    (s.Issues .deleteTariff p → exec .deleteTariff s = .next (s.respond (refuse .outOfRange))) ∧
    (s.Issues .readTariff p → exec .readTariff s = .next (s.respond (refuse .outOfRange)))) ∧
  (∀ (s : State) (p : List Byte) (t : TariffNo), s.Granted .deleteTariff p → field 0 1 p = t.val →
     (s.ledger.tariff t).state = .empty →
     exec .deleteTariff s = .next (s.answered s.ledger (refuse .noSuchTariff))) ∧
  (∀ (s : State) (p : List Byte) (t : TariffNo), s.Granted .deleteTariff p → field 0 1 p = t.val →
     (s.ledger.tariff t).state ≠ .empty →
     ((∀ i, (s.ledger.account i).state ≠ .free → (s.ledger.account i).tariff ≠ t) →
       (∃ i, (s.ledger.account i).faultMark = true) →
       exec .deleteTariff s = .next (s.answered s.ledger (refuse .faulted))) ∧
     ((∀ i, (s.ledger.account i).state ≠ .free → (s.ledger.account i).tariff ≠ t) →
       (∀ i, (s.ledger.account i).faultMark = false) →
       ∃ l : Ledger, exec .deleteTariff s = .next (s.answered l okDone) ∧
         l = { s.ledger with tariffs := l.tariffs, pool := l.pool } ∧
         l.tariff t = Tariff.empty ∧ (l.tariff t).state = .empty ∧ (∀ j, j ≠ t → l.tariff j = s.ledger.tariff j) ∧
         ∀ k : Fin 128,
           (∀ o, s.ledger.pool[k.val].owner = some o → o.tariff = t → l.pool[k.val] = PoolEntry.free) ∧
           ((∀ o, s.ledger.pool[k.val].owner = some o → o.tariff ≠ t) → l.pool[k.val] = s.ledger.pool[k.val])) ∧
     ((∃ i, (s.ledger.account i).state ≠ .free ∧ (s.ledger.account i).tariff = t) →
       exec .deleteTariff s = .next (s.answered s.ledger (refuse .tariffInUse)))) ∧
  ∀ (s : State) (p : List Byte) (t : TariffNo), s.Granted .readTariff p → field 0 1 p = t.val →
    (∀ work rest, s.ledger.ReadyTariff t → (s.ledger.tariff t).points s.ledger.pool t = some (work, rest) →
      exec .readTariff s =
        .next
          (s.answered s.ledger
            (okWith
              (byte (allSlots.countP fun i => (s.ledger.account i).state != .free && (s.ledger.account i).tariff == t) ::
                ((s.ledger.tariff t).headerBytes ++ (work.map SwitchPoint.bytes).flatten ++
                  (rest.map SwitchPoint.bytes).flatten))))) ∧
    ((s.ledger.tariff t).state = .empty →
      exec .readTariff s = .next (s.answered s.ledger (refuse .noSuchTariff))) ∧
    ((s.ledger.tariff t).faultMark = true →
      exec .readTariff s = .next (s.answered s.ledger (refuse .faulted))) ∧
    (s.ledger.FailingTariff t → (s.ledger.tariff t).state ≠ .empty →
      exec .readTariff s = .next (s.answered (s.ledger.withTariffMarked t) (refuse .faulted)))

/-- The band in force at a minute, on a list whose first point has minute 0 and whose minutes strictly increase, is the
band of the last point whose minute is at or below it (R36). The list of a date is the working-day list when the week mask
flags the date's weekday, counted from a Saturday on 2000-01-01, Monday being day 0 of the mask (R35, R47). The band of a
time is that of its minute on its date (R36); the band of a window is that of the minute which ends at its boundary time,
on that minute's date (R37). -/
def Obligations.BandInForceIsTheLastPointReached : Prop :=
  (∀ (points : List SwitchPoint) (minute : Nat), (points.head?.map (·.minute)) = some 0 → increasing points = true →
    ∃ q ∈ points, q.minute ≤ minute ∧ (∀ r ∈ points, r.minute ≤ minute → r.minute ≤ q.minute) ∧
      bandInForce points minute = q.band) ∧
  (∀ (t : Tariff) (day : Nat) (p : Schedule),
    p.listOn t day = if t.weekMask.getLsbD ((5 + day) % 7) then p.work else p.rest) ∧
  (∀ (t : Tariff) (p : Schedule) (time : Seconds),
    bandAt t p time = bandInForce (p.listOn t (time / 86400)) (time % 86400 / 60)) ∧
  ∀ (t : Tariff) (p : Schedule) (boundary : Seconds), 60 ≤ boundary → boundary % 60 = 0 →
    let minute := boundary % 86400 / 60
    bandOfWindow t p boundary =
      if minute = 0 then bandInForce (p.listOn t (boundary / 86400 - 1)) 1439
      else bandInForce (p.listOn t (boundary / 86400)) (minute - 1)

/-! ### The calendar -/

/-- SET_TIME with every field in range sets the calendar and the last minute event, and nothing else of the spec's;
otherwise it is refused with OUT_OF_RANGE and changes nothing but the port (R49). (That the new second was not reached by
passage is a note of the model's own, log 43.) The ranges: year 2000 to 2099, month 1 to 12, day 1 to the
length of that month in that year, hour 0 to 23, minute and second 0 to 59 (R47, R49). -/
def Obligations.SetTimeSetsTheCalendar : Prop :=
  (∀ d : DateTime,
    d.inRange = true ↔
      2000 ≤ d.year ∧ d.year ≤ 2099 ∧ 1 ≤ d.month ∧ d.month ≤ 12 ∧ 1 ≤ d.day ∧
        d.day ≤
          (if d.month = 2 then if d.year % 4 = 0 then 29 else 28
          else if d.month ∈ [4, 6, 9, 11] then 30
          else 31) ∧
        d.hour ≤ 23 ∧ d.minute ≤ 59 ∧ d.second ≤ 59) ∧
  ∀ (s : State) (p : List Byte), s.Issues .setTime p →
    let d : DateTime :=
      { year := field 0 2 p, month := field 2 1 p, day := field 3 1 p, hour := field 4 1 p, minute := field 5 1 p,
        second := field 6 1 p }
    (d.inRange = true →
      exec .setTime s =
        .next
          (State.respond okDone
            { s with
              calendar :=
                { s.calendar with
                  time := d.toSeconds, reachedByPassage := false, isSet := true,
                  lastMinute := some (d.toSeconds / 60 * 60) } })) ∧
    (d.inRange = false → exec .setTime s = .next (s.respond (refuse .outOfRange)))

/-- TRIM_TIME (R57 to R59), taken when no event is owed. Out of −59 to +59 it is refused with OUT_OF_RANGE, then an UNSET
calendar with TIME_UNSET, then a time outside the calendar with OUT_OF_RANGE. An amount of 0 changes nothing. A backward trim
moves the time and the grace expiry and produces no event. A forward trim moves them likewise, then produces the minute event
and the boundary event that it reaches, and the expiry of the timer that this boundary arms, when the trim reaches T + G as
well (R55, R58). READ_TIME answers with the calendar, laid out as Table 11-3 gives, and changes nothing else (R60). (That the
calendar's new second was not reached by passage is a note of the model's own, log 43; the minute event before the boundary
event is the model's order, log 6; the events of a trim onto the last second, and a backward trim taken there, are its
reading, log 8; that an expiry reached by the trim is produced in it is log 41.) -/
def Obligations.TrimTimeMovesTheCalendar : Prop :=
  (∀ c : Calendar, c.TimeLayout c.bytes) ∧
  ∀ (s : State) (p : List Byte),
    (s.Issues .readTime p → exec .readTime s = .next (s.respond (okWith s.calendar.bytes))) ∧
    (s.Issues .trimTime p →
      let a := (p.getD 0 0).toInt
      let moved : State :=
        { s with
          calendar :=
            { s.calendar with
              time := (Int.ofNat s.calendar.time + a).toNat
              reachedByPassage := false
              grace :=
                s.calendar.grace.map fun g => { g with expiry := (Int.ofNat g.expiry + a).toNat } } }
      let minute := moved.calendar.time / 60 * 60
      (a < -59 ∨ 59 < a → exec .trimTime s = .next (s.respond (refuse .outOfRange))) ∧
      (-59 ≤ a → a ≤ 59 →
        (s.calendar.isSet = false → exec .trimTime s = .next (s.respond (refuse .timeUnset))) ∧
        (s.calendar.isSet = true →
          (Int.ofNat s.calendar.time + a < 0 ∨ 3155759999 < Int.ofNat s.calendar.time + a →
            exec .trimTime s = .next (s.respond (refuse .outOfRange))) ∧
          (0 ≤ Int.ofNat s.calendar.time + a → Int.ofNat s.calendar.time + a ≤ 3155759999 →
            (a = 0 → exec .trimTime s = .next (s.respond okDone)) ∧
            (s.takeOwed = s → a < 0 → exec .trimTime s = .next (moved.respond okDone)) ∧
            (s.takeOwed = s → 0 < a →
              let m :=
                if s.calendar.time < minute ∧ (∀ last, s.calendar.lastMinute = some last → last < minute) then
                  moved.produceMinute minute
                else moved
              ((∀ t, s.nextBoundary = some t → moved.calendar.time < t) →
                exec .trimTime s = .next (m.respond okDone)) ∧
              ∀ t, s.nextBoundary = some t → t ≤ moved.calendar.time →
                let expiry := t + s.calendar.params.grace
                exec .trimTime s =
                  .next
                    ((if expiry ≤ moved.calendar.time ∧ expiry < 3155759999 then (m.produceBoundary t).produceGrace
                    else m.produceBoundary t).respond okDone))))))

/-- The passage of a second, outside rest: while SET and below the last second, the time advances by one second, which is
noted as reached by passage, and nothing else changes, when no event is owed; an UNSET calendar and one at its last second
stand still (R46 to R48). The grace expiry hands its tag to the Interval Engine and discards the timer (R55); a boundary
event while the timer is armed produces that expiry first, ahead of its own boundary on the Interval Engine's list, and is
otherwise that of R52: the tag, the last boundary, the timer, the count, and the boundary handed on (R51, R52, R54, R56; that
the lanes take it from a list is the model's choice, log 10); the minute event at second 0 of a new minute, reached by the
passage of a second, records it and, in RUN, is handed to the Interval Engine (R50); a minute that no passage has reached,
that START_RUN or a backward trim finds under way, has none (R50). (That each event is a command of its own is the model's
choice, log 6; that a minute event is due at second 0 alone, log 7, its reading; that the calendar notes how its second was
reached is its own, log 43.) -/
def Obligations.SecondsGraceAndMinuteEvents : Prop :=
  (∀ s : State, s.atRest = false → s.takeOwed = s →
     (s.calendar.isSet = true → s.calendar.time < 3155759999 →
       exec .passageOfASecond s =
         .next { s with calendar := { s.calendar with time := s.calendar.time + 1, reachedByPassage := true } }) ∧
     (s.calendar.isSet = false ∨ 3155759999 ≤ s.calendar.time → exec .passageOfASecond s = .next s)) ∧
  ∀ s : State, s.atRest = false → s.calendar.isSet = true → s.calendar.time < 3155759999 → s.mode ≠ .restarting →
    (∀ g, s.calendar.grace = some g → g.expiry ≤ s.calendar.time →
      exec .graceExpiry s =
        .next { s with calendar := { s.calendar with grace := none }, work := s.work ++ [.grace g.tag 0] }) ∧
    (∀ g last, s.mode = .run → s.calendar.grace = some g → s.calendar.lastBoundary = some last →
      let c := s.calendar
      let step := c.params.subinterval * 60
      let t := last / step * step + step
      let counted := c.params.countPeriod ≠ 0 ∧ c.boundaryCount + 1 = c.params.countPeriod
      t ≤ c.time →
      exec .boundaryEvent s =
        .next
          { s with
            ledger := if counted then s.ledger.raise .boundaryCount else s.ledger
            calendar :=
              { c with
                currentTag := c.currentTag + 1
                lastBoundary := some t
                grace := some { tag := c.currentTag, expiry := t + c.params.grace }
                boundaryCount := if c.params.countPeriod = 0 ∨ counted then 0 else c.boundaryCount + 1 }
            laneBoundaries := s.laneBoundaries ++ [(c.currentTag, t)]
            work := s.work ++ [.grace g.tag 0, .boundary c.currentTag t .ageing] }) ∧
    (s.calendar.reachedByPassage = false → exec .minuteEvent s = .next s) ∧
    (s.calendar.reachedByPassage = true → s.calendar.time % 60 = 0 →
      (∀ last, s.calendar.lastMinute = some last → last < s.calendar.time) →
      exec .minuteEvent s =
        .next
          { s with
            calendar := { s.calendar with lastMinute := some s.calendar.time }
            work := if s.mode = .run then s.work ++ [.minute s.calendar.time] else s.work })

/-- The boundary event in RUN with no grace timer armed, when the calendar has reached the next boundary (R51, R52, R54): the
tag advances by one modulo 256, the last boundary is the boundary instant, the timer is armed with the ended tag and G
seconds more, the boundary is counted and BOUNDARY_COUNT raised when P is reached, and {E, T} is handed to the Intake Link
Controller and to the Interval Engine.(That the Intake Link Controller takes it from a list is the model's choice, log 10.)
-/
def Obligations.BoundaryEventAdvancesTheTag : Prop :=
  ∀ (s : State) (last : Seconds), s.atRest = false → s.mode = .run → s.calendar.isSet = true →
    s.calendar.time < 3155759999 → s.calendar.lastBoundary = some last → s.calendar.grace = none →
    let c := s.calendar
    let step := c.params.subinterval * 60
    let t := last / step * step + step
    t ≤ c.time →
    let counted := c.params.countPeriod ≠ 0 ∧ c.boundaryCount + 1 = c.params.countPeriod
    exec .boundaryEvent s =
      .next
        { s with
          ledger := if counted then s.ledger.raise .boundaryCount else s.ledger
          calendar :=
            { c with
              currentTag := c.currentTag + 1
              lastBoundary := some t
              grace := some { tag := c.currentTag, expiry := t + c.params.grace }
              boundaryCount := if c.params.countPeriod = 0 ∨ counted then 0 else c.boundaryCount + 1 }
          laneBoundaries := s.laneBoundaries ++ [(c.currentTag, t)]
          work := s.work ++ [.boundary c.currentTag t .ageing] }

/-- Every second of the calendar is the second of its date and time of day, which is a date of the Gregorian count from
2000 to 2099, the first of them 2000-01-01 00:00:00; and every date and time in range is that of its second (R46,
R47). The integer square root is the largest number whose square does not pass (overview, 5.2), and
the cyclic check of the nine bytes 31 to 39 hex is 29B1 hex (R206). -/
def Obligations.DatesRootsAndChecks : Prop :=
  (∀ t : Seconds, t ≤ 3155759999 → (dateTimeOf t).toSeconds = t ∧ (dateTimeOf t).inRange = true) ∧
  (∀ d : DateTime, d.inRange = true → dateTimeOf d.toSeconds = d ∧ d.toSeconds ≤ 3155759999) ∧
  dateTimeOf 0 = { year := 2000, month := 1, day := 1, hour := 0, minute := 0, second := 0 } ∧
  ((∀ v : Nat, isqrt v * isqrt v ≤ v ∧ v < (isqrt v + 1) * (isqrt v + 1)) ∧
     crc [0x31, 0x32, 0x33, 0x34, 0x35, 0x36, 0x37, 0x38, 0x39] = 0x29B1)

/-! ### The Intake Link -/

/-- A HELLO on a SYNCING or an ACTIVE lane (R67, R68). The front-end is recorded and its first sequence expected. On a
SYNCING lane the lane becomes ACTIVE, the timer is cancelled, and attempts and errors restart; on an ACTIVE one a waiting
CREDIT is discarded and the errors stay. In RUN a BOUNDARY with E and the last boundary is sent, and the lane is granted
its allotment less its queued entries, with a CREDIT when that is above 0; in the other modes no credit is outstanding. On
a DOWN or ISOLATED lane it changes nothing. (That a HELLO taken between a boundary event and its taking by the lanes is
answered with the new E, as R67 has it and against R77, is the model's choice, log 36.) -/
def Obligations.HelloOpensTheSession : Prop :=
  ∀ (s : State) (k : LaneNo) (frontEnd : BitVec 16) (firstSeq : Byte), s.atRest = false →
    let n := s.lane k
    let base : Lane :=
      { n with
        state := .active
        frontEnd := some frontEnd
        expectedSeq := some firstSeq
        lastSeq := none
        timer := if n.state = .syncing then false else n.timer
        attempts := if n.state = .syncing then 0 else n.attempts
        errorCount := if n.state = .syncing then 0 else n.errorCount
        waiting := if n.state = .syncing then n.waiting else n.waiting.filter (· != .credit) }
    let granted := n.allotment - n.queued
    (n.state = .syncing ∨ n.state = .active →
      exec (.hello k frontEnd firstSeq) s =
        .next
          (s.putLane k
            (if s.mode = .run then
              { base with
                outstanding := granted
                toSend := granted
                waiting :=
                  base.waiting ++ [.boundary (s.calendar.currentTag - 1) s.calendar.lastBoundary] ++
                    (if granted = 0 then [] else [.credit]) }
            else { base with outstanding := 0, toSend := 0 }))) ∧
    (n.state = .down ∨ n.state = .isolated → exec (.hello k frontEnd firstSeq) s = .next s)

/-- An INCREMENT in sequence, or a first gap below the error limit, on an ACTIVE lane with a credit outstanding spends the
credit and becomes the entry at the tail of the Arrival Queue (R72, R73, R76). Frames that do not enter the queue. On an
ACTIVE lane a duplicate is counted and its credit, if one was outstanding, taken as spent and returned (R72, R74): in RUN,
below the allotment, it is outstanding again and one more credit to send, with a CREDIT produced when there was none to send,
and otherwise it is absorbed (R75, R78); a frame in sequence with no credit outstanding is a credit violation and one error,
and isolates the lane when the error limit is reached (R70, R73). A sequence gap that reaches the error limit is counted,
isolates the lane and is discarded, the sequence state staying as it stood (R69, R72); a gap below it with no credit
outstanding is a credit violation as well, two errors in all (R73). On a lane that is not ACTIVE an INCREMENT is discarded
(Table 4-3). The Arrival Queue does not change. (That credits to send have no bound, past the 8 of Table 4-1 too, is the
model's choice, log 37.) -/
def Obligations.IncrementsAreQueuedOrDiscarded : Prop :=
  (∀ (s : State) (k : LaneNo) (f : IncrementFrame), s.atRest = false →
     let n := s.lane k
     n.state = .active → 0 < n.outstanding → n.lastSeq ≠ some f.seq →
     (n.expectedSeq = some f.seq ∨ n.errorCount + 1 < n.errorLimit ∧ n.errorLimit ≤ 255) →
     let inOrder := decide (n.expectedSeq = some f.seq)
     exec (.increment k f) s =
       .next
         { s.putLane k
             { n with
               lastSeq := some f.seq
               expectedSeq := some (f.seq + 1)
               outstanding := n.outstanding - 1
               queued := n.queued + 1
               errorCount := if inOrder then n.errorCount else n.errorCount + 1
               counters :=
                 if inOrder then n.counters
                 else { n.counters with sequenceGaps := min (n.counters.sequenceGaps + 1) 65535 } } with
           arrivals :=
             s.arrivals ++
               [{ lane := k, intake := f.intake, tag := f.tag, imp := f.imp, exp := f.exp, lag := f.lag, lead := f.lead,
                  last := f.last, doubtful := f.doubtful }] }) ∧
  ∀ (s : State) (k : LaneNo) (f : IncrementFrame), s.atRest = false →
    let n := s.lane k
    (n.state ≠ .active → exec (.increment k f) s = .next s) ∧
    (n.state = .active → n.lastSeq = some f.seq →
      let counted : Lane := { n with counters := { n.counters with duplicates := min (n.counters.duplicates + 1) 65535 } }
      exec (.increment k f) s =
        .next
          (s.putLane k
            (if 0 < n.outstanding then
              if s.mode = .run ∧ n.outstanding - 1 + n.queued < n.allotment then
                { counted with
                  toSend := n.toSend + 1
                  waiting := if n.toSend = 0 then n.waiting ++ [.credit] else n.waiting }
              else { counted with outstanding := n.outstanding - 1 }
            else counted))) ∧
    (n.state = .active → n.lastSeq ≠ some f.seq → n.expectedSeq = some f.seq → n.outstanding = 0 → n.errorCount < 255 →
      let counted : Lane :=
        { n with
          lastSeq := some f.seq
          expectedSeq := some (f.seq + 1)
          errorCount := n.errorCount + 1
          counters := { n.counters with creditViolations := min (n.counters.creditViolations + 1) 65535 } }
      (n.errorCount + 1 < n.errorLimit → exec (.increment k f) s = .next (s.putLane k counted)) ∧
      (n.errorLimit ≤ n.errorCount + 1 →
        exec (.increment k f) s =
          .next
            (State.raise .laneIsolated
              (s.putLane k
                { counted with state := .isolated, timer := false, waiting := [], outstanding := 0, toSend := 0 })))) ∧
    (n.state = .active → n.lastSeq ≠ some f.seq → n.expectedSeq ≠ some f.seq → n.errorLimit ≤ 255 → n.errorCount < 255 →
      let gap : LaneCounters := { n.counters with sequenceGaps := min (n.counters.sequenceGaps + 1) 65535 }
      let both : Lane :=
        { n with
          lastSeq := some f.seq
          expectedSeq := some (f.seq + 1)
          errorCount := n.errorCount + 2
          counters := { gap with creditViolations := min (n.counters.creditViolations + 1) 65535 } }
      (n.errorLimit ≤ n.errorCount + 1 →
        exec (.increment k f) s =
          .next
            (State.raise .laneIsolated
              (s.putLane k
                { n with
                  errorCount := n.errorCount + 1
                  counters := gap
                  state := .isolated, timer := false, waiting := [], outstanding := 0, toSend := 0 }))) ∧
      (n.errorCount + 2 < n.errorLimit → n.outstanding = 0 →
        exec (.increment k f) s = .next (s.putLane k both)) ∧
      (n.errorLimit = n.errorCount + 2 → n.outstanding = 0 →
        exec (.increment k f) s =
          .next
            (State.raise .laneIsolated
              (s.putLane k
                { both with state := .isolated, timer := false, waiting := [], outstanding := 0, toSend := 0 }))))

/-- A malformed frame (R64, R71, Table 4-3): on a SYNCING lane it is counted as a CRC error; on an ACTIVE lane it is counted,
counts one error, and, when the lane is not isolated by it, its credit is handled as that of a discarded frame (R74): in RUN,
below the allotment, it is outstanding again and one more credit to send, with a CREDIT produced when there was none to send,
and otherwise it is absorbed (R75, R78); at the error limit the lane is isolated and LANE_ISOLATED raised (R69, R70); on
other lanes it changes nothing. (That credits to send have no bound, past the 8 of Table 4-1 too, is the model's choice, log
37.) -/
def Obligations.MalformedFramesAreErrors : Prop :=
  ∀ (s : State) (k : LaneNo) (content : List Byte), s.atRest = false → receive content = .malformed →
    let n := s.lane k
    let counters : LaneCounters := { n.counters with crcErrors := min (n.counters.crcErrors + 1) 65535 }
    (n.state = .down ∨ n.state = .isolated → exec (.malformedFrame k content) s = .next s) ∧
    (n.state = .syncing → exec (.malformedFrame k content) s = .next (s.putLane k { n with counters := counters })) ∧
    (n.state = .active → n.errorCount < 255 →
      let counted : Lane := { n with counters := counters, errorCount := n.errorCount + 1 }
      (n.errorCount + 1 < n.errorLimit → n.outstanding = 0 →
        exec (.malformedFrame k content) s = .next (s.putLane k counted)) ∧
      (n.errorCount + 1 < n.errorLimit → 0 < n.outstanding → s.mode = .run →
        n.outstanding - 1 + n.queued < n.allotment →
        exec (.malformedFrame k content) s =
          .next
            (s.putLane k
              { counted with
                toSend := n.toSend + 1
                waiting := if n.toSend = 0 then n.waiting ++ [.credit] else n.waiting })) ∧
      (n.errorCount + 1 < n.errorLimit → 0 < n.outstanding →
        ¬(s.mode = .run ∧ n.outstanding - 1 + n.queued < n.allotment) →
        exec (.malformedFrame k content) s = .next (s.putLane k { counted with outstanding := n.outstanding - 1 })) ∧
      (n.errorLimit ≤ n.errorCount + 1 →
        exec (.malformedFrame k content) s =
          .next
            (State.raise .laneIsolated
              (s.putLane k
                { counted with state := .isolated, timer := false, waiting := [], outstanding := 0, toSend := 0 }))))

/-- Carrier loss makes a lane DOWN and raises LANE_DOWN unless it was DOWN (R65); carrier on a DOWN lane makes it
SYNCING with one RESYNC sent, and on a lane in another state is recorded alone (R66); the one-second timer of a SYNCING
lane sends a further RESYNC, and after the third isolates the lane (R66, R69; that the attempts of an ISOLATED lane stay
as they stood is the model's choice, log 46). -/
def Obligations.CarrierAndTimerEvents : Prop :=
  ∀ (s : State) (k : LaneNo), s.atRest = false →
    let n := s.lane k
    let lost : Lane :=
      { n with
        state := .down, carrier := false, timer := false, waiting := [], toSend := 0, outstanding := 0,
        frontEnd := none, lastSeq := none, expectedSeq := none, attempts := 0, errorCount := 0 }
    exec (.carrierLoss k) s =
        .next (if n.state = .down then s.putLane k lost else (s.putLane k lost).raise .laneDown) ∧
    (n.state = .down →
      exec (.carrierAppear k) s =
        .next
          (s.putLane k
            { n with
              state := .syncing, carrier := true, timer := true, waiting := [.resync], toSend := 0, outstanding := 0,
              frontEnd := none, lastSeq := none, expectedSeq := none, attempts := 1 })) ∧
    (n.state ≠ .down → exec (.carrierAppear k) s = .next (s.putLane k { n with carrier := true })) ∧
    (n.state ≠ .syncing ∨ n.timer = false → exec (.resyncTimerExpiry k) s = .next s) ∧
    (n.state = .syncing → n.timer = true →
      (n.attempts < 3 →
        exec (.resyncTimerExpiry k) s =
          .next (s.putLane k { n with attempts := n.attempts + 1, waiting := n.waiting ++ [.resync] })) ∧
      (3 ≤ n.attempts →
        exec (.resyncTimerExpiry k) s =
          .next
            (State.raise .laneIsolated
              (s.putLane k { n with state := .isolated, timer := false, waiting := [], outstanding := 0, toSend := 0 }))))

/-- The transmitter sends the frame that waited longest, a CREDIT carrying the credits to send, which return to 0, and
nothing when no frame waits (R78); a lane boundary in RUN restarts every lane's error count and sends BOUNDARY on the ACTIVE
lanes (R77). (That the boundaries handed to the lanes wait in a list, whose head is dropped when it is taken outside RUN, is
the model's choice, log 10. That credits to send have no bound and are sent modulo 256, past the 8 of Table 4-2 too, is its
choice, log 37. That a BOUNDARY still waiting when STOP_RUN comes is sent in COMMISSIONING, in its order, is its choice, log
47.) -/
def Obligations.LanesSendFrames : Prop :=
  ∀ (s : State) (k : LaneNo), s.atRest = false →
    (∀ f rest, (s.lane k).waiting = f :: rest →
      exec (.transmitFrame k) s =
        .next
          (s.putLane k
            { s.lane k with
              waiting := rest
              toSend := if f = .credit then 0 else (s.lane k).toSend
              lineOut :=
                match f with
                | .boundary tag time => (LinkFrame.boundary tag time).wire
                | .credit => (LinkFrame.credit (s.lane k).toSend).wire
                | .resync => LinkFrame.resync.wire })) ∧
    ((s.lane k).waiting = [] → exec (.transmitFrame k) s = .next s) ∧
    (∀ tag time rest, s.mode = .run → s.laneBoundaries = (tag, time) :: rest →
      exec .laneBoundary s =
        .next
          { s with
            laneBoundaries := rest
            lanes :=
              s.lanes.map fun (n : Lane) =>
                { n with
                  errorCount := 0
                  waiting :=
                    if n.state = .active then n.waiting ++ [.boundary tag (some time)] else n.waiting } }) ∧
    (∀ b rest, s.mode ≠ .run → s.laneBoundaries = b :: rest →
      exec .laneBoundary s = .next { s with laneBoundaries := rest })

/-- RESTORE_LANE (R80), SET_LANE (R81) and READ_LANE (R82), which answers the lane as Table 11-3 lays it out; a lane number
above 3 is refused with OUT_OF_RANGE. (That an absent front-end id or sequence is sent as 0 is the model's reading, log 13;
that credits to send have no bound and are sent modulo 256 is its choice, log 37.) -/
def Obligations.LaneRequests : Prop :=
  [LaneState.down, .syncing, .active, .isolated].map (·.code) = [0, 1, 2, 3] ∧ (∀ n : Lane, n.LaneLayout n.bytes) ∧
  (∀ (s : State) (p : List Byte), ∀ c ∈ [RequestCode.restoreLane, .setLane, .readLane], s.Issues c p → 3 < field 0 1 p →
    exec c.command s = .next (s.respond (refuse .outOfRange))) ∧
  ∀ (s : State) (p : List Byte) (k : LaneNo), field 0 1 p = k.val →
    let n := s.lane k
    (s.Issues .restoreLane p →
      (n.state = .isolated ∨ (n.state = .down ∧ n.carrier = true) →
        exec .restoreLane s =
          .next
            ((s.putLane k
              { n with
                state := .syncing, timer := true, waiting := [.resync], toSend := 0, outstanding := 0,
                frontEnd := none, lastSeq := none, expectedSeq := none, attempts := 1 }).respond okDone)) ∧
      (n.state = .syncing ∨ n.state = .active ∨ (n.state = .down ∧ n.carrier = false) →
        exec .restoreLane s = .next (s.respond (refuse .wrongState)))) ∧
    (s.Issues .setLane p →
      (1 ≤ field 1 1 p → field 1 1 p ≤ 8 → 1 ≤ field 2 1 p →
        let more := field 1 1 p - (n.outstanding + n.queued)
        exec .setLane s =
          .next
            ((s.putLane k
              (if n.state = .active ∧ s.mode = .run ∧ 0 < more then
                { n with
                  allotment := field 1 1 p
                  errorLimit := field 2 1 p
                  outstanding := n.outstanding + more
                  toSend := n.toSend + more
                  waiting := if n.toSend = 0 then n.waiting ++ [.credit] else n.waiting }
              else { n with allotment := field 1 1 p, errorLimit := field 2 1 p })).respond okDone)) ∧
      (field 1 1 p = 0 ∨ 8 < field 1 1 p ∨ field 2 1 p = 0 →
        exec .setLane s = .next (s.respond (refuse .outOfRange)))) ∧
    (s.Issues .readLane p →
      exec .readLane s =
        .next
          ((s.putLane k
            { n with
              counters :=
                { crcErrors := 0, sequenceGaps := 0, duplicates := 0, creditViolations := 0, refusals := 0 } }).respond
            (okWith n.bytes)))

/-- The law of the link after any step (R76): the Arrival Queue holds at most 32 entries, and for each lane the credits
outstanding plus its queued entries never exceed 8. -/
def Obligations.LinkLawIsKept : Prop :=
  ∀ s t : State, s.LinkLaw → step s = .next t → t.LinkLaw

/-- The decoded bytes of the five frames, those that the device sends among them: the kind, the fields at their places,
and the CRC of the bytes before it, low byte first (R206, Table 11-2). (That a BOUNDARY without a last boundary carries
FFFFFFFF is log 25; that a CREDIT carries its count modulo 256 is log 37.) A HELLO or an INCREMENT put on the lane by a
transmitter of the same framing is received as that frame, with every field at every value (R205, R206, Table 11-2); the
bytes between its flags hold no flag. A lane's bytes are split at flags (R205): bytes before the first flag and after the
last are discarded, each stretch between two flags is a frame when it is not empty, and one flag closes a frame and opens
the next. Each frame found is one command, a HELLO or an INCREMENT with its decoded fields or a MALFORMED_FRAME with its
bytes (that it is handed on so is the model's, log 40). -/
def Obligations.FramesRoundTrip : Prop :=
  (∀ f : LinkFrame, ∃ body check : List Byte,
    f.decoded = body ++ check ∧ check.length = 2 ∧ At 0 2 (crc body).toNat check ∧
      match f with
      | .hello id seq => body.length = 4 ∧ At 0 1 0x01 body ∧ At 1 2 id.toNat body ∧ At 3 1 seq.toNat body
      | .increment g =>
        body.length = 13 ∧ At 0 1 0x02 body ∧ At 1 1 g.seq.toNat body ∧ At 2 1 g.intake.toNat body ∧
          At 3 1 g.tag.toNat body ∧ At 4 2 g.imp.toNat body ∧ At 6 2 g.exp.toNat body ∧ At 8 2 g.lag.toNat body ∧
          At 10 2 g.lead.toNat body ∧ FlagAt 12 0 g.last body ∧ FlagAt 12 1 g.doubtful body ∧ field 12 1 body < 4
      | .boundary tag time => body.length = 6 ∧ At 0 1 0x81 body ∧ At 1 1 tag.toNat body ∧ At 2 4 (sentTime time) body
      | .credit count => body.length = 2 ∧ At 0 1 0x82 body ∧ At 1 1 count body
      | .resync => body.length = 1 ∧ At 0 1 0x83 body) ∧
  (∀ (frontEnd : BitVec 16) (seq : Byte),
    receive (escape (LinkFrame.hello frontEnd seq).decoded) = .hello frontEnd seq) ∧
  (∀ f : IncrementFrame, receive (escape (LinkFrame.increment f).decoded) = .increment f) ∧
  (∀ f : LinkFrame, f.wire = [0x7E#8] ++ escape f.decoded ++ [0x7E#8] ∧ 0x7E#8 ∉ escape f.decoded) ∧
  (∀ (junk : List Byte) (contents : List (List Byte)) (tail : List Byte), 0x7E#8 ∉ junk →
    (∀ c ∈ contents, 0x7E#8 ∉ c) → 0x7E#8 ∉ tail →
    laneFrames (junk ++ [0x7E#8] ++ (contents.map (· ++ [0x7E#8])).flatten ++ tail) =
      contents.filter fun c => !c.isEmpty) ∧
  ∀ (k : LaneNo) (bytes : List Byte),
    laneCommands k bytes =
      ((laneFrames bytes).map fun c =>
        match receive c with
        | .hello frontEnd firstSeq => Instr.hello k frontEnd firstSeq
        | .increment frame => Instr.increment k frame
        | _ => Instr.malformedFrame k c) ∧
    ∀ i ∈ laneCommands k bytes, i.wellFormed = true

/-! ### Intakes and placement -/

/-- The checks of R90 for the intake requests but ASSIGN_INTAKE: an intake number above 95 (and a lane or a scale of
DEFINE_INTAKE out of its range) is refused with OUT_OF_RANGE, an UNDEFINED intake with NO_SUCH_INTAKE but by DEFINE_INTAKE,
and a FAULTED intake, or one that fails its check word here and is marked, with FAULTED. DEFINE_INTAKE, READ_INTAKE and
COLLECT_HELD on a sound intake (R91, R96, R97). READ_INTAKE answers the intake as Table 11-7 lays it out. (That a request
refused by its ranges asks for no operation, and so is answered out of turn too, is the model's reading, log 5; that the
leave flag without a pending change is sent as 0 is log 13.) -/
def Obligations.IntakeRequests : Prop :=
  (∀ (s : State) (p : List Byte) (k : RequestCode), k ∈ [.defineIntake, .unassignIntake, .readIntake, .collectHeld] →
    s.Issues k p →
    let bad :=
      95 < field 0 1 p ∨ (k = .defineIntake ∧ (3 < field 1 1 p ∨ field 2 4 p < 1 ∨ 1000000 < field 2 4 p))
    (bad → exec k.command s = .next (s.respond (refuse .outOfRange))) ∧
    ∀ i : IntakeNo, s.requestTurn = true → ¬bad → field 0 1 p = i.val →
      let x := s.ledger.intake i
      (k ≠ .defineIntake → x.faultMark = false → x.phase = .undefined →
        exec k.command s = .next (s.answered s.ledger (refuse .noSuchIntake))) ∧
      (x.faultMark = true → exec k.command s = .next (s.answered s.ledger (refuse .faulted))) ∧
      (s.ledger.FailingIntake i → k = .defineIntake ∨ x.phase ≠ .undefined →
        exec k.command s = .next (s.answered (s.ledger.withIntakeMarked i) (refuse .faulted)))) ∧
  [IntakeState.undefined, .free, .member, .faulted].map (·.code) = [0, 1, 2, 3] ∧
  (∀ (state : IntakeState) (x : Intake), x.IntakeLayout state (x.bytes state)) ∧
  ∀ (s : State) (p : List Byte) (i : IntakeNo), field 0 1 p = i.val → s.ledger.SoundIntake i →
    let x := s.ledger.intake i
    (s.Granted .defineIntake p → ∀ k : LaneNo, field 1 1 p = k.val → 1 ≤ field 2 4 p → field 2 4 p ≤ 1000000 →
      (x.phase ≠ .member → x.change = none →
        exec .defineIntake s =
          .next
            (s.answered
              (s.ledger.putIntake i
                { x with
                  phase := .free, lane := k, scale := field 2 4 p, lastReported := none, silentCount := 0,
                  silent := false })
              okDone)) ∧
      (x.phase = .member → exec .defineIntake s = .next (s.answered s.ledger (refuse .intakeOwned))) ∧
      (x.phase ≠ .member → x.change ≠ none →
        exec .defineIntake s = .next (s.answered s.ledger (refuse .changePending)))) ∧
    (x.phase ≠ .undefined →
      (s.Granted .readIntake p → exec .readIntake s = .next (s.answered s.ledger (okWith (x.bytes x.state)))) ∧
      (s.Granted .collectHeld p →
        exec .collectHeld s =
          .next
            (s.answered (s.ledger.putIntake i { x with held := { imp := 0, exp := 0, lag := 0, lead := 0 } })
              (okWith (le 6 x.held.imp ++ le 6 x.held.exp ++ le 6 x.held.lag ++ le 6 x.held.lead))))) ∧
    (x.phase = .undefined →
      (s.Granted .readIntake p → exec .readIntake s = .next (s.answered s.ledger (refuse .noSuchIntake))) ∧
      (s.Granted .collectHeld p → exec .collectHeld s = .next (s.answered s.ledger (refuse .noSuchIntake))))

/-- ASSIGN_INTAKE of a sound FREE intake without a pending change to a sound ACTIVE or SUSPENDED account (R92, R93): all 96
intakes are verified, those that fail their check words are marked, with INTEGRITY_FAULT, and none changes otherwise; the
request is refused with MEMBERS_FULL when the members and the pending joins number 8, the joins that a FAULTED intake holds,
or one that fails here, among them; otherwise the intake is a member at once in COMMISSIONING, on both sides, and a pending
join in RUN. Its refusals in their order (R90, R92): an intake number or a slot out of range; an UNDEFINED intake with
NO_SUCH_INTAKE; a FAULTED one with FAULTED; then the account, a FREE slot with NO_SUCH_ACCOUNT, a FAULTED one, or one that
fails its check word here and is marked, with FAULTED; then a MEMBER intake with INTAKE_OWNED, a pending change with
CHANGE_PENDING, and an account that is not in a billing state with WRONG_STATE. (That a request refused by its ranges asks
for no operation, and so is answered out of turn too, is the model's reading, log 5.) -/
def Obligations.AssignIntakeJoins : Prop :=
  (∀ (s : State) (p : List Byte), s.Issues .assignIntake p →
    (95 < field 0 1 p ∨ 63 < field 1 1 p →
      exec .assignIntake s = .next (s.respond (refuse .outOfRange))) ∧
    ∀ (i : IntakeNo) (a : Slot), s.requestTurn = true → field 0 1 p = i.val → field 1 1 p = a.val →
      let x := s.ledger.intake i
      let acc := s.ledger.account a
      (x.faultMark = false → x.phase = .undefined →
        exec .assignIntake s = .next (s.answered s.ledger (refuse .noSuchIntake))) ∧
      (x.faultMark = true → exec .assignIntake s = .next (s.answered s.ledger (refuse .faulted))) ∧
      (x.faultMark = false → x.phase ≠ .undefined → x.checks = false →
        exec .assignIntake s =
          .next
            (s.answered ((s.ledger.storeIntake i { x with faultMark := true }).raise .integrityFault)
              (refuse .faulted))) ∧
      (s.ledger.SoundIntake i → x.phase ≠ .undefined →
        (acc.faultMark = false → acc.phase = .free →
          exec .assignIntake s = .next (s.answered s.ledger (refuse .noSuchAccount))) ∧
        (acc.faultMark = true → exec .assignIntake s = .next (s.answered s.ledger (refuse .faulted))) ∧
        (acc.faultMark = false → acc.phase ≠ .free → acc.checks = false →
          exec .assignIntake s =
            .next
              (s.answered ((s.ledger.storeAccount a { acc with faultMark := true }).raise .integrityFault)
                (refuse .faulted))) ∧
        (s.ledger.SoundAccount a → acc.phase ≠ .free →
          (x.phase = .member → exec .assignIntake s = .next (s.answered s.ledger (refuse .intakeOwned))) ∧
          (x.phase = .free → x.change ≠ none →
            exec .assignIntake s = .next (s.answered s.ledger (refuse .changePending))) ∧
          (x.phase = .free → x.change = none → acc.phase = .final →
            exec .assignIntake s = .next (s.answered s.ledger (refuse .wrongState)))))) ∧
  ∀ (s : State) (p : List Byte) (i : IntakeNo) (a : Slot), s.Granted .assignIntake p → field 0 1 p = i.val →
    field 1 1 p = a.val → s.ledger.SoundIntake i → (s.ledger.intake i).phase = .free →
    (s.ledger.intake i).change = none → s.ledger.SoundAccount a → (s.ledger.account a).bills = true →
    let x := s.ledger.intake i
    let acc := s.ledger.account a
    let count :=
      acc.members.length +
        allIntakes.countP fun j => ((s.ledger.intake j).change.map (·.target)) == some (some a)
    ∃ l : Ledger,
      l = { s.ledger with intakes := l.intakes, attention := l.attention } ∧
      (∀ j,
        (s.ledger.FailingIntake j → l.intake j = { s.ledger.intake j with faultMark := true }) ∧
        (¬s.ledger.FailingIntake j → l.intake j = s.ledger.intake j)) ∧
      ((∃ j, s.ledger.FailingIntake j) → l.attention = (s.ledger.raise .integrityFault).attention) ∧
      (s.ledger.IntakesSettled → l = s.ledger) ∧
      (8 ≤ count → exec .assignIntake s = .next (s.answered l (refuse .membersFull))) ∧
      (count < 8 →
        (s.mode = .run →
          exec .assignIntake s =
            .next
              (s.answered
                (l.putIntake i { x with change := some { target := some a, tag := s.calendar.currentTag } }) okDone)) ∧
        (s.mode = .commissioning →
          exec .assignIntake s =
            .next
              (s.answered
                ((l.putIntake i
                  { x with
                    phase := .member, owner := some a, ownerSince := some s.calendar.currentTag, change := none }).putAccount
                  a { acc with members := acc.members ++ [i] })
                okDone)))

/-- UNASSIGN_INTAKE of a sound intake (R94): a pending join is removed; a FREE intake without one is refused with
WRONG_STATE and a pending leave with CHANGE_PENDING; a member whose owner is FAULTED, or fails its check word here and is
marked, is refused with FAULTED; one whose owner is sound leaves at once in COMMISSIONING, on both sides, and gets a pending
leave in RUN. -/
def Obligations.UnassignIntakeLeaves : Prop :=
  ∀ (s : State) (p : List Byte) (i : IntakeNo), s.Granted .unassignIntake p → field 0 1 p = i.val →
    s.ledger.SoundIntake i →
    let x := s.ledger.intake i
    (x.phase = .free → x.change ≠ none →
      exec .unassignIntake s = .next (s.answered (s.ledger.putIntake i { x with change := none }) okDone)) ∧
    (x.phase = .free → x.change = none →
      exec .unassignIntake s = .next (s.answered s.ledger (refuse .wrongState))) ∧
    (x.phase = .member → x.change ≠ none →
      exec .unassignIntake s = .next (s.answered s.ledger (refuse .changePending))) ∧
    ∀ a, x.phase = .member → x.change = none → x.owner = some a →
      ((s.ledger.account a).faultMark = true →
        exec .unassignIntake s = .next (s.answered s.ledger (refuse .faulted))) ∧
      (s.ledger.FailingAccount a →
        exec .unassignIntake s = .next (s.answered (s.ledger.withAccountMarked a) (refuse .faulted))) ∧
      (s.ledger.SoundAccount a →
        (s.mode = .run →
          exec .unassignIntake s =
            .next
              (s.answered
                (s.ledger.putIntake i { x with change := some { target := none, tag := s.calendar.currentTag } })
                okDone)) ∧
        (s.mode = .commissioning →
          exec .unassignIntake s =
            .next
              (s.answered
                ((s.ledger.putAccount a
                  { s.ledger.account a with members := (s.ledger.account a).members.filter (· != i) }).putIntake i
                  { x with phase := .free, owner := none, ownerSince := none })
                okDone)))

/-- A placement takes the head entry off the Arrival Queue when the arbiter grants it (R162), returns its credit and counts a
refusal (R75, R79, R98, R99); a HELD engine, and one that waits for a boundary's work, takes none (R98). A STOPPING engine
becomes HELD as its placement is complete (R108; that it first takes an entry is the model's reading of the placement in
progress, log 9; that it waits for the work of a boundary taken since the hold is its choice, log 44). The Interval Engine's
list keeps what still needs an operation, and an account whose slot the entry completed is added unless it has an item
already (R111; that an item with nothing left to do leaves the list here is the model's choice, log 31). An entry is refused,
with no record written, when its intake number is above 95, its intake is UNDEFINED or FAULTED or on another lane, or its tag
distance is above 15; an intake that fails its check word here is marked, with INTEGRITY_FAULT, and the entry refused (R99;
that the intake is verified first, whatever the entry's lane and tag are, is the model's reading, log 34). (That the credit
returned adds to the credits to send without a bound is the model's choice, log 37.) -/
def Obligations.PlacementTakesTheHeadEntry : Prop :=
  (∀ s : State, s.engine = .held ∨ s.boundaryOpen = true → exec .placeEntry s = .next s) ∧
  ∀ (s : State) (e : QueueEntry) (rest : List QueueEntry), s.turn .accumulationEngine = true → s.arrivals = e :: rest →
    let placed := placeEntry s.calendar s.mode e s.ledger
    let n := s.lane e.lane
    (exec .placeEntry s =
      .next
        { s.putLane e.lane
            (Lane.returnCredit s.mode
              { n with
                queued := n.queued - 1
                counters :=
                  if placed.refused then { n.counters with refusals := min (n.counters.refusals + 1) 65535 }
                  else n.counters }) with
          ledger := placed.ledger
          arrivals := rest
          arbiter := { s.arbiter with last := some .accumulationEngine }
          engine := if s.engine = .stopping then .held else s.engine
          work :=
            match placed.completed with
            | none => openWork s.calendar s.ledger s.work
            | some a =>
              let waiting := openWork s.calendar s.ledger s.work
              if waiting.any fun w => match w with | .completeness b _ => b == a | _ => false then waiting
              else waiting ++ [.completeness a e.tag] }) ∧
    (95 < e.intake.toNat → placed = { ledger := s.ledger, refused := true, completed := none }) ∧
    ∀ i : IntakeNo, e.intake.toNat = i.val →
      ((s.ledger.intake i).faultMark = true →
        placed = { ledger := s.ledger, refused := true, completed := none }) ∧
      (s.ledger.FailingIntake i →
        placed = { ledger := s.ledger.withIntakeMarked i, refused := true, completed := none }) ∧
      (s.ledger.SoundIntake i →
        (s.ledger.intake i).phase = .undefined ∨ (s.ledger.intake i).lane ≠ e.lane ∨
          15 < (s.calendar.currentTag - 1 - e.tag).toNat →
        placed = { ledger := s.ledger, refused := true, completed := none })

/-- The effective owner of an entry is the target of its intake's pending change when the effective tag is at or before the
entry's tag, and the present owner otherwise (R100). The energy of an entry that is not refused goes to its intake's held
energy, saturating, when the effective owner is none; when it is not ACTIVE, or fails its check word here and is marked;
when it is the present owner and the tag is earlier than the owner-since tag; or when the mode is COMMISSIONING. HELD_ENERGY
is raised when the held energy leaves zero (R101). Nothing else is written: that the last reported tag and the SILENT flag
are left alone is the model's reading (log 15), and that the effective owner is verified, and marked when it fails, in
COMMISSIONING too is its reading (log 27). -/
def Obligations.PlacementHoldsEnergy : Prop :=
  ∀ (c : Calendar) (mode : Mode) (e : QueueEntry) (l : Ledger) (i : IntakeNo), e.intake.toNat = i.val →
    l.SoundIntake i → (l.intake i).phase ≠ .undefined → (l.intake i).lane = e.lane →
    (c.currentTag - 1 - e.tag).toNat ≤ 15 →
    let x := l.intake i
    let effective : Option Slot :=
      match x.change with
      | none => x.owner
      | some change =>
        if (c.currentTag - e.tag).toNat ≤ (c.currentTag - change.tag).toNat then change.target else x.owner
    let verified := match effective with | none => l | some a => l.checkAccount a
    (effective = none ∨ (∃ a, effective = some a ∧ (verified.account a).state ≠ .active) ∨
      (effective = x.owner ∧
        ∃ since, x.ownerSince = some since ∧ (c.currentTag - since).toNat < (c.currentTag - e.tag).toNat) ∨
      mode = .commissioning) →
    let held : Energy :=
      { imp := min (x.held.imp + e.imp.toNat * x.scale) Config.max48
        exp := min (x.held.exp + e.exp.toNat * x.scale) Config.max48
        lag := min (x.held.lag + e.lag.toNat * x.scale) Config.max48
        lead := min (x.held.lead + e.lead.toNat * x.scale) Config.max48 }
    let zero : Energy := { imp := 0, exp := 0, lag := 0, lead := 0 }
    placeEntry c mode e l =
      { ledger :=
          if x.held = zero ∧ held ≠ zero then (verified.putIntake i { x with held := held }).raise .heldEnergy
          else verified.putIntake i { x with held := held }
        refused := false
        completed := none }

/-- The energy of an entry whose effective owner (R100: the target of its intake's pending change when the effective tag is
at or before the entry's tag, the present owner otherwise) is ACTIVE and sound, that R101 does not hold, goes to the
effective owner (R102, R103): on
time, with d = 0 and a pending slot of its tag, to the slot and the period, LAST marking the intake reported where it is
expected, DOUBTFUL marking the slot, and the slot handed for closure when every expected member has reported; late
otherwise, to the period and its late energies. The intake's last reported tag becomes the tag and its SILENT flag is
cleared. The energies of the period and their late part saturate at 48 bits, and the SATURATED flag is set when one of the
seven has reached the limit, and stays set (R5). -/
def Obligations.PlacementBillsEnergy : Prop :=
  (∀ (e : Energy) (p : Period),
    let limit := 281474976710655
    let energy : Energy :=
      { imp := min (p.energy.imp + e.imp) limit, exp := min (p.energy.exp + e.exp) limit,
        lag := min (p.energy.lag + e.lag) limit, lead := min (p.energy.lead + e.lead) limit }
    let late : SlotEnergy :=
      { imp := min (p.late.imp + e.imp) limit, lag := min (p.late.lag + e.lag) limit,
        lead := min (p.late.lead + e.lead) limit }
    let full (x : SlotEnergy) : Bool :=
      p.saturated || decide (energy.imp = limit ∨ energy.exp = limit ∨ energy.lag = limit ∨ energy.lead = limit) ||
        decide (x.imp = limit ∨ x.lag = limit ∨ x.lead = limit)
    p.addOnTime e = { p with energy := energy, saturated := full p.late } ∧
      p.addLate e = { p with energy := energy, late := late, saturated := full late }) ∧
  ∀ (c : Calendar) (e : QueueEntry) (l : Ledger) (i : IntakeNo) (a : Slot), e.intake.toNat = i.val →
    l.SoundIntake i → (l.intake i).phase ≠ .undefined → (l.intake i).lane = e.lane →
    (c.currentTag - 1 - e.tag).toNat ≤ 15 →
    let x := l.intake i
    let effective : Option Slot :=
      match x.change with
      | none => x.owner
      | some change =>
        if (c.currentTag - e.tag).toNat ≤ (c.currentTag - change.tag).toNat then change.target else x.owner
    effective = some a →
    (effective = x.owner → ∀ since, x.ownerSince = some since →
      (c.currentTag - e.tag).toNat ≤ (c.currentTag - since).toNat) →
    l.SoundAccount a → (l.account a).phase = .active →
    let acc := l.account a
    let energy : Energy :=
      { imp := e.imp.toNat * x.scale, exp := e.exp.toNat * x.scale, lag := e.lag.toNat * x.scale,
        lead := e.lead.toNat * x.scale }
    let reported := l.putIntake i { x with lastReported := some e.tag, silent := false }
    (∀ p, acc.storedSlot = some p → e.tag = c.currentTag - 1 → p.tag = e.tag →
      let expected :=
        p.expected.map fun m => if e.last = true ∧ m.intake = i then { m with reported := true } else m
      let slot : PendingSlot :=
        { p with
          energy :=
            { imp := min (p.energy.imp + energy.imp) Config.max32
              lag := min (p.energy.lag + energy.lag) Config.max32
              lead := min (p.energy.lead + energy.lead) Config.max32 }
          expected := expected
          doubtful := p.doubtful || e.doubtful }
      placeEntry c .run e l =
        { ledger :=
            reported.putAccount a { acc with period := acc.period.addOnTime energy, storedSlot := some slot }
          refused := false
          completed := if expected.all (·.reported) then some a else none }) ∧
    ((∀ p, acc.storedSlot = some p → e.tag ≠ c.currentTag - 1 ∨ p.tag ≠ e.tag) →
      placeEntry c .run e l =
        { ledger := reported.putAccount a { acc with period := acc.period.addLate energy }
          refused := false
          completed := none })

/-! ### The Interval Engine -/

/-- Ageing and folds at a boundary (R88, R95, R112). Ageing clears every owner-since tag of age 16 or more on a sound
intake, and no other. (That it verifies all 96 intakes, so that one that fails is marked, is the model's reading of R165,
log 11.) The fold taken is that of the lowest intake, not FAULTED, whose pending change is due: its effective tag is the
one that the boundary ends, or an earlier one left over by a cut boundary (R95, R134; the reading is the model's, log 16).
A fold of a sound intake's join makes it a member of a sound billing target on both sides, and abandons it when the target
is FAULTED, or fails its check word here and is marked; a fold of a leave frees the intake, and writes the owner unless it
is FAULTED, or fails its check word here and is marked. An intake that fails its own check word in the fold is marked, and
its change is not folded. The work list goes on from the
item's next step that still needs an operation (log 31). -/
def Obligations.AgeingAndFolds : Prop :=
  (∀ (s : State) (tag : Tag) (t : Seconds) (rest : List WorkItem), s.memberTurn .intervalEngine = true →
    s.work = .boundary tag t .ageing :: rest →
    ∃ l, exec .boundaryAgeing s =
        .next (s.afterIntervalWork l (openWork s.calendar l (.boundary tag t .folds :: rest))) ∧
      l.accounts = s.ledger.accounts ∧ l.tariffs = s.ledger.tariffs ∧ l.pool = s.ledger.pool ∧
      l.closeWork = s.ledger.closeWork ∧ (s.ledger.IntakesSettled → l.attention = s.ledger.attention) ∧
      (¬s.ledger.IntakesSettled → l.attention = (s.ledger.raise .integrityFault).attention) ∧
      ∀ j, let x := s.ledger.intake j
        (x.faultMark = true → l.intake j = x) ∧
        (x.faultMark = false → x.checks = false → l.intake j = { x with faultMark := true }) ∧
        (s.ledger.SoundIntake j →
          l.intake j =
            (match x.ownerSince with
            | none => x
            | some since =>
              if 16 ≤ (s.calendar.currentTag - since).toNat then Intake.seal { x with ownerSince := none } else x))) ∧
  (∀ (s : State) (tag : Tag) (t : Seconds) (rest : List WorkItem) (i : IntakeNo) (change : PendingChange),
    s.memberTurn .intervalEngine = true → s.work = .boundary tag t .folds :: rest → (s.ledger.intake i).faultMark = false →
    (s.ledger.intake i).change = some change →
    (s.calendar.currentTag - tag).toNat ≤ (s.calendar.currentTag - change.tag).toNat →
    (∀ j, j < i → (s.ledger.intake j).faultMark = true ∨
      ∀ other, (s.ledger.intake j).change = some other →
        (s.calendar.currentTag - other.tag).toNat < (s.calendar.currentTag - tag).toNat) →
    let l := foldChange i s.ledger
    exec .fold s = .next (s.afterIntervalWork l (openWork s.calendar l (.boundary tag t .folds :: rest)))) ∧
  (∀ (l : Ledger) (i : IntakeNo) (a : Slot) (tag : Tag), l.SoundIntake i →
    (l.intake i).change = some { target := some a, tag := tag } →
    (l.SoundAccount a → (l.account a).bills = true →
      foldChange i l =
        (l.putIntake i
          { l.intake i with phase := .member, owner := some a, ownerSince := some tag, change := none }).putAccount a
          { l.account a with members := (l.account a).members ++ [i] }) ∧
    ((l.account a).faultMark = true → foldChange i l = l.putIntake i { l.intake i with change := none }) ∧
    (l.FailingAccount a →
      foldChange i l = (l.withAccountMarked a).putIntake i { l.intake i with change := none })) ∧
  (∀ (l : Ledger) (i : IntakeNo), l.FailingIntake i → foldChange i l = l.withIntakeMarked i) ∧
  ∀ (l : Ledger) (i : IntakeNo) (a : Slot) (tag : Tag), l.SoundIntake i →
    (l.intake i).change = some { target := none, tag := tag } → (l.intake i).owner = some a →
    let free : Intake := { l.intake i with phase := .free, owner := none, ownerSince := none, change := none }
    (l.SoundAccount a →
      foldChange i l =
        (l.putAccount a { l.account a with members := (l.account a).members.filter (· != i) }).putIntake i free) ∧
    ((l.account a).faultMark = true → foldChange i l = l.putIntake i free) ∧
    (l.FailingAccount a → foldChange i l = (l.withAccountMarked a).putIntake i free)

/-- The visit of an account at the boundary {E, T} (R53, R112 to R114): the account visited is the next ACTIVE or SUSPENDED
one, the first visit following the last fold (that it is found by stored fields, and the accounts passed over not verified,
is the model's reading, log 11). One that fails its check word is marked, with INTEGRITY_FAULT, and receives no due and no
slot (R112). On a sound one a SCHEDULED due is placed, and the account handed over unless it is on the list already (R139),
exactly when T is its close instant and it holds no due. An ACTIVE account gets a pending slot of E that expects its members,
with no energy and no report; when it has no members the same visit closes that slot. A SUSPENDED one gets none. Nothing else
of the ledger changes, and the work list goes on from the next slot that needs a visit (log 31). -/
def Obligations.AccountVisitOpensTheSlot : Prop :=
  ∀ (s : State) (tag : Tag) (t : Seconds) (phase : BoundaryPhase) (rest : List WorkItem) (k : Nat) (i : Slot),
    s.memberTurn .intervalEngine = true → s.work = .boundary tag t phase :: rest →
    (phase = .visits k ∨ phase = .folds ∧ k = 0 ∧ s.ledger.dueFold s.calendar tag = none) → k ≤ i.val →
    (s.ledger.account i).bills = true → (∀ j : Slot, k ≤ j.val → j < i → (s.ledger.account j).bills = false) →
    let visited (l : Ledger) : Host.Outcome State Fault Refusal :=
      .next (s.afterIntervalWork l (openWork s.calendar l (.boundary tag t (.visits (i.val + 1)) :: rest)))
    (s.ledger.FailingAccount i → exec .accountVisit s = visited (s.ledger.withAccountMarked i)) ∧
    (s.ledger.SoundAccount i →
      let a := s.ledger.account i
      let closes :=
        (dateTimeOf t).day = a.closeDay ∧ (dateTimeOf t).hour = a.closeHour ∧ (dateTimeOf t).minute = 0 ∧ a.closeDue = none
      let detected : Account := if closes then { a with closeDue := some { cause := .scheduled, time := t } } else a
      let list := s.ledger.closeWork
      let slot : PendingSlot :=
        { tag := tag, energy := { imp := 0, lag := 0, lead := 0 },
          expected := a.members.map fun m => { intake := m, reported := false }, doubtful := false }
      let opened : Ledger :=
        { s.ledger with
          accounts := s.ledger.accounts.set i.val (Account.seal { detected with storedSlot := some slot })
          closeWork := if closes ∧ i ∉ list then list ++ [i] else list }
      (a.phase = .active → a.members ≠ [] → exec .accountVisit s = visited opened) ∧
      (a.phase = .active → a.members = [] →
        exec .accountVisit s = visited (closeSlot .ordinary s.calendar i opened)) ∧
      (a.phase = .suspended →
        exec .accountVisit s =
          visited
            { s.ledger with
              accounts := if closes then s.ledger.accounts.set i.val (Account.seal detected) else s.ledger.accounts
              closeWork := if closes ∧ i ∉ list then list ++ [i] else list }))

/-- SLOT_CLOSURE closes the slot of the next account that holds the expired tag (found by stored fields, the accounts passed
over not verified: the model's reading, log 11), and that of a completeness item whose account is ACTIVE and holds its tag; a
completeness item that finds no such slot is discarded (R116; that the discard counts as a turn of the Interval Engine is the
model's choice, log 39). The work list goes on from what still needs an operation (log 31). -/
def Obligations.SlotClosureClosesTheItem : Prop :=
  ∀ (s : State) (tag : Tag) (rest : List WorkItem), s.memberTurn .intervalEngine = true →
    (∀ (k : Nat) (i : Slot), s.work = .grace tag k :: rest → k ≤ i.val →
      (s.ledger.account i).pendingSlot.map (·.tag) = some tag →
      (∀ j : Slot, k ≤ j.val → j < i → (s.ledger.account j).pendingSlot.map (·.tag) ≠ some tag) →
      let l := closeSlot .ordinary s.calendar i s.ledger
      exec .slotClosure s =
        .next (s.afterIntervalWork l (openWork s.calendar l (.grace tag (i.val + 1) :: rest)))) ∧
    (∀ i, s.work = .completeness i tag :: rest →
      let l :=
        if (s.ledger.account i).state = .active ∧ (s.ledger.account i).pendingSlot.map (·.tag) = some tag then
          closeSlot .ordinary s.calendar i s.ledger
        else s.ledger
      exec .slotClosure s = .next (s.afterIntervalWork l (openWork s.calendar l rest)))

/-- The closure of a sound account's pending slot (R114, R116 to R119, R121, R122, R128, R132). The account's tariff is
verified, and the silence of each expected intake is counted in member-list order. The slot enters the window at the ring
position, COMPLETE when every expected member has reported, it is not doubtful, and it is no stale slot of the restart
catch-up, and INCOMPLETE otherwise, which counts. The position advances modulo N, or modulo 12 under a FAULTED tariff; the
subinterval count rises; the pending slot is gone. Under a READY tariff, for a slot that is not stale, the window is
evaluated at the slot's boundary time when no slot of its ring is EMPTY and, under BLOCK, that time is aligned; an aligned
closure under BLOCK then reloads the window. When the account holds a close due, an ordinary closure hands it to the
Settlement Engine unless it is on the list already (R139); one for RETIRE_ACCOUNT (log 26) or of a stale slot does not. A
sound account without a pending slot, and a marked one, are left as they are; one that fails its check word is marked and
its slot abandoned (R120). (A missing last boundary counts as 0, which no run reaches: log 32.)

Silence in a closure (R105): a reported member's silent count becomes 0; an unreported one's rises by one up to 255, and at
the limit L, with the SILENT flag clear, the flag is set and INTAKE_SILENT raised; a FAULTED intake is not written, and one
that fails its check word is marked, its count unchanged. -/
def Obligations.ClosureEntersTheWindowAndCountsSilence : Prop :=
  (∀ (kind : ClosureKind) (c : Calendar) (l : Ledger) (i : Slot) (p : PendingSlot), l.SoundAccount i →
     (l.account i).storedSlot = some p →
     let a := l.account i
     let counted := eachOf p.expected (countSilence c.params.silenceLimit) (l.checkTariff a.tariff)
     let t := counted.tariff a.tariff
     let s := c.params.subinterval
     let boundary := c.lastBoundary.getD 0 - (c.currentTag - 1 - p.tag).toNat * (s * 60)
     let aligned := boundary % 86400 / 60 % (t.n * s) = 0
     let complete := kind ≠ .stale ∧ (∀ m ∈ p.expected, m.reported = true) ∧ p.doubtful = false
     let entered : Account :=
       { a with
         window :=
           a.window.setIfInBounds a.ringPos
             { energy := p.energy, state := if complete then .complete else .incomplete }
         ringPos := (a.ringPos + 1) % (if t.state = .ready then t.n else 12)
         storedSlot := none
         period :=
           { a.period with
             subintervals := min (a.period.subintervals + 1) 65535
             incompleteSlots :=
               if complete then a.period.incompleteSlots else min (a.period.incompleteSlots + 1) 65535 } }
     let evaluates :=
       kind ≠ .stale ∧ t.state = .ready ∧ (t.evaluation = .rolling ∨ aligned) ∧
         ∀ w ∈ entered.window.toList.take t.n, w.state ≠ .empty
     let done := if evaluates then evaluateWindow t (counted.schedule a.tariff) s boundary entered else (entered, false)
     let closed : Account :=
       if t.state = .ready ∧ t.evaluation = .block ∧ aligned then
         { done.1 with
           window := Vector.replicate 12 { energy := { imp := 0, lag := 0, lead := 0 }, state := .empty }
           ringPos := 0 }
       else done.1
     let stored := if done.2 then (counted.putAccount i closed).raise .demandOver else counted.putAccount i closed
     closeSlot kind c i l =
       { stored with
         closeWork :=
           if kind = .ordinary ∧ a.closeDue ≠ none ∧ i ∉ l.closeWork then l.closeWork ++ [i] else l.closeWork }) ∧
  (∀ (kind : ClosureKind) (c : Calendar) (l : Ledger) (i : Slot),
     (l.SoundAccount i → (l.account i).storedSlot = none → closeSlot kind c i l = l) ∧
     ((l.account i).faultMark = true → closeSlot kind c i l = l) ∧
     ((l.account i).faultMark = false → (l.account i).phase ≠ .free → (l.account i).checks = false →
       closeSlot kind c i l =
         (l.storeAccount i { l.account i with faultMark := true }).raise .integrityFault)) ∧
  ∀ (limit : Nat) (m : ExpectedMember) (l : Ledger),
    let x := l.intake m.intake
    (x.faultMark = true → countSilence limit m l = l) ∧
    (x.faultMark = false → x.checks = false →
      countSilence limit m l = (l.storeIntake m.intake { x with faultMark := true }).raise .integrityFault) ∧
    (l.SoundIntake m.intake →
      (m.reported = true → countSilence limit m l = l.putIntake m.intake { x with silentCount := 0 }) ∧
      (m.reported = false →
        let count := min (x.silentCount + 1) 255
        countSilence limit m l =
          (if limit ≤ count ∧ x.silent = false then
            (l.putIntake m.intake { x with silentCount := count, silent := true }).raise .intakeSilent
          else l.putIntake m.intake { x with silentCount := count })))

/-- The evaluation of a window (R123 to R127; the band is that of R37). Its demand is the import sum, or under KVA the
rounded-down root of the sum of the squares of import and reactive sums, times 60 over N × S, saturating. An eligible demand
replaces the maximum of the band in force when that is absent or strictly below it; every demand strictly above a contract
demand that is not 0 counts an exceedance, and the first of the period raises DEMAND_OVER. -/
def Obligations.EvaluationFollowsTheTariff : Prop :=
  ∀ (t : Tariff) (p : Schedule) (s : Nat) (boundary : Seconds) (a : Account),
    let ring := a.window.toList.take t.n
    let total (f : SlotEnergy → Nat) : Nat := (ring.map fun w => f w.energy).sum
    let q :=
      match t.leadPolicy with
      | .ignore => total (·.lag)
      | .add => total (·.lag) + total (·.lead)
      | .net => max (total (·.lag)) (total (·.lead)) - min (total (·.lag)) (total (·.lead))
    ∀ quantity : Nat,
      (t.quantity = .kw → quantity = total (·.imp)) →
      (t.quantity = .kva →
        quantity * quantity ≤ total (·.imp) * total (·.imp) + q * q ∧
          total (·.imp) * total (·.imp) + q * q < (quantity + 1) * (quantity + 1)) →
    let demand := min (quantity * 60 / (t.n * s)) 4294967295
    let estimated := decide (∃ w ∈ ring, w.state = .incomplete ∨ w.state = .outage)
    let band := bandOfWindow t p boundary
    let done := evaluateWindow t p s boundary a
    windowDemand t s ring = demand ∧
    let exceeds := a.contractDemand ≠ 0 ∧ a.contractDemand < demand
    done.1 = { a with period := done.1.period } ∧
      done.1.period =
        { a.period with
          maxima := done.1.period.maxima
          exceedances := if exceeds then min (a.period.exceedances + 1) 65535 else a.period.exceedances
          exceeded := decide (exceeds ∨ a.period.exceeded = true) } ∧
      (done.2 = true ↔ exceeds ∧ a.period.exceeded = false) ∧
      (∀ b : Band, b ≠ band → done.1.period.maxima[b.val] = a.period.maxima[b.val]) ∧
      done.1.period.maxima[band.val] =
        (if estimated = false ∨ t.incompletePolicy = .incl then
          let new : BandMaximum := { value := demand, time := boundary, estimated := estimated }
          match a.period.maxima[band.val] with
          | none => some new
          | some m => if m.value < demand then some new else some m
        else a.period.maxima[band.val])

/-- The band-notify check of a minute item in RUN verifies each READY tariff that an account names, marks those that fail,
with INTEGRITY_FAULT, raises BAND_NOTIFY exactly when one that does not fail has a notify point at the minute in the list of
the date's day type, and changes nothing else in the ledger (R44; that it looks for the tariffs in use in the accounts'
stored states and tariff indices, and verifies no account, is the model's reading, log 11). The item leaves the list, which
goes on from what still needs an operation (log 31). READ_DEMAND of a sound account is refused with FAULTED under a FAULTED
tariff, and under one that fails its verification here and is marked; under a READY tariff it answers and changes no record
(R129): the demand quantity, N, the demand of the ring as it stands when no slot of it is EMPTY, whether it is estimated and
eligible, and the band now when the calendar is SET, laid out as Table 11-3 gives (R130). (That an absent value or band is
sent as 0 is the model's reading, log 13.) -/
def Obligations.BandNotifyAndSpotDemand : Prop :=
  (∀ (s : State) (t : Seconds) (rest : List WorkItem), s.memberTurn .intervalEngine = true → s.mode = .run →
    s.work = .minute t :: rest →
    let used (i : TariffNo) : Prop :=
      (s.ledger.tariff i).state = .ready ∧ ∃ a, (s.ledger.account a).state ≠ .free ∧ (s.ledger.account a).tariff = i
    let fails (i : TariffNo) : Prop := used i ∧ s.ledger.FailingTariff i
    let notified :=
      ∃ i : TariffNo, used i ∧ ¬fails i ∧
        ∃ q ∈ (s.ledger.schedule i).listOn (s.ledger.tariff i) (t / 86400),
          q.minute = t % 86400 / 60 ∧ q.notify = true
    ∃ l, exec .bandNotifyCheck s = .next (s.afterIntervalWork l (openWork s.calendar l rest)) ∧
      l = { s.ledger with tariffs := l.tariffs, attention := l.attention } ∧
      (∀ i,
        (fails i → l.tariff i = { s.ledger.tariff i with faultMark := true }) ∧
        (¬fails i → l.tariff i = s.ledger.tariff i)) ∧
      ∃ marked : Ledger, ((∃ i, fails i) → marked = s.ledger.raise .integrityFault) ∧
        ((∀ i, ¬fails i) → marked = s.ledger) ∧
        (notified → l.attention = (marked.raise .bandNotify).attention) ∧
        (¬notified → l.attention = marked.attention)) ∧
  (∀ (c : Calendar) (t : Tariff) (p : Schedule) (a : Account),
    let ring := a.window.toList.take t.n
    let present := decide (∀ w ∈ ring, w.state ≠ .empty)
    let estimated := decide (∃ w ∈ ring, w.state = .incomplete ∨ w.state = .outage)
    DemandLayout t.quantity.code t.n (if present then some (windowDemand t c.params.subinterval ring) else none)
      (present && estimated) (present && (!estimated || t.incompletePolicy == .incl))
      (if c.isSet then some (bandAt t p c.time) else none) (demandBytes c t p a)) ∧
  ∀ (s : State) (p : List Byte) (i : Slot), s.Granted .readDemand p → field 0 1 p = i.val → s.ledger.SoundAccount i →
    (s.ledger.account i).phase ≠ .free →
    let t := (s.ledger.account i).tariff
    ((s.ledger.tariff t).faultMark = true →
      exec .readDemand s = .next (s.answered s.ledger (refuse .faulted))) ∧
    (s.ledger.FailingTariff t →
      exec .readDemand s = .next (s.answered (s.ledger.withTariffMarked t) (refuse .faulted))) ∧
    (s.ledger.ReadyTariff t →
      exec .readDemand s =
        .next
          (s.answered s.ledger
            (okWith (demandBytes s.calendar (s.ledger.tariff t) (s.ledger.schedule t) (s.ledger.account i)))))

/-! ### Settlement -/

/-- The settled section of a close (R143 to R146): copies of the running period, the due time when LATE, the billing
demand of each band, the average power factor and the excess reactive energy. The ratchet step and the new period of a
close (R147, R148): by cause, the larger of the carry and the ratchet band's maximum is pushed and the carry cleared, or
becomes the carry, or neither; the period starts again at the close time with everything at zero, the due and
CLOSE_BLOCKED are gone, and the window, the members and the identity are kept. -/
def Obligations.CloseSettlesThePeriod : Prop :=
  (∀ (cause : CloseCause) (late : Bool) (now : Seconds) (t : Tariff) (a : Account),
     ∃ x, (a.closePeriod cause late now t).settled = some x ∧
       x.cause = cause ∧ x.late = late ∧ x.saturated = a.period.saturated ∧
       (x.estimatedMax = true ↔ ∃ b : Band, ∃ m, a.period.maxima[b.val] = some m ∧ m.estimated = true) ∧
       x.periodStart = a.period.start ∧ x.periodEnd = now ∧
       x.dueTime = (if late then a.closeDue.map (·.time) else none) ∧ x.tariff = a.tariff ∧ x.tariffId = t.id ∧
       x.energy = a.period.energy ∧ x.lateEnergy = a.period.late ∧
       x.incompleteSlots = a.period.incompleteSlots ∧ x.outageSlots = a.period.outageSlots ∧
       x.exceedances = a.period.exceedances ∧ x.subintervals = a.period.subintervals ∧
       (∀ largest, some largest ∈ a.ratchet.toList → (∀ v, some v ∈ a.ratchet.toList → v ≤ largest) →
         x.ratchetReference = if t.ratchetPercent = 0 then none else some (t.ratchetPercent * largest / 100)) ∧
       ((∀ v, some v ∉ a.ratchet.toList) → x.ratchetReference = none) ∧
       (∀ b : Band,
         let m := match a.period.maxima[b.val] with | none => 0 | some y => y.value
         x.bands[b.val].maximum = a.period.maxima[b.val] ∧
           x.bands[b.val].billing =
             (if b = t.ratchetBand then
               max m (max (x.ratchetReference.getD 0) (a.minPercent * a.contractDemand / 100))
             else m)) ∧
       (let imp := a.period.energy.imp
       let q :=
         match t.leadPolicy with
         | .ignore => a.period.energy.lag
         | .add => a.period.energy.lag + a.period.energy.lead
         | .net =>
           max a.period.energy.lag a.period.energy.lead - min a.period.energy.lag a.period.energy.lead
       (imp = 0 → q = 0 → x.powerFactor = none) ∧
       (∀ root : Nat, root * root ≤ imp * imp + q * q → imp * imp + q * q < (root + 1) * (root + 1) →
         imp ≠ 0 ∨ q ≠ 0 → x.powerFactor = some (imp * 1000 / root)) ∧
       x.excessReactive = min (q - imp * t.allowance / 1000) 281474976710655)) ∧
  ∀ (cause : CloseCause) (late : Bool) (now : Seconds) (t : Tariff) (a : Account),
    let b := a.closePeriod cause late now t
    let m := match a.period.maxima[t.ratchetBand.val] with | none => 0 | some x => x.value
    let larger := max a.period.ratchetCarry m
    b =
        { a with
          settled := b.settled
          ratchet := b.ratchet
          period :=
            { start := some now
              energy := { imp := 0, exp := 0, lag := 0, lead := 0 }
              late := { imp := 0, lag := 0, lead := 0 }
              maxima := Vector.replicate 4 none
              exceedances := 0, exceeded := false, incompleteSlots := 0, outageSlots := 0, subintervals := 0
              ratchetCarry := b.period.ratchetCarry
              saturated := false }
          closeDue := none
          closeBlocked := false } ∧
      (cause = .scheduled →
        b.period.ratchetCarry = 0 ∧ b.ratchet[0] = some larger ∧
          ∀ k : Fin 10, b.ratchet[k.val + 1] = a.ratchet[k.val]) ∧
      (cause = .host ∨ cause = .tariffChange → b.ratchet = a.ratchet ∧ b.period.ratchetCarry = larger) ∧
      (cause = .retire → b.ratchet = a.ratchet ∧ b.period.ratchetCarry = a.period.ratchetCarry)

/-- The examination of the account at the head of the Settlement Engine's list (R138 to R140), which leaves the list: no
close without a due or with a pending slot; CLOSE_BLOCKED set, and raised when it was clear, under a settled section or a
FAULTED tariff, or one that fails its verification here and is marked; the close of the due otherwise, LATE exactly when
CLOSE_BLOCKED was set, with SETTLEMENT_READY raised. A FAULTED account is left alone; one that fails its check word here is
marked, without a close, and a FREE slot that fails is written afresh (R165). -/
def Obligations.ExaminationClosesOrBlocks : Prop :=
  ∀ (s : State) (i : Slot) (rest : List Slot), s.memberTurn .settlementEngine = true → s.ledger.closeWork = i :: rest →
    let a := s.ledger.account i
    let after (l : Ledger) : Host.Outcome State Fault Refusal :=
      .next
        { s with
          ledger := { l with closeWork := rest }
          arbiter := { last := some .closingGroup, lastMember := some .settlementEngine } }
    let blocked (l : Ledger) : Ledger :=
      if a.closeBlocked then l else (l.putAccount i { a with closeBlocked := true }).raise .closeBlocked
    (a.faultMark = true → exec .settlementExamination s = after s.ledger) ∧
    (s.ledger.FailingAccount i → exec .settlementExamination s = after (s.ledger.withAccountMarked i)) ∧
    (a.faultMark = false → a.phase = .free → a.checks = false →
      exec .settlementExamination s = after ((s.ledger.storeAccount i Account.free).raise .integrityFault)) ∧
    (s.ledger.SoundAccount i → a.bills = false ∨ a.closeDue = none ∨ a.storedSlot ≠ none →
      exec .settlementExamination s = after s.ledger) ∧
    ∀ due, s.ledger.SoundAccount i → a.bills = true → a.closeDue = some due → a.storedSlot = none →
      (a.settled ≠ none → exec .settlementExamination s = after (blocked s.ledger)) ∧
      (a.settled = none → (s.ledger.tariff a.tariff).faultMark = true →
        exec .settlementExamination s = after (blocked s.ledger)) ∧
      (a.settled = none → s.ledger.FailingTariff a.tariff →
        exec .settlementExamination s = after (blocked (s.ledger.withTariffMarked a.tariff))) ∧
      (a.settled = none → s.ledger.ReadyTariff a.tariff →
        exec .settlementExamination s =
          after
            ((s.ledger.putAccount i
              (a.closePeriod due.cause.toCause a.closeBlocked s.calendar.time (s.ledger.tariff a.tariff))).raise
              .settlementReady))

/-- CLOSE_NOW places a HOST due at the calendar time and hands the account over; on a FINAL account it is refused with
WRONG_STATE and on one with a due with CLOSE_ALREADY_DUE (R150). RELEASE_SETTLEMENT removes the settled section, or
frees a FINAL slot; without a section it is refused with NOTHING_SETTLED (R153). CHANGE_TARIFF of a sound account (R151,
R152): refused with WRONG_STATE when it is FINAL, then with SETTLEMENT_PENDING, CLOSURE_IN_PROGRESS or CLOSE_ALREADY_DUE in
that order, then with FAULTED when its present tariff is FAULTED, then with NO_SUCH_TARIFF when the new one is not READY; a
tariff that fails its verification here is marked and counts as FAULTED; under two READY tariffs it closes the period, when
it has a start, with cause TARIFF_CHANGE and no LATE flag, switches the tariff index and clears the window. -/
def Obligations.CloseRequests : Prop :=
  (∀ (s : State) (p : List Byte) (i : Slot), field 0 1 p = i.val → s.ledger.SoundAccount i →
     (s.ledger.account i).phase ≠ .free →
     let a := s.ledger.account i
     (s.Granted .closeNow p →
       (a.phase = .final → exec .closeNow s = .next (s.answered s.ledger (refuse .wrongState))) ∧
       (a.phase ≠ .final → a.closeDue ≠ none →
         exec .closeNow s = .next (s.answered s.ledger (refuse .closeAlreadyDue))) ∧
       (a.phase ≠ .final → a.closeDue = none →
         exec .closeNow s =
           .next
             (s.answered
               ((s.ledger.putAccount i
                 { a with closeDue := some { cause := .host, time := s.calendar.time } }).handToSettlement i)
               okDone))) ∧
     (s.Granted .releaseSettlement p →
       (a.settled = none → exec .releaseSettlement s = .next (s.answered s.ledger (refuse .nothingSettled))) ∧
       (a.settled ≠ none → a.phase = .final →
         exec .releaseSettlement s = .next (s.answered (s.ledger.storeAccount i .free) okDone)) ∧
       (a.settled ≠ none → a.phase ≠ .final → a.closeDue = none →
         exec .releaseSettlement s = .next (s.answered (s.ledger.putAccount i { a with settled := none }) okDone)) ∧
       (a.settled ≠ none → a.phase ≠ .final → a.closeDue ≠ none →
         exec .releaseSettlement s =
           .next (s.answered ((s.ledger.putAccount i { a with settled := none }).handToSettlement i) okDone)))) ∧
  (∀ (s : State) (p : List Byte) (i : Slot) (t : TariffNo), s.Granted .changeTariff p → field 0 1 p = i.val →
    field 1 1 p = t.val → s.ledger.SoundAccount i →
    let a := s.ledger.account i
    (a.phase = .final → exec .changeTariff s = .next (s.answered s.ledger (refuse .wrongState))) ∧
    (a.bills = true → a.settled = none → a.storedSlot = none → a.closeDue = none →
      ((s.ledger.tariff a.tariff).faultMark = true →
        exec .changeTariff s = .next (s.answered s.ledger (refuse .faulted))) ∧
      (s.ledger.FailingTariff a.tariff →
        exec .changeTariff s = .next (s.answered (s.ledger.withTariffMarked a.tariff) (refuse .faulted))) ∧
      (s.ledger.ReadyTariff a.tariff →
        (¬s.ledger.FailingTariff t → (s.ledger.tariff t).state ≠ .ready →
          exec .changeTariff s = .next (s.answered s.ledger (refuse .noSuchTariff))) ∧
        (s.ledger.FailingTariff t →
          exec .changeTariff s = .next (s.answered (s.ledger.withTariffMarked t) (refuse .noSuchTariff)))))) ∧
  ∀ (s : State) (p : List Byte) (i : Slot) (t : TariffNo), s.Granted .changeTariff p → field 0 1 p = i.val →
    field 1 1 p = t.val → s.ledger.SoundAccount i → (s.ledger.account i).bills = true →
    let a := s.ledger.account i
    (a.settled ≠ none → exec .changeTariff s = .next (s.answered s.ledger (refuse .settlementPending))) ∧
    (a.settled = none → a.storedSlot ≠ none →
      exec .changeTariff s = .next (s.answered s.ledger (refuse .closureInProgress))) ∧
    (a.settled = none → a.storedSlot = none → a.closeDue ≠ none →
      exec .changeTariff s = .next (s.answered s.ledger (refuse .closeAlreadyDue))) ∧
    (a.settled = none → a.storedSlot = none → a.closeDue = none → s.ledger.ReadyTariff a.tariff →
      s.ledger.ReadyTariff t →
      let switched (b : Account) : Account :=
        { b with
          tariff := t
          window := Vector.replicate 12 { energy := { imp := 0, lag := 0, lead := 0 }, state := .empty }
          ringPos := 0 }
      (a.period.start = none →
        exec .changeTariff s = .next (s.answered (s.ledger.putAccount i (switched a)) okDone)) ∧
      (a.period.start ≠ none →
        ∃ l : Ledger, exec .changeTariff s = .next (s.answered l okDone) ∧
          l.account i =
            Account.seal (switched (a.closePeriod .tariffChange false s.calendar.time (s.ledger.tariff a.tariff))) ∧
          s.ledger.DiffersAtAccount i l ∧ l.attention = (s.ledger.raise .settlementReady).attention ∧
          l.closeWork = s.ledger.closeWork))

/-! ### Integrity and repair -/

/-- REPAIR_ACCOUNT: its refusals in their order (R11, R168), OUT_OF_RANGE, NO_SUCH_ACCOUNT for a FREE slot, WRONG_STATE for
one that is not FAULTED, NO_SUCH_TARIFF for a tariff that is not READY, or fails its verification here and is marked, and
DUPLICATE_ACCOUNT for a number that another slot holds. That comparison verifies every account that is not FREE (the model's
reading of R165, log 11), and the repair then verifies every intake: one that fails is marked, with INTEGRITY_FAULT, and the
others and everything else stay (R169). The repair (R169): the account is ACTIVE with the identity and the ratchet history
given, the sound members that name the slot in ascending number, at most 8, and everything else at its FREE value; the mark
is cleared. Each further intake that names the slot becomes FREE without a pending change. The pending joins of sound intakes
that name the slot are kept, lowest number first, while members and joins together are at most 8, and the others are removed
(that FAULTED intakes do not count is the model's reading, log 12). No other intake changes, and nothing is handed over.
(That
a request refused by its ranges asks for no operation, and so is answered out of turn too, is the model's reading, log 5.) -/
def Obligations.RepairAccountRebuilds : Prop :=
  (∀ l : Ledger,
    l.checkIntakes.accounts = l.accounts ∧ l.checkIntakes.tariffs = l.tariffs ∧ l.checkIntakes.pool = l.pool ∧
      l.checkIntakes.closeWork = l.closeWork ∧
      ((∃ j, l.FailingIntake j) → l.checkIntakes.attention = (l.raise .integrityFault).attention) ∧
      ((∀ j, ¬l.FailingIntake j) → l.checkIntakes.attention = l.attention) ∧
      ∀ j,
        (l.FailingIntake j → l.checkIntakes.intake j = { l.intake j with faultMark := true }) ∧
        (¬l.FailingIntake j → l.checkIntakes.intake j = l.intake j)) ∧
  ∀ (s : State) (p : List Byte), s.Issues .repairAccount p →
    let bad :=
      63 < field 0 1 p ∨ field 1 4 p = 0 ∨ 15 < field 5 1 p ∨ 100 < field 10 1 p ∨ field 11 1 p < 1 ∨
        28 < field 11 1 p ∨ 23 < field 12 1 p
    (bad → exec .repairAccount s = .next (s.respond (refuse .outOfRange))) ∧
    ∀ (i : Slot) (t : TariffNo), s.requestTurn = true → ¬bad → field 0 1 p = i.val → field 5 1 p = t.val →
      ((s.ledger.account i).state = .free →
        exec .repairAccount s = .next (s.answered s.ledger (refuse .noSuchAccount))) ∧
      ((s.ledger.account i).state ≠ .free → (s.ledger.account i).faultMark = false →
        exec .repairAccount s = .next (s.answered s.ledger (refuse .wrongState))) ∧
      ((s.ledger.account i).faultMark = true →
        (¬s.ledger.FailingTariff t → (s.ledger.tariff t).state ≠ .ready →
          exec .repairAccount s = .next (s.answered s.ledger (refuse .noSuchTariff))) ∧
        (s.ledger.FailingTariff t →
          exec .repairAccount s = .next (s.answered (s.ledger.withTariffMarked t) (refuse .noSuchTariff))) ∧
        (s.ledger.ReadyTariff t →
          ((∃ j, j ≠ i ∧ (s.ledger.account j).state ≠ .free ∧ (s.ledger.account j).number = field 1 4 p) →
            exec .repairAccount s = .next (s.answered s.ledger.checkAccounts (refuse .duplicateAccount))) ∧
          ((∀ j, j ≠ i → (s.ledger.account j).state ≠ .free → (s.ledger.account j).number ≠ field 1 4 p) →
            let v := s.ledger.checkAccounts.checkIntakes
            let owned := allIntakes.filter fun j => (v.intake j).state == .member && (v.intake j).owner == some i
            let joins :=
              allIntakes.filter fun j =>
                !(v.intake j).faultMark && (v.intake j).joining i && !(owned.drop 8).contains j
            ∃ l : Ledger, exec .repairAccount s = .next (s.answered l okDone) ∧
              (∀ j, j ≠ i → l.account j = v.account j) ∧ l.tariffs = s.ledger.tariffs ∧ l.pool = s.ledger.pool ∧
              l.attention = v.attention ∧ l.closeWork = s.ledger.closeWork ∧
              (∀ j, let x := v.intake j
                l.intake j =
                  (if j ∈ owned.drop 8 then
                    Intake.seal { x with phase := .free, owner := none, ownerSince := none, change := none }
                  else if j ∈ joins.drop (8 - (owned.take 8).length) then Intake.seal { x with change := none }
                  else x)) ∧
              l.account i =
                Account.seal
                  { Account.free with
                    number := field 1 4 p
                    phase := .active
                    tariff := t
                    contractDemand := field 6 4 p
                    minPercent := field 10 1 p
                    closeDay := field 11 1 p
                    closeHour := field 12 1 p
                    members := owned.take 8
                    period := { Period.cold with start := if s.mode = .run then some s.calendar.time else none }
                    ratchet :=
                      Vector.ofFn fun k =>
                        if (field 13 2 p).testBit k.val then some (field (15 + 4 * k.val) 4 p) else none })))

/-- DISCARD_ACCOUNT (R170): refused with OUT_OF_RANGE, with NO_SUCH_ACCOUNT for a FREE slot (R11), and with WRONG_STATE for
one that is not FAULTED; otherwise it verifies every intake, marking those that fail, and frees the slot and every sound
intake that it owns or that would join it; FAULTED intakes are not written. REPAIR_INTAKE (R171): refused with OUT_OF_RANGE,
and with WRONG_STATE for an intake that is not FAULTED (that it judges by the mark, without verifying the intake, is the
model's choice, log 45); otherwise it verifies every account that is not FREE, marking those that fail, and makes the intake
FREE, or MEMBER of the lowest-numbered sound billing account that lists it, and every other such account loses it. Nothing
else changes. (That a request refused by its ranges asks for no operation, and so is answered out of turn too, is the
model's reading, log 5.) -/
def Obligations.DiscardAndRepairIntake : Prop :=
  (∀ (s : State) (p : List Byte), s.Issues .discardAccount p →
    (63 < field 0 1 p → exec .discardAccount s = .next (s.respond (refuse .outOfRange))) ∧
    ∀ i : Slot, s.requestTurn = true → field 0 1 p = i.val →
      ((s.ledger.account i).state = .free →
        exec .discardAccount s = .next (s.answered s.ledger (refuse .noSuchAccount))) ∧
      ((s.ledger.account i).state ≠ .free → (s.ledger.account i).faultMark = false →
        exec .discardAccount s = .next (s.answered s.ledger (refuse .wrongState))) ∧
      ((s.ledger.account i).faultMark = true →
        let v := s.ledger.checkIntakes
        ∃ l : Ledger, exec .discardAccount s = .next (s.answered l okDone) ∧ l.account i = Account.free ∧
          (∀ j, j ≠ i → l.account j = s.ledger.account j) ∧ l.tariffs = s.ledger.tariffs ∧
          l.pool = s.ledger.pool ∧ l.attention = v.attention ∧ l.closeWork = s.ledger.closeWork ∧
          ∀ j, let x := v.intake j
            l.intake j =
              (if x.state = .member ∧ x.owner = some i then
                Intake.seal { x with phase := .free, owner := none, ownerSince := none, change := none }
              else if x.faultMark = false ∧ (∃ tag, x.change = some { target := some i, tag := tag }) then
                Intake.seal { x with change := none }
              else x))) ∧
  ∀ (s : State) (p : List Byte), s.Issues .repairIntake p →
    let bad := 95 < field 0 1 p ∨ 3 < field 1 1 p ∨ field 2 4 p < 1 ∨ 1000000 < field 2 4 p
    (bad → exec .repairIntake s = .next (s.respond (refuse .outOfRange))) ∧
    ∀ (i : IntakeNo) (k : LaneNo), s.requestTurn = true → ¬bad → field 0 1 p = i.val → field 1 1 p = k.val →
      ((s.ledger.intake i).faultMark = false →
        exec .repairIntake s = .next (s.answered s.ledger (refuse .wrongState))) ∧
      ((s.ledger.intake i).faultMark = true →
        let v := s.ledger.checkAccounts
        let lists (a : Slot) : Prop := (v.account a).bills = true ∧ i ∈ (v.account a).members
        let repaired (owner : Option Slot) (since : Option Tag) : Intake :=
          Intake.seal
            { Intake.undefined with
              phase := if owner = none then .free else .member
              lane := k, scale := field 2 4 p, owner := owner, ownerSince := since }
        ∃ l : Ledger, exec .repairIntake s = .next (s.answered l okDone) ∧
          (∀ j, j ≠ i → l.intake j = s.ledger.intake j) ∧ l.tariffs = s.ledger.tariffs ∧
          l.pool = s.ledger.pool ∧ l.attention = v.attention ∧ l.closeWork = s.ledger.closeWork ∧
          ((∀ a, ¬lists a) → l.intake i = repaired none none) ∧
          (∀ a, lists a → (∀ b, b < a → ¬lists b) → l.intake i = repaired (some a) (some s.calendar.currentTag)) ∧
          ∀ b,
            ((lists b ∧ ∃ a, a < b ∧ lists a) →
              l.account b =
                Account.seal { v.account b with members := (v.account b).members.filter (· != i) }) ∧
            (¬(lists b ∧ ∃ a, a < b ∧ lists a) → l.account b = v.account b))

/-- VERIFY_STORE begins a sweep at tariff 0 with a fault count of 0, or is refused with SWEEP_ACTIVE (R173). A sweep
operation verifies one record and goes on to the next; a record that is not marked and fails is counted, marked and
raised, and a FREE account slot that fails is restored; after intake 95 the sweep is IDLE and SWEEP_DONE raised (R174,
R175). -/
def Obligations.SweepVerifiesEachRecord : Prop :=
  ∀ (s : State) (p : List Byte),
    (s.Issues .verifyStore p →
      (s.sweep.position = none →
        exec .verifyStore s =
          .next (State.respond okDone { s with sweep := { position := some (.tariff 0), faultCount := 0 } })) ∧
      (s.sweep.position ≠ none → exec .verifyStore s = .next (s.respond (refuse .sweepActive)))) ∧
    (s.memberTurn .integritySweep = true →
      let after (l : Ledger) (next : Option SweepPosition) (count : Nat) : Host.Outcome State Fault Refusal :=
        .next
          { s with
            ledger := l
            sweep := { position := next, faultCount := count }
            arbiter := { last := some .closingGroup, lastMember := some .integritySweep } }
      (∀ i, s.sweep.position = some (.tariff i) →
        let next : Option SweepPosition := if i.val = 15 then some (.account 0) else some (.tariff (i + 1))
        let t := s.ledger.tariff i
        (t.faultMark = true ∨ t.checks s.ledger.pool i = true →
          exec .sweepVerify s = after s.ledger next s.sweep.faultCount) ∧
        (t.faultMark = false → t.checks s.ledger.pool i = false →
          exec .sweepVerify s =
            after ((s.ledger.storeTariff i { t with faultMark := true }).raise .integrityFault) next
              (s.sweep.faultCount + 1))) ∧
      (∀ i, s.sweep.position = some (.account i) →
        let next : Option SweepPosition := if i.val = 63 then some (.intake 0) else some (.account (i + 1))
        let a := s.ledger.account i
        (a.faultMark = true ∨ a.checks = true → exec .sweepVerify s = after s.ledger next s.sweep.faultCount) ∧
        (a.faultMark = false → a.checks = false →
          exec .sweepVerify s =
            after
              ((s.ledger.storeAccount i
                (if a.phase = .free then Account.free else { a with faultMark := true })).raise .integrityFault)
              next (s.sweep.faultCount + 1))) ∧
      ∀ i, s.sweep.position = some (.intake i) →
        let next : Option SweepPosition := if i.val = 95 then none else some (.intake (i + 1))
        let done (l : Ledger) : Ledger := if i.val = 95 then l.raise .sweepDone else l
        let x := s.ledger.intake i
        (x.faultMark = true ∨ x.checks = true →
          exec .sweepVerify s = after (done s.ledger) next s.sweep.faultCount) ∧
        (x.faultMark = false → x.checks = false →
          exec .sweepVerify s =
            after (done ((s.ledger.storeIntake i { x with faultMark := true }).raise .integrityFault)) next
              (s.sweep.faultCount + 1)))

/-- Every account and intake that is not marked carries the check word of its content, after any step (R164, R165); and
every tariff that is not marked verifies, its walks reaching the points that its check word covers (R38). -/
def Obligations.CheckWordsAreKept : Prop :=
  (∀ s t : State, s.RecordsSealed → step s = .next t → t.RecordsSealed) ∧
  ∀ s t : State, s.TariffsVerified → step s = .next t → t.TariffsVerified

/-! ### Modes, status and attention -/

/-- START_RUN with a SET calendar (R179, R180, R83): every sound ACTIVE account starts its period now, one that fails its
check word is marked, with INTEGRITY_FAULT, and receives no period start, and the others are not written; the last boundary
is the latest boundary instant at or before now, the count is 0 and no timer is armed, every lane's errors restart, and every
ACTIVE lane gets a BOUNDARY and its credits, with a CREDIT when there were none to send (R78); the mode is RUN. With the
calendar UNSET it is refused with TIME_UNSET. (That the refused request asks for no operation is R180's order; that a CREDIT
which still waits takes the grant ahead of the BOUNDARY is the model's choice, log 38, and so is that the credits to send
then have no bound, log 37.) -/
def Obligations.StartRunEntersRun : Prop :=
  ∀ (s : State) (p : List Byte), s.Issues .startRun p →
    (s.calendar.isSet = false → exec .startRun s = .next (s.respond (refuse .timeUnset))) ∧
    (s.requestTurn = true → s.calendar.isSet = true →
      let step := s.calendar.params.subinterval * 60
      let anchor := s.calendar.time / step * step
      ∃ (l : Ledger) (lanes : Vector Lane 4),
        exec .startRun s =
          .next
            { s.answered l okDone with
              mode := .run
              lanes := lanes
              calendar := { s.calendar with lastBoundary := some anchor, boundaryCount := 0, grace := none } } ∧
        l = { s.ledger with accounts := l.accounts, attention := l.attention } ∧
        ((∃ i, (s.ledger.account i).state = .active ∧ s.ledger.FailingAccount i) →
          l.attention = (s.ledger.raise .integrityFault).attention) ∧
        ((∀ i, ¬((s.ledger.account i).state = .active ∧ s.ledger.FailingAccount i)) →
          l.attention = s.ledger.attention) ∧
        (∀ i, let a := s.ledger.account i
          l.account i =
            (if a.state = .active then
              if a.checks then Account.seal { a with period := { a.period with start := some s.calendar.time } }
              else { a with faultMark := true }
            else a)) ∧
        ∀ k, let n := s.lane k
          let granted := n.allotment - n.queued - n.outstanding
          lanes[k.val] =
            (if n.state = .active then
              { n with
                errorCount := 0
                outstanding := n.outstanding + granted
                toSend := n.toSend + granted
                waiting :=
                  n.waiting ++ [.boundary (s.calendar.currentTag - 1) (some anchor)] ++
                    (if granted = 0 ∨ n.toSend ≠ 0 then [] else [.credit]) }
            else { n with errorCount := 0 }))

/-- STOP_RUN with every slot FREE returns to COMMISSIONING, discards the grace timer and empties the Interval Engine's list
and the boundaries handed to the lanes (the latter is the model's, log 10, and so is that a waiting BOUNDARY stays, log 47);
otherwise it is refused with NOT_EMPTY (R181). SET_RUN_PARAMETERS writes the four values and clears the boundary count when
they are in range, G is below S × 60, and every READY BLOCK tariff's N × S divides 1440; otherwise it is refused with
OUT_OF_RANGE (R61, R182): by its ranges without an operation, by the alignment in one. HOLD_ACCUMULATION makes a RUNNING
engine STOPPING while a placement is in progress and HELD otherwise (R108; what counts as in progress is log 9);
RELEASE_ACCUMULATION makes a STOPPING or HELD engine RUNNING (R109); each is refused with WRONG_STATE in the other states. -/
def Obligations.ModeAndEngineRequests : Prop :=
  (∀ (s : State) (p : List Byte), s.Granted .stopRun p →
     ((∀ i, (s.ledger.account i).state = .free) →
       exec .stopRun s =
         .next
           (State.answered s.ledger okDone
             { s with
               mode := .commissioning, calendar := { s.calendar with grace := none }, work := [],
               laneBoundaries := [] })) ∧
     ((∃ i, (s.ledger.account i).state ≠ .free) →
       exec .stopRun s = .next (s.answered s.ledger (refuse .notEmpty)))) ∧
  (∀ (s : State) (p : List Byte), s.Issues .setRunParameters p →
     let inRange :=
       field 0 1 p ∈ [1, 2, 3, 5, 10, 15, 30] ∧ 5 ≤ field 1 1 p ∧ field 1 1 p ≤ 120 ∧
         field 1 1 p < field 0 1 p * 60 ∧ 1 ≤ field 2 1 p
     let aligned :=
       ∀ i, (s.ledger.tariff i).state = .ready → (s.ledger.tariff i).evaluation = .block →
         1440 % ((s.ledger.tariff i).n * field 0 1 p) = 0
     (s.requestTurn = true → inRange → aligned →
       exec .setRunParameters s =
         .next
           (State.answered s.ledger okDone
             { s with
               calendar :=
                 { s.calendar with
                   params :=
                     { subinterval := field 0 1 p, grace := field 1 1 p, silenceLimit := field 2 1 p,
                       countPeriod := field 3 1 p }
                   boundaryCount := 0 } })) ∧
     (s.requestTurn = true → inRange → ¬aligned →
       exec .setRunParameters s = .next (s.answered s.ledger (refuse .outOfRange))) ∧
     (¬inRange → exec .setRunParameters s = .next (s.respond (refuse .outOfRange)))) ∧
  ∀ (s : State) (p : List Byte),
    (s.Issues .holdAccumulation p →
      (s.engine = .running →
        exec .holdAccumulation s =
          .next
            (State.respond okDone
              { s with engine := if s.arrivals ≠ [] ∧ s.boundaryOpen = false then .stopping else .held })) ∧
      (s.engine ≠ .running → exec .holdAccumulation s = .next (s.respond (refuse .wrongState)))) ∧
    (s.Issues .releaseAccumulation p →
      (s.engine ≠ .running →
        exec .releaseAccumulation s = .next (State.respond okDone { s with engine := .running })) ∧
      (s.engine = .running → exec .releaseAccumulation s = .next (s.respond (refuse .wrongState))))

/-- READ_PART_STATUS answers with the part status, laid out as Table 11-3 gives, in every mode and changes no record
(R183). SET_ATTENTION_MASK replaces the mask and answers
with it and the attention set (R201); ACK_ATTENTION clears the sources named and answers with what is left (R202); each is
refused with OUT_OF_RANGE when it names a position from 12 to 15. -/
def Obligations.StatusAndAttentionRequests : Prop :=
  (∀ s : State, s.PartStatusLayout s.partStatus) ∧
  ([Mode.commissioning, .run, .restarting].map (·.code) = [0, 1, 2] ∧
    [EngineState.running, .stopping, .held].map (·.code) = [0, 1, 2]) ∧
  ∀ (s : State) (p : List Byte),
    (s.Granted .readPartStatus p → exec .readPartStatus s = .next (s.answered s.ledger (okWith s.partStatus))) ∧
    (s.Issues .setAttentionMask p →
      (field 0 2 p < 4096 →
        exec .setAttentionMask s =
          .next
            (State.respond (okWith (le 2 (field 0 2 p) ++ le 2 s.ledger.attention.toNat))
              { s with port := { s.port with mask := BitVec.ofNat 12 (field 0 2 p) } })) ∧
      (4096 ≤ field 0 2 p → exec .setAttentionMask s = .next (s.respond (refuse .outOfRange)))) ∧
    (s.Issues .ackAttention p →
      (field 0 2 p < 4096 →
        ∃ left : BitVec 12,
          (∀ k < 12, left.getLsbD k = (s.ledger.attention.getLsbD k && !(field 0 2 p).testBit k)) ∧
          exec .ackAttention s =
            .next
              (State.respond (okWith (le 2 left.toNat)) { s with ledger := { s.ledger with attention := left } })) ∧
      (4096 ≤ field 0 2 p → exec .ackAttention s = .next (s.respond (refuse .outOfRange))))

/-! ### Supply and starts -/

/-- Supply events and starts (R176, R178, R184, R185, R188). Power loss and RESET_N put the blocks at rest, a dip sets the
latch. (That the two change nothing else, and the start what is lost, is the model's choice, log 35.) A start cut short
leaves the blocks at rest, with the signature at a value other than the fixed one when it was a cold one (R176, R187; that it
ends so, and that a start of a running device is a start like any other, is log 19; the value is free, log 18). A start is
warm exactly when the signature holds its fixed value and the latch is clear. A cold start gives every block its cold values,
the arbiter's history and the boundaries handed to the lanes among them (R177; the latter are the model's own list, log 10),
and ends with the fixed value in the signature. A warm start keeps the records, the calendar but for its grace timer, the run
parameters and the mask, and loses the queue, the lists, the boundaries handed, the arbiter's history, the buffers and the
attention set; from COMMISSIONING it raises RESTART_DONE alone, from RUN or RESTARTING it is RESTARTING with the sweep at
tariff 0. -/
def Obligations.StartsAreWarmOrCold : Prop :=
  ∀ s : State,
    exec .powerLoss s = .next { s with powered := false } ∧
    exec .resetAssert s = .next { s with resetHeld := true } ∧
    exec .vbakDip s = .next { s with dipLatch := true } ∧
    (s.signature ≠ Config.fixedSignature ∨ s.dipLatch = true →
      ∃ other : BitVec 32, other ≠ Config.fixedSignature ∧
        exec (.deviceStart true) s =
          .next
            { s with signature := other, signatureChoices := s.signatureChoices + 1, resetHeld := true }) ∧
    (s.signature = Config.fixedSignature → s.dipLatch = false →
      exec (.deviceStart true) s = .next { s with resetHeld := true }) ∧
    (s.signature ≠ Config.fixedSignature ∨ s.dipLatch = true →
      ∃ t, exec (.deviceStart false) s = .next t ∧ t.ledger = State.reset.ledger ∧ t.calendar = State.reset.calendar ∧
        t.port = State.reset.port ∧ t.signature = Config.fixedSignature ∧ t.dipLatch = false ∧ t.mode = .commissioning ∧
        t.atRest = false ∧ t.engine = .running ∧ t.arrivals = [] ∧ t.work = [] ∧ t.laneBoundaries = [] ∧
        t.arbiter = { last := none, lastMember := none } ∧
        t.sweep = { position := none, faultCount := 0 } ∧
        ∀ k, t.lane k = (if (s.lane k).carrier then (Lane.cold true).enterSyncing else Lane.cold false)) ∧
    (s.signature = Config.fixedSignature → s.dipLatch = false →
      ∃ t, exec (.deviceStart false) s = .next t ∧ t.signature = Config.fixedSignature ∧ t.dipLatch = false ∧ t.atRest = false ∧
        s.ledger.SameRecords t.ledger ∧ t.ledger.closeWork = [] ∧
        t.calendar = { s.calendar with grace := none } ∧ t.port = Port.fresh s.port.mask ∧ t.engine = .running ∧
        t.arrivals = [] ∧ t.work = [] ∧ t.laneBoundaries = [] ∧
        t.arbiter = { last := none, lastMember := none } ∧
        (∀ k, t.lane k =
          (if (s.lane k).carrier then (Lane.fresh true (s.lane k).allotment (s.lane k).errorLimit).enterSyncing
          else Lane.fresh false (s.lane k).allotment (s.lane k).errorLimit)) ∧
        (s.mode = .commissioning →
          t.mode = .commissioning ∧ t.ledger.attention = AttentionSource.restartDone.bit ∧
            t.sweep = { position := none, faultCount := s.sweep.faultCount }) ∧
        (s.mode ≠ .commissioning →
          t.mode = .restarting ∧ t.ledger.attention = 0 ∧
            t.sweep = { position := some (.tariff 0), faultCount := 0 }))

/-- The restart catch-up, taken in RESTARTING once the sweep has ended (R62, R131, R135, R186), in its order: surviving
pending slots are closed as stale ones (R132); when a boundary was missed, every ACTIVE account takes its OUTAGE slots
(R133) and every pending change is folded (R134; of any effective tag, log 16); owner-since tags that have aged by the
missed boundaries are cleared (R135); when a boundary was missed, a collapsed close due is placed (R157); every account
that holds a close due is examined, and CLOSE_BLOCKED is raised when any account's flag is then set (R158). It completes
the restart in RUN with RESTART_DONE raised: the tag advances by the number m of boundary instants after the last boundary
processed up to now, modulo 256; the last boundary is the latest of them, or kept when there is none; no timer is armed and
the last minute event is the running minute. Every lane's errors restart, and every ACTIVE lane gets a BOUNDARY and its
credits (R83).

Each of these on one record. The clearing verifies every intake, marks one that fails (log 11), clears the owner-since tag of
a sound one exactly when its age and the missed boundaries together are 16 or more, and changes nothing else (R88, R135). The
OUTAGE slots of a sound ACTIVE account: the last k = min(m, N) missed boundaries enter
from the ring position on, modulo N, with zero energy, and the outage count rises by k; 12 stands for N under a FAULTED
tariff; under a READY BLOCK tariff the window is left with the OUTAGE slots after the last aligned boundary alone, when one
of the k is aligned. The collapsed due of a sound billing account without a due has the time of its earliest missed close
instant. The examination closes LATE, waits under a settled section or a FAULTED tariff with CLOSE_BLOCKED set, and does
nothing on an account without a due. -/
def Obligations.CatchUpEntersRun : Prop :=
  (∀ (s : State) (last : Seconds), s.memberTurn .intervalEngine = true → s.mode = .restarting → s.sweep.position = none →
     s.calendar.lastBoundary = some last →
     let c := s.calendar
     let step := c.params.subinterval * 60
     let m := c.time / step - last / step
     let tag := c.currentTag + BitVec.ofNat 8 m
     let boundary := if m = 0 then some last else some (c.time / step * step)
     let closed := eachOf allSlots (closeStale c) s.ledger
     let bridged :=
       if m = 0 then closed else eachOf allIntakes foldMissed (eachOf allSlots (enterOutages c m) closed)
     let aged := ageOwners c m bridged
     let due := if m = 0 then aged else eachOf allSlots (placeMissedDue c) aged
     let examined := eachOf allSlots (examineMissed c.time) due
     let ended :=
       if (∃ i, (examined.account i).closeBlocked = true) then examined.raise .closeBlocked else examined
     exec .restartCatchUp s =
       .next
         { s with
           ledger := ended.raise .restartDone
           lanes :=
             s.lanes.map fun (n : Lane) =>
               let granted := n.allotment - n.queued - n.outstanding
               if n.state = .active then
                 { n with
                   errorCount := 0
                   outstanding := n.outstanding + granted
                   toSend := n.toSend + granted
                   waiting :=
                     n.waiting ++ [.boundary (tag - 1) boundary] ++
                       (if granted = 0 ∨ n.toSend ≠ 0 then [] else [.credit]) }
               else { n with errorCount := 0 }
           mode := .run
           arbiter := { last := some .closingGroup, lastMember := some .intervalEngine }
           calendar :=
             { c with
               currentTag := tag
               lastBoundary := boundary
               lastMinute := some (c.time / 60 * 60)
               grace := none } }) ∧
  (∀ (c : Calendar) (i : Slot) (l : Ledger),
    closeStale c i l = if (l.account i).pendingSlot = none then l else closeSlot .stale c i l) ∧
  (∀ (c : Calendar) (m : Nat) (l : Ledger),
    let aged := ageOwners c m l
    aged.accounts = l.accounts ∧ aged.tariffs = l.tariffs ∧ aged.pool = l.pool ∧ aged.closeWork = l.closeWork ∧
      (l.IntakesSettled → aged.attention = l.attention) ∧
      (¬l.IntakesSettled → aged.attention = (l.raise .integrityFault).attention) ∧
      ∀ j, let x := l.intake j
        (x.faultMark = true → aged.intake j = x) ∧
        (l.FailingIntake j → aged.intake j = { x with faultMark := true }) ∧
        (l.SoundIntake j →
          aged.intake j =
            (match x.ownerSince with
            | none => x
            | some since =>
              if 16 ≤ (c.currentTag - since).toNat + m then Intake.seal { x with ownerSince := none } else x))) ∧
  (∀ (i : IntakeNo) (l : Ledger), foldMissed i l = if (l.intake i).change = none then l else foldChange i l) ∧
  (∀ (c : Calendar) (m : Nat) (l : Ledger) (i : Slot), (l.account i).state ≠ .active → enterOutages c m i l = l) ∧
  (∀ (c : Calendar) (m : Nat) (l : Ledger) (i : Slot), l.SoundAccount i → (l.account i).phase = .active →
    let a := l.account i
    let verified := l.checkTariff a.tariff
    let t := verified.tariff a.tariff
    let n := if t.state = .ready then t.n else 12
    let s := c.params.subinterval
    let latest := c.time / (s * 60) * (s * 60)
    let blocks := t.state = .ready ∧ t.evaluation = .block
    1 ≤ n → n ≤ 12 → a.ringPos < n → (blocks → 1440 % (n * s) = 0 ∧ m * (s * 60) ≤ c.time) →
    let k := min m n
    let sinceAligned := latest % 86400 / 60 % (n * s) / s
    let outage : WindowSlot := { energy := { imp := 0, lag := 0, lead := 0 }, state := .outage }
    let empty : WindowSlot := { energy := { imp := 0, lag := 0, lead := 0 }, state := .empty }
    ∃ window : Vector WindowSlot 12,
      enterOutages c m i l =
        verified.putAccount i
          { a with
            window := window
            ringPos := if blocks ∧ sinceAligned < k then sinceAligned else (a.ringPos + k) % n
            period := { a.period with outageSlots := min (a.period.outageSlots + k) 65535 } } ∧
      ∀ j : Fin 12,
        window[j.val] =
          (if blocks ∧ sinceAligned < k then if j.val < sinceAligned then outage else empty
          else if j.val < n ∧ (j.val + n - a.ringPos) % n < k then outage
          else a.window[j.val])) ∧
  (∀ (c : Calendar) (last : Seconds) (l : Ledger) (i : Slot), c.lastBoundary = some last → last ≤ 3155759999 →
    c.time ≤ 3155759999 → l.SoundAccount i →
    let a := l.account i
    let missed (t : Seconds) : Prop :=
      last < t ∧ t ≤ c.time / (c.params.subinterval * 60) * (c.params.subinterval * 60) ∧
        (dateTimeOf t).day = a.closeDay ∧ (dateTimeOf t).hour = a.closeHour ∧ t % 3600 = 0
    1 ≤ a.closeDay → a.closeDay ≤ 28 → a.closeHour ≤ 23 →
    (a.bills = false ∨ a.closeDue ≠ none ∨ (∀ t, ¬missed t) → placeMissedDue c i l = l) ∧
    ∀ t, a.bills = true → a.closeDue = none → missed t → (∀ u, missed u → t ≤ u) →
      placeMissedDue c i l = l.putAccount i { a with closeDue := some { cause := .scheduled, time := t } }) ∧
  ∀ (now : Seconds) (l : Ledger) (i : Slot), l.SoundAccount i →
    let a := l.account i
    let blocked :=
      if a.closeBlocked then l else (l.putAccount i { a with closeBlocked := true }).raise .closeBlocked
    (a.bills = false ∨ a.closeDue = none ∨ a.storedSlot ≠ none → examineMissed now i l = l) ∧
    ∀ due, a.bills = true → a.closeDue = some due → a.storedSlot = none →
      (a.settled ≠ none → examineMissed now i l = blocked) ∧
      (a.settled = none → (l.tariff a.tariff).faultMark = true → examineMissed now i l = blocked) ∧
      (a.settled = none → l.ReadyTariff a.tariff →
        examineMissed now i l =
          (l.putAccount i (a.closePeriod due.cause.toCause true now (l.tariff a.tariff))).raise .settlementReady)

/-! ### What the queues and the arbiter keep -/

/-- The buffers of the port keep their 128 bytes and the work lists name no account twice, after any step (R111, R139,
R190). Member lists and owners agree between records that are not marked, after any step: a member list names each MEMBER
intake that names the account as owner, once, and no other, at most 8 with the pending joins; an account in neither billing
state lists none; pending joins stand on FREE intakes and pending leaves on MEMBER ones; and an account that is not FREE
names a tariff that is not EMPTY (R9, R29, R88, R89). -/
def Obligations.BuffersAndListsAreKept : Prop :=
  (∀ s t : State, s.BuffersWhole → s.WorkListsProper → step s = .next t → t.BuffersWhole ∧ t.WorkListsProper) ∧
  ∀ s t : State, s.OwnershipAgrees → step s = .next t → t.OwnershipAgrees

/-- The arbiter (R162, R163). Its choice among those that wait: a requester that waits whenever one does, and the only one
when it is alone; a requester that keeps waiting is chosen within three grants, and a member of the Closing Group within
three group turns; after a start the Request Engine is first. Who waits: the Accumulation Engine while it may take an entry
and there is one (R98), the Interval Engine while an item needs an operation and when the restart catch-up is due (R111,
R131), the Settlement Engine while its list names an account (R139), the sweep while it has a position (R173), the Closing
Group while a member does, and the Request Engine while the request in execution asks for an operation (log 5). (That each
asks as soon as there is an operation for it, and the Request Engine from EXECUTE, is the model's choice, log 4.) The choice
is imposed: an operation of a requester or member that is not chosen does not happen, and the command leaves the state as it
is (log 1); and whoever is chosen has a command that carries its operation out. A request that asks for no operation is
carried out whoever waits, and changes neither a record nor the arbiter. So a requester that waits is granted before more
than two other grants are made, and a member before more than eight other operations run: each operation carried out while it
waits is its own or lowers the number of those that may still come ahead of it, which is at most 2 and at most 8; and a
command that carries out no operation changes no record. -/
def Obligations.ArbiterServesEveryRequester : Prop :=
  (∀ (b : Arbiter) (w : List Requester), w ≠ [] → ∃ r ∈ w, b.nextRequester w = some r) ∧
  (∀ (b : Arbiter) (r : Requester), b.nextRequester [r] = some r) ∧
  (∀ (b : Arbiter) (r x y z : Requester) (w₁ w₂ w₃ : List Requester), r ∈ w₁ → r ∈ w₂ → r ∈ w₃ →
    b.nextRequester w₁ = some x → (b.grant x).nextRequester w₂ = some y →
    ((b.grant x).grant y).nextRequester w₃ = some z → r = x ∨ r = y ∨ r = z) ∧
  (∀ (b : Arbiter) (m x y z : GroupMember) (w₁ w₂ w₃ : List GroupMember), m ∈ w₁ → m ∈ w₂ → m ∈ w₃ →
    b.nextMember w₁ = some x → (b.grantMember x).nextMember w₂ = some y →
    ((b.grantMember x).grantMember y).nextMember w₃ = some z → m = x ∨ m = y ∨ m = z) ∧
  (∀ w : List Requester, .requestEngine ∈ w → Arbiter.fresh.nextRequester w = some .requestEngine) ∧
  (∀ s : State,
    (.accumulationEngine ∈ s.requestersWaiting ↔
      s.atRest = false ∧ s.engine ≠ .held ∧ s.boundaryOpen = false ∧ s.arrivals ≠ []) ∧
    (.closingGroup ∈ s.requestersWaiting ↔ s.membersWaiting ≠ []) ∧
    (s.BuffersWhole →
      (.requestEngine ∈ s.requestersWaiting ↔ ∃ k p, s.Issues k p ∧ requestAsks k p s = true)) ∧
    (.intervalEngine ∈ s.membersWaiting ↔
      s.atRest = false ∧
        (openWork s.calendar s.ledger s.work ≠ [] ∨ s.mode = .restarting ∧ s.sweep.position = none)) ∧
    (.settlementEngine ∈ s.membersWaiting ↔ s.atRest = false ∧ s.ledger.closeWork ≠ []) ∧
    (.integritySweep ∈ s.membersWaiting ↔ s.atRest = false ∧ s.sweep.position ≠ none)) ∧
  (∀ s : State,
    (s.turn .accumulationEngine = false → exec .placeEntry s = .next s) ∧
    (s.memberTurn .intervalEngine = false →
      ∀ c ∈ [Instr.bandNotifyCheck, .boundaryAgeing, .fold, .accountVisit, .slotClosure, .restartCatchUp],
        exec c s = .next s) ∧
    (s.memberTurn .settlementEngine = false → exec .settlementExamination s = .next s) ∧
    (s.memberTurn .integritySweep = false → exec .sweepVerify s = .next s) ∧
    ∀ (k : RequestCode) (p : List Byte), s.Issues k p →
      (requestAsks k p s = true → s.requestTurn = false → exec k.command s = .next s) ∧
      (requestAsks k p s = true → (s.requestTurn = true ↔ s.turn .requestEngine = true)) ∧
      (requestAsks k p s = false →
        ∃ t, exec k.command s = .next t ∧ t.port.busy = false ∧ t.arbiter = s.arbiter ∧
          s.ledger.SameRecords t.ledger)) ∧
  (∀ (s : State) (r : Requester), s.turn r = true → ∃ c t, exec c s = .next t ∧ t.arbiter.last = some r) ∧
  (∀ (s : State) (m : GroupMember), s.memberTurn m = true →
    ∃ c t, exec c s = .next t ∧ t.arbiter = { last := some .closingGroup, lastMember := some m }) ∧
  (∀ (b : Arbiter) (r : Requester), b.requesterAhead r ≤ 2) ∧ (∀ (b : Arbiter) (m : GroupMember), b.memberAhead m ≤ 8) ∧
  ∀ (s t : State) (c : Instr), (∀ cutShort, c ≠ .deviceStart cutShort) → exec c s = .next t →
    let idle := t.arbiter = s.arbiter ∧ s.ledger.SameRecords t.ledger
    (∀ r ∈ s.requestersWaiting,
      idle ∨ (s.turn r = true ∧ t.arbiter.last = some r) ∨ t.arbiter.requesterAhead r < s.arbiter.requesterAhead r) ∧
    ∀ m ∈ s.membersWaiting,
      idle ∨ (s.memberTurn m = true ∧ t.arbiter = { last := some .closingGroup, lastMember := some m }) ∨
        t.arbiter.memberAhead m < s.arbiter.memberAhead m
end

