-- ==== Sys2Proof/Laws/Bytes.lean ====
section
/-! SUPPORT. What the byte layouts of numbers spell (overview, 5.5), for the layouts of Tables 11-3 to 11-8. -/

namespace Sys2Proof.Machine

open Sys2Proof

@[simp] theorem byte_toNat (n : Nat) : (byte n).toNat = n % 256 := by simp [byte]

@[simp] theorem le_length (w n : Nat) : (le w n).length = w := by
  induction w generalizing n with
  | zero => rfl
  | succ w ih => simp [le, ih]

/-- A number in `w` bytes spells that number modulo 256 to the power w. -/
@[simp] theorem leValue_le (w n : Nat) : leValue (le w n) = n % 256 ^ w := by
  induction w generalizing n with
  | zero => simp [le, leValue, Nat.mod_one]
  | succ w ih =>
    simp only [le, leValue, byte_toNat, ih]
    rw [Nat.pow_succ', Nat.mod_mul]

@[simp] theorem leTime_length (t : Option Seconds) : (leTime t).length = 4 := le_length 4 _

/-- A field that starts behind the bytes before it is a field of the rest. -/
theorem field_append_right {offset w : Nat} {a b : List Byte} (h : a.length ≤ offset) :
    field offset w (a ++ b) = field (offset - a.length) w b := by
  simp only [field]
  rw [List.drop_append, List.drop_eq_nil_of_le h, List.nil_append]

/-- A field that ends before the bytes behind it is a field of the front. -/
theorem field_append_left {offset w : Nat} {a b : List Byte} (h : offset + w ≤ a.length) :
    field offset w (a ++ b) = field offset w a := by
  have h1 : offset ≤ a.length := Nat.le_trans (Nat.le_add_right offset w) h
  have h2 : w ≤ (a.drop offset).length := by rw [List.length_drop]; omega
  simp only [field]
  rw [List.drop_append_of_le_length h1, List.take_append_of_le_length h2]

/-- The field that a number in `w` bytes fills. -/
theorem field_le (w n : Nat) (b : List Byte) : field 0 w (le w n ++ b) = n % 256 ^ w := by
  rw [field_append_left (Nat.le_of_eq ((Nat.zero_add w).trans (le_length w n).symm))]
  simp only [field, List.drop_zero]
  rw [List.take_of_length_le (Nat.le_of_eq (le_length w n)), leValue_le]

/-- A bit of flags packed into a number is the flag at its position, and false above the last. -/
theorem testBit_bits (flags : List Bool) (k : Nat) : (bits flags).testBit k = flags.getD k false := by
  induction flags generalizing k with
  | nil => simp [bits]
  | cons f fs ih =>
    cases k with
    | zero => cases f <;> simp [bits]
    | succ k =>
      rw [List.getD_cons_succ, ← ih k, Nat.testBit_succ]
      congr 1
      cases f
      · simp [bits]
      · simp [bits]; omega

/-- Flags packed into a number stay below 2 to the power of how many they are. -/
theorem bits_lt (flags : List Bool) : bits flags < 2 ^ flags.length := by
  induction flags with
  | nil => simp [bits]
  | cons f fs ih =>
    rw [List.length_cons, Nat.pow_succ]
    cases f <;> (simp [bits]; omega)

end Sys2Proof.Machine
end

