-- ==== Sys2Proof/Laws/State.lean ====
section
/-! SUPPORT. One lemma for each field of each update of the state and of the ledger. -/

namespace Sys2Proof.Machine

open Sys2Proof

variable (s : State)

/-! ### State.withLedger -/

@[simp] theorem State.withLedger_ledger (l : Ledger) : (s.withLedger l).ledger = l := rfl
@[simp] theorem State.withLedger_signature (l : Ledger) : (s.withLedger l).signature = s.signature := rfl
@[simp] theorem State.withLedger_signatureChoices (l : Ledger) : (s.withLedger l).signatureChoices = s.signatureChoices := rfl
@[simp] theorem State.withLedger_dipLatch (l : Ledger) : (s.withLedger l).dipLatch = s.dipLatch := rfl
@[simp] theorem State.withLedger_arbiter (l : Ledger) : (s.withLedger l).arbiter = s.arbiter := rfl
@[simp] theorem State.withLedger_sweep (l : Ledger) : (s.withLedger l).sweep = s.sweep := rfl
@[simp] theorem State.withLedger_calendar (l : Ledger) : (s.withLedger l).calendar = s.calendar := rfl
@[simp] theorem State.withLedger_lanes (l : Ledger) : (s.withLedger l).lanes = s.lanes := rfl
@[simp] theorem State.withLedger_arrivals (l : Ledger) : (s.withLedger l).arrivals = s.arrivals := rfl
@[simp] theorem State.withLedger_laneBoundaries (l : Ledger) : (s.withLedger l).laneBoundaries = s.laneBoundaries := rfl
@[simp] theorem State.withLedger_engine (l : Ledger) : (s.withLedger l).engine = s.engine := rfl
@[simp] theorem State.withLedger_work (l : Ledger) : (s.withLedger l).work = s.work := rfl
@[simp] theorem State.withLedger_port (l : Ledger) : (s.withLedger l).port = s.port := rfl
@[simp] theorem State.withLedger_mode (l : Ledger) : (s.withLedger l).mode = s.mode := rfl
@[simp] theorem State.withLedger_powered (l : Ledger) : (s.withLedger l).powered = s.powered := rfl
@[simp] theorem State.withLedger_resetHeld (l : Ledger) : (s.withLedger l).resetHeld = s.resetHeld := rfl
@[simp] theorem State.withLedger_pending (l : Ledger) : (s.withLedger l).pending = s.pending := rfl

/-! ### State.raise -/

@[simp] theorem State.raise_ledger (x : AttentionSource) : (s.raise x).ledger = s.ledger.raise x := rfl
@[simp] theorem State.raise_signature (x : AttentionSource) : (s.raise x).signature = s.signature := rfl
@[simp] theorem State.raise_signatureChoices (x : AttentionSource) : (s.raise x).signatureChoices = s.signatureChoices := rfl
@[simp] theorem State.raise_dipLatch (x : AttentionSource) : (s.raise x).dipLatch = s.dipLatch := rfl
@[simp] theorem State.raise_arbiter (x : AttentionSource) : (s.raise x).arbiter = s.arbiter := rfl
@[simp] theorem State.raise_sweep (x : AttentionSource) : (s.raise x).sweep = s.sweep := rfl
@[simp] theorem State.raise_calendar (x : AttentionSource) : (s.raise x).calendar = s.calendar := rfl
@[simp] theorem State.raise_lanes (x : AttentionSource) : (s.raise x).lanes = s.lanes := rfl
@[simp] theorem State.raise_arrivals (x : AttentionSource) : (s.raise x).arrivals = s.arrivals := rfl
@[simp] theorem State.raise_laneBoundaries (x : AttentionSource) : (s.raise x).laneBoundaries = s.laneBoundaries := rfl
@[simp] theorem State.raise_engine (x : AttentionSource) : (s.raise x).engine = s.engine := rfl
@[simp] theorem State.raise_work (x : AttentionSource) : (s.raise x).work = s.work := rfl
@[simp] theorem State.raise_port (x : AttentionSource) : (s.raise x).port = s.port := rfl
@[simp] theorem State.raise_mode (x : AttentionSource) : (s.raise x).mode = s.mode := rfl
@[simp] theorem State.raise_powered (x : AttentionSource) : (s.raise x).powered = s.powered := rfl
@[simp] theorem State.raise_resetHeld (x : AttentionSource) : (s.raise x).resetHeld = s.resetHeld := rfl
@[simp] theorem State.raise_pending (x : AttentionSource) : (s.raise x).pending = s.pending := rfl

/-! ### State.groupTurn -/

@[simp] theorem State.groupTurn_ledger (m : GroupMember) (l : Ledger) : (s.groupTurn m l).ledger = l := rfl
@[simp] theorem State.groupTurn_signature (m : GroupMember) (l : Ledger) : (s.groupTurn m l).signature = s.signature := rfl
@[simp] theorem State.groupTurn_signatureChoices (m : GroupMember) (l : Ledger) : (s.groupTurn m l).signatureChoices = s.signatureChoices := rfl
@[simp] theorem State.groupTurn_dipLatch (m : GroupMember) (l : Ledger) : (s.groupTurn m l).dipLatch = s.dipLatch := rfl
@[simp] theorem State.groupTurn_arbiter (m : GroupMember) (l : Ledger) : (s.groupTurn m l).arbiter = s.arbiter.grantMember m := rfl
@[simp] theorem State.groupTurn_sweep (m : GroupMember) (l : Ledger) : (s.groupTurn m l).sweep = s.sweep := rfl
@[simp] theorem State.groupTurn_calendar (m : GroupMember) (l : Ledger) : (s.groupTurn m l).calendar = s.calendar := rfl
@[simp] theorem State.groupTurn_lanes (m : GroupMember) (l : Ledger) : (s.groupTurn m l).lanes = s.lanes := rfl
@[simp] theorem State.groupTurn_arrivals (m : GroupMember) (l : Ledger) : (s.groupTurn m l).arrivals = s.arrivals := rfl
@[simp] theorem State.groupTurn_laneBoundaries (m : GroupMember) (l : Ledger) : (s.groupTurn m l).laneBoundaries = s.laneBoundaries := rfl
@[simp] theorem State.groupTurn_engine (m : GroupMember) (l : Ledger) : (s.groupTurn m l).engine = s.engine := rfl
@[simp] theorem State.groupTurn_work (m : GroupMember) (l : Ledger) : (s.groupTurn m l).work = s.work := rfl
@[simp] theorem State.groupTurn_port (m : GroupMember) (l : Ledger) : (s.groupTurn m l).port = s.port := rfl
@[simp] theorem State.groupTurn_mode (m : GroupMember) (l : Ledger) : (s.groupTurn m l).mode = s.mode := rfl
@[simp] theorem State.groupTurn_powered (m : GroupMember) (l : Ledger) : (s.groupTurn m l).powered = s.powered := rfl
@[simp] theorem State.groupTurn_resetHeld (m : GroupMember) (l : Ledger) : (s.groupTurn m l).resetHeld = s.resetHeld := rfl
@[simp] theorem State.groupTurn_pending (m : GroupMember) (l : Ledger) : (s.groupTurn m l).pending = s.pending := rfl

/-! ### State.requestGrant -/

@[simp] theorem State.requestGrant_ledger : (s.requestGrant).ledger = s.ledger := rfl
@[simp] theorem State.requestGrant_signature : (s.requestGrant).signature = s.signature := rfl
@[simp] theorem State.requestGrant_signatureChoices : (s.requestGrant).signatureChoices = s.signatureChoices := rfl
@[simp] theorem State.requestGrant_dipLatch : (s.requestGrant).dipLatch = s.dipLatch := rfl
@[simp] theorem State.requestGrant_arbiter : (s.requestGrant).arbiter = s.arbiter.grant .requestEngine := rfl
@[simp] theorem State.requestGrant_sweep : (s.requestGrant).sweep = s.sweep := rfl
@[simp] theorem State.requestGrant_calendar : (s.requestGrant).calendar = s.calendar := rfl
@[simp] theorem State.requestGrant_lanes : (s.requestGrant).lanes = s.lanes := rfl
@[simp] theorem State.requestGrant_arrivals : (s.requestGrant).arrivals = s.arrivals := rfl
@[simp] theorem State.requestGrant_laneBoundaries : (s.requestGrant).laneBoundaries = s.laneBoundaries := rfl
@[simp] theorem State.requestGrant_engine : (s.requestGrant).engine = s.engine := rfl
@[simp] theorem State.requestGrant_work : (s.requestGrant).work = s.work := rfl
@[simp] theorem State.requestGrant_port : (s.requestGrant).port = s.port := rfl
@[simp] theorem State.requestGrant_mode : (s.requestGrant).mode = s.mode := rfl
@[simp] theorem State.requestGrant_powered : (s.requestGrant).powered = s.powered := rfl
@[simp] theorem State.requestGrant_resetHeld : (s.requestGrant).resetHeld = s.resetHeld := rfl
@[simp] theorem State.requestGrant_pending : (s.requestGrant).pending = s.pending := rfl

/-! ### State.respond -/

@[simp] theorem State.respond_ledger (a : Answer) : (s.respond a).ledger = s.ledger := rfl
@[simp] theorem State.respond_signature (a : Answer) : (s.respond a).signature = s.signature := rfl
@[simp] theorem State.respond_signatureChoices (a : Answer) : (s.respond a).signatureChoices = s.signatureChoices := rfl
@[simp] theorem State.respond_dipLatch (a : Answer) : (s.respond a).dipLatch = s.dipLatch := rfl
@[simp] theorem State.respond_arbiter (a : Answer) : (s.respond a).arbiter = s.arbiter := rfl
@[simp] theorem State.respond_sweep (a : Answer) : (s.respond a).sweep = s.sweep := rfl
@[simp] theorem State.respond_calendar (a : Answer) : (s.respond a).calendar = s.calendar := rfl
@[simp] theorem State.respond_lanes (a : Answer) : (s.respond a).lanes = s.lanes := rfl
@[simp] theorem State.respond_arrivals (a : Answer) : (s.respond a).arrivals = s.arrivals := rfl
@[simp] theorem State.respond_laneBoundaries (a : Answer) : (s.respond a).laneBoundaries = s.laneBoundaries := rfl
@[simp] theorem State.respond_engine (a : Answer) : (s.respond a).engine = s.engine := rfl
@[simp] theorem State.respond_work (a : Answer) : (s.respond a).work = s.work := rfl
@[simp] theorem State.respond_port (a : Answer) : (s.respond a).port = s.port.respond a := rfl
@[simp] theorem State.respond_mode (a : Answer) : (s.respond a).mode = s.mode := rfl
@[simp] theorem State.respond_powered (a : Answer) : (s.respond a).powered = s.powered := rfl
@[simp] theorem State.respond_resetHeld (a : Answer) : (s.respond a).resetHeld = s.resetHeld := rfl
@[simp] theorem State.respond_pending (a : Answer) : (s.respond a).pending = s.pending := rfl

/-! ### State.putLane -/

@[simp] theorem State.putLane_ledger (k : LaneNo) (n : Lane) : (s.putLane k n).ledger = s.ledger := rfl
@[simp] theorem State.putLane_signature (k : LaneNo) (n : Lane) : (s.putLane k n).signature = s.signature := rfl
@[simp] theorem State.putLane_signatureChoices (k : LaneNo) (n : Lane) : (s.putLane k n).signatureChoices = s.signatureChoices := rfl
@[simp] theorem State.putLane_dipLatch (k : LaneNo) (n : Lane) : (s.putLane k n).dipLatch = s.dipLatch := rfl
@[simp] theorem State.putLane_arbiter (k : LaneNo) (n : Lane) : (s.putLane k n).arbiter = s.arbiter := rfl
@[simp] theorem State.putLane_sweep (k : LaneNo) (n : Lane) : (s.putLane k n).sweep = s.sweep := rfl
@[simp] theorem State.putLane_calendar (k : LaneNo) (n : Lane) : (s.putLane k n).calendar = s.calendar := rfl
@[simp] theorem State.putLane_lanes (k : LaneNo) (n : Lane) : (s.putLane k n).lanes = s.lanes.set k.val n := rfl
@[simp] theorem State.putLane_arrivals (k : LaneNo) (n : Lane) : (s.putLane k n).arrivals = s.arrivals := rfl
@[simp] theorem State.putLane_laneBoundaries (k : LaneNo) (n : Lane) : (s.putLane k n).laneBoundaries = s.laneBoundaries := rfl
@[simp] theorem State.putLane_engine (k : LaneNo) (n : Lane) : (s.putLane k n).engine = s.engine := rfl
@[simp] theorem State.putLane_work (k : LaneNo) (n : Lane) : (s.putLane k n).work = s.work := rfl
@[simp] theorem State.putLane_port (k : LaneNo) (n : Lane) : (s.putLane k n).port = s.port := rfl
@[simp] theorem State.putLane_mode (k : LaneNo) (n : Lane) : (s.putLane k n).mode = s.mode := rfl
@[simp] theorem State.putLane_powered (k : LaneNo) (n : Lane) : (s.putLane k n).powered = s.powered := rfl
@[simp] theorem State.putLane_resetHeld (k : LaneNo) (n : Lane) : (s.putLane k n).resetHeld = s.resetHeld := rfl
@[simp] theorem State.putLane_pending (k : LaneNo) (n : Lane) : (s.putLane k n).pending = s.pending := rfl

/-! ### State.mapLanes -/

@[simp] theorem State.mapLanes_ledger (f : Lane → Lane) : (s.mapLanes f).ledger = s.ledger := rfl
@[simp] theorem State.mapLanes_signature (f : Lane → Lane) : (s.mapLanes f).signature = s.signature := rfl
@[simp] theorem State.mapLanes_signatureChoices (f : Lane → Lane) : (s.mapLanes f).signatureChoices = s.signatureChoices := rfl
@[simp] theorem State.mapLanes_dipLatch (f : Lane → Lane) : (s.mapLanes f).dipLatch = s.dipLatch := rfl
@[simp] theorem State.mapLanes_arbiter (f : Lane → Lane) : (s.mapLanes f).arbiter = s.arbiter := rfl
@[simp] theorem State.mapLanes_sweep (f : Lane → Lane) : (s.mapLanes f).sweep = s.sweep := rfl
@[simp] theorem State.mapLanes_calendar (f : Lane → Lane) : (s.mapLanes f).calendar = s.calendar := rfl
@[simp] theorem State.mapLanes_lanes (f : Lane → Lane) : (s.mapLanes f).lanes = s.lanes.map f := rfl
@[simp] theorem State.mapLanes_arrivals (f : Lane → Lane) : (s.mapLanes f).arrivals = s.arrivals := rfl
@[simp] theorem State.mapLanes_laneBoundaries (f : Lane → Lane) : (s.mapLanes f).laneBoundaries = s.laneBoundaries := rfl
@[simp] theorem State.mapLanes_engine (f : Lane → Lane) : (s.mapLanes f).engine = s.engine := rfl
@[simp] theorem State.mapLanes_work (f : Lane → Lane) : (s.mapLanes f).work = s.work := rfl
@[simp] theorem State.mapLanes_port (f : Lane → Lane) : (s.mapLanes f).port = s.port := rfl
@[simp] theorem State.mapLanes_mode (f : Lane → Lane) : (s.mapLanes f).mode = s.mode := rfl
@[simp] theorem State.mapLanes_powered (f : Lane → Lane) : (s.mapLanes f).powered = s.powered := rfl
@[simp] theorem State.mapLanes_resetHeld (f : Lane → Lane) : (s.mapLanes f).resetHeld = s.resetHeld := rfl
@[simp] theorem State.mapLanes_pending (f : Lane → Lane) : (s.mapLanes f).pending = s.pending := rfl

/-! ### State.tick -/

@[simp] theorem State.tick_ledger (awake : Bool) : (s.tick awake).ledger = s.ledger := rfl
@[simp] theorem State.tick_signature (awake : Bool) : (s.tick awake).signature = s.signature := rfl
@[simp] theorem State.tick_signatureChoices (awake : Bool) : (s.tick awake).signatureChoices = s.signatureChoices := rfl
@[simp] theorem State.tick_dipLatch (awake : Bool) : (s.tick awake).dipLatch = s.dipLatch := rfl
@[simp] theorem State.tick_arbiter (awake : Bool) : (s.tick awake).arbiter = s.arbiter := rfl
@[simp] theorem State.tick_sweep (awake : Bool) : (s.tick awake).sweep = s.sweep := rfl
@[simp] theorem State.tick_calendar (awake : Bool) : (s.tick awake).calendar = s.calendar.tick awake := rfl
@[simp] theorem State.tick_lanes (awake : Bool) : (s.tick awake).lanes = s.lanes := rfl
@[simp] theorem State.tick_arrivals (awake : Bool) : (s.tick awake).arrivals = s.arrivals := rfl
@[simp] theorem State.tick_laneBoundaries (awake : Bool) : (s.tick awake).laneBoundaries = s.laneBoundaries := rfl
@[simp] theorem State.tick_engine (awake : Bool) : (s.tick awake).engine = s.engine := rfl
@[simp] theorem State.tick_work (awake : Bool) : (s.tick awake).work = s.work := rfl
@[simp] theorem State.tick_port (awake : Bool) : (s.tick awake).port = s.port := rfl
@[simp] theorem State.tick_mode (awake : Bool) : (s.tick awake).mode = s.mode := rfl
@[simp] theorem State.tick_powered (awake : Bool) : (s.tick awake).powered = s.powered := rfl
@[simp] theorem State.tick_resetHeld (awake : Bool) : (s.tick awake).resetHeld = s.resetHeld := rfl
@[simp] theorem State.tick_pending (awake : Bool) : (s.tick awake).pending = s.pending := rfl

/-! ### State.intervalTurn -/

@[simp] theorem State.intervalTurn_ledger (l : Ledger) (w : List WorkItem) : (s.intervalTurn l w).ledger = l := rfl
@[simp] theorem State.intervalTurn_signature (l : Ledger) (w : List WorkItem) : (s.intervalTurn l w).signature = s.signature := rfl
@[simp] theorem State.intervalTurn_signatureChoices (l : Ledger) (w : List WorkItem) : (s.intervalTurn l w).signatureChoices = s.signatureChoices := rfl
@[simp] theorem State.intervalTurn_dipLatch (l : Ledger) (w : List WorkItem) : (s.intervalTurn l w).dipLatch = s.dipLatch := rfl
@[simp] theorem State.intervalTurn_arbiter (l : Ledger) (w : List WorkItem) : (s.intervalTurn l w).arbiter = s.arbiter.grantMember .intervalEngine := rfl
@[simp] theorem State.intervalTurn_sweep (l : Ledger) (w : List WorkItem) : (s.intervalTurn l w).sweep = s.sweep := rfl
@[simp] theorem State.intervalTurn_calendar (l : Ledger) (w : List WorkItem) : (s.intervalTurn l w).calendar = s.calendar := rfl
@[simp] theorem State.intervalTurn_lanes (l : Ledger) (w : List WorkItem) : (s.intervalTurn l w).lanes = s.lanes := rfl
@[simp] theorem State.intervalTurn_arrivals (l : Ledger) (w : List WorkItem) : (s.intervalTurn l w).arrivals = s.arrivals := rfl
@[simp] theorem State.intervalTurn_laneBoundaries (l : Ledger) (w : List WorkItem) : (s.intervalTurn l w).laneBoundaries = s.laneBoundaries := rfl
@[simp] theorem State.intervalTurn_engine (l : Ledger) (w : List WorkItem) : (s.intervalTurn l w).engine = s.engine := rfl
@[simp] theorem State.intervalTurn_work (l : Ledger) (w : List WorkItem) : (s.intervalTurn l w).work = openWork s.calendar l w := rfl
@[simp] theorem State.intervalTurn_port (l : Ledger) (w : List WorkItem) : (s.intervalTurn l w).port = s.port := rfl
@[simp] theorem State.intervalTurn_mode (l : Ledger) (w : List WorkItem) : (s.intervalTurn l w).mode = s.mode := rfl
@[simp] theorem State.intervalTurn_powered (l : Ledger) (w : List WorkItem) : (s.intervalTurn l w).powered = s.powered := rfl
@[simp] theorem State.intervalTurn_resetHeld (l : Ledger) (w : List WorkItem) : (s.intervalTurn l w).resetHeld = s.resetHeld := rfl
@[simp] theorem State.intervalTurn_pending (l : Ledger) (w : List WorkItem) : (s.intervalTurn l w).pending = s.pending := rfl

/-! ### State.enterRun -/

@[simp] theorem State.enterRun_ledger : (s.enterRun).ledger = s.ledger := rfl
@[simp] theorem State.enterRun_signature : (s.enterRun).signature = s.signature := rfl
@[simp] theorem State.enterRun_signatureChoices : (s.enterRun).signatureChoices = s.signatureChoices := rfl
@[simp] theorem State.enterRun_dipLatch : (s.enterRun).dipLatch = s.dipLatch := rfl
@[simp] theorem State.enterRun_arbiter : (s.enterRun).arbiter = s.arbiter := rfl
@[simp] theorem State.enterRun_sweep : (s.enterRun).sweep = s.sweep := rfl
@[simp] theorem State.enterRun_calendar : (s.enterRun).calendar = s.calendar := rfl
@[simp] theorem State.enterRun_lanes : (s.enterRun).lanes = s.lanes.map (Lane.enterRun s.calendar.endedTag s.calendar.lastBoundary) := rfl
@[simp] theorem State.enterRun_arrivals : (s.enterRun).arrivals = s.arrivals := rfl
@[simp] theorem State.enterRun_laneBoundaries : (s.enterRun).laneBoundaries = s.laneBoundaries := rfl
@[simp] theorem State.enterRun_engine : (s.enterRun).engine = s.engine := rfl
@[simp] theorem State.enterRun_work : (s.enterRun).work = s.work := rfl
@[simp] theorem State.enterRun_port : (s.enterRun).port = s.port := rfl
@[simp] theorem State.enterRun_mode : (s.enterRun).mode = .run := rfl
@[simp] theorem State.enterRun_powered : (s.enterRun).powered = s.powered := rfl
@[simp] theorem State.enterRun_resetHeld : (s.enterRun).resetHeld = s.resetHeld := rfl
@[simp] theorem State.enterRun_pending : (s.enterRun).pending = s.pending := rfl

variable (l : Ledger)

/-! ### Ledger.raise -/

@[simp] theorem Ledger.raise_accounts (x : AttentionSource) : (l.raise x).accounts = l.accounts := rfl
@[simp] theorem Ledger.raise_intakes (x : AttentionSource) : (l.raise x).intakes = l.intakes := rfl
@[simp] theorem Ledger.raise_tariffs (x : AttentionSource) : (l.raise x).tariffs = l.tariffs := rfl
@[simp] theorem Ledger.raise_pool (x : AttentionSource) : (l.raise x).pool = l.pool := rfl
@[simp] theorem Ledger.raise_attention (x : AttentionSource) : (l.raise x).attention = l.attention ||| x.bit := rfl
@[simp] theorem Ledger.raise_closeWork (x : AttentionSource) : (l.raise x).closeWork = l.closeWork := rfl

/-! ### Ledger.storeAccount -/

@[simp] theorem Ledger.storeAccount_accounts (i : Slot) (a : Account) : (l.storeAccount i a).accounts = l.accounts.set i.val a := rfl
@[simp] theorem Ledger.storeAccount_intakes (i : Slot) (a : Account) : (l.storeAccount i a).intakes = l.intakes := rfl
@[simp] theorem Ledger.storeAccount_tariffs (i : Slot) (a : Account) : (l.storeAccount i a).tariffs = l.tariffs := rfl
@[simp] theorem Ledger.storeAccount_pool (i : Slot) (a : Account) : (l.storeAccount i a).pool = l.pool := rfl
@[simp] theorem Ledger.storeAccount_attention (i : Slot) (a : Account) : (l.storeAccount i a).attention = l.attention := rfl
@[simp] theorem Ledger.storeAccount_closeWork (i : Slot) (a : Account) : (l.storeAccount i a).closeWork = l.closeWork := rfl

/-! ### Ledger.storeIntake -/

@[simp] theorem Ledger.storeIntake_accounts (i : IntakeNo) (x : Intake) : (l.storeIntake i x).accounts = l.accounts := rfl
@[simp] theorem Ledger.storeIntake_intakes (i : IntakeNo) (x : Intake) : (l.storeIntake i x).intakes = l.intakes.set i.val x := rfl
@[simp] theorem Ledger.storeIntake_tariffs (i : IntakeNo) (x : Intake) : (l.storeIntake i x).tariffs = l.tariffs := rfl
@[simp] theorem Ledger.storeIntake_pool (i : IntakeNo) (x : Intake) : (l.storeIntake i x).pool = l.pool := rfl
@[simp] theorem Ledger.storeIntake_attention (i : IntakeNo) (x : Intake) : (l.storeIntake i x).attention = l.attention := rfl
@[simp] theorem Ledger.storeIntake_closeWork (i : IntakeNo) (x : Intake) : (l.storeIntake i x).closeWork = l.closeWork := rfl

/-! ### Ledger.storeTariff -/

@[simp] theorem Ledger.storeTariff_accounts (i : TariffNo) (t : Tariff) : (l.storeTariff i t).accounts = l.accounts := rfl
@[simp] theorem Ledger.storeTariff_intakes (i : TariffNo) (t : Tariff) : (l.storeTariff i t).intakes = l.intakes := rfl
@[simp] theorem Ledger.storeTariff_tariffs (i : TariffNo) (t : Tariff) : (l.storeTariff i t).tariffs = l.tariffs.set i.val t := rfl
@[simp] theorem Ledger.storeTariff_pool (i : TariffNo) (t : Tariff) : (l.storeTariff i t).pool = l.pool := rfl
@[simp] theorem Ledger.storeTariff_attention (i : TariffNo) (t : Tariff) : (l.storeTariff i t).attention = l.attention := rfl
@[simp] theorem Ledger.storeTariff_closeWork (i : TariffNo) (t : Tariff) : (l.storeTariff i t).closeWork = l.closeWork := rfl

/-! ### Ledger.putAccount -/

@[simp] theorem Ledger.putAccount_accounts (i : Slot) (a : Account) : (l.putAccount i a).accounts = l.accounts.set i.val a.seal := rfl
@[simp] theorem Ledger.putAccount_intakes (i : Slot) (a : Account) : (l.putAccount i a).intakes = l.intakes := rfl
@[simp] theorem Ledger.putAccount_tariffs (i : Slot) (a : Account) : (l.putAccount i a).tariffs = l.tariffs := rfl
@[simp] theorem Ledger.putAccount_pool (i : Slot) (a : Account) : (l.putAccount i a).pool = l.pool := rfl
@[simp] theorem Ledger.putAccount_attention (i : Slot) (a : Account) : (l.putAccount i a).attention = l.attention := rfl
@[simp] theorem Ledger.putAccount_closeWork (i : Slot) (a : Account) : (l.putAccount i a).closeWork = l.closeWork := rfl

/-! ### Ledger.putIntake -/

@[simp] theorem Ledger.putIntake_accounts (i : IntakeNo) (x : Intake) : (l.putIntake i x).accounts = l.accounts := rfl
@[simp] theorem Ledger.putIntake_intakes (i : IntakeNo) (x : Intake) : (l.putIntake i x).intakes = l.intakes.set i.val x.seal := rfl
@[simp] theorem Ledger.putIntake_tariffs (i : IntakeNo) (x : Intake) : (l.putIntake i x).tariffs = l.tariffs := rfl
@[simp] theorem Ledger.putIntake_pool (i : IntakeNo) (x : Intake) : (l.putIntake i x).pool = l.pool := rfl
@[simp] theorem Ledger.putIntake_attention (i : IntakeNo) (x : Intake) : (l.putIntake i x).attention = l.attention := rfl
@[simp] theorem Ledger.putIntake_closeWork (i : IntakeNo) (x : Intake) : (l.putIntake i x).closeWork = l.closeWork := rfl

/-! ### Reading a record after a record was written -/

@[simp] theorem Ledger.account_raise (x : AttentionSource) (i : Slot) : (l.raise x).account i = l.account i := rfl

@[simp] theorem Ledger.intake_raise (x : AttentionSource) (i : IntakeNo) : (l.raise x).intake i = l.intake i := rfl

@[simp] theorem Ledger.tariff_raise (x : AttentionSource) (i : TariffNo) : (l.raise x).tariff i = l.tariff i := rfl

@[simp] theorem Ledger.account_storeAccount_self (i : Slot) (a : Account) : (l.storeAccount i a).account i = a := by
  simp [Ledger.account]

theorem Ledger.account_storeAccount (i j : Slot) (a : Account) :
    (l.storeAccount i a).account j = if i = j then a else l.account j := by
  simp only [Ledger.account, Ledger.storeAccount_accounts, Vector.getElem_set, Fin.ext_iff]

theorem Ledger.account_storeAccount_ne {i j : Slot} (a : Account) (h : i ≠ j) :
    (l.storeAccount i a).account j = l.account j := by
  rw [Ledger.account_storeAccount, if_neg h]

@[simp] theorem Ledger.account_putAccount_self (i : Slot) (a : Account) : (l.putAccount i a).account i = a.seal := by
  simp [Ledger.putAccount]

theorem Ledger.account_putAccount (i j : Slot) (a : Account) :
    (l.putAccount i a).account j = if i = j then a.seal else l.account j :=
  l.account_storeAccount i j a.seal

theorem Ledger.account_putAccount_ne {i j : Slot} (a : Account) (h : i ≠ j) :
    (l.putAccount i a).account j = l.account j :=
  l.account_storeAccount_ne a.seal h

@[simp] theorem Ledger.intake_storeIntake_self (i : IntakeNo) (x : Intake) : (l.storeIntake i x).intake i = x := by
  simp [Ledger.intake]

theorem Ledger.intake_storeIntake (i j : IntakeNo) (x : Intake) :
    (l.storeIntake i x).intake j = if i = j then x else l.intake j := by
  simp only [Ledger.intake, Ledger.storeIntake_intakes, Vector.getElem_set, Fin.ext_iff]

theorem Ledger.intake_storeIntake_ne {i j : IntakeNo} (x : Intake) (h : i ≠ j) :
    (l.storeIntake i x).intake j = l.intake j := by
  rw [Ledger.intake_storeIntake, if_neg h]

@[simp] theorem Ledger.intake_putIntake_self (i : IntakeNo) (x : Intake) : (l.putIntake i x).intake i = x.seal := by
  simp [Ledger.putIntake]

theorem Ledger.intake_putIntake (i j : IntakeNo) (x : Intake) :
    (l.putIntake i x).intake j = if i = j then x.seal else l.intake j :=
  l.intake_storeIntake i j x.seal

theorem Ledger.intake_putIntake_ne {i j : IntakeNo} (x : Intake) (h : i ≠ j) :
    (l.putIntake i x).intake j = l.intake j :=
  l.intake_storeIntake_ne x.seal h

@[simp] theorem Ledger.tariff_storeTariff_self (i : TariffNo) (t : Tariff) : (l.storeTariff i t).tariff i = t := by
  simp [Ledger.tariff]

theorem Ledger.tariff_storeTariff (i j : TariffNo) (t : Tariff) :
    (l.storeTariff i t).tariff j = if i = j then t else l.tariff j := by
  simp only [Ledger.tariff, Ledger.storeTariff_tariffs, Vector.getElem_set, Fin.ext_iff]

theorem Ledger.tariff_storeTariff_ne {i j : TariffNo} (t : Tariff) (h : i ≠ j) :
    (l.storeTariff i t).tariff j = l.tariff j := by
  rw [Ledger.tariff_storeTariff, if_neg h]

@[simp] theorem Ledger.account_storeIntake (i : IntakeNo) (x : Intake) (j : Slot) :
    (l.storeIntake i x).account j = l.account j := rfl

@[simp] theorem Ledger.account_putIntake (i : IntakeNo) (x : Intake) (j : Slot) :
    (l.putIntake i x).account j = l.account j := rfl

@[simp] theorem Ledger.account_storeTariff (i : TariffNo) (t : Tariff) (j : Slot) :
    (l.storeTariff i t).account j = l.account j := rfl

@[simp] theorem Ledger.intake_storeAccount (i : Slot) (a : Account) (j : IntakeNo) :
    (l.storeAccount i a).intake j = l.intake j := rfl

@[simp] theorem Ledger.intake_putAccount (i : Slot) (a : Account) (j : IntakeNo) :
    (l.putAccount i a).intake j = l.intake j := rfl

@[simp] theorem Ledger.intake_storeTariff (i : TariffNo) (t : Tariff) (j : IntakeNo) :
    (l.storeTariff i t).intake j = l.intake j := rfl

@[simp] theorem Ledger.tariff_storeAccount (i : Slot) (a : Account) (j : TariffNo) :
    (l.storeAccount i a).tariff j = l.tariff j := rfl

@[simp] theorem Ledger.tariff_putAccount (i : Slot) (a : Account) (j : TariffNo) :
    (l.putAccount i a).tariff j = l.tariff j := rfl

@[simp] theorem Ledger.tariff_storeIntake (i : IntakeNo) (x : Intake) (j : TariffNo) :
    (l.storeIntake i x).tariff j = l.tariff j := rfl

@[simp] theorem Ledger.tariff_putIntake (i : IntakeNo) (x : Intake) (j : TariffNo) :
    (l.putIntake i x).tariff j = l.tariff j := rfl

/-! ### Lanes -/

@[simp] theorem State.lane_putLane_self (k : LaneNo) (n : Lane) : (s.putLane k n).lane k = n := by
  simp [State.lane]

theorem State.lane_putLane (j k : LaneNo) (n : Lane) :
    (s.putLane j n).lane k = if j = k then n else s.lane k := by
  simp only [State.lane, State.putLane_lanes, Vector.getElem_set, Fin.ext_iff]

theorem State.lane_putLane_ne {j k : LaneNo} (n : Lane) (h : j ≠ k) : (s.putLane j n).lane k = s.lane k := by
  rw [State.lane_putLane, if_neg h]

@[simp] theorem State.lane_mapLanes (f : Lane → Lane) (k : LaneNo) : (s.mapLanes f).lane k = f (s.lane k) := by
  simp [State.lane]

/-! ### The retained signature -/

/-- The value that a cold start first writes is not the fixed one (R176). -/
theorem otherSignature_ne_fixed (k : Nat) : Config.otherSignature k ≠ Config.fixedSignature := by
  unfold Config.otherSignature
  split
  · intro h
    have bit := congrArg (·.getLsbD 0) h
    simp at bit
  · assumption

/-- The retained store is valid exactly when the signature holds its fixed value and the latch is clear (R176). -/
theorem State.storeValid_iff : s.storeValid = true ↔ s.signature = Config.fixedSignature ∧ s.dipLatch = false := by
  simp [State.storeValid, and_comm]

end Sys2Proof.Machine
end

