-- ==== Sys2Proof/Laws/Records.lean ====
section
/-! SUPPORT. What writing and verifying a record do (R161, R164, R165), and operations over lists of records. -/

namespace Sys2Proof.Machine

open Sys2Proof

/-! ### Sealed records -/

@[simp] theorem Account.image_seal (a : Account) : a.seal.image = a.image := rfl

@[simp] theorem Intake.image_seal (x : Intake) : x.seal.image = x.image := rfl

/-- A record written has a check word that holds over its content. -/
@[simp] theorem Account.checks_seal (a : Account) : a.seal.checks = true := by
  simp only [Account.checks, Account.image_seal]
  exact beq_self_eq_true _

@[simp] theorem Account.checks_free : Account.free.checks = true := Account.checks_seal _

/-- The check word of a written intake is that of its content. -/
theorem Intake.crc_seal (x : Intake) : crc x.seal.image = x.seal.checkWord := rfl

@[simp] theorem Account.seal_state (a : Account) : a.seal.state = a.state := rfl

@[simp] theorem Intake.seal_state (x : Intake) : x.seal.state = x.state := rfl

/-! ### Verification -/

variable {l : Ledger}

/-- A marked account, or one whose check word holds, is left as it is. -/
theorem Ledger.checkAccount_of_sound {i : Slot} (h : (l.account i).faultMark = true ∨ (l.account i).checks = true) :
    l.checkAccount i = l := by
  have h' : ((l.account i).faultMark || (l.account i).checks) = true := by simpa using h
  simp only [Ledger.checkAccount, if_pos h']

/-- A FREE slot that fails is written with its FREE content. -/
theorem Ledger.checkAccount_of_free {i : Slot} (hm : (l.account i).faultMark = false)
    (hc : (l.account i).checks = false) (hf : (l.account i).phase = .free) :
    l.checkAccount i = (l.storeAccount i .free).raise .integrityFault := by
  simp [Ledger.checkAccount, hm, hc, hf]

/-- An account in another state that fails is marked, and its content stays. -/
theorem Ledger.checkAccount_of_failing {i : Slot} (hm : (l.account i).faultMark = false)
    (hc : (l.account i).checks = false) (hf : (l.account i).phase ≠ .free) :
    l.checkAccount i = (l.storeAccount i { l.account i with faultMark := true }).raise .integrityFault := by
  simp [Ledger.checkAccount, hm, hc, hf]

theorem Ledger.checkIntake_of_sound {i : IntakeNo} (h : (l.intake i).faultMark = true ∨ (l.intake i).checks = true) :
    l.checkIntake i = l := by
  have h' : ((l.intake i).faultMark || (l.intake i).checks) = true := by simpa using h
  simp only [Ledger.checkIntake, if_pos h']

theorem Ledger.checkIntake_of_failing {i : IntakeNo} (hm : (l.intake i).faultMark = false)
    (hc : (l.intake i).checks = false) :
    l.checkIntake i = (l.storeIntake i { l.intake i with faultMark := true }).raise .integrityFault := by
  simp [Ledger.checkIntake, hm, hc]

theorem Ledger.checkTariff_of_sound {i : TariffNo}
    (h : (l.tariff i).faultMark = true ∨ (l.tariff i).checks l.pool i = true) : l.checkTariff i = l := by
  have h' : ((l.tariff i).faultMark || (l.tariff i).checks l.pool i) = true := by simpa using h
  simp only [Ledger.checkTariff, if_pos h']

theorem Ledger.checkTariff_of_failing {i : TariffNo} (hm : (l.tariff i).faultMark = false)
    (hc : (l.tariff i).checks l.pool i = false) :
    l.checkTariff i = (l.storeTariff i { l.tariff i with faultMark := true }).raise .integrityFault := by
  simp [Ledger.checkTariff, hm, hc]

/-- Everything the verification of an account can do. -/
theorem Ledger.checkAccount_cases (i : Slot) (l : Ledger) :
    l.checkAccount i = l ∨ l.checkAccount i = (l.storeAccount i .free).raise .integrityFault ∨
      l.checkAccount i = (l.storeAccount i { l.account i with faultMark := true }).raise .integrityFault := by
  simp only [Ledger.checkAccount]
  split
  · exact .inl rfl
  · split
    · exact .inr (.inl rfl)
    · exact .inr (.inr rfl)

/-- Everything the verification of an intake can do. -/
theorem Ledger.checkIntake_cases (i : IntakeNo) (l : Ledger) :
    l.checkIntake i = l ∨
      l.checkIntake i = (l.storeIntake i { l.intake i with faultMark := true }).raise .integrityFault := by
  simp only [Ledger.checkIntake]
  split
  · exact .inl rfl
  · exact .inr rfl

/-- Everything the verification of a tariff can do. -/
theorem Ledger.checkTariff_cases (i : TariffNo) (l : Ledger) :
    l.checkTariff i = l ∨
      l.checkTariff i = (l.storeTariff i { l.tariff i with faultMark := true }).raise .integrityFault := by
  simp only [Ledger.checkTariff]
  split
  · exact .inl rfl
  · exact .inr rfl

/-! The verification of a record of one kind leaves the records of the other kinds, the pool and the Settlement
Engine's list as they are. -/

@[simp] theorem Ledger.checkAccount_intakes (i : Slot) (l : Ledger) : (l.checkAccount i).intakes = l.intakes := by
  rcases l.checkAccount_cases i with h | h | h
  · rw [h]
  · rw [h]; rfl
  · rw [h]; rfl

@[simp] theorem Ledger.checkAccount_tariffs (i : Slot) (l : Ledger) : (l.checkAccount i).tariffs = l.tariffs := by
  rcases l.checkAccount_cases i with h | h | h
  · rw [h]
  · rw [h]; rfl
  · rw [h]; rfl

@[simp] theorem Ledger.checkAccount_pool (i : Slot) (l : Ledger) : (l.checkAccount i).pool = l.pool := by
  rcases l.checkAccount_cases i with h | h | h
  · rw [h]
  · rw [h]; rfl
  · rw [h]; rfl

@[simp] theorem Ledger.checkAccount_closeWork (i : Slot) (l : Ledger) : (l.checkAccount i).closeWork = l.closeWork := by
  rcases l.checkAccount_cases i with h | h | h
  · rw [h]
  · rw [h]; rfl
  · rw [h]; rfl

@[simp] theorem Ledger.checkIntake_accounts (i : IntakeNo) (l : Ledger) : (l.checkIntake i).accounts = l.accounts := by
  rcases l.checkIntake_cases i with h | h
  · rw [h]
  · rw [h]; rfl

@[simp] theorem Ledger.checkIntake_tariffs (i : IntakeNo) (l : Ledger) : (l.checkIntake i).tariffs = l.tariffs := by
  rcases l.checkIntake_cases i with h | h
  · rw [h]
  · rw [h]; rfl

@[simp] theorem Ledger.checkIntake_pool (i : IntakeNo) (l : Ledger) : (l.checkIntake i).pool = l.pool := by
  rcases l.checkIntake_cases i with h | h
  · rw [h]
  · rw [h]; rfl

@[simp] theorem Ledger.checkIntake_closeWork (i : IntakeNo) (l : Ledger) :
    (l.checkIntake i).closeWork = l.closeWork := by
  rcases l.checkIntake_cases i with h | h
  · rw [h]
  · rw [h]; rfl

@[simp] theorem Ledger.checkTariff_accounts (i : TariffNo) (l : Ledger) : (l.checkTariff i).accounts = l.accounts := by
  rcases l.checkTariff_cases i with h | h
  · rw [h]
  · rw [h]; rfl

@[simp] theorem Ledger.checkTariff_intakes (i : TariffNo) (l : Ledger) : (l.checkTariff i).intakes = l.intakes := by
  rcases l.checkTariff_cases i with h | h
  · rw [h]
  · rw [h]; rfl

@[simp] theorem Ledger.checkTariff_pool (i : TariffNo) (l : Ledger) : (l.checkTariff i).pool = l.pool := by
  rcases l.checkTariff_cases i with h | h
  · rw [h]
  · rw [h]; rfl

@[simp] theorem Ledger.checkTariff_closeWork (i : TariffNo) (l : Ledger) :
    (l.checkTariff i).closeWork = l.closeWork := by
  rcases l.checkTariff_cases i with h | h
  · rw [h]
  · rw [h]; rfl

/-- The verification of an account leaves every other account as it is. -/
theorem Ledger.account_checkAccount_ne {i j : Slot} (h : i ≠ j) (l : Ledger) :
    (l.checkAccount i).account j = l.account j := by
  rcases l.checkAccount_cases i with h' | h' | h' <;> rw [h']
  · simp [Ledger.account_storeAccount_ne _ _ h]
  · simp [Ledger.account_storeAccount_ne _ _ h]

/-- The verification of an intake leaves every other intake as it is. -/
theorem Ledger.intake_checkIntake_ne {i j : IntakeNo} (h : i ≠ j) (l : Ledger) :
    (l.checkIntake i).intake j = l.intake j := by
  rcases l.checkIntake_cases i with h' | h' <;> rw [h']
  simp [Ledger.intake_storeIntake_ne _ _ h]

/-- After its verification an account is marked or its check word holds. -/
theorem Ledger.checkAccount_leaves_sound (i : Slot) (l : Ledger) :
    ((l.checkAccount i).account i).faultMark = true ∨ ((l.checkAccount i).account i).checks = true := by
  cases hm : (l.account i).faultMark
  · cases hc : (l.account i).checks
    · by_cases hf : (l.account i).phase = .free
      · rw [Ledger.checkAccount_of_free hm hc hf]; simp
      · rw [Ledger.checkAccount_of_failing hm hc hf]; simp
    · rw [Ledger.checkAccount_of_sound (.inr hc)]; exact .inr hc
  · rw [Ledger.checkAccount_of_sound (.inl hm)]; exact .inl hm

/-! ### Attention -/

@[simp] theorem Ledger.raiseIf_false (x : AttentionSource) (l : Ledger) : l.raiseIf false x = l := rfl

@[simp] theorem Ledger.raiseIf_true (x : AttentionSource) (l : Ledger) : l.raiseIf true x = l.raise x := rfl

@[simp] theorem Ledger.raiseIf_accounts (c : Bool) (x : AttentionSource) (l : Ledger) :
    (l.raiseIf c x).accounts = l.accounts := by cases c <;> rfl

@[simp] theorem Ledger.raiseIf_intakes (c : Bool) (x : AttentionSource) (l : Ledger) :
    (l.raiseIf c x).intakes = l.intakes := by cases c <;> rfl

@[simp] theorem Ledger.raiseIf_tariffs (c : Bool) (x : AttentionSource) (l : Ledger) :
    (l.raiseIf c x).tariffs = l.tariffs := by cases c <;> rfl

@[simp] theorem Ledger.raiseIf_pool (c : Bool) (x : AttentionSource) (l : Ledger) :
    (l.raiseIf c x).pool = l.pool := by cases c <;> rfl

@[simp] theorem Ledger.raiseIf_closeWork (c : Bool) (x : AttentionSource) (l : Ledger) :
    (l.raiseIf c x).closeWork = l.closeWork := by cases c <;> rfl

/-! ### The Settlement Engine's list -/

/-- Handing an account over keeps every record. -/
theorem Ledger.handToSettlement_cases (i : Slot) (l : Ledger) :
    l.handToSettlement i = l ∨ l.handToSettlement i = { l with closeWork := l.closeWork ++ [i] } := by
  simp only [Ledger.handToSettlement]
  split
  · exact .inl rfl
  · exact .inr rfl

/-- An account handed over is on the list. -/
theorem Ledger.mem_handToSettlement (i : Slot) (l : Ledger) : i ∈ (l.handToSettlement i).closeWork := by
  simp only [Ledger.handToSettlement]
  split
  · assumption
  · simp

/-! ### Operations over lists of records -/

@[simp] theorem eachOf_nil {α : Type} (act : α → Ledger → Ledger) (l : Ledger) : eachOf [] act l = l := rfl

@[simp] theorem eachOf_cons {α : Type} (i : α) (rest : List α) (act : α → Ledger → Ledger) (l : Ledger) :
    eachOf (i :: rest) act l = eachOf rest act (act i l) := rfl

/-- What every action of a list keeps, the operation over the list keeps. -/
theorem eachOf_keeps {α : Type} {act : α → Ledger → Ledger} (P : Ledger → Prop) {numbers : List α}
    (h : ∀ i ∈ numbers, ∀ l, P l → P (act i l)) {l : Ledger} (start : P l) : P (eachOf numbers act l) := by
  induction numbers generalizing l with
  | nil => exact start
  | cons i rest ih =>
    exact ih (fun j hj => h j (List.mem_cons_of_mem i hj)) (h i List.mem_cons_self l start)

/-- What every action keeps equal, the operation over the list keeps equal. -/
theorem eachOf_keeps_value {α β : Type} {act : α → Ledger → Ledger} (f : Ledger → β) {numbers : List α}
    (h : ∀ i ∈ numbers, ∀ l, f (act i l) = f l) (l : Ledger) : f (eachOf numbers act l) = f l :=
  eachOf_keeps (fun m => f m = f l) (fun i hi m hm => (h i hi m).trans hm) rfl

/-- What an operation over a list of numbers, each once, leaves at a number: what the action for that number leaves there,
when each action changes its own number's value alone and depends on that value alone. -/
theorem eachOf_pointwise {α β : Type} [DecidableEq α] {act : α → Ledger → Ledger} (f : α → Ledger → β)
    (other : ∀ i j l, i ≠ j → f j (act i l) = f j l)
    (own : ∀ i l l', f i l = f i l' → f i (act i l) = f i (act i l')) {numbers : List α} (hn : numbers.Nodup)
    (j : α) (l : Ledger) : f j (eachOf numbers act l) = if j ∈ numbers then f j (act j l) else f j l := by
  induction numbers generalizing l with
  | nil => simp
  | cons i rest ih =>
    obtain ⟨hi, hr⟩ := List.nodup_cons.mp hn
    rw [eachOf_cons, ih hr]
    by_cases hj : j = i
    · subst hj; simp [hi]
    · by_cases hm : j ∈ rest
      · simp only [hm, List.mem_cons, or_true, if_true]
        exact own j _ _ (other i j l (Ne.symm hj))
      · simp only [hm, hj, List.mem_cons, or_false, if_false]
        exact other i j l (Ne.symm hj)

theorem allIntakes_nodup : allIntakes.Nodup := List.nodup_finRange 96

theorem allSlots_nodup : allSlots.Nodup := List.nodup_finRange 64

@[simp] theorem mem_allIntakes (i : IntakeNo) : i ∈ allIntakes := List.mem_finRange i

@[simp] theorem mem_allSlots (i : Slot) : i ∈ allSlots := List.mem_finRange i

/-! ### The verification of every intake -/

@[simp] theorem Ledger.checkIntakes_accounts (l : Ledger) : l.checkIntakes.accounts = l.accounts :=
  eachOf_keeps_value (·.accounts) (fun i _ m => m.checkIntake_accounts i) l

@[simp] theorem Ledger.checkIntakes_tariffs (l : Ledger) : l.checkIntakes.tariffs = l.tariffs :=
  eachOf_keeps_value (·.tariffs) (fun i _ m => m.checkIntake_tariffs i) l

@[simp] theorem Ledger.checkIntakes_pool (l : Ledger) : l.checkIntakes.pool = l.pool :=
  eachOf_keeps_value (·.pool) (fun i _ m => m.checkIntake_pool i) l

@[simp] theorem Ledger.checkIntakes_closeWork (l : Ledger) : l.checkIntakes.closeWork = l.closeWork :=
  eachOf_keeps_value (·.closeWork) (fun i _ m => m.checkIntake_closeWork i) l

/-- What the verification of an intake leaves of it depends on that intake alone. -/
theorem Ledger.intake_checkIntake_self (i : IntakeNo) (l : Ledger) :
    (l.checkIntake i).intake i =
      if (l.intake i).faultMark || (l.intake i).checks then l.intake i else { l.intake i with faultMark := true } := by
  simp only [Ledger.checkIntake]
  split
  · rfl
  · simp

/-- After the verification of every intake, one that failed is marked, and the others are as they were. -/
theorem Ledger.intake_checkIntakes (j : IntakeNo) (l : Ledger) :
    l.checkIntakes.intake j =
      if (l.intake j).faultMark || (l.intake j).checks then l.intake j else { l.intake j with faultMark := true } := by
  have h := eachOf_pointwise (fun i (l : Ledger) => l.intake i) (act := Ledger.checkIntake)
    (fun i j l hij => Ledger.intake_checkIntake_ne hij l)
    (fun i l l' h => by
      simp only [Ledger.intake_checkIntake_self, h])
    allIntakes_nodup j l
  simp only [mem_allIntakes, if_true, Ledger.intake_checkIntake_self] at h
  exact h

/-- A verification of an intake keeps every attention that is raised. -/
theorem Ledger.attention_checkIntake_of_raised {source : BitVec 12} (i : IntakeNo) {l : Ledger}
    (h : l.attention = source ||| AttentionSource.integrityFault.bit) :
    (l.checkIntake i).attention = source ||| AttentionSource.integrityFault.bit := by
  simp only [Ledger.checkIntake]
  split
  · exact h
  · simp [h, BitVec.or_assoc]

/-- The verification of every intake raises INTEGRITY_FAULT when one fails, and no other attention (R165). -/
theorem Ledger.attention_checkIntakes {l : Ledger} (i : IntakeNo) (hm : (l.intake i).faultMark = false)
    (hc : (l.intake i).checks = false) : l.checkIntakes.attention = (l.raise .integrityFault).attention := by
  have go : ∀ (numbers : List IntakeNo) (m : Ledger), i ∈ numbers → m.intake i = l.intake i →
      (m.attention = l.attention ∨ m.attention = (l.raise .integrityFault).attention) →
      (eachOf numbers Ledger.checkIntake m).attention = (l.raise .integrityFault).attention := by
    intro numbers
    induction numbers with
    | nil => exact fun m h => nomatch h
    | cons j rest ih =>
      intro m hi same start
      have done : (m.checkIntake j).attention = (l.raise .integrityFault).attention ∨
          (m.checkIntake j).attention = l.attention ∧ j ≠ i := by
        by_cases hj : (m.intake j).faultMark = true ∨ (m.intake j).checks = true
        · rw [Ledger.checkIntake_of_sound hj]
          refine start.symm.imp_right fun h => ⟨h, ?_⟩
          rintro rfl
          simp [same, hm, hc] at hj
        · refine .inl ?_
          rw [not_or, Bool.not_eq_true, Bool.not_eq_true] at hj
          simp only [Ledger.checkIntake, hj.1, hj.2]
          rcases start with h | h <;> simp [Ledger.raise, h, BitVec.or_assoc]
      rw [eachOf_cons]
      rcases done with h | ⟨h, hj⟩
      · exact eachOf_keeps (fun m => m.attention = l.attention ||| AttentionSource.integrityFault.bit)
          (fun k _ m hm => Ledger.attention_checkIntake_of_raised k hm) h
      · refine ih _ ((List.mem_cons.mp hi).resolve_left (Ne.symm hj)) ?_ (.inl h)
        rw [Ledger.intake_checkIntake_ne hj, same]
  exact go allIntakes l (mem_allIntakes i) rfl (.inl rfl)

/-- When no intake fails, the verification of every intake changes nothing. -/
theorem Ledger.checkIntakes_of_settled (h : ∀ i, (l.intake i).faultMark = true ∨ (l.intake i).checks = true) :
    l.checkIntakes = l := by
  have keeps : ∀ numbers : List IntakeNo, eachOf numbers Ledger.checkIntake l = l := by
    intro numbers
    induction numbers with
    | nil => rfl
    | cons i rest ih => rw [eachOf_cons, Ledger.checkIntake_of_sound (h i), ih]
  exact keeps allIntakes

/-! ### The verification of every account that is not FREE -/

/-- The verification of one account that is not FREE leaves it, or marks it. -/
theorem checkNonFree_cases (i : Slot) (l : Ledger) :
    checkNonFree i l = l ∨
      (l.account i).phase ≠ .free ∧
        checkNonFree i l = (l.storeAccount i { l.account i with faultMark := true }).raise .integrityFault := by
  simp only [checkNonFree]
  split
  · exact .inl rfl
  · next h =>
    by_cases hc : (l.account i).faultMark = true ∨ (l.account i).checks = true
    · exact .inl (Ledger.checkAccount_of_sound hc)
    · simp only [not_or, Bool.not_eq_true] at hc
      have hf : (l.account i).phase ≠ .free := fun e => h (by simp [Account.state, hc.1, e, AccountPhase.state])
      exact .inr ⟨hf, Ledger.checkAccount_of_failing hc.1 hc.2 hf⟩

/-- What it leaves of an account. -/
theorem account_checkNonFree_self (i : Slot) (l : Ledger) :
    (checkNonFree i l).account i =
      if (l.account i).state = .free ∨ (l.account i).faultMark = true ∨ (l.account i).checks = true then l.account i
      else { l.account i with faultMark := true } := by
  simp only [checkNonFree]
  by_cases h : (l.account i).state = .free
  · simp [h]
  · by_cases hc : (l.account i).faultMark = true ∨ (l.account i).checks = true
    · simp [h, hc, Ledger.checkAccount_of_sound hc]
    · have hn := hc
      simp only [not_or, Bool.not_eq_true] at hn
      have hf : (l.account i).phase ≠ .free := fun e => h (by simp [Account.state, hn.1, e, AccountPhase.state])
      rw [if_neg h, Ledger.checkAccount_of_failing hn.1 hn.2 hf, if_neg (by simp [h, hn])]
      simp

theorem account_checkNonFree_ne {i j : Slot} (h : i ≠ j) (l : Ledger) : (checkNonFree i l).account j = l.account j := by
  rcases checkNonFree_cases i l with e | ⟨_, e⟩ <;> rw [e]
  simp [Ledger.account_storeAccount_ne _ _ h]

@[simp] theorem Ledger.checkAccounts_intakes (l : Ledger) : l.checkAccounts.intakes = l.intakes :=
  eachOf_keeps_value (·.intakes) (fun i _ m => by rcases checkNonFree_cases i m with e | ⟨_, e⟩ <;> rw [e] <;> rfl) l

@[simp] theorem Ledger.checkAccounts_tariffs (l : Ledger) : l.checkAccounts.tariffs = l.tariffs :=
  eachOf_keeps_value (·.tariffs) (fun i _ m => by rcases checkNonFree_cases i m with e | ⟨_, e⟩ <;> rw [e] <;> rfl) l

@[simp] theorem Ledger.checkAccounts_pool (l : Ledger) : l.checkAccounts.pool = l.pool :=
  eachOf_keeps_value (·.pool) (fun i _ m => by rcases checkNonFree_cases i m with e | ⟨_, e⟩ <;> rw [e] <;> rfl) l

@[simp] theorem Ledger.checkAccounts_closeWork (l : Ledger) : l.checkAccounts.closeWork = l.closeWork :=
  eachOf_keeps_value (·.closeWork) (fun i _ m => by rcases checkNonFree_cases i m with e | ⟨_, e⟩ <;> rw [e] <;> rfl) l

/-- After the verification of every account that is not FREE, one that failed is marked, and the others are as they
were. -/
theorem Ledger.account_checkAccounts (j : Slot) (l : Ledger) :
    l.checkAccounts.account j =
      if (l.account j).state = .free ∨ (l.account j).faultMark = true ∨ (l.account j).checks = true then l.account j
      else { l.account j with faultMark := true } := by
  have h := eachOf_pointwise (fun i (l : Ledger) => l.account i) (act := checkNonFree)
    (fun i j l hij => account_checkNonFree_ne hij l)
    (fun i l l' h => by simp only [account_checkNonFree_self, h])
    allSlots_nodup j l
  simp only [mem_allSlots, if_true, account_checkNonFree_self] at h
  exact h

/-- When no account fails, the verification of every account that is not FREE changes nothing. -/
theorem Ledger.checkAccounts_of_settled (h : ∀ i, (l.account i).faultMark = true ∨ (l.account i).checks = true) :
    l.checkAccounts = l := by
  have keeps : ∀ numbers : List Slot, eachOf numbers checkNonFree l = l := by
    intro numbers
    induction numbers with
    | nil => rfl
    | cons i rest ih =>
      have e : checkNonFree i l = l := by
        simp only [checkNonFree]
        split
        · rfl
        · exact Ledger.checkAccount_of_sound (h i)
      rw [eachOf_cons, e, ih]
  exact keeps allSlots

/-- The verification changes no account's number, and makes none FREE or not FREE. -/
theorem Ledger.holder_checkAccounts (number : Nat) (except : Option Slot) (l : Ledger) :
    l.checkAccounts.holder number except = l.holder number except := by
  refine congrArg allSlots.find? (funext fun i => ?_)
  rw [Ledger.account_checkAccounts]
  split
  · rfl
  · next h =>
    have hs : ((l.account i).state != .free) = true := by
      simp only [not_or] at h
      simp [h.1]
    rw [hs]
    rfl

end Sys2Proof.Machine
end

