-- ==== Sys2Proof/Laws/Engines.lean ====
section
/-! SUPPORT. What the shared operations of the lanes and the engines do. -/

namespace Sys2Proof.Machine

open Sys2Proof

/-! ### Turns (R162, R163) -/

/-- The requester granted next is one that waits. -/
theorem Arbiter.nextRequester_mem {b : Arbiter} {w : List Requester} {r : Requester} (h : b.nextRequester w = some r) :
    r ∈ w := by
  simpa using List.find?_some h

/-- The member given the turn is one that waits. -/
theorem Arbiter.nextMember_mem {b : Arbiter} {w : List GroupMember} {m : GroupMember} (h : b.nextMember w = some m) :
    m ∈ w := by
  simpa using List.find?_some h

/-- A member that waits waits for an operation of its own, and nothing waits at rest. -/
theorem State.mem_membersWaiting {s : State} {m : GroupMember} :
    m ∈ s.membersWaiting ↔ s.atRest = false ∧ s.memberWaits m = true := by
  cases hr : s.atRest <;> cases m <;> simp [State.membersWaiting, hr]

/-- A member's turn is one that it waits for. -/
theorem State.memberWaits_of_turn {s : State} {m : GroupMember} (h : s.memberTurn m = true) :
    s.atRest = false ∧ s.memberWaits m = true := by
  simp only [State.memberTurn, Bool.and_eq_true, beq_iff_eq] at h
  exact State.mem_membersWaiting.mp (Arbiter.nextMember_mem h.2)

/-- Two members have no turn at once. -/
theorem State.memberTurn_unique {s : State} {m n : GroupMember} (hm : s.memberTurn m = true)
    (hn : s.memberTurn n = true) : m = n := by
  simp only [State.memberTurn, Bool.and_eq_true, beq_iff_eq] at hm hn
  exact Option.some.inj (hm.2.symm.trans hn.2)

/-- The Accumulation Engine's turn is one that it waits for. -/
theorem State.placementWaits_of_turn {s : State} (h : s.turn .accumulationEngine = true) : s.placementWaits = true := by
  simp only [State.turn, beq_iff_eq] at h
  have h := Arbiter.nextRequester_mem h
  cases hp : s.placementWaits <;> simp_all [State.requestersWaiting, State.enginesWaiting]

/-- A request asks for its operation in its turn when the Closing Group, or nobody, was granted last. -/
theorem State.requestTurn_of_group {s : State} (h : s.arbiter.last = none ∨ s.arbiter.last = some .closingGroup) :
    s.requestTurn = true := by
  rcases h with h | h <;> simp [State.requestTurn, Arbiter.nextRequester, requesterOrder, h]

/-! ### Lanes -/

variable (n : Lane)

/-- A grant of k credits raises credits outstanding by k. -/
@[simp] theorem Lane.grant_outstanding (k : Nat) : (n.grant k).outstanding = n.outstanding + k := by
  simp only [Lane.grant]; split <;> simp_all

@[simp] theorem Lane.grant_toSend (k : Nat) : (n.grant k).toSend = n.toSend + k := by
  simp only [Lane.grant]; split <;> simp_all

@[simp] theorem Lane.grant_queued (k : Nat) : (n.grant k).queued = n.queued := by
  simp only [Lane.grant]; split <;> rfl

@[simp] theorem Lane.grant_allotment (k : Nat) : (n.grant k).allotment = n.allotment := by
  simp only [Lane.grant]; split <;> rfl

@[simp] theorem Lane.grant_state (k : Nat) : (n.grant k).state = n.state := by
  simp only [Lane.grant]; split <;> rfl

@[simp] theorem Lane.returnCredit_queued (m : Mode) : (n.returnCredit m).queued = n.queued := by
  simp only [Lane.returnCredit]; split <;> simp

@[simp] theorem Lane.returnCredit_allotment (m : Mode) : (n.returnCredit m).allotment = n.allotment := by
  simp only [Lane.returnCredit]; split <;> simp

/-- A returned credit is granted back at most up to the allotment (R75, R76). -/
theorem Lane.returnCredit_bound (m : Mode) (bound : Nat) (h : n.outstanding + n.queued ≤ bound)
    (ha : n.allotment ≤ bound) : (n.returnCredit m).outstanding + (n.returnCredit m).queued ≤ bound := by
  simp only [Lane.returnCredit]
  split
  · next hc => simp only [Lane.grant_outstanding, Lane.grant_queued]; omega
  · exact h

@[simp] theorem Lane.discardFrame_queued (m : Mode) : (n.discardFrame m).queued = n.queued := by
  simp only [Lane.discardFrame]; split <;> simp

@[simp] theorem Lane.discardFrame_allotment (m : Mode) : (n.discardFrame m).allotment = n.allotment := by
  simp only [Lane.discardFrame]; split <;> simp

/-- Counting an error keeps the queued entries and never raises the credits outstanding. -/
theorem Lane.countError_queued : n.countError.1.queued = n.queued := by
  simp only [Lane.countError]; split <;> rfl

theorem Lane.countError_allotment : n.countError.1.allotment = n.allotment := by
  simp only [Lane.countError]; split <;> rfl

theorem Lane.countError_outstanding : n.countError.1.outstanding ≤ n.outstanding := by
  simp only [Lane.countError]; split
  · exact Nat.zero_le _
  · exact Nat.le_refl _

/-! ### Closures -/

/-- A closure finds nothing to do on an account without a pending slot. -/
theorem closeSlot_none {kind : ClosureKind} {c : Calendar} {i : Slot} {l : Ledger}
    (h : ((l.checkAccount i).account i).pendingSlot = none) : closeSlot kind c i l = l.checkAccount i := by
  simp [closeSlot, h]

/-- A FAULTED account holds no pending slot (R120). -/
theorem Account.pendingSlot_of_mark {a : Account} (h : a.faultMark = true) : a.pendingSlot = none := by
  simp [Account.pendingSlot, h]

/-- The silence of one member writes no account. -/
@[simp] theorem countSilence_accounts (limit : Nat) (m : ExpectedMember) (l : Ledger) :
    (countSilence limit m l).accounts = l.accounts := by
  simp only [countSilence]
  split
  · simp
  · split <;> simp

@[simp] theorem countSilence_tariffs (limit : Nat) (m : ExpectedMember) (l : Ledger) :
    (countSilence limit m l).tariffs = l.tariffs := by
  simp only [countSilence]
  split
  · simp
  · split <;> simp

@[simp] theorem countSilence_pool (limit : Nat) (m : ExpectedMember) (l : Ledger) :
    (countSilence limit m l).pool = l.pool := by
  simp only [countSilence]
  split
  · simp
  · split <;> simp

@[simp] theorem countSilence_closeWork (limit : Nat) (m : ExpectedMember) (l : Ledger) :
    (countSilence limit m l).closeWork = l.closeWork := by
  simp only [countSilence]
  split
  · simp
  · split <;> simp

/-- An evaluation changes the running period alone. -/
theorem evaluateWindow_keeps (t : Tariff) (p : Schedule) (s : Nat) (b : Seconds) (a : Account) :
    (evaluateWindow t p s b a).1 = { a with period := (evaluateWindow t p s b a).1.period } := by
  simp only [evaluateWindow]
  split <;> rfl

/-! ### Calendar -/

/-- When no event is owed, taking the owed events changes nothing. -/
theorem State.takeOwed_of_none {s : State} (grace : s.graceDue = false) (minute : s.minuteDue = false)
    (boundary : s.boundaryDue = false) : s.takeOwed = s := by
  simp [State.takeOwed, State.takeGrace, State.takeMinute, State.takeBoundary, grace, minute, boundary]

/-- A boundary event advances the tag by one and records its time (R52). -/
theorem State.produceBoundary_calendar (t : Seconds) (s : State) :
    (s.produceBoundary t).calendar = s.produceGrace.calendar.atBoundary t := rfl

@[simp] theorem State.produceGrace_lanes (s : State) : s.produceGrace.lanes = s.lanes := by
  simp only [State.produceGrace]; split <;> rfl

@[simp] theorem State.produceGrace_ledger (s : State) : s.produceGrace.ledger = s.ledger := by
  simp only [State.produceGrace]; split <;> rfl

@[simp] theorem State.produceGrace_arrivals (s : State) : s.produceGrace.arrivals = s.arrivals := by
  simp only [State.produceGrace]; split <;> rfl

@[simp] theorem State.produceGrace_pending (s : State) : s.produceGrace.pending = s.pending := by
  simp only [State.produceGrace]; split <;> rfl

/-- The second of the calendar is the next one after the passage of a second, while SET and below the last (R46, R47). -/
theorem Calendar.tick_advances {c : Calendar} (awake : Bool) (set : c.isSet = true) (below : c.time < Config.lastSecond) :
    c.tick awake = { c with time := c.time + 1, reachedByPassage := awake } := by
  simp [Calendar.tick, set, below]

/-- No minute event is due at a second that was not reached by passage (R50). -/
theorem State.minuteDue_of_not_reached {s : State} (h : s.calendar.reachedByPassage = false) : s.minuteDue = false := by
  simp [State.minuteDue, h]

/-! ### Placement -/

/-- The effective owner by cases, and that it is the present owner exactly when it is equal to it (R100). -/
theorem Intake.effectiveOwner_eq (c : Calendar) (tag : Tag) (x : Intake) :
    x.effectiveOwner c tag =
      (let o :=
        match x.change with
        | none => x.owner
        | some change => if c.age tag ≤ c.age change.tag then change.target else x.owner
      (o, decide (o = x.owner))) := by
  simp only [Intake.effectiveOwner]
  cases x.change with
  | none => simp
  | some change => by_cases h : c.age tag ≤ c.age change.tag <;> simp [h]

/-- An entry that no condition of R99 refuses has its energy placed. -/
theorem placeEntry_of_accepted {c : Calendar} {mode : Mode} {e : QueueEntry} {l : Ledger} {i : IntakeNo}
    (names : intakeOf e.intake.toNat = some i) (sound : (l.intake i).checks = true)
    (accepted : refusesEntry c e (l.intake i) = false) : placeEntry c mode e l = placeEnergy c mode e i l := by
  simp [placeEntry, names, Ledger.checkIntake_of_sound (.inr sound), accepted]

/-! ### Boundary work -/

/-- The fold taken is that of an intake that is not FAULTED and holds a pending change which is due (R95, R112). -/
theorem Ledger.dueFold_some {c : Calendar} {tag : Tag} {l : Ledger} {i : IntakeNo} (h : l.dueFold c tag = some i) :
    (l.intake i).faultMark = false ∧ ∃ p, (l.intake i).change = some p ∧ c.age tag ≤ c.age p.tag := by
  have h' := List.find?_some h
  simp only [Bool.and_eq_true, Bool.not_eq_true', Option.any_eq_true, PendingChange.dueAt, decide_eq_true_eq] at h'
  exact h'

/-- An item that needs an operation stays at the head of the list. -/
theorem openWork_cons {c : Calendar} {l : Ledger} {w : WorkItem} {rest : List WorkItem} (h : workDone c l w = false) :
    openWork c l (w :: rest) = w :: rest := by
  simp [openWork, h]

/-! ### The square root -/

theorem isqrtBits_spec (v : Nat) : ∀ (k r : Nat), r * r ≤ v → v < (r + 2 ^ k) * (r + 2 ^ k) →
    isqrtBits v k r * isqrtBits v k r ≤ v ∧ v < (isqrtBits v k r + 1) * (isqrtBits v k r + 1) := by
  intro k
  induction k with
  | zero => intro r h1 h2; exact ⟨h1, by simpa [isqrtBits] using h2⟩
  | succ k ih =>
    intro r h1 h2
    simp only [isqrtBits]
    split
    · next h =>
      refine ih _ h ?_
      have e : r + 2 ^ k + 2 ^ k = r + 2 ^ (k + 1) := by rw [Nat.pow_succ]; omega
      rw [e]; exact h2
    · next h => exact ih _ h1 (by omega)

end Sys2Proof.Machine
end

