-- ==== Sys2Proof/Laws/Requests.lean ====
section
/-! SUPPORT. What carrying out a request does (R162, R195 to R197), and what the addressing checks answer (R11, R90). -/

namespace Sys2Proof.Machine

open Sys2Proof

variable {k : RequestCode} {own : List Byte → State → State × Answer} {s : State}

/-- At rest, or with no request in execution, a request command does nothing. -/
theorem runRequest_idle (h : s.atRest = true ∨ s.port.busy = false) : runRequest k own s = s := by
  have h' : (s.atRest || !s.port.busy) = true := by simpa using h
  simp only [runRequest, if_pos h']

/-- A record that names no request is answered with BAD_REQUEST. -/
theorem runRequest_unnamed (hr : s.atRest = false) (hb : s.port.busy = true) (hn : requestNamed s.port.record = none) :
    runRequest k own s = s.respond (refuse .badRequest) := by
  simp [runRequest, hr, hb, hn]

/-- A record that names another request is not this command's. -/
theorem runRequest_other {j : RequestCode} (hr : s.atRest = false) (hb : s.port.busy = true)
    (hn : requestNamed s.port.record = some j) (hj : j ≠ k) : runRequest k own s = s := by
  simp [runRequest, hr, hb, hn, hj]

/-- A request with the wrong length is answered with BAD_REQUEST. -/
theorem runRequest_badLength (hr : s.atRest = false) (hb : s.port.busy = true)
    (hn : requestNamed s.port.record = some k) (hp : parametersOf k s.port.record = none) :
    runRequest k own s = s.respond (refuse .badRequest) := by
  simp [runRequest, hr, hb, hn, hp]

/-- A request that the mode does not admit is answered with the code of the mode check. -/
theorem runRequest_wrongMode {p : List Byte} {code : RespCode} (hr : s.atRest = false) (hb : s.port.busy = true)
    (hn : requestNamed s.port.record = some k) (hp : parametersOf k s.port.record = some p)
    (hm : k.modeRefusal s.mode = some code) : runRequest k own s = s.respond (refuse code) := by
  simp [runRequest, hr, hb, hn, hp, hm]

/-- A request that passes the port's checks does its own work and is answered. -/
theorem runRequest_runs {p : List Byte} (hr : s.atRest = false) (hb : s.port.busy = true)
    (hn : requestNamed s.port.record = some k) (hp : parametersOf k s.port.record = some p)
    (hm : k.modeRefusal s.mode = none) : runRequest k own s = (own p s).1.respond (own p s).2 := by
  simp [runRequest, hr, hb, hn, hp, hm]

/-- Everything carrying out a request can do: nothing, an answer alone, or its own work and its answer. -/
theorem runRequest_cases (k : RequestCode) (own : List Byte → State → State × Answer) (s : State) :
    runRequest k own s = s ∨ (∃ a, runRequest k own s = s.respond a) ∨
      ∃ p, runRequest k own s = (own p s).1.respond (own p s).2 := by
  simp only [runRequest]
  split
  · exact .inl rfl
  · split
    · exact .inr (.inl ⟨_, rfl⟩)
    · split
      · split
        · exact .inr (.inl ⟨_, rfl⟩)
        · split
          · exact .inr (.inl ⟨_, rfl⟩)
          · exact .inr (.inr ⟨_, rfl⟩)
      · exact .inl rfl

/-- What an answer keeps and the request's own work keeps, carrying out the request keeps. -/
theorem runRequest_keeps (P : State → Prop) (start : P s) (answer : ∀ a t, P t → P (t.respond a))
    (work : ∀ p, P s → P (own p s).1) : P (runRequest k own s) := by
  rcases runRequest_cases k own s with h | ⟨a, h⟩ | ⟨p, h⟩ <;> rw [h]
  · exact start
  · exact answer a s start
  · exact answer _ _ (work p start)

/-! ### Requests that ask for an operation (R162) -/

variable {asks : List Byte → State → Bool} {p : List Byte}

/-- A request that asks for an operation waits while it is not its turn. -/
theorem runOperation_waits (hp : s.admitted k = some p) (ha : asks p s = true) (ht : s.requestTurn = false) :
    runOperation k asks own s = s := by
  simp [runOperation, hp, ha, ht]

/-- A request that asks for an operation is carried out in its turn, as the arbiter grants it. -/
theorem runOperation_granted (hp : s.admitted k = some p) (ha : asks p s = true) (ht : s.requestTurn = true) :
    runOperation k asks own s = runRequest k own s.requestGrant := by
  simp [runOperation, hp, ha, ht]

/-- A request that asks for none is carried out whoever waits. -/
theorem runOperation_unasked (h : ∀ p, s.admitted k = some p → asks p s = false) :
    runOperation k asks own s = runRequest k own s := by
  have h' : (s.admitted k).any (fun p => asks p s) = false := by
    cases hp : s.admitted k with
    | none => rfl
    | some p => simpa using h p hp
  simp [runOperation, h']

/-- Everything carrying out a request that may ask for an operation can do: nothing, or the request, with a grant or
without one. -/
theorem runOperation_cases (k : RequestCode) (asks : List Byte → State → Bool)
    (own : List Byte → State → State × Answer) (s : State) :
    runOperation k asks own s = s ∨ runOperation k asks own s = runRequest k own s ∨
      runOperation k asks own s = runRequest k own s.requestGrant := by
  simp only [runOperation]
  split
  · split
    · exact .inr (.inr rfl)
    · exact .inl rfl
  · exact .inr (.inl rfl)

/-- What a grant, an answer and the request's own work keep, carrying out the request keeps. -/
theorem runOperation_keeps (P : State → Prop) (start : P s) (grant : P s → P s.requestGrant)
    (answer : ∀ a t, P t → P (t.respond a)) (work : ∀ p t, P t → P (own p t).1) : P (runOperation k asks own s) := by
  rcases runOperation_cases k asks own s with h | h | h <;> rw [h]
  · exact start
  · exact runRequest_keeps P start answer fun p => work p s
  · exact runRequest_keeps P (grant start) answer fun p => work p _

/-- The same for a request whose work is one operation on the ledger. -/
theorem runRecordRequest_keeps {own : List Byte → Calendar → Mode → Ledger → Ledger × Answer} (P : State → Prop)
    (start : P s) (grant : P s → P s.requestGrant) (answer : ∀ a t, P t → P (t.respond a))
    (work : ∀ p t, P t → P (t.withLedger (own p t.calendar t.mode t.ledger).1)) : P (runRecordRequest k own s) :=
  runOperation_keeps P start grant answer work

/-! ### Issued requests -/

@[simp] theorem RequestCode.ofByte_value (k : RequestCode) : RequestCode.ofByte k.value = some k := by
  cases k <;> rfl

theorem State.Issues.named (h : s.Issues k p) : requestNamed s.port.record = some k := by
  obtain ⟨-, -, -, -, ⟨rest, hr⟩, -⟩ := h
  simp [requestNamed, hr]

theorem State.Issues.parameters (h : s.Issues k p) : parametersOf k s.port.record = some p := by
  obtain ⟨-, -, hl, hf, ⟨rest, hr⟩, -⟩ := h
  have hb : (byte p.length).toNat = p.length := by
    simp only [byte, BitVec.toNat_ofNat]; omega
  simp [parametersOf, hr, hb, hf]
  omega

/-- An issued request has passed the port's checks. -/
theorem State.Issues.admitted (h : s.Issues k p) : s.admitted k = some p := by
  simp [State.admitted, h.1, h.2.1, h.named, h.parameters, h.2.2.2.2.2]

/-- A request that asks for no operation does its own work and is answered. -/
theorem runOperation_unasked_runs (h : s.Issues k p) (ha : asks p s = false) :
    runOperation k asks own s = (own p s).1.respond (own p s).2 := by
  rw [runOperation_unasked fun q hq => by rw [h.admitted] at hq; exact Option.some.inj hq ▸ ha]
  exact runRequest_runs h.1 h.2.1 h.named h.parameters h.2.2.2.2.2

/-- A request that is granted its operation does its own work and is answered. -/
theorem runOperation_granted_runs (h : s.Granted k p) (ha : asks p s = true) :
    runOperation k asks own s = (own p s.requestGrant).1.respond (own p s.requestGrant).2 := by
  rw [runOperation_granted h.1.admitted ha h.2]
  exact runRequest_runs h.1.1 h.1.2.1 h.1.named h.1.parameters h.1.2.2.2.2.2

variable {work : List Byte → Calendar → Mode → Ledger → Ledger × Answer}

/-- A request on the ledger that is granted its operation leaves what its own work leaves. -/
theorem runRecordRequest_answered (h : s.Granted k p)
    (ha : (work p s.calendar s.mode s.ledger).2.code.onParameters = false) :
    runRecordRequest k work s =
      s.answered (work p s.calendar s.mode s.ledger).1 (work p s.calendar s.mode s.ledger).2 :=
  runOperation_granted_runs h (by simp [recordAsks, ha])

/-- One that its parameters alone refuse is answered whoever waits. -/
theorem runRecordRequest_refused (h : s.Issues k p)
    (ha : (work p s.calendar s.mode s.ledger).2.code.onParameters = true) :
    runRecordRequest k work s =
      (s.withLedger (work p s.calendar s.mode s.ledger).1).respond (work p s.calendar s.mode s.ledger).2 :=
  runOperation_unasked_runs h (by simp [recordAsks, ha])

/-! ### The addressing checks (R11, R90) -/

/-- What the verification of an account and the request's own work keep of the ledger, the addressed request keeps. -/
theorem addressAccount_keeps {n : Nat} {r : Bool} {l : Ledger} {own : Slot → Account → Ledger → Ledger × Answer}
    (P : Ledger → Prop) (start : P l) (check : ∀ i m, P m → P (m.checkAccount i))
    (work : ∀ i m, P m → (m.account i).faultMark = false → P (own i (m.account i) m).1) :
    P (addressAccount n r l own).1 := by
  simp only [addressAccount]
  split
  · exact start
  · split
    · exact start
    · split
      · exact start
      · split
        · exact check _ _ start
        · next h => exact work _ _ (check _ _ start) (by simpa using h)

/-- The addressing checks pass on a sound account that is not FREE. -/
theorem addressAccount_sound {n : Nat} {i : Slot} {l : Ledger} {own : Slot → Account → Ledger → Ledger × Answer}
    (hi : slotOf n = some i) (hf : (l.account i).state ≠ .free) (hm : (l.account i).faultMark = false)
    (hc : (l.account i).checks = true) : addressAccount n true l own = own i (l.account i) l := by
  simp [addressAccount, hi, hf, Ledger.checkAccount_of_sound (.inr hc), hm]

/-- What the verification of an intake and the request's own work keep of the ledger, the addressed request keeps. -/
theorem addressIntake_keeps {n : Nat} {r u : Bool} {l : Ledger} {own : IntakeNo → Intake → Ledger → Ledger × Answer}
    (P : Ledger → Prop) (start : P l) (check : ∀ i m, P m → P (m.checkIntake i))
    (work : ∀ i m, P m → (m.intake i).faultMark = false → P (own i (m.intake i) m).1) :
    P (addressIntake n r u l own).1 := by
  simp only [addressIntake]
  split
  · exact start
  · split
    · exact start
    · split
      · exact start
      · split
        · exact check _ _ start
        · next h => exact work _ _ (check _ _ start) (by simpa using h)

/-- The addressing checks pass on a sound intake that is defined, or that the request admits UNDEFINED. -/
theorem addressIntake_sound {n : Nat} {u : Bool} {i : IntakeNo} {l : Ledger}
    {own : IntakeNo → Intake → Ledger → Ledger × Answer} (hi : intakeOf n = some i)
    (hu : (l.intake i).state ≠ .undefined ∨ u = true) (hm : (l.intake i).faultMark = false)
    (hc : (l.intake i).checks = true) : addressIntake n true u l own = own i (l.intake i) l := by
  have h : ¬((l.intake i).state = .undefined && !u) = true := by
    rcases hu with h | h <;> simp [h]
  simp [addressIntake, hi, Ledger.checkIntake_of_sound (.inr hc), hm]
  rcases hu with h | h <;> simp [h]

end Sys2Proof.Machine
end

