-- ==== Sys2Proof/Tests/Slice0.lean ====
section
/-! SUPPORT. The model's own tests: the well-formedness smoke, single steps with the figures of the worked sequences, and
one witness for the hypotheses of each obligation. -/

namespace Sys2Proof.Tests

open Sys2Proof Sys2Proof.Machine

-- One thread for each theorem that evaluates in the kernel would ask for more memory than the check grants.
set_option Elab.async false

/-! ### Well-formedness: each check refuses an ill-formed command -/

theorem test_wellFormed_refuses_namingTransaction : (Instr.unknownTransaction (some 0x02) 3).wellFormed = false := by
  decide

theorem test_wellFormed_refuses_bytesAfterCutTransaction : (Instr.unknownTransaction none 1).wellFormed = false := by
  decide

theorem test_wellFormed_refuses_flagInsideFrame : (Instr.malformedFrame 0 [0x01, 0x7E]).wellFormed = false := by
  decide

theorem test_wellFormed_refuses_goodFrameAsMalformed :
    (Instr.malformedFrame 0 (escape (LinkFrame.hello 0x1234 7).decoded)).wellFormed = false := by
  decide +kernel

theorem test_wellFormed_admits :
    (Instr.unknownTransaction (some 0x7F) 3).wellFormed = true ∧ (Instr.unknownTransaction none 0).wellFormed = true ∧
      (Instr.malformedFrame 2 [0x01, 0x02]).wellFormed = true := by
  decide +kernel

/-! ### Numbers of the manual -/

/-- The check value of R206. -/
theorem test_crc_check : crc [0x31, 0x32, 0x33, 0x34, 0x35, 0x36, 0x37, 0x38, 0x39] = 0x29B1 := by
  decide +kernel

/-- The roots of sequences 12.2 and 12.5. -/
theorem test_isqrt_worked : isqrt 19050490000 = 138023 ∧ isqrt 132200000000000000 = 363593179 := by
  decide +kernel

/-- The average power factor and the excess of sequence 12.5. -/
theorem test_powerFactor_worked :
    powerFactor 310000000 190000000 = some 852 ∧ excessReactive 484 310000000 190000000 = 39960000 := by
  decide +kernel

/-- 2099-12-31 23:59:59 is the last second (R204). -/
theorem test_lastSecond :
    DateTime.toSeconds { year := 2099, month := 12, day := 31, hour := 23, minute := 59, second := 59 } = 3155759999 := by
  decide +kernel

/-- A frame with a byte 7D hex in it is escaped and read back (R205). -/
theorem test_hello_wire :
    receive (escape (LinkFrame.hello 0x7D01 0x7E).decoded) = .hello 0x7D01 0x7E ∧
      (escape (LinkFrame.hello 0x7D01 0x7E).decoded).take 6 = [0x01, 0x01, 0x7D, 0x5D, 0x7D, 0x5E] := by
  decide +kernel

/-! ### Small states -/

/-- The port with a request record in execution. -/
def holding (record : List Byte) (s : State) : State :=
  { s with
    port := { s.port with requestBuffer := padTo 128 0 record, fillCount := record.length, busy := true } }

/-- Request `k` with its parameters in execution. -/
def asking (k : RequestCode) (params : List Byte) (s : State) : State :=
  holding ([k.value, byte params.length] ++ params) s

/-- The state after reset in a mode, with a ledger. -/
def site (mode : Mode) (l : Ledger) : State := { State.reset with mode := mode, ledger := l }

/-- A request asked is issued, and granted its operation where no requester was granted last. -/
theorem asking_granted {k : RequestCode} {params : List Byte} {s : State} (hr : s.atRest = false)
    (hl : params.length ≤ 126) (hf : k.lengthFits params = true) (hm : k.modeRefusal s.mode = none)
    (ha : s.arbiter.last = none := by rfl) : (asking k params s).Granted k params := by
  refine ⟨⟨hr, rfl, hl, hf, ⟨[], ?_⟩, hm⟩, State.requestTurn_of_group (.inl ha)⟩
  have h : ([k.value, byte params.length] ++ params).length ≤ 128 := by simp; omega
  simp only [asking, holding, Port.record, padTo, List.append_nil]
  rw [List.take_of_length_le h, List.take_left]

/-- A point at minute 0 of band A. -/
def firstPoint : SwitchPoint := { minute := 0, band := 0, notify := true }

/-- A KW tariff, ROLLING with N = 1, with one point in each list, at pool entries 0 and 1. -/
def demoTariff : Tariff :=
  let t := { Tariff.coldContent with id := 9, workHead := some 0, workCount := 1, restHead := some 1, restCount := 1 }
  { t with checkWord := crc (t.image [firstPoint] [firstPoint]) }

/-- The cold ledger with tariff 3 written. -/
def tariffed : Ledger :=
  { Ledger.cold with
    tariffs := Ledger.cold.tariffs.set 3 demoTariff
    pool :=
      (Ledger.cold.pool.set 0 { point := firstPoint, next := none, owner := some { tariff := 3, list := .working } }).set 1
        { point := firstPoint, next := none, owner := some { tariff := 3, list := .rest } } }

theorem tariffed_ready : tariffed.ReadyTariff 3 := by
  refine ⟨?_, ?_⟩ <;> decide +kernel

/-- An account under tariff 3, in a state. -/
def accountIn (phase : AccountPhase) : Account :=
  { Account.coldContent with
    number := 1047, phase := phase, tariff := 3, contractDemand := 700000, minPercent := 50,
    period := { Period.cold with start := some 0 } }

/-- An intake on lane 0, in a state. -/
def intakeIn (phase : IntakePhase) : Intake :=
  { phase := phase, lane := 0, scale := 100, owner := none, ownerSince := none, change := none, lastReported := none,
    silentCount := 0, silent := false, held := .zero, checkWord := 0, faultMark := false }

/-- Tariff 3, and slot 5 with an account. -/
def withAccount (a : Account) : Ledger := tariffed.putAccount 5 a

/-- Tariff 3, slot 5 with an account, and intake 7. -/
def withBoth (a : Account) (x : Intake) : Ledger := (withAccount a).putIntake 7 x

theorem ready_putAccount {l : Ledger} {t : TariffNo} {i : Slot} {a : Account} (h : l.ReadyTariff t) :
    (l.putAccount i a).ReadyTariff t := h

theorem ready_putIntake {l : Ledger} {t : TariffNo} {i : IntakeNo} {x : Intake} (h : l.ReadyTariff t) :
    (l.putIntake i x).ReadyTariff t := h

theorem withAccount_ready (a : Account) : (withAccount a).ReadyTariff 3 := ready_putAccount tariffed_ready

theorem withBoth_ready (a : Account) (x : Intake) : (withBoth a x).ReadyTariff 3 :=
  ready_putIntake (withAccount_ready a)

theorem sound_put {l : Ledger} {i : Slot} {a : Account} (h : a.faultMark = false) :
    (l.putAccount i a).SoundAccount i := by
  refine ⟨?_, ?_⟩ <;> simp [Account.seal, h]
  exact Account.checks_seal a

theorem sound_putIntake {l : Ledger} {i : IntakeNo} {x : Intake} (h : x.faultMark = false)
    (hp : x.phase ≠ .undefined) : (l.putIntake i x).SoundIntake i := by
  refine ⟨?_, ?_⟩ <;> simp [Intake.seal, h, Intake.checks, hp]
  rfl

theorem soundAccount_putIntake {l : Ledger} {i : Slot} {j : IntakeNo} {x : Intake} (h : l.SoundAccount i) :
    (l.putIntake j x).SoundAccount i := h

/-- The accounts of the cold ledger verify. -/
theorem cold_accountsSettled : Ledger.cold.AccountsSettled := by
  intro i
  right
  rw [show Ledger.cold.account i = Account.free by simp [Ledger.cold, Ledger.account]]
  exact Account.checks_free

/-- The intakes of the cold ledger verify. -/
theorem cold_intakesSettled : Ledger.cold.IntakesSettled := by
  intro i
  right
  rw [show Ledger.cold.intake i = Intake.undefined by simp [Ledger.cold, Ledger.intake]]
  decide +kernel

theorem accountsSettled_put {l : Ledger} {i : Slot} {a : Account} (h : l.AccountsSettled) :
    (l.putAccount i a).AccountsSettled := by
  intro j
  by_cases hij : i = j
  · subst hij; right; simp [Account.checks_seal]
  · rw [Ledger.account_putAccount_ne _ _ hij]; exact h j

theorem intakesSettled_put {l : Ledger} {i : IntakeNo} {x : Intake} (hp : x.phase ≠ .undefined)
    (h : l.IntakesSettled) : (l.putIntake i x).IntakesSettled := by
  intro j
  by_cases hij : i = j
  · subst hij; right; rw [Ledger.intake_putIntake_self]; simp [Intake.checks, Intake.seal, hp]; rfl
  · rw [Ledger.intake_putIntake_ne _ _ hij]; exact h j

theorem tariffed_account (i : Slot) : tariffed.account i = Account.free := by
  simp [tariffed, Ledger.cold, Ledger.account]

theorem withAccount_self (a : Account) : (withAccount a).account 5 = a.seal := Ledger.account_putAccount_self _ _ _

theorem withAccount_other (a : Account) {j : Slot} (h : 5 ≠ j) : (withAccount a).account j = Account.free := by
  rw [withAccount, Ledger.account_putAccount_ne _ _ h, tariffed_account]

theorem withAccount_sound {a : Account} (h : a.faultMark = false) : (withAccount a).SoundAccount 5 := sound_put h

theorem withBoth_account (a : Account) (x : Intake) : (withBoth a x).account 5 = a.seal := withAccount_self a

theorem withBoth_intake (a : Account) (x : Intake) : (withBoth a x).intake 7 = x.seal :=
  Ledger.intake_putIntake_self _ _ _

theorem withBoth_sound {a : Account} {x : Intake} (h : a.faultMark = false) : (withBoth a x).SoundAccount 5 :=
  soundAccount_putIntake (withAccount_sound h)

theorem withBoth_soundIntake {a : Account} {x : Intake} (h : x.faultMark = false) (hp : x.phase ≠ .undefined) :
    (withBoth a x).SoundIntake 7 := sound_putIntake h hp

theorem withBoth_intakesSettled {a : Account} {x : Intake} (hp : x.phase ≠ .undefined) :
    (withBoth a x).IntakesSettled := intakesSettled_put hp (fun i => cold_intakesSettled i)

theorem withBoth_accountsSettled {a : Account} {x : Intake} : (withBoth a x).AccountsSettled :=
  fun i => accountsSettled_put (fun j => cold_accountsSettled j) i

/-- A slot whose account is marked FAULTED. -/
def withMarked : Ledger := tariffed.storeAccount 5 { accountIn .active with faultMark := true }

/-- A slot whose account fails its check word. -/
def withFailing : Ledger := tariffed.storeAccount 5 { accountIn .active with checkWord := 1 }

theorem withMarked_self : withMarked.account 5 = { accountIn .active with faultMark := true } :=
  Ledger.account_storeAccount_self _ _ _

theorem withFailing_self : withFailing.account 5 = { accountIn .active with checkWord := 1 } :=
  Ledger.account_storeAccount_self _ _ _

theorem failing_fails : ({ accountIn .active with checkWord := 1 } : Account).checks = false := by
  decide +kernel

theorem free_state : Account.free.state = .free := rfl

/-- Tariff 3 replaced, with its points kept. -/
def tariffedAs (t : Tariff) : Ledger := tariffed.storeTariff 3 t

/-- Tariff 3 marked FAULTED, and tariff 3 failing its check word. -/
def markedTariff : Ledger := tariffedAs { demoTariff with faultMark := true }

def failingTariff : Ledger := tariffedAs { demoTariff with checkWord := demoTariff.checkWord + 1 }

/-- Tariff 3 as a BLOCK tariff with N = 4. -/
def blockTariff : Ledger :=
  let t := { demoTariff with evaluation := .block, n := 4 }
  tariffedAs { t with checkWord := crc (t.image [firstPoint] [firstPoint]) }

theorem blockTariff_ready : blockTariff.ReadyTariff 3 := by
  refine ⟨?_, ?_⟩ <;> decide +kernel

/-- A slot 5 written over a ledger. -/
theorem put_self (l : Ledger) (a : Account) : (l.putAccount 5 a).account 5 = a.seal := Ledger.account_putAccount_self _ _ _

/-- A slot 5 and an intake 7 stored over a ledger as they are given. -/
theorem stored_self (l : Ledger) (a : Account) : (l.storeAccount 5 a).account 5 = a := Ledger.account_storeAccount_self _ _ _

theorem storedIntake_self (l : Ledger) (x : Intake) : (l.storeIntake 7 x).intake 7 = x :=
  Ledger.intake_storeIntake_self _ _ _

/-- An intake 7 that fails its check word. -/
def failingIntake : Intake := { intakeIn .free with checkWord := 1 }

theorem failingIntake_fails : failingIntake.checks = false := by decide +kernel

theorem withFailing_fails : withFailing.FailingAccount 5 := by
  unfold Ledger.FailingAccount
  rw [withFailing_self]
  exact ⟨rfl, fun h => (nomatch h), failing_fails⟩

/-- Slot 5 holds a failing account over a ledger, and intake 7 a failing intake. -/
def failingOver (l : Ledger) : Ledger := l.storeAccount 5 { accountIn .active with checkWord := 1 }

theorem failingOver_fails (l : Ledger) : (failingOver l).FailingAccount 5 := by
  unfold Ledger.FailingAccount failingOver
  rw [stored_self]
  exact ⟨rfl, fun h => (nomatch h), failing_fails⟩

theorem storedIntake_fails (l : Ledger) : (l.storeIntake 7 failingIntake).FailingIntake 7 := by
  unfold Ledger.FailingIntake
  rw [storedIntake_self]
  exact ⟨rfl, failingIntake_fails⟩

/-- The Interval Engine has the first turn after a start when it waits and no other requester does. -/
theorem interval_turn {s : State} (ha : s.arbiter = .fresh) (hq : s.requestWaits = false) (hp : s.arrivals = [])
    (hr : s.atRest = false) (hw : s.memberWaits .intervalEngine = true) : s.memberTurn .intervalEngine = true := by
  simp [State.memberTurn, State.turn, State.requestersWaiting, State.enginesWaiting, State.placementWaits, State.membersWaiting, ha, hq, hp, hr,
    hw, Arbiter.fresh, Arbiter.nextRequester, Arbiter.nextMember, requesterOrder, memberOrder]

/-- The Settlement Engine has it when the Interval Engine does not wait. -/
theorem settlement_turn {s : State} (ha : s.arbiter = .fresh) (hq : s.requestWaits = false)
    (hp : s.arrivals = []) (hr : s.atRest = false) (hi : s.memberWaits .intervalEngine = false)
    (hw : s.memberWaits .settlementEngine = true) : s.memberTurn .settlementEngine = true := by
  simp [State.memberTurn, State.turn, State.requestersWaiting, State.enginesWaiting, State.placementWaits, State.membersWaiting, ha, hq, hp, hr,
    hi, hw, Arbiter.fresh, Arbiter.nextRequester, Arbiter.nextMember, requesterOrder, memberOrder]

/-- The sweep has it when the other two do not wait. -/
theorem sweep_turn {s : State} (ha : s.arbiter = .fresh) (hq : s.requestWaits = false) (hp : s.arrivals = [])
    (hr : s.atRest = false) (hi : s.memberWaits .intervalEngine = false) (hs : s.memberWaits .settlementEngine = false)
    (hw : s.memberWaits .integritySweep = true) : s.memberTurn .integritySweep = true := by
  simp [State.memberTurn, State.turn, State.requestersWaiting, State.enginesWaiting, State.placementWaits, State.membersWaiting, ha, hq, hp, hr,
    hi, hs, hw, Arbiter.fresh, Arbiter.nextRequester, Arbiter.nextMember, requesterOrder, memberOrder]

/-- The Accumulation Engine has its turn after a start when it waits and no request does. -/
theorem placement_turn {s : State} (ha : s.arbiter = .fresh) (hq : s.requestWaits = false) (hp : s.placementWaits = true) :
    s.turn .accumulationEngine = true := by
  simp [State.turn, State.requestersWaiting, State.enginesWaiting, ha, hq, hp, Arbiter.fresh, Arbiter.nextRequester,
    requesterOrder]

theorem markedTariff_marked : (markedTariff.tariff 3).faultMark = true := by decide +kernel

theorem failingTariff_fails : failingTariff.FailingTariff 3 := ⟨by decide +kernel, by decide +kernel⟩

/-- A request asked in RUN. -/
def asked (k : RequestCode) (p : List Byte) (l : Ledger) : State := asking k p (site .run l)

theorem asked_granted {k : RequestCode} {p : List Byte} (l : Ledger) (hl : p.length ≤ 126) (hf : k.lengthFits p = true)
    (hm : k.modeRefusal .run = none) : (asked k p l).Granted k p := asking_granted rfl hl hf hm

/-! ### Witnesses: the queue, rest and the port -/

theorem witness_StepRunsFrontCommand : ∃ (s : State), s.pending = .vbakDip :: [] :=
  ⟨{ State.reset with pending := [.vbakDip] }, rfl⟩

theorem witness_RestIgnoresCommands :
    (∃ s : State, s.atRest = true) ∧
      (State.reset.port.busy = false ∧ State.reset.work = [] ∧ State.reset.arrivals = [] ∧
        State.reset.ledger.closeWork = [] ∧ State.reset.sweep.position = none ∧ State.reset.mode ≠ .restarting) ∧
      ∃ s : State, s.sweep.position ≠ none :=
  ⟨⟨{ State.reset with powered := false }, rfl⟩, by decide +kernel, ⟨{ State.reset with sweep := .begun }, by decide⟩⟩

/-- The hypotheses of WRITE_REQUEST, EXECUTE, READ_STATUS and READ_RESPONSE, with BUSY clear and set. -/
theorem witness_portTransactions :
    (State.reset.atRest = false ∧ State.reset.port.busy = false) ∧
      ((asking .readTime [] State.reset).atRest = false ∧ (asking .readTime [] State.reset).port.busy = true) ∧
      (namesTransaction 0x00 = false ∧ namesTransaction 0x05 = false ∧ namesTransaction 0xFF = false) ∧
      0x00#8 ∉ [0x01#8, 0x02#8, 0x03#8, 0x04#8] ∧ 0x05#8 ∉ [0x01#8, 0x02#8, 0x03#8, 0x04#8] := by
  decide +kernel

theorem witness_StatusByteAndResponseRecord :
    (Port.fresh 0).responseBuffer.length = 128 ∧ (okWith (List.replicate 126 0)).payload.length ≤ 126 := by
  decide +kernel

/-- Each check of the port fails on some record: too short, no code of the catalogue, a length beyond the record, a
length that does not fit, and each mode refusal. -/
theorem witness_PortChecksRefuseInOrder :
    (∃ s : State, s.atRest = false ∧ s.port.busy = true ∧ s.port.record.length < 2) ∧
      (∃ s : State, s.atRest = false ∧ s.port.busy = true ∧ 2 ≤ s.port.record.length ∧
        ∀ k : RequestCode, s.port.record.getD 0 0 ≠ k.value) ∧
      (∃ s : State, s.atRest = false ∧ s.port.busy = true ∧
        s.port.record.getD 0 0 = RequestCode.resumeAccount.value ∧
        s.port.record.length < 2 + (s.port.record.getD 1 0).toNat) ∧
      (∃ s : State, s.atRest = false ∧ s.port.busy = true ∧
        s.port.record.getD 0 0 = RequestCode.resumeAccount.value ∧
        RequestCode.resumeAccount.lengthFits ((s.port.record.drop 2).take (s.port.record.getD 1 0).toNat) = false) ∧
      ∀ m : Mode, ∃ s : State, s.atRest = false ∧ s.port.busy = true ∧ s.mode = m ∧
        s.port.record.getD 0 0 = RequestCode.resumeAccount.value ∧
        2 + (s.port.record.getD 1 0).toNat ≤ s.port.record.length ∧
        RequestCode.resumeAccount.lengthFits ((s.port.record.drop 2).take (s.port.record.getD 1 0).toNat) = true := by
  refine ⟨⟨holding [0x13] .reset, by decide⟩, ⟨holding [0xFF, 0] .reset, by decide, by decide, by decide, ?_⟩,
    ⟨holding [0x13, 2, 5] .reset, by decide⟩, ⟨holding [0x13, 0] .reset, by decide⟩,
    fun m => ⟨holding [0x13, 1, 5] (site m .cold), rfl, rfl, rfl, by cases m <;> decide⟩⟩
  intro k
  cases k <;> decide

theorem witness_PortChecksRefuseInOrder_startRun :
    ∃ s : State, s.atRest = false ∧ s.port.busy = true ∧ s.mode = .run ∧
      s.port.record.getD 0 0 = RequestCode.startRun.value ∧
      2 + (s.port.record.getD 1 0).toNat ≤ s.port.record.length ∧
      RequestCode.startRun.lengthFits ((s.port.record.drop 2).take (s.port.record.getD 1 0).toNat) = true :=
  ⟨holding [0x90, 0] (site .run .cold), by decide⟩

/-! ### Witnesses: accounts -/

/-- OPEN_ACCOUNT at the upper ends of its ranges. -/
def openParams : List Byte := [0x17, 4, 0, 0, 3, 0x60, 0xAE, 10, 0, 100, 28, 23]

theorem witness_OpenAccountFillsTheLowestFreeSlot :
    ∃ (s : State) (p : List Byte), s.Granted .openAccount p ∧ field 0 4 p ≠ 0 ∧ field 4 1 p = (3 : TariffNo).val ∧
      field 9 1 p ≤ 100 ∧ 1 ≤ field 10 1 p ∧ field 10 1 p ≤ 28 ∧ field 11 1 p ≤ 23 ∧ s.ledger.ReadyTariff 3 ∧
      (∀ j, (s.ledger.account j).state ≠ .free → (s.ledger.account j).number ≠ field 0 4 p) ∧
      (s.ledger.account 0).state = .free ∧ ∀ j, j < 0 → (s.ledger.account j).state ≠ .free := by
  refine ⟨asking .openAccount openParams (site .run tariffed), openParams,
    asking_granted rfl (by decide) (by decide) rfl, by decide, by decide, by decide, by decide, by decide, by decide,
    tariffed_ready, fun j h => absurd ?_ h, ?_, fun j h => absurd h (Fin.not_lt_zero j)⟩
  · exact (congrArg Account.state (tariffed_account j)).trans free_state
  · exact (congrArg Account.state (tariffed_account 0)).trans free_state

/-- A full part: every slot holds account 1047. -/
def full : Ledger := { tariffed with accounts := Vector.replicate 64 (accountIn .active) }

theorem full_account (i : Slot) : full.account i = accountIn .active := by simp [full, Ledger.account]

/-- The clauses of OPEN_ACCOUNT's checks: number 0; an EMPTY tariff; a number held; no FREE slot. -/
theorem witness_OpenAccountChecks :
    (∃ (s : State) (p : List Byte), s.Granted .openAccount p ∧ field 0 4 p = 0) ∧
      (∃ (s : State) (p : List Byte), s.Granted .openAccount p ∧ field 4 1 p = (15 : TariffNo).val ∧
        ¬s.ledger.ReadyTariff 15) ∧
      (∃ (s : State) (p : List Byte), s.Granted .openAccount p ∧ field 4 1 p = (3 : TariffNo).val ∧
        s.ledger.ReadyTariff 3 ∧ ∃ j, (s.ledger.account j).state ≠ .free ∧ (s.ledger.account j).number = field 0 4 p) ∧
      ∃ (s : State) (p : List Byte), s.Granted .openAccount p ∧ field 4 1 p = (3 : TariffNo).val ∧
        s.ledger.ReadyTariff 3 ∧ ∀ j, (s.ledger.account j).state ≠ .free ∧ (s.ledger.account j).number ≠ field 0 4 p := by
  refine ⟨⟨asking .openAccount [0, 0, 0, 0, 3, 0, 0, 0, 0, 0, 1, 0] (site .run tariffed), _,
      asking_granted rfl (by decide) (by decide) rfl, by decide⟩,
    ⟨asking .openAccount [1, 0, 0, 0, 15, 0, 0, 0, 0, 0, 1, 0] (site .run tariffed), _,
      asking_granted rfl (by decide) (by decide) rfl, by decide, fun h => ?_⟩,
    ⟨asking .openAccount openParams (site .run full), _, asking_granted rfl (by decide) (by decide) rfl, by decide,
      tariffed_ready, 0, ?_⟩,
    ⟨asking .openAccount [1, 0, 0, 0, 3, 0, 0, 0, 0, 0, 1, 0] (site .run full), _,
      asking_granted rfl (by decide) (by decide) rfl, by decide, tariffed_ready, fun j => ?_⟩⟩
  · exact absurd h.1 (by decide +kernel)
  · change (full.account 0).state ≠ _ ∧ (full.account 0).number = _
    rw [full_account]; decide
  · change (full.account j).state ≠ _ ∧ (full.account j).number ≠ _
    rw [full_account]; decide

/-- The verification of every account that is not FREE, with a failing account and with none. -/
theorem witness_OpenAccountChecks_verification :
    (∃ (l : Ledger) (j : Slot), l.FailingAccount j) ∧ ∃ l : Ledger, ∀ j, ¬l.FailingAccount j :=
  ⟨⟨withFailing, 5, withFailing_fails⟩, ⟨Ledger.cold, fun j h => (cold_accountsSettled j).elim
    (fun m => by rw [h.1] at m; exact absurd m (by decide)) (fun c => by rw [h.2.2] at c; exact absurd c (by decide))⟩⟩

/-- The requests that address an account by slot but AMEND_ACCOUNT, on slot `n`. -/
def slotRequests (n : Byte) : List (RequestCode × List Byte) :=
  [(.suspendAccount, [n]), (.resumeAccount, [n]), (.retireAccount, [n]), (.readDemand, [n]), (.closeNow, [n]),
    (.releaseSettlement, [n]), (.changeTariff, [n, 3])]

theorem slotRequests_granted (n : Byte) (l : Ledger) : ∀ r ∈ slotRequests n, (asked r.1 r.2 l).Granted r.1 r.2 := by
  intro r hr
  simp only [slotRequests, List.mem_cons, List.not_mem_nil, or_false] at hr
  rcases hr with rfl | rfl | rfl | rfl | rfl | rfl | rfl <;> exact asked_granted l (by simp) rfl rfl

/-- The addressing checks of each: slot 64, and a tariff index 16; a FREE, a marked and a failing account. -/
theorem witness_AmendAccountReplacesTheTerms_addressing :
    (∀ r ∈ slotRequests 64, ∃ s : State, s.Granted r.1 r.2 ∧ 63 < field 0 1 r.2) ∧
      (∃ s : State, s.Granted .changeTariff [5, 16] ∧ 15 < field 1 1 [5, 16]) ∧
      ∀ r ∈ slotRequests 5, field 0 1 r.2 = (5 : Slot).val ∧ (r.1 = .changeTariff → field 1 1 r.2 ≤ 15) ∧
        (∃ s : State, s.Granted r.1 r.2 ∧ (s.ledger.account 5).state = .free) ∧
        (∃ s : State, s.Granted r.1 r.2 ∧ (s.ledger.account 5).faultMark = true) ∧
        ∃ s : State, s.Granted r.1 r.2 ∧ s.ledger.FailingAccount 5 :=
  ⟨fun r hr => ⟨_, slotRequests_granted 64 tariffed r hr, by revert r; decide⟩,
    ⟨_, asked_granted tariffed (by decide) rfl rfl, by decide⟩,
    fun r hr => ⟨by revert r; decide, by revert r; decide,
      ⟨_, slotRequests_granted 5 tariffed r hr, (congrArg Account.state (tariffed_account 5)).trans free_state⟩,
      ⟨_, slotRequests_granted 5 withMarked r hr, congrArg Account.faultMark withMarked_self⟩,
      ⟨_, slotRequests_granted 5 withFailing r hr, withFailing_fails⟩⟩⟩

/-- AMEND_ACCOUNT of slot 5 at the upper ends of its ranges. -/
def amendParams : List Byte := [5, 1, 0, 0, 0, 100, 28, 23]

theorem amend_granted (m : Mode) (h : RequestCode.amendAccount.modeRefusal m = none) (l : Ledger) :
    (asking .amendAccount amendParams (site m l)).Granted .amendAccount amendParams :=
  asking_granted rfl (by decide) (by decide) h

/-- The clauses of AMEND_ACCOUNT: a slot out of range; then on slot 5 a FREE, a marked and a failing account, and a
sound one in each of the three states. -/
theorem witness_AmendAccountReplacesTheTerms :
    (∃ (s : State) (p : List Byte), s.Granted .amendAccount p ∧ 63 < field 0 1 p) ∧
      (¬(63 < field 0 1 amendParams ∨ 100 < field 5 1 amendParams ∨ field 6 1 amendParams < 1 ∨
          28 < field 6 1 amendParams ∨ 23 < field 7 1 amendParams) ∧ field 0 1 amendParams = (5 : Slot).val) ∧
      (∃ s : State, s.Granted .amendAccount amendParams ∧ (s.ledger.account 5).state = .free) ∧
      (∃ s : State, s.Granted .amendAccount amendParams ∧ (s.ledger.account 5).faultMark = true) ∧
      (∃ s : State, s.Granted .amendAccount amendParams ∧ (s.ledger.account 5).faultMark = false ∧
        (s.ledger.account 5).phase ≠ .free ∧ (s.ledger.account 5).checks = false) ∧
      ∀ phase ∈ [AccountPhase.active, .suspended, .final],
        ∃ s : State, s.Granted .amendAccount amendParams ∧ s.ledger.SoundAccount 5 ∧
          (s.ledger.account 5).phase = phase := by
  refine ⟨⟨asking .amendAccount [64, 1, 0, 0, 0, 100, 28, 23] (site .run tariffed), _,
      asking_granted rfl (by decide) (by decide) rfl, by decide⟩, by decide,
    ⟨_, amend_granted .commissioning rfl tariffed, ?_⟩, ⟨_, amend_granted .run rfl withMarked, ?_⟩,
    ⟨_, amend_granted .run rfl withFailing, ?_⟩,
    fun phase _ => ⟨_, amend_granted .run rfl (withAccount (accountIn phase)), withAccount_sound rfl, ?_⟩⟩
  · exact (congrArg Account.state (tariffed_account 5)).trans free_state
  · exact congrArg Account.faultMark withMarked_self
  · change (withFailing.account 5).faultMark = _ ∧ (withFailing.account 5).phase ≠ _ ∧ (withFailing.account 5).checks = _
    rw [withFailing_self]; exact ⟨rfl, by decide, failing_fails⟩
  · exact congrArg Account.phase (withAccount_self _)

/-- A pending slot that expects no member. -/
def emptyPending : PendingSlot := { tag := 118, energy := .zero, expected := [], doubtful := false }

/-- The clauses of SUSPEND_ACCOUNT and RESUME_ACCOUNT: a sound account in each state, without and with a pending slot. -/
theorem witness_SuspendAndResume :
    field 0 1 [5] = (5 : Slot).val ∧
      ∀ k ∈ [RequestCode.suspendAccount, .resumeAccount], ∀ phase ∈ [AccountPhase.active, .suspended, .final],
        ∀ slot ∈ [none, some emptyPending],
          ∃ s : State, s.Granted k [5] ∧ s.ledger.SoundAccount 5 ∧ (s.ledger.account 5).phase = phase ∧
            (s.ledger.account 5).storedSlot = slot := by
  refine ⟨by decide, fun k hk phase _ slot _ =>
    ⟨asking k [5] (site .run (withAccount { accountIn phase with storedSlot := slot })), asking_granted rfl (by decide) ?_ ?_,
      withAccount_sound rfl, congrArg Account.phase (withAccount_self _),
      congrArg Account.storedSlot (withAccount_self _)⟩⟩ <;>
    (simp only [List.mem_cons, List.not_mem_nil, or_false] at hk; rcases hk with rfl | rfl <;> rfl)

/-- An intake that would join slot 5, and one that is its member. -/
def joiner : Intake := { intakeIn .free with change := some { target := some 5, tag := 118 } }

def member : Intake := { intakeIn .member with owner := some 5, ownerSince := some 118 }

theorem retire_granted (l : Ledger) : (asking .retireAccount [5] (site .run l)).Granted .retireAccount [5] :=
  asking_granted rfl (by decide) (by decide) rfl

/-- The refusals of RETIRE_ACCOUNT: a FINAL account, a settled section, a marked tariff, and a failing one. -/
theorem witness_RetireSettlesOrFrees_refusals :
    (∃ s : State, s.Granted .retireAccount [5] ∧ s.ledger.SoundAccount 5 ∧ (s.ledger.account 5).phase = .final) ∧
      (∃ s : State, s.Granted .retireAccount [5] ∧ s.ledger.SoundAccount 5 ∧ (s.ledger.account 5).phase = .active ∧
        (s.ledger.account 5).settled ≠ none) ∧
      (∃ s : State, s.Granted .retireAccount [5] ∧ s.ledger.SoundAccount 5 ∧
        s.ledger.account 5 = (accountIn .active).seal ∧ (s.ledger.tariff 3).faultMark = true) ∧
      ∃ s : State, s.Granted .retireAccount [5] ∧ s.ledger.SoundAccount 5 ∧
        s.ledger.account 5 = (accountIn .active).seal ∧ (s.ledger.tariff 3).faultMark = false ∧
        (s.ledger.tariff 3).checks s.ledger.pool 3 = false := by
  refine ⟨⟨_, retire_granted (withAccount (accountIn .final)), withAccount_sound rfl,
      congrArg Account.phase (withAccount_self _)⟩,
    ⟨_, retire_granted (withAccount
        { accountIn .active with settled := some (settledSection .host false 100 demoTariff (accountIn .active)) }),
      withAccount_sound rfl, congrArg Account.phase (withAccount_self _), ?_⟩,
    ⟨_, retire_granted (markedTariff.putAccount 5 (accountIn .active)), sound_put rfl, put_self _ _, by decide +kernel⟩,
    ⟨_, retire_granted (failingTariff.putAccount 5 (accountIn .active)), sound_put rfl, put_self _ _, by decide +kernel,
      by decide +kernel⟩⟩
  change ((withAccount _).account 5).settled ≠ none
  rw [withAccount_self]
  exact fun h => nomatch h

/-- RETIRE_ACCOUNT in both modes, and each clause of the release of members. -/
theorem witness_RetireSettlesOrFrees :
    (∀ m ∈ [Mode.run, .commissioning], ∃ s : State, s.mode = m ∧ s.Granted .retireAccount [5] ∧
      field 0 1 [5] = (5 : Slot).val ∧ s.ledger.SoundAccount 5 ∧ (s.ledger.account 5).bills = true ∧
      (s.ledger.account 5).settled = none ∧ s.ledger.ReadyTariff (s.ledger.account 5).tariff) ∧
      (∃ l : Ledger, (l.intake 7).faultMark = true) ∧
      (∃ l : Ledger, l.SoundIntake 7 ∧ (7 : IntakeNo) ∈ (l.account 5).members) ∧
      (∃ l : Ledger, l.SoundIntake 7 ∧ (7 : IntakeNo) ∉ (l.account 5).members ∧
        ∃ tag, (l.intake 7).change = some { target := some 5, tag := tag }) ∧
      (∃ l : Ledger, l.SoundIntake 7 ∧ (7 : IntakeNo) ∉ (l.account 5).members ∧
        ∀ tag, (l.intake 7).change ≠ some { target := some 5, tag := tag }) ∧
      (∃ l : Ledger, (l.intake 7).faultMark = false ∧ (l.intake 7).checks = false) ∧
      ∃ l : Ledger, l.IntakesSettled := by
  refine ⟨fun m hm => ⟨asking .retireAccount [5] (site m (withAccount (accountIn .active))), rfl,
      asking_granted rfl (by decide) (by decide) ?_, by decide, withAccount_sound rfl, ?_, ?_, ?_⟩,
    ⟨withBoth (accountIn .active) { member with faultMark := true }, ?_⟩,
    ⟨withBoth { accountIn .active with members := [7] } member, withBoth_soundIntake rfl (by decide), ?_⟩,
    ⟨withBoth (accountIn .active) joiner, withBoth_soundIntake rfl (by decide), ?_, 118, ?_⟩,
    ⟨withBoth (accountIn .active) (intakeIn .free), withBoth_soundIntake rfl (by decide), ?_, fun tag => ?_⟩,
    ⟨tariffed.storeIntake 7 failingIntake, ?_⟩, ⟨Ledger.cold, cold_intakesSettled⟩⟩
  · revert m; decide
  · exact congrArg Account.bills (withAccount_self _)
  · exact congrArg Account.settled (withAccount_self _)
  · change (withAccount (accountIn .active)).ReadyTariff ((withAccount (accountIn .active)).account 5).tariff
    rw [withAccount_self]; exact withAccount_ready _
  · rw [withBoth_intake]; rfl
  · rw [withBoth_account]; decide
  · rw [withBoth_account]; decide
  · rw [withBoth_intake]; rfl
  · rw [withBoth_account]; decide
  · rw [withBoth_intake]; simp [Intake.seal, intakeIn]
  · rw [storedIntake_self]; exact ⟨rfl, failingIntake_fails⟩

/-- A settled section. -/
def demoSettled : Settled :=
  settledSection .host false 100 demoTariff (accountIn .active)

/-- FIND_ACCOUNT of number 1047, and every section of READ_ACCOUNT, on a sound account and on a marked one. -/
theorem witness_LookUpsAnswerAndChangeNothing :
    (∃ (s : State) (p : List Byte), s.Granted .findAccount p ∧ (s.ledger.account 5).state ≠ .free ∧
      (s.ledger.account 5).number = field 0 4 p ∧ field 0 4 p ≠ 0 ∧
      (∀ j, j < 5 → (s.ledger.account j).state ≠ .free → (s.ledger.account j).number ≠ field 0 4 p) ∧
      s.ledger.SoundAccount 5) ∧
      (∃ (s : State) (p : List Byte), s.Granted .findAccount p ∧ (s.ledger.account 5).state ≠ .free ∧
        (s.ledger.account 5).number = field 0 4 p ∧ (s.ledger.account 5).faultMark = true) ∧
      (∀ code ∈ [1, 2, 3, 4, 5], ∀ x ∈ [none, some demoSettled], ∃ (s : State) (p : List Byte), s.Granted .readAccount p ∧
        field 0 1 p = (5 : Slot).val ∧ field 1 1 p = code ∧ field 2 1 p = 0 ∧ s.ledger.SoundAccount 5 ∧
        (s.ledger.account 5).phase ≠ .free ∧ (s.ledger.account 5).settled = x ∧
        s.ledger.ReadyTariff (s.ledger.account 5).tariff) ∧
      ∀ code ∈ [1, 2, 5], ∃ (s : State) (p : List Byte), s.Granted .readAccount p ∧ field 0 1 p = (5 : Slot).val ∧
        field 1 1 p = code ∧ field 2 1 p = 0 ∧ (s.ledger.account 5).faultMark = true := by
  refine ⟨⟨asking .findAccount [0x17, 4, 0, 0] (site .run (withAccount (accountIn .active))), _,
      asking_granted rfl (by decide) (by decide) rfl, ?_, ?_, by decide, fun j hj h => absurd ?_ h,
      withAccount_sound rfl⟩,
    ⟨asking .findAccount [0x17, 4, 0, 0] (site .run withMarked), _,
      asking_granted rfl (by decide) (by decide) rfl, ?_⟩,
    fun code hc x _ => ⟨asking .readAccount [5, byte code, 0]
        (site .run (withAccount { accountIn .active with settled := x })), [5, byte code, 0],
      asking_granted rfl (show 3 ≤ 126 by decide) rfl rfl, by rfl, ?_, by rfl, withAccount_sound rfl, ?_,
      congrArg Account.settled (withAccount_self _), ?_⟩,
    fun code hc => ⟨asking .readAccount [5, byte code, 0] (site .run withMarked), [5, byte code, 0],
      asking_granted rfl (show 3 ≤ 126 by decide) rfl rfl, by rfl, ?_, by rfl, congrArg Account.faultMark withMarked_self⟩⟩
  · change ((withAccount (accountIn .active)).account 5).state ≠ _
    rw [withAccount_self]; decide
  · change ((withAccount (accountIn .active)).account 5).number = _
    rw [withAccount_self]; decide
  · change ((withAccount (accountIn .active)).account j).state = _
    rw [withAccount_other _ (fun e => by subst e; exact absurd hj (by decide))]; rfl
  · change (withMarked.account 5).state ≠ _ ∧ (withMarked.account 5).number = _ ∧ (withMarked.account 5).faultMark = _
    rw [withMarked_self]; decide
  · revert code; decide
  · change ((withAccount _).account 5).phase ≠ _
    rw [withAccount_self]; exact fun h => nomatch h
  · change (withAccount _).ReadyTariff ((withAccount _).account 5).tariff
    rw [withAccount_self]; exact withAccount_ready _
  · revert code; decide

/-- The refusals of FIND_ACCOUNT: the number 0, one that no slot holds, and a failing account. Those of READ_ACCOUNT: a
slot, a section and a part out of range; on slot 5 a FREE and a failing account, and a sound one under a marked and under a
failing tariff, for WINDOW part 1. -/
theorem witness_LookUpsAnswerAndChangeNothing_refusals :
    (∃ s : State, s.Granted .findAccount [0, 0, 0, 0] ∧ field 0 4 [0, 0, 0, 0] = 0) ∧
      (∃ s : State, s.Granted .findAccount [0x17, 4, 0, 0] ∧ field 0 4 [0x17, 4, 0, 0] ≠ 0 ∧
        ∀ j, (s.ledger.account j).state = .free) ∧
      (∃ s : State, s.Granted .findAccount [0x17, 4, 0, 0] ∧ (s.ledger.account 5).faultMark = false ∧
        (s.ledger.account 5).phase ≠ .free ∧ (s.ledger.account 5).checks = false ∧
        (s.ledger.account 5).number = field 0 4 [0x17, 4, 0, 0]) ∧
      (∀ p ∈ [[64, 1, 0], [5, 0, 0], [5, 6, 0], [5, 2, 1], [5, 3, 2]], ∃ s : State, s.Granted .readAccount p) ∧
      (∃ s : State, s.Granted .readAccount [5, 3, 1] ∧ (s.ledger.account 5).state = .free) ∧
      (∀ code ∈ [1, 3], ∃ s : State, s.Granted .readAccount [5, code, 0] ∧ (s.ledger.account 5).faultMark = false ∧
        (s.ledger.account 5).phase ≠ .free ∧ (s.ledger.account 5).checks = false) ∧
      (∃ s : State, s.Granted .readAccount [5, 3, 1] ∧ s.ledger.SoundAccount 5 ∧
        s.ledger.account 5 = (accountIn .active).seal ∧ (s.ledger.tariff 3).faultMark = true) ∧
      ∃ s : State, s.Granted .readAccount [5, 3, 1] ∧ s.ledger.SoundAccount 5 ∧
        s.ledger.account 5 = (accountIn .active).seal ∧ (s.ledger.tariff 3).faultMark = false ∧
        (s.ledger.tariff 3).checks s.ledger.pool 3 = false := by
  have find (p : List Byte) (l : Ledger) (h : p.length = 4) : (asking .findAccount p (site .run l)).Granted .findAccount p :=
    asking_granted rfl (by omega) (by simp only [RequestCode.lengthFits, h]; rfl) rfl
  have read (p : List Byte) (l : Ledger) (h : p.length = 3) : (asking .readAccount p (site .run l)).Granted .readAccount p :=
    asking_granted rfl (by omega) (by simp only [RequestCode.lengthFits, h]; rfl) rfl
  have failing : withFailing.account 5 = _ := withFailing_self
  refine ⟨⟨_, find _ tariffed rfl, by decide⟩,
    ⟨_, find _ tariffed rfl, by decide, fun j => (congrArg Account.state (tariffed_account j)).trans free_state⟩,
    ⟨_, find _ withFailing rfl, ?_⟩, fun p hp => ⟨_, read p tariffed ?_⟩,
    ⟨_, read _ tariffed rfl, (congrArg Account.state (tariffed_account 5)).trans free_state⟩,
    fun code _ => ⟨_, read _ withFailing rfl, ?_⟩,
    ⟨_, read _ (markedTariff.putAccount 5 (accountIn .active)) rfl, sound_put rfl, put_self _ _, by decide +kernel⟩,
    ⟨_, read _ (failingTariff.putAccount 5 (accountIn .active)) rfl, sound_put rfl, put_self _ _, by decide +kernel,
      by decide +kernel⟩⟩
  · change (withFailing.account 5).faultMark = _ ∧ (withFailing.account 5).phase ≠ _ ∧
      (withFailing.account 5).checks = _ ∧ (withFailing.account 5).number = _
    rw [failing]; exact ⟨rfl, by decide, failing_fails, by decide⟩
  · revert p; decide
  · change (withFailing.account 5).faultMark = _ ∧ (withFailing.account 5).phase ≠ _ ∧ (withFailing.account 5).checks = _
    rw [failing]; exact ⟨rfl, by decide, failing_fails⟩

/-- The layouts at the ends of their premises: 8 members; N = 12 with the ring position at its last, part 1, and a pending
slot that expects 8 members. -/
theorem witness_LookUpsAnswerAndChangeNothing_layouts :
    (∃ a : Account, a.members.length = 8) ∧
      ∃ a : Account, a.ringPos = 11 ∧ ∃ p, a.storedSlot = some p ∧ p.expected.length = 8 :=
  ⟨⟨{ accountIn .active with members := List.replicate 8 0 }, rfl⟩,
    ⟨{ accountIn .active with
        ringPos := 11
        storedSlot := some { emptyPending with expected := List.replicate 8 { intake := 95, reported := true } } },
      rfl, _, rfl, rfl⟩⟩

theorem witness_ListAccountsAnswersTheFilter :
    ∀ f ∈ [0, 1, 5, 6], ∃ (s : State) (p : List Byte), s.Granted .listAccounts p ∧ field 0 1 p = f ∧
      s.ledger.FailingAccount 5 :=
  fun f hf => ⟨asked .listAccounts [byte f] withFailing, [byte f],
    asked_granted _ (show 1 ≤ 126 by decide) rfl rfl, by revert f; decide, withFailing_fails⟩

/-- The invariants hold at reset, and so does every premise about a next step. -/
theorem witness_invariants :
    State.reset.LinkLaw ∧ State.reset.BuffersWhole ∧ State.reset.WorkListsProper ∧ step State.reset = .next State.reset := by
  refine ⟨by unfold State.LinkLaw; decide, by unfold State.BuffersWhole; decide +kernel,
    by unfold State.WorkListsProper; decide,
    rfl⟩

theorem witness_NumbersDistinct : State.reset.NumbersDistinct := by
  intro i j h
  exact absurd ((congrArg Account.state (show State.reset.ledger.account i = Account.free by
    simp [State.reset, Ledger.cold, Ledger.account])).trans free_state) h

theorem undefined_sealed {x : Intake} (h : x = Intake.undefined) : crc x.image = x.checkWord := by
  subst h; decide +kernel

theorem free_sealed {a : Account} (h : a = Account.free) : crc a.image = a.checkWord := by
  subst h; decide +kernel

theorem witness_RecordsSealed : State.reset.RecordsSealed :=
  ⟨fun _ => .inr (free_sealed (by simp [State.reset, Ledger.cold, Ledger.account])),
    fun _ => .inr (undefined_sealed (by simp [State.reset, Ledger.cold, Ledger.intake]))⟩

theorem witness_TariffsVerified : State.reset.TariffsVerified := by
  intro i
  right
  revert i
  decide +kernel

theorem witness_OwnershipAgrees : State.reset.OwnershipAgrees := by
  have ha (i : Slot) : State.reset.ledger.account i = Account.free := by
    simp [State.reset, Ledger.cold, Ledger.account]
  have hi (i : IntakeNo) : State.reset.ledger.intake i = Intake.undefined := by
    simp [State.reset, Ledger.cold, Ledger.intake]
  have joins (a : Slot) : ∀ i ∈ allIntakes, ¬(!Intake.undefined.faultMark && Intake.joining a Intake.undefined) = true :=
    fun _ _ h => (nomatch h)
  refine ⟨fun a _ => ?_, fun i _ change h => ?_⟩
  · simp only [ha, hi]
    refine ⟨fun i _ => ⟨fun h => (nomatch (h : i ∈ ([] : List IntakeNo))), fun h => (nomatch h.1)⟩, List.nodup_nil, ?_,
      fun _ => rfl, fun h => absurd rfl h⟩
    rw [List.countP_eq_zero.mpr (joins a)]
    exact Nat.zero_le _
  · rw [hi] at h
    exact (nomatch h)

/-! ### Witnesses: tariffs and the calendar -/

/-- WRITE_TARIFF of index 3: one point in each list. -/
def tariffParams : List Byte := [3, 9, 0, 0, 1, 0, 1, 0, 0, 0, 0, 0, 0, 0x1F, 1, 1, 0, 0x20, 0, 0]

def tariffWrite : TariffWrite := (TariffWrite.ofBytes tariffParams).getD
  { index := 0, header := Tariff.coldContent, work := [], rest := [] }

theorem witness_WriteTariffInstallsTheLists :
    ∃ (s : State), s.Granted .writeTariff tariffParams ∧ TariffWrite.ofBytes tariffParams = some tariffWrite ∧
      validList tariffWrite.header.bandCount tariffWrite.work = true ∧
      validList tariffWrite.header.bandCount tariffWrite.rest = true ∧ tariffWrite.header.evaluation ≠ .block ∧
      (∀ i, (s.ledger.account i).state ≠ .free → (s.ledger.account i).tariff ≠ tariffWrite.index) ∧
      (s.ledger.tariff tariffWrite.index).checks s.ledger.pool tariffWrite.index = true ∧
      tariffWrite.work.length + tariffWrite.rest.length ≤ (freeEntries s.ledger.pool).length := by
  refine ⟨asking .writeTariff tariffParams (site .run tariffed), asking_granted rfl (by decide) (by decide) rfl,
    by decide +kernel, by decide +kernel, by decide +kernel, by decide +kernel, fun i h => absurd ?_ h,
    by decide +kernel, by decide +kernel⟩
  exact (congrArg Account.state (tariffed_account i)).trans free_state

/-- WRITE_TARIFF of index 3 with an evaluation out of range; with an empty list; as a BLOCK tariff with N = 7, which S
does not fit; and as one that fits. -/
def tariffParamsOutOfRange : List Byte := [3, 9, 0, 2, 1, 0, 1, 0, 0, 0, 0, 0, 0, 0x1F, 1, 1, 0, 0x20, 0, 0]

def tariffParamsBadList : List Byte := [3, 9, 0, 0, 1, 0, 1, 0, 0, 0, 0, 0, 0, 0x1F, 0, 1, 0, 0]

def tariffParamsBlock (n : Nat) : List Byte :=
  [3, 9, 0, 1, byte n, 0, 1, 0, 0, 0, 0, 0, 0, 0x1F, 1, 1, 0, 0x20, 0, 0]

theorem writeTariff_granted (m : Mode) (h : RequestCode.writeTariff.modeRefusal m = none) (l : Ledger) :
    (asking .writeTariff tariffParams (site m l)).Granted .writeTariff tariffParams :=
  asking_granted rfl (by decide) (by decide) h

/-- A pool without a free entry. -/
def poolTaken : Ledger :=
  { Ledger.cold with
    pool := Vector.replicate 128 { point := firstPoint, next := none, owner := some { tariff := 5, list := .rest } } }

/-- The refusals of WRITE_TARIFF: a parameter out of range; an empty list; a BLOCK tariff that S does not fit; a READY
tariff named in RUN; no free entry. -/
theorem witness_WriteTariffInstallsTheLists_refusals :
    (∃ s : State, s.Granted .writeTariff tariffParamsOutOfRange ∧ TariffWrite.ofBytes tariffParamsOutOfRange = none) ∧
      (∃ s : State, s.Granted .writeTariff tariffParamsBadList ∧ ∃ w, TariffWrite.ofBytes tariffParamsBadList = some w ∧
        validList w.header.bandCount w.work = false) ∧
      (∃ s : State, s.Granted .writeTariff (tariffParamsBlock 7) ∧
        ∃ w, TariffWrite.ofBytes (tariffParamsBlock 7) = some w ∧ w.header.evaluation = .block ∧
          1440 % (w.header.n * s.calendar.params.subinterval) ≠ 0) ∧
      (∃ s : State, s.Granted .writeTariff tariffParams ∧ s.mode = .run ∧
        ((s.ledger.checkTariff 3).tariff 3).state = .ready ∧
        ∃ i, (s.ledger.account i).state ≠ .free ∧ (s.ledger.account i).tariff = 3) ∧
      ∃ s : State, s.Granted .writeTariff tariffParams ∧ (freeEntries s.ledger.pool).length = 0 := by
  refine ⟨⟨asking .writeTariff tariffParamsOutOfRange .reset, asking_granted rfl (by decide) (by decide) rfl,
      by decide +kernel⟩,
    ⟨asking .writeTariff tariffParamsBadList .reset, asking_granted rfl (by decide) (by decide) rfl, _, rfl,
      by decide +kernel⟩,
    ⟨asking .writeTariff (tariffParamsBlock 7) .reset, asking_granted rfl (by decide) (by decide) rfl, _, rfl,
      by decide +kernel, by decide +kernel⟩,
    ⟨_, writeTariff_granted .run rfl full, rfl, by decide +kernel, 0, ?_⟩,
    ⟨_, writeTariff_granted .run rfl poolTaken, by decide +kernel⟩⟩
  change (full.account 0).state ≠ _ ∧ (full.account 0).tariff = _
  rw [full_account]; decide

/-- A WRITE_TARIFF under naming accounts: in COMMISSIONING, and as the repair of a marked tariff in RUN; a sound account
that names it and holds a close due, one that names another, a marked one, and one that fails its check word. -/
theorem witness_WriteTariffInstallsTheLists_named :
    (∃ s : State, s.Granted .writeTariff tariffParams ∧ s.mode ≠ .run ∧ s.ledger.SoundAccount 5 ∧
      (s.ledger.account 5).phase ≠ .free ∧ (s.ledger.account 5).tariff = tariffWrite.index ∧
      2 ≤ (freeEntries s.ledger.pool).length) ∧
      (∃ s : State, s.Granted .writeTariff tariffParams ∧ s.mode = .run ∧ ¬s.ledger.ReadyTariff tariffWrite.index ∧
        (s.ledger.tariff tariffWrite.index).faultMark = true ∧ s.ledger.SoundAccount 5 ∧
        (s.ledger.account 5).bills = true ∧ (s.ledger.account 5).closeDue ≠ none ∧
        (s.ledger.account 5).tariff = tariffWrite.index) ∧
      (∃ s : State, s.Granted .writeTariff tariffParams ∧ (s.ledger.account 5).faultMark = true) ∧
      ∃ s : State, s.Granted .writeTariff tariffParams ∧ (s.ledger.account 5).faultMark = false ∧
        (s.ledger.account 5).phase ≠ .free ∧ (s.ledger.account 5).tariff = tariffWrite.index ∧
        (s.ledger.account 5).checks = false := by
  have index : tariffWrite.index = 3 := by decide +kernel
  refine ⟨⟨_, writeTariff_granted .commissioning rfl (withAccount (accountIn .active)),
      show Mode.commissioning ≠ .run by decide, withAccount_sound rfl, ?_⟩,
    ⟨_, writeTariff_granted .run rfl (markedTariff.putAccount 5
        { accountIn .active with closeDue := some { cause := .host, time := 900 } }), rfl, fun h => ?_, ?_,
      sound_put rfl, ?_⟩,
    ⟨_, writeTariff_granted .commissioning rfl withMarked, congrArg Account.faultMark withMarked_self⟩,
    ⟨_, writeTariff_granted .commissioning rfl withFailing, ?_⟩⟩
  · change ((withAccount _).account 5).phase ≠ _ ∧ ((withAccount _).account 5).tariff = _ ∧
      2 ≤ (freeEntries tariffed.pool).length
    rw [withAccount_self, index]
    exact ⟨fun h => (nomatch h), rfl, by decide +kernel⟩
  · rw [index] at h
    exact absurd h.1 (by decide +kernel)
  · rw [index]; decide +kernel
  · change ((markedTariff.putAccount 5 _).account 5).bills = _ ∧ ((markedTariff.putAccount 5 _).account 5).closeDue ≠ _ ∧
      ((markedTariff.putAccount 5 _).account 5).tariff = _
    rw [put_self, index]
    exact ⟨rfl, fun h => (nomatch h), rfl⟩
  · change (withFailing.account 5).faultMark = _ ∧ (withFailing.account 5).phase ≠ _ ∧
      (withFailing.account 5).tariff = _ ∧ (withFailing.account 5).checks = _
    rw [withFailing_self, index]
    exact ⟨rfl, fun h => (nomatch h), rfl, failing_fails⟩

/-- DELETE_TARIFF of an unnamed and of a named tariff; READ_TARIFF of a READY and of an EMPTY one. -/
theorem witness_TariffsAreDeletedAndRead :
    (∃ s : State, s.Granted .deleteTariff [3] ∧ field 0 1 [3] = (3 : TariffNo).val ∧
      (s.ledger.tariff 3).state ≠ .empty ∧
      (∀ i, (s.ledger.account i).state ≠ .free → (s.ledger.account i).tariff ≠ 3) ∧
      ∀ i, (s.ledger.account i).faultMark = false) ∧
      (∃ s : State, s.Granted .deleteTariff [3] ∧ (s.ledger.tariff 3).state ≠ .empty ∧
        ∃ i, (s.ledger.account i).state ≠ .free ∧ (s.ledger.account i).tariff = 3) ∧
      (∃ s : State, s.Granted .readTariff [3] ∧ s.ledger.ReadyTariff 3 ∧
        (s.ledger.tariff 3).points s.ledger.pool 3 = some ([firstPoint], [firstPoint])) ∧
      ∃ s : State, s.Granted .readTariff [15] ∧ field 0 1 [15] = (15 : TariffNo).val ∧
        (s.ledger.tariff 15).state = .empty := by
  refine ⟨⟨asking .deleteTariff [3] (site .run tariffed), asking_granted rfl (by decide) (by decide) rfl, by decide,
      by decide +kernel, fun i h => absurd ?_ h, fun i => congrArg Account.faultMark (tariffed_account i)⟩,
    ⟨asking .deleteTariff [3] (site .run full), asking_granted rfl (by decide) (by decide) rfl, by decide +kernel, 0, ?_⟩,
    ⟨asking .readTariff [3] (site .run tariffed), asking_granted rfl (by decide) (by decide) rfl, tariffed_ready,
      by decide +kernel⟩,
    ⟨asking .readTariff [15] (site .run tariffed), asking_granted rfl (by decide) (by decide) rfl, by decide,
      by decide +kernel⟩⟩
  · exact (congrArg Account.state (tariffed_account i)).trans free_state
  · change (full.account 0).state ≠ _ ∧ (full.account 0).tariff = _
    rw [full_account]; decide

/-- The refusals of both: an index of 16; DELETE_TARIFF of an EMPTY tariff, and of an unnamed one while an account is
FAULTED; READ_TARIFF of a marked and of a failing tariff. -/
theorem witness_TariffsAreDeletedAndRead_refusals :
    (∀ k ∈ [RequestCode.deleteTariff, .readTariff], ∃ s : State, s.Granted k [16] ∧ 15 < field 0 1 [16]) ∧
      (∃ s : State, s.Granted .deleteTariff [15] ∧ (s.ledger.tariff 15).state = .empty) ∧
      (∃ s : State, s.Granted .deleteTariff [3] ∧ (s.ledger.tariff 3).state ≠ .empty ∧
        (∀ i, (s.ledger.account i).state ≠ .free → (s.ledger.account i).tariff ≠ 3) ∧
        ∃ i, (s.ledger.account i).faultMark = true) ∧
      (∃ s : State, s.Granted .readTariff [3] ∧ (s.ledger.tariff 3).faultMark = true) ∧
      ∃ s : State, s.Granted .readTariff [3] ∧ s.ledger.FailingTariff 3 ∧ (s.ledger.tariff 3).state ≠ .empty := by
  refine ⟨fun k hk => ⟨asked k [16] tariffed, ?_, by decide⟩,
    ⟨_, asked_granted tariffed (by decide) rfl rfl, by decide +kernel⟩,
    ⟨asked .deleteTariff [3] (tariffed.storeAccount 5 { accountIn .active with tariff := 4, faultMark := true }),
      asked_granted _ (by decide) rfl rfl, by decide +kernel, fun i h => ?_, 5, congrArg Account.faultMark (stored_self _ _)⟩,
    ⟨_, asked_granted markedTariff (by decide) rfl rfl, markedTariff_marked⟩,
    ⟨_, asked_granted failingTariff (by decide) rfl rfl, failingTariff_fails, by decide +kernel⟩⟩
  · simp only [List.mem_cons, List.not_mem_nil, or_false] at hk
    rcases hk with rfl | rfl <;> exact asked_granted _ (by decide) rfl rfl
  · by_cases hi : i = 5
    · subst hi
      change ((tariffed.storeAccount 5 _).account 5).tariff ≠ 3
      rw [stored_self]; decide
    · refine absurd ?_ h
      change ((tariffed.storeAccount 5 _).account i).state = _
      rw [Ledger.account_storeAccount_ne _ _ (Ne.symm hi)]
      exact (congrArg Account.state (tariffed_account i)).trans free_state

/-- A switch point whose minute fits its field. -/
theorem witness_TariffsAreDeletedAndRead_layout :
    ({ minute := 1439, band := 3, notify := true } : SwitchPoint).minute < 2048 := by
  decide

theorem witness_BandInForceIsTheLastPointReached :
    (([firstPoint].head?.map (·.minute)) = some 0 ∧ increasing [firstPoint] = true) ∧
      ((60 : Seconds) ≤ 60 ∧ (60 : Seconds) % 60 = 0 ∧ (60 : Seconds) % 86400 / 60 ≠ 0) ∧
      (60 : Seconds) ≤ 86400 ∧ (86400 : Seconds) % 60 = 0 ∧ (86400 : Seconds) % 86400 / 60 = 0 := by
  decide

/-- SET_TIME at the calendar's last second, and with a day that its month does not have. -/
theorem witness_SetTimeSetsTheCalendar :
    (∃ (s : State) (p : List Byte), s.Granted .setTime p ∧ (DateTime.ofBytes p).inRange = true ∧
      (DateTime.ofBytes p).toSeconds = 3155759999) ∧
      ∃ (s : State) (p : List Byte), s.Granted .setTime p ∧ (DateTime.ofBytes p).inRange = false := by
  refine ⟨⟨asking .setTime [0x33, 8, 12, 31, 23, 59, 59] .reset, _, asking_granted rfl (by decide) (by decide) rfl,
      by decide +kernel⟩,
    ⟨asking .setTime [0xE7, 7, 2, 29, 0, 0, 0] .reset, _, asking_granted rfl (by decide) (by decide) rfl,
      by decide +kernel⟩⟩

/-- The calendar in RUN at a time that a second has passed onto, with its last boundary and last minute event at 0. -/
def calendarAt (time : Seconds) (grace : Option GraceTimer) : Calendar :=
  { Calendar.cold with time := time, reachedByPassage := true, isSet := true, lastBoundary := some 0, lastMinute := some 0, grace := grace }

/-- A part in RUN at a time. -/
def runningAt (time : Seconds) (grace : Option GraceTimer) : State :=
  { site .run .cold with calendar := calendarAt time grace }

/-- The clauses of TRIM_TIME: amounts −60 and 60; an UNSET calendar; a time before the calendar; 0; backward; forward
short of the boundary, and onto it. -/
theorem witness_TrimTimeMovesTheCalendar :
    (∀ b ∈ [0xC4#8, 60], ∃ s : State, s.Granted .trimTime [b] ∧ ([b].getD 0 0).toInt ∉ [-59, 59]) ∧
      (∃ s : State, s.Granted .trimTime [59] ∧ s.calendar.isSet = false) ∧
      (∃ s : State, s.Granted .trimTime [0xC5] ∧ s.calendar.isSet = true ∧
        Int.ofNat s.calendar.time + ([0xC5#8].getD 0 0).toInt < 0) ∧
      (∃ s : State, s.Granted .trimTime [0] ∧ s.calendar.isSet = true) ∧
      (∃ s : State, s.Granted .trimTime [0xC5] ∧ s.calendar.isSet = true ∧ s.takeOwed = s ∧
        0 ≤ Int.ofNat s.calendar.time + ([0xC5#8].getD 0 0).toInt) ∧
      (∃ s : State, s.Granted .trimTime [59] ∧ s.calendar.isSet = true ∧ s.takeOwed = s ∧
        ∀ t, s.nextBoundary = some t → s.calendar.time + 59 < t) ∧
      ∃ s : State, s.Granted .trimTime [59] ∧ s.calendar.isSet = true ∧ s.takeOwed = s ∧
        s.nextBoundary = some (s.calendar.time + 59) := by
  have issue (b : Byte) (s : State) (h : s.atRest = false) (hm : s.mode = .run) (ha : s.arbiter.last = none := by rfl) :
      (asking .trimTime [b] s).Granted .trimTime [b] :=
    asking_granted h (show 1 ≤ 126 by decide) rfl (by rw [hm]; rfl) ha
  refine ⟨fun b hb => ⟨_, issue b (runningAt 0 none) rfl rfl, by revert b; decide⟩,
    ⟨_, issue 59 (site .run .cold) rfl rfl, by decide⟩, ⟨_, issue 0xC5 (runningAt 58 none) rfl rfl, by decide⟩,
    ⟨_, issue 0 (runningAt 58 none) rfl rfl, by decide⟩, ⟨_, issue 0xC5 (runningAt 59 none) rfl rfl, by decide, rfl, by decide⟩,
    ⟨_, issue 59 (runningAt 1 none) rfl rfl, by decide, rfl, fun t h => ?_⟩,
    ⟨_, issue 59 (runningAt 841 none) rfl rfl, by decide, rfl, by decide⟩⟩
  have h' : some 900 = some t := h
  cases h'
  decide

/-- A forward trim that reaches the boundary at 900 with G at 60 does not reach its expiry; with G at 5 it does. -/
theorem witness_TrimTimeMovesTheCalendar_grace :
    ∀ grace ∈ [5, 60], ∃ s : State, s.Granted .trimTime [59] ∧ s.calendar.isSet = true ∧ s.takeOwed = s ∧
      s.nextBoundary = some 900 ∧ s.calendar.time + 59 = 905 ∧ s.calendar.params.grace = grace := by
  refine fun grace hg => ⟨asking .trimTime [59]
      { runningAt 846 none with
        calendar := { calendarAt 846 none with params := { subinterval := 15, grace := grace, silenceLimit := 3, countPeriod := 0 } } },
    asking_granted rfl (show 1 ≤ 126 by decide) rfl rfl, rfl,
    State.takeOwed_of_none rfl (by revert grace; decide) (by revert grace; decide), by revert grace; decide, rfl, rfl⟩

theorem witness_SecondsGraceAndMinuteEvents :
    ((runningAt 59 none).atRest = false ∧ (runningAt 59 none).takeOwed = runningAt 59 none ∧ (runningAt 59 none).calendar.isSet = true) ∧
      (State.reset.atRest = false ∧ State.reset.takeOwed = State.reset ∧ State.reset.calendar.isSet = false) ∧
      ((runningAt 3155759999 none).takeOwed = runningAt 3155759999 none) ∧
      (∃ s : State, s.atRest = false ∧ s.calendar.isSet = true ∧ s.calendar.time < 3155759999 ∧ s.mode ≠ .restarting ∧
        ∃ g, s.calendar.grace = some g ∧ g.expiry ≤ s.calendar.time) ∧
      (∃ s : State, s.atRest = false ∧ s.calendar.isSet = true ∧ s.calendar.time < 3155759999 ∧ s.mode = .run ∧
        ∃ g last, s.calendar.grace = some g ∧ s.calendar.lastBoundary = some last ∧
          last / (s.calendar.params.subinterval * 60) * (s.calendar.params.subinterval * 60) +
            s.calendar.params.subinterval * 60 ≤ s.calendar.time) ∧
      ∀ passed : Bool, ∃ s : State, s.atRest = false ∧ s.calendar.isSet = true ∧ s.calendar.time < 3155759999 ∧
        s.mode ≠ .restarting ∧ s.calendar.reachedByPassage = passed ∧ s.calendar.time % 60 = 0 ∧
        ∀ last, s.calendar.lastMinute = some last → last < s.calendar.time :=
  ⟨⟨rfl, rfl, rfl⟩, ⟨rfl, rfl, rfl⟩, rfl, ⟨runningAt 60 (some { tag := 0, expiry := 60 }), by decide, by decide, by decide, by decide, _,
      rfl, by decide⟩,
    ⟨runningAt 900 (some { tag := 0, expiry := 960 }), by decide, by decide, by decide, by decide, _, 0, rfl, by decide, by decide⟩,
    fun passed => ⟨{ runningAt 60 none with calendar := { calendarAt 60 none with reachedByPassage := passed } }, rfl, rfl,
      show (60 : Nat) < 3155759999 by decide, show Mode.run ≠ .restarting by decide, rfl,
      show (60 : Nat) % 60 = 0 by decide,
      fun last h => by cases h; exact Nat.zero_lt_succ 59⟩⟩

theorem witness_BoundaryEventAdvancesTheTag :
    ∃ (s : State) (last : Seconds), s.atRest = false ∧ s.mode = .run ∧ s.calendar.isSet = true ∧
      s.calendar.time < 3155759999 ∧ s.calendar.lastBoundary = some last ∧ s.calendar.grace = none ∧
      last / (s.calendar.params.subinterval * 60) * (s.calendar.params.subinterval * 60) +
        s.calendar.params.subinterval * 60 ≤ s.calendar.time :=
  ⟨runningAt 900 none, 0, by decide⟩

theorem witness_DatesRootsAndChecks :
    ((0 : Seconds) ≤ 3155759999 ∧ (3155759999 : Seconds) ≤ 3155759999) ∧
      DateTime.inRange { year := 2000, month := 2, day := 29, hour := 23, minute := 59, second := 59 } = true := by
  decide

/-! ### Witnesses: the link -/

/-- A part in a mode whose lane 0 is given. -/
def withLane (m : Mode) (n : Lane) : State := State.putLane 0 n (site m .cold)

/-- An ACTIVE lane that expects sequence 7, with credits outstanding and errors counted. -/
def activeLane (outstanding errors : Nat) : Lane :=
  { Lane.cold true with
    state := .active, lastSeq := some 6, expectedSeq := some 7, outstanding := outstanding, errorCount := errors }

/-- An increment with a sequence number. -/
def frameOf (seq : Byte) : IncrementFrame :=
  { seq := seq, intake := 7, tag := 118, imp := 240, exp := 0, lag := 0, lead := 0, last := true, doubtful := false }

theorem witness_HelloOpensTheSession :
    ∀ st ∈ [LaneState.syncing, .active, .down, .isolated], ∃ s : State, s.atRest = false ∧ (s.lane 0).state = st :=
  fun st _ => ⟨withLane .run { Lane.cold true with state := st }, rfl, rfl⟩

/-- In sequence, and a first gap one below the error limit; then each discarded frame: on a lane that is not ACTIVE, a
duplicate, and a credit violation below and at the error limit. -/
theorem witness_IncrementsAreQueuedOrDiscarded :
    (∃ (s : State) (f : IncrementFrame), s.atRest = false ∧ (s.lane 0).state = .active ∧ 0 < (s.lane 0).outstanding ∧
      (s.lane 0).lastSeq ≠ some f.seq ∧ (s.lane 0).expectedSeq = some f.seq) ∧
      (∃ (s : State) (f : IncrementFrame), s.atRest = false ∧ (s.lane 0).state = .active ∧
        0 < (s.lane 0).outstanding ∧ (s.lane 0).lastSeq ≠ some f.seq ∧ (s.lane 0).expectedSeq ≠ some f.seq ∧
        (s.lane 0).errorCount + 2 = (s.lane 0).errorLimit) ∧
      (∃ (s : State), s.atRest = false ∧ (s.lane 0).state ≠ .active) ∧
      (∃ (s : State) (f : IncrementFrame), s.atRest = false ∧ (s.lane 0).state = .active ∧
        (s.lane 0).lastSeq = some f.seq) ∧
      ∀ errors ∈ [6, 7], ∃ (s : State) (f : IncrementFrame), s.atRest = false ∧ (s.lane 0).state = .active ∧
        (s.lane 0).lastSeq ≠ some f.seq ∧ (s.lane 0).expectedSeq = some f.seq ∧ (s.lane 0).outstanding = 0 ∧
        (s.lane 0).errorCount = errors ∧ (s.lane 0).errorLimit = 8 :=
  ⟨⟨withLane .run (activeLane 1 0), frameOf 7, by decide⟩, ⟨withLane .run (activeLane 1 6), frameOf 9, by decide⟩,
    ⟨withLane .run (.cold true), by decide⟩, ⟨withLane .run (activeLane 1 0), frameOf 6, by decide⟩,
    fun errors _ => ⟨withLane .run (activeLane 0 errors), frameOf 7, rfl, rfl, by simp [withLane, State.putLane,
      State.lane, activeLane, frameOf, Lane.cold, Lane.fresh], rfl, rfl, rfl, rfl⟩⟩

/-- A gap that reaches the error limit, and one that is a credit violation as well, two errors below the limit and at
it. -/
theorem witness_IncrementsAreQueuedOrDiscarded_gaps :
    ∀ errors ∈ [5, 6, 7], ∃ (s : State) (f : IncrementFrame), s.atRest = false ∧ (s.lane 0).state = .active ∧
      (s.lane 0).lastSeq ≠ some f.seq ∧ (s.lane 0).expectedSeq ≠ some f.seq ∧ (s.lane 0).errorLimit = 8 ∧
      (s.lane 0).errorCount = errors ∧ (s.lane 0).outstanding = 0 :=
  fun errors _ => ⟨withLane .run (activeLane 0 errors), frameOf 9, rfl, rfl,
    show some (6#8) ≠ some 9#8 by decide, show some (7#8) ≠ some 9#8 by decide, rfl, rfl, rfl⟩

theorem witness_MalformedFramesAreErrors :
    receive [0x01, 0x02] = .malformed ∧
      (∀ st ∈ [LaneState.down, .isolated, .syncing], ∃ s : State, s.atRest = false ∧ (s.lane 0).state = st) ∧
      (∀ m ∈ [Mode.run, .commissioning], ∀ outstanding ∈ [0, 1], ∀ errors ∈ [6, 7], ∃ s : State, s.atRest = false ∧
        s.mode = m ∧ (s.lane 0).state = .active ∧ (s.lane 0).outstanding = outstanding ∧
        (s.lane 0).errorCount = errors ∧ (s.lane 0).errorLimit = 8) :=
  ⟨by decide +kernel, fun st _ => ⟨withLane .run { Lane.cold true with state := st }, rfl, rfl⟩,
    fun m _ outstanding _ errors _ => ⟨withLane m (activeLane outstanding errors), rfl, rfl, rfl, rfl, rfl, rfl⟩⟩

theorem witness_CarrierAndTimerEvents :
    ∀ st ∈ [LaneState.down, .syncing, .active, .isolated], ∀ attempts ∈ [2, 3], ∀ timer : Bool, ∃ s : State,
      s.atRest = false ∧ (s.lane 0).state = st ∧ (s.lane 0).attempts = attempts ∧ (s.lane 0).timer = timer :=
  fun st _ attempts _ timer =>
    ⟨withLane .run { Lane.cold true with state := st, attempts := attempts, timer := timer }, rfl, rfl, rfl, rfl⟩

theorem witness_LanesSendFrames :
    (∀ f ∈ [WaitingFrame.resync, .credit, .boundary 117 none], ∃ s : State, s.atRest = false ∧ (s.lane 0).waiting = [f]) ∧
      (∃ s : State, s.atRest = false ∧ (s.lane 0).waiting = []) ∧
      ∀ m ∈ [Mode.run, .commissioning], ∃ s : State, s.atRest = false ∧ s.mode = m ∧ s.laneBoundaries = [(118, 900)] :=
  ⟨fun f _ => ⟨withLane .run { Lane.cold true with waiting := [f] }, rfl, rfl⟩, ⟨site .run .cold, rfl, rfl⟩,
    fun m _ => ⟨{ site m .cold with laneBoundaries := [(118, 900)] }, rfl, rfl, rfl⟩⟩

/-- RESTORE_LANE in each lane state with and without carrier; SET_LANE at the ends of its ranges and outside them;
READ_LANE of lane 3. -/
theorem witness_LaneRequests :
    (∀ st ∈ [LaneState.down, .syncing, .active, .isolated], ∀ carrier : Bool, ∃ s : State, s.Granted .restoreLane [0] ∧
      field 0 1 [0] = (0 : LaneNo).val ∧ (s.lane 0).state = st ∧ (s.lane 0).carrier = carrier) ∧
      (∀ p ∈ [[0, 1, 1], [0, 8, 255], [0, 0, 1], [0, 9, 1], [0, 1, 0]], ∃ s : State, s.Granted .setLane p ∧
        field 0 1 p = (0 : LaneNo).val) ∧
      (∃ s : State, s.Granted .readLane [3] ∧ field 0 1 [3] = (3 : LaneNo).val) ∧
      ∃ s t u : State, s.Granted .restoreLane [4] ∧ t.Granted .setLane [4, 1, 1] ∧ u.Granted .readLane [4] ∧
        3 < field 0 1 [4] ∧ 3 < field 0 1 [4, 1, 1] := by
  refine ⟨fun st _ carrier => ⟨asking .restoreLane [0] (withLane .run { Lane.cold carrier with state := st }),
      asking_granted rfl (by decide) (by decide) rfl, by decide, rfl, rfl⟩,
    fun p hp => ⟨asking .setLane p (withLane .run (activeLane 0 0)), ?_, by revert p; decide⟩,
    ⟨asking .readLane [3] .reset, asking_granted rfl (by decide) (by decide) rfl, by decide⟩,
    ⟨asking .restoreLane [4] .reset, asking .setLane [4, 1, 1] .reset, asking .readLane [4] .reset,
      asking_granted rfl (by decide) (by decide) rfl, asking_granted rfl (by decide) (by decide) rfl,
      asking_granted rfl (by decide) (by decide) rfl, by decide⟩⟩
  simp only [List.mem_cons, List.not_mem_nil, or_false] at hp
  rcases hp with rfl | rfl | rfl | rfl | rfl <;> exact asking_granted rfl (by decide) (by decide) rfl

/-- Bytes of a lane that meet the premises of the splitting, with two flags in a row among them. -/
theorem witness_FramesRoundTrip :
    0x7E#8 ∉ [0x55#8] ∧ (∀ c ∈ [[0x01#8, 0x02#8], []], 0x7E#8 ∉ c) ∧ 0x7E#8 ∉ [0x03#8] := by
  decide

/-! ### Witnesses: intakes and placement -/

/-- Every clause of DEFINE_INTAKE, READ_INTAKE and COLLECT_HELD. -/
theorem witness_IntakeRequests :
    (∀ x ∈ [intakeIn .free, member, joiner], ∃ s : State, s.Granted .defineIntake [7, 3, 0x40, 0x42, 0x0F, 0] ∧
      field 0 1 [7, 3, 0x40, 0x42, 0x0F, 0] = (7 : IntakeNo).val ∧ field 1 1 [7, 3, 0x40, 0x42, 0x0F, 0] = (3 : LaneNo).val ∧
      field 2 4 [7, 3, 0x40, 0x42, 0x0F, 0] = 1000000 ∧ s.ledger.SoundIntake 7 ∧ s.ledger.intake 7 = x.seal) ∧
      (∀ k ∈ [RequestCode.readIntake, .collectHeld], ∃ s : State, s.Granted k [7] ∧ s.ledger.SoundIntake 7 ∧
        (s.ledger.intake 7).phase ≠ .undefined) ∧
      ∀ k ∈ [RequestCode.readIntake, .collectHeld], ∃ s : State, s.Granted k [95] ∧ field 0 1 [95] = (95 : IntakeNo).val ∧
        s.ledger.SoundIntake 95 ∧ (s.ledger.intake 95).phase = .undefined := by
  refine ⟨fun x hx => ⟨asking .defineIntake [7, 3, 0x40, 0x42, 0x0F, 0] (site .run (withBoth (accountIn .active) x)),
      asking_granted rfl (by decide) (by decide) rfl, by decide, by decide, by decide, ?_, withBoth_intake _ _⟩,
    fun k hk => ⟨asking k [7] (site .run (withBoth (accountIn .active) (intakeIn .free))), ?_,
      withBoth_soundIntake rfl (by decide), ?_⟩,
    fun k hk => ⟨asking k [95] (site .run .cold), ?_, by decide, ?_⟩⟩
  · simp only [List.mem_cons, List.not_mem_nil, or_false] at hx
    rcases hx with rfl | rfl | rfl <;> exact withBoth_soundIntake rfl (by decide)
  · simp only [List.mem_cons, List.not_mem_nil, or_false] at hk
    rcases hk with rfl | rfl <;> exact asking_granted rfl (by decide) (by decide) rfl
  · change ((withBoth _ _).intake 7).phase ≠ _
    rw [withBoth_intake]; decide
  · simp only [List.mem_cons, List.not_mem_nil, or_false] at hk
    rcases hk with rfl | rfl <;> exact asking_granted rfl (by decide) (by decide) rfl
  · change Ledger.cold.SoundIntake 95 ∧ (Ledger.cold.intake 95).phase = .undefined
    unfold Ledger.SoundIntake
    decide +kernel

/-- The intake requests but ASSIGN_INTAKE, on intake `n`. -/
def intakeRequests (n : Byte) : List (RequestCode × List Byte) :=
  [(.defineIntake, [n, 3, 0x40, 0x42, 0x0F, 0]), (.unassignIntake, [n]), (.readIntake, [n]), (.collectHeld, [n])]

theorem intakeRequests_granted (n : Byte) (l : Ledger) : ∀ r ∈ intakeRequests n, (asked r.1 r.2 l).Granted r.1 r.2 := by
  intro r hr
  simp only [intakeRequests, List.mem_cons, List.not_mem_nil, or_false] at hr
  rcases hr with rfl | rfl | rfl | rfl <;> exact asked_granted l (by simp) rfl rfl

/-- The checks of R90 of each: intake 96, and a lane and scales of DEFINE_INTAKE out of range; an UNDEFINED, a marked and a
failing intake. -/
theorem witness_IntakeRequests_addressing :
    (∀ r ∈ intakeRequests 96, ∃ s : State, s.Granted r.1 r.2 ∧ 95 < field 0 1 r.2) ∧
      (∀ p ∈ [[7, 4, 1, 0, 0, 0], [7, 3, 0, 0, 0, 0], [7, 3, 0x41, 0x42, 0x0F, 0]], ∃ s : State,
        s.Granted .defineIntake p ∧ (3 < field 1 1 p ∨ field 2 4 p < 1 ∨ 1000000 < field 2 4 p)) ∧
      ∀ r ∈ intakeRequests 7, field 0 1 r.2 = (7 : IntakeNo).val ∧
        (r.1 = .defineIntake → field 1 1 r.2 = 3 ∧ field 2 4 r.2 = 1000000) ∧
        (∃ s : State, s.Granted r.1 r.2 ∧ (s.ledger.intake 7).faultMark = false ∧ (s.ledger.intake 7).phase = .undefined) ∧
        (∃ s : State, s.Granted r.1 r.2 ∧ (s.ledger.intake 7).faultMark = true) ∧
        ∃ s : State, s.Granted r.1 r.2 ∧ s.ledger.FailingIntake 7 ∧ (s.ledger.intake 7).phase = .free := by
  refine ⟨fun r hr => ⟨_, intakeRequests_granted 96 tariffed r hr, by revert r; decide⟩,
    fun p hp => ⟨asked .defineIntake p tariffed, ?_, by revert p; decide⟩,
    fun r hr => ⟨by revert r; decide, by revert r; decide, ⟨_, intakeRequests_granted 7 tariffed r hr, ?_⟩,
      ⟨_, intakeRequests_granted 7 (withBoth (accountIn .active) { intakeIn .free with faultMark := true }) r hr,
        congrArg Intake.faultMark (withBoth_intake _ _)⟩,
      ⟨_, intakeRequests_granted 7 (tariffed.storeIntake 7 failingIntake) r hr, storedIntake_fails _,
        congrArg Intake.phase (storedIntake_self _ _)⟩⟩⟩
  · simp only [List.mem_cons, List.not_mem_nil, or_false] at hp
    rcases hp with rfl | rfl | rfl <;> exact asked_granted _ (by simp) rfl rfl
  · change (tariffed.intake 7).faultMark = _ ∧ (tariffed.intake 7).phase = _
    simp [tariffed, Ledger.cold, Ledger.intake, Intake.undefined, Intake.seal]

/-- ASSIGN_INTAKE of intake 7 to slot 5 with seven and with eight members, in both modes. -/
theorem witness_AssignIntakeJoins :
    ∀ m ∈ [Mode.run, .commissioning], ∀ members ∈ [[], List.replicate 7 (0 : IntakeNo), List.replicate 8 0], ∃ s : State,
      s.Granted .assignIntake [7, 5] ∧ field 0 1 [7, 5] = (7 : IntakeNo).val ∧ field 1 1 [7, 5] = (5 : Slot).val ∧
      s.mode = m ∧ s.ledger.IntakesSettled ∧ s.ledger.SoundIntake 7 ∧ s.ledger.intake 7 = (intakeIn .free).seal ∧
      s.ledger.SoundAccount 5 ∧ (s.ledger.account 5).bills = true ∧ (s.ledger.account 5).members = members := by
  refine fun m hm members _ =>
    ⟨asking .assignIntake [7, 5] (site m (withBoth { accountIn .active with members := members } (intakeIn .free))),
      asking_granted rfl (by decide) (by decide) ?_, by decide, by decide, rfl, withBoth_intakesSettled (by decide),
      withBoth_soundIntake rfl (by decide), withBoth_intake _ _, withBoth_sound rfl, ?_, ?_⟩
  · change RequestCode.assignIntake.modeRefusal m = none
    revert m; decide
  · exact congrArg Account.bills (withBoth_account _ _)
  · exact congrArg Account.members (withBoth_account _ _)

/-- A pending join to slot 5 in an intake that fails its check word. -/
def failingJoiner : Intake := { joiner with checkWord := 1 }

/-- A FREE intake 7, and a pending join to slot 5 in intake 8, which fails its check word. -/
def withFailingJoin (a : Account) : Ledger := (withBoth a (intakeIn .free)).storeIntake 8 failingJoiner

theorem withFailingJoin_intake (a : Account) : (withFailingJoin a).intake 7 = (intakeIn .free).seal :=
  (Ledger.intake_storeIntake_ne _ _ (by decide)).trans (withBoth_intake _ _)

theorem withFailingJoin_account (a : Account) : (withFailingJoin a).account 5 = a.seal := withBoth_account a (intakeIn .free)

theorem withFailingJoin_fails (a : Account) : (withFailingJoin a).FailingIntake 8 := by
  have self : (withFailingJoin a).intake 8 = failingJoiner := Ledger.intake_storeIntake_self _ _ _
  rw [Ledger.FailingIntake, self]
  decide +kernel

theorem withFailingJoin_joins (a : Account) :
    (allIntakes.countP fun j => (((withFailingJoin a).intake j).change.map (·.target)) == some (some 5)) = 1 :=
  show (allIntakes.countP fun j =>
      ((((tariffed.putIntake 7 (intakeIn .free)).storeIntake 8 failingJoiner).intake j).change.map (·.target)) ==
        some (some 5)) = 1 by
    decide +kernel

/-- ASSIGN_INTAKE of intake 7 to slot 5, in both modes, while intake 8 fails its check word and holds a pending join to that
account: the join counts as one, with six members and with seven. -/
theorem witness_AssignIntakeJoins_failingJoin :
    ∀ m ∈ [Mode.run, .commissioning], ∀ members ∈ [List.replicate 6 (0 : IntakeNo), List.replicate 7 0], ∃ s : State,
      s.Granted .assignIntake [7, 5] ∧ s.mode = m ∧ s.ledger.SoundIntake 7 ∧ (s.ledger.intake 7).phase = .free ∧
      (s.ledger.intake 7).change = none ∧ s.ledger.SoundAccount 5 ∧ (s.ledger.account 5).bills = true ∧
      (s.ledger.account 5).members = members ∧ s.ledger.FailingIntake 8 ∧
      (allIntakes.countP fun j => ((s.ledger.intake j).change.map (·.target)) == some (some 5)) = 1 := by
  refine fun m hm members _ =>
    ⟨asking .assignIntake [7, 5]
        (site m (withFailingJoin { accountIn .active with members := members })),
      asking_granted rfl (by decide) (by decide) ?_, rfl, ?_, congrArg Intake.phase (withFailingJoin_intake _),
      congrArg Intake.change (withFailingJoin_intake _), withBoth_sound (x := intakeIn .free) rfl,
      congrArg Account.bills (withFailingJoin_account _), congrArg Account.members (withFailingJoin_account _),
      withFailingJoin_fails _, withFailingJoin_joins _⟩
  case refine_2 =>
    change (withFailingJoin _).SoundIntake 7
    rw [Ledger.SoundIntake, withFailingJoin_intake]
    decide +kernel
  change RequestCode.assignIntake.modeRefusal m = none
  revert m; decide

theorem assign_granted (l : Ledger) : (asking .assignIntake [7, 5] (site .run l)).Granted .assignIntake [7, 5] :=
  asking_granted rfl (by decide) (by decide) rfl

/-- The refusals of ASSIGN_INTAKE: the two ranges; on the intake UNDEFINED, marked and failing; then, with a sound FREE
intake, on the account FREE, marked and failing; then, with both sound, a MEMBER intake, a pending change and a FINAL
account. -/
theorem witness_AssignIntakeJoins_refusals :
    (∀ p ∈ [[96, 5], [7, 64]], ∃ s : State, s.Granted .assignIntake p ∧ (95 < field 0 1 p ∨ 63 < field 1 1 p)) ∧
      (∀ x ∈ [Intake.undefined, { intakeIn .free with faultMark := true }, failingIntake], ∃ s : State,
        s.Granted .assignIntake [7, 5] ∧ s.ledger.intake 7 = x) ∧
      failingIntake.checks = false ∧
      (∀ a ∈ [Account.free, { accountIn .active with faultMark := true }, { accountIn .active with checkWord := 1 }],
        ∃ s : State, s.Granted .assignIntake [7, 5] ∧ s.ledger.SoundIntake 7 ∧ (s.ledger.intake 7).phase = .free ∧
          s.ledger.account 5 = a) ∧
      (∀ x ∈ [member, joiner], ∃ s : State, s.Granted .assignIntake [7, 5] ∧ s.ledger.SoundIntake 7 ∧
        s.ledger.intake 7 = x.seal ∧ s.ledger.SoundAccount 5 ∧ (s.ledger.account 5).phase = .active) ∧
      ∃ s : State, s.Granted .assignIntake [7, 5] ∧ s.ledger.SoundIntake 7 ∧ s.ledger.SoundAccount 5 ∧
        s.ledger.intake 7 = (intakeIn .free).seal ∧ (s.ledger.account 5).phase = .final := by
  refine ⟨fun p hp => ⟨asking .assignIntake p (site .run .cold), ?_, by revert p; decide⟩,
    fun x _ => ⟨_, assign_granted (tariffed.storeIntake 7 x), storedIntake_self _ _⟩, failingIntake_fails,
    fun a _ => ⟨_, assign_granted ((tariffed.storeAccount 5 a).putIntake 7 (intakeIn .free)),
      sound_putIntake rfl (fun h => nomatch h),
      congrArg Intake.phase (Ledger.intake_putIntake_self _ _ _), stored_self _ _⟩,
    fun x hx => ⟨_, assign_granted (withBoth (accountIn .active) x), ?_, withBoth_intake _ _, withBoth_sound rfl,
      congrArg Account.phase (withBoth_account _ _)⟩,
    ⟨_, assign_granted (withBoth (accountIn .final) (intakeIn .free)), withBoth_soundIntake rfl (by decide),
      withBoth_sound rfl, withBoth_intake _ _, congrArg Account.phase (withBoth_account _ _)⟩⟩
  · simp only [List.mem_cons, List.not_mem_nil, or_false] at hp
    rcases hp with rfl | rfl <;> exact asking_granted rfl (by decide) (by decide) rfl
  · simp only [List.mem_cons, List.not_mem_nil, or_false] at hx
    rcases hx with rfl | rfl <;> exact withBoth_soundIntake rfl (by decide)

/-- UNASSIGN_INTAKE of a joiner, a FREE intake, a member that leaves already, and a member of a sound and of a marked
owner, in both modes. -/
theorem witness_UnassignIntakeLeaves :
    (∀ m ∈ [Mode.run, .commissioning],
      ∀ x ∈ [joiner, intakeIn .free, member, { member with change := some { target := none, tag := 118 } }], ∃ s : State,
        s.mode = m ∧ s.Granted .unassignIntake [7] ∧ field 0 1 [7] = (7 : IntakeNo).val ∧ s.ledger.SoundIntake 7 ∧
        s.ledger.intake 7 = x.seal ∧ s.ledger.SoundAccount 5) ∧
      ∃ s : State, s.Granted .unassignIntake [7] ∧ s.ledger.SoundIntake 7 ∧ s.ledger.intake 7 = member.seal ∧
        (s.ledger.account 5).faultMark = true := by
  refine ⟨fun m hm x hx => ⟨asking .unassignIntake [7] (site m (withBoth (accountIn .active) x)), rfl,
      asking_granted rfl (by decide) (by decide) ?_, by decide, ?_, withBoth_intake _ _, withBoth_sound rfl⟩,
    ⟨asking .unassignIntake [7] (site .run (withMarked.putIntake 7 member)), asking_granted rfl (by decide) (by decide) rfl,
      sound_putIntake rfl (by decide), Ledger.intake_putIntake_self _ _ _, congrArg Account.faultMark withMarked_self⟩⟩
  · change RequestCode.unassignIntake.modeRefusal m = none
    revert m; decide
  · simp only [List.mem_cons, List.not_mem_nil, or_false] at hx
    rcases hx with rfl | rfl | rfl | rfl <;> exact withBoth_soundIntake rfl (by decide)

/-- UNASSIGN_INTAKE of a member whose owner fails its check word. -/
theorem witness_UnassignIntakeLeaves_failing :
    ∃ s : State, s.Granted .unassignIntake [7] ∧ s.ledger.SoundIntake 7 ∧ s.ledger.intake 7 = member.seal ∧
      s.ledger.FailingAccount 5 :=
  ⟨_, asked_granted (withFailing.putIntake 7 member) (by decide) rfl rfl, sound_putIntake rfl (by decide),
    Ledger.intake_putIntake_self _ _ _, withFailing_fails⟩

/-- The entry of frame 7 on lane 0. -/
def entry (intake : Byte) (tag : Tag) : QueueEntry :=
  { lane := 0, intake := intake, tag := tag, imp := 240, exp := 0, lag := 0, lead := 0, last := true, doubtful := false }

/-- A part with one entry in its Arrival Queue. -/
def arrived (e : QueueEntry) (l : Ledger) : State := { site .run l with arrivals := [e] }

theorem witness_PlacementTakesTheHeadEntry :
    (∃ s : State, s.engine = .held) ∧ (∃ s : State, s.boundaryOpen = true) ∧
      (∃ s : State, s.turn .accumulationEngine = true ∧ s.arrivals = [entry 96 255] ∧
        95 < (entry 96 255).intake.toNat) ∧
      (∃ s : State, s.turn .accumulationEngine = true ∧ s.arrivals = [entry 7 255] ∧ (entry 7 255).intake.toNat = (7 : IntakeNo).val ∧
        (s.ledger.intake 7).faultMark = true) ∧
      (∃ s : State, s.turn .accumulationEngine = true ∧ s.arrivals = [entry 95 255] ∧ s.ledger.SoundIntake 95 ∧ (s.ledger.intake 95).phase = .undefined) ∧
      (∃ s : State, s.turn .accumulationEngine = true ∧ s.arrivals = [entry 7 255] ∧ s.ledger.SoundIntake 7 ∧ (s.ledger.intake 7).lane ≠ 0) ∧
      ∃ s : State, s.turn .accumulationEngine = true ∧ s.arrivals = [entry 7 239] ∧ s.ledger.SoundIntake 7 ∧
        15 < (s.calendar.currentTag - 1 - (239 : Tag)).toNat := by
  refine ⟨⟨{ State.reset with engine := .held }, rfl⟩, ⟨{ State.reset with work := [.boundary 118 900 .ageing] }, rfl⟩,
    ⟨arrived (entry 96 255) .cold, placement_turn rfl rfl rfl, rfl, by decide⟩,
    ⟨arrived (entry 7 255) (withBoth (accountIn .active) { intakeIn .free with faultMark := true }), placement_turn rfl rfl rfl, rfl, by decide,
      congrArg Intake.faultMark (withBoth_intake _ _)⟩,
    ⟨arrived (entry 95 255) .cold, placement_turn rfl rfl rfl, rfl, by unfold Ledger.SoundIntake; decide +kernel⟩,
    ⟨arrived (entry 7 255) (withBoth (accountIn .active) { intakeIn .free with lane := 1 }), placement_turn rfl rfl rfl, rfl,
      withBoth_soundIntake rfl (by decide), ?_⟩,
    ⟨arrived (entry 7 239) (withBoth (accountIn .active) (intakeIn .free)), placement_turn rfl rfl rfl, rfl, withBoth_soundIntake rfl (by decide),
      by decide⟩⟩
  change ((withBoth _ _).intake 7).lane ≠ 0
  rw [withBoth_intake]; decide

/-- The calendar with C = 119, so that E is 118. -/
def cal119 : Calendar := { calendarAt 900 none with currentTag := 119 }

/-- An entry whose intake fails its check word. -/
theorem witness_PlacementTakesTheHeadEntry_failing :
    ∃ s : State, s.atRest = false ∧ s.engine ≠ .held ∧ s.boundaryOpen = false ∧ s.arrivals = [entry 7 255] ∧
      (entry 7 255).intake.toNat = (7 : IntakeNo).val ∧ s.ledger.FailingIntake 7 :=
  ⟨arrived (entry 7 255) (tariffed.storeIntake 7 failingIntake), rfl, fun h => (nomatch h), rfl, rfl, rfl,
    storedIntake_fails _⟩

/-- Each of the four grounds for holding energy. -/
theorem witness_PlacementHoldsEnergy :
    (entry 7 103).intake.toNat = (7 : IntakeNo).val ∧ (cal119.currentTag - 1 - (103 : Tag)).toNat = 15 ∧
      (∃ l : Ledger, l.SoundIntake 7 ∧ (l.intake 7).phase ≠ .undefined ∧ (l.intake 7).lane = (entry 7 103).lane ∧
        (l.intake 7).change = none ∧ (l.intake 7).owner = none) ∧
      (∃ l : Ledger, l.SoundIntake 7 ∧ (l.intake 7).owner = some 5 ∧ (l.intake 7).change = none ∧ l.SoundAccount 5 ∧
        (l.account 5).state ≠ .active) ∧
      ∃ l : Ledger, l.SoundIntake 7 ∧ (l.intake 7).owner = some 5 ∧ (l.intake 7).change = none ∧ l.SoundAccount 5 ∧
        (l.intake 7).ownerSince = some 118 ∧
        (cal119.currentTag - (118 : Tag)).toNat < (cal119.currentTag - (103 : Tag)).toNat := by
  refine ⟨by decide, by decide, ⟨withBoth (accountIn .active) (intakeIn .free), withBoth_soundIntake rfl (by decide), ?_⟩,
    ⟨withBoth (accountIn .suspended) member, withBoth_soundIntake rfl (by decide), ?_⟩,
    ⟨withBoth (accountIn .active) member, withBoth_soundIntake rfl (by decide), ?_⟩⟩
  · rw [withBoth_intake]; decide
  · rw [withBoth_intake, withBoth_account]; exact ⟨rfl, rfl, withBoth_sound rfl, by decide⟩
  · rw [withBoth_intake]; exact ⟨rfl, rfl, withBoth_sound rfl, rfl, by decide⟩

/-- On time with a pending slot of the tag, and late at tag distance 15 with an owner-since tag that age has cleared. -/
theorem witness_PlacementBillsEnergy :
    (∃ l : Ledger, l.SoundIntake 7 ∧ l.intake 7 = member.seal ∧
      (cal119.currentTag - (118 : Tag)).toNat ≤ (cal119.currentTag - (118 : Tag)).toNat ∧ l.SoundAccount 5 ∧
      (l.account 5).phase = .active ∧ (l.account 5).storedSlot = some emptyPending ∧
      (entry 7 118).tag = cal119.currentTag - 1 ∧ emptyPending.tag = (entry 7 118).tag) ∧
      ∃ l : Ledger, l.SoundIntake 7 ∧ l.intake 7 = ({ member with ownerSince := none } : Intake).seal ∧
        (cal119.currentTag - 1 - (103 : Tag)).toNat ≤ 15 ∧ l.SoundAccount 5 ∧ (l.account 5).phase = .active ∧
        (l.account 5).storedSlot = some emptyPending ∧ (entry 7 103).tag ≠ cal119.currentTag - 1 := by
  refine ⟨⟨withBoth { accountIn .active with storedSlot := some emptyPending } member,
      withBoth_soundIntake rfl (by decide), withBoth_intake _ _, by decide, withBoth_sound rfl, ?_⟩,
    ⟨withBoth { accountIn .active with storedSlot := some emptyPending } { member with ownerSince := none },
      withBoth_soundIntake rfl (by decide), withBoth_intake _ _, by decide, withBoth_sound rfl, ?_⟩⟩
  · rw [withBoth_account]; decide
  · rw [withBoth_account]; decide

/-- The effective owner of an entry of tag 103, of age 16, by a pending change: a join and a leave at or before the tag
give their targets, and a join and a leave after it the present owner, none and slot 5. -/
theorem witness_PlacementByPendingChange :
    (cal119.currentTag - (entry 7 103).tag).toNat = 16 ∧
      ∀ x ∈
        [({ intakeIn .free with change := some { target := some 5, tag := 103 } }, some 5),
          ({ member with change := some { target := none, tag := 103 } }, none),
          ({ intakeIn .free with change := some { target := some 5, tag := 104 } }, none),
          ({ member with ownerSince := none, change := some { target := none, tag := 104 } }, some (5 : Slot))],
        ∃ l : Ledger, l.SoundIntake 7 ∧ l.intake 7 = Intake.seal x.1 ∧ (l.intake 7).phase ≠ .undefined ∧
          (l.intake 7).lane = (entry 7 103).lane ∧ l.SoundAccount 5 ∧ (l.account 5).phase = .active ∧
          (match (l.intake 7).change with
            | none => (l.intake 7).owner
            | some change =>
              if (cal119.currentTag - (103 : Tag)).toNat ≤ (cal119.currentTag - change.tag).toNat then change.target
              else (l.intake 7).owner) = x.2 := by
  refine ⟨by decide, fun x hx => ⟨withBoth (accountIn .active) x.1, ?_, withBoth_intake _ _, ?_⟩⟩
  · simp only [List.mem_cons, List.not_mem_nil, or_false] at hx
    rcases hx with rfl | rfl | rfl | rfl <;> exact withBoth_soundIntake rfl (by decide)
  · rw [withBoth_intake, withBoth_account]
    simp only [List.mem_cons, List.not_mem_nil, or_false] at hx
    rcases hx with rfl | rfl | rfl | rfl <;> exact ⟨by decide, rfl, withBoth_sound rfl, rfl, by decide⟩

/-! ### Witnesses: the Interval Engine and demand -/

/-- A part in RUN with one item of work. -/
def working (w : WorkItem) (l : Ledger) : State := { site .run l with work := [w], calendar := cal119 }

/-- The Interval Engine waits while its item needs an operation. -/
theorem working_waits {w : WorkItem} {l : Ledger} (h : workDone cal119 l w = false) :
    (working w l).memberWaits .intervalEngine = true := by
  change (!(openWork cal119 l [w]).isEmpty || _) = true
  simp [openWork, List.dropWhile, h]

/-- A boundary with a due change on intake 7 waits for its fold. -/
theorem folding_waits {l : Ledger}
    (h : (!(l.intake 7).faultMark && (l.intake 7).change.any (PendingChange.dueAt cal119 118)) = true) :
    (working (.boundary 118 900 .folds) l).memberWaits .intervalEngine = true := by
  have hd : (l.dueFold cal119 118).isNone = false := by
    rw [Option.isNone_eq_false_iff, Ledger.dueFold, List.find?_isSome]
    exact ⟨7, List.mem_finRange _, h⟩
  exact working_waits (by change (_ && _) = false; rw [hd]; rfl)

/-- A boundary that has yet to visit slot 5, in a billing state, waits. -/
theorem visiting_waits {phase : BoundaryPhase} {t : Seconds} {l : Ledger} (h : (l.account 5).bills = true)
    (hp : phase = .folds ∨ phase = .visits 0 ∨ phase = .visits 5) :
    (working (.boundary 118 t phase) l).memberWaits .intervalEngine = true := by
  have hn (k : Nat) (hk : k ≤ 5) : (l.nextVisit k).isNone = false := by
    rw [Option.isNone_eq_false_iff, Ledger.nextVisit, List.find?_isSome]
    exact ⟨5, List.mem_finRange _, by simp only [h, Bool.and_true, decide_eq_true_eq]; exact hk⟩
  rcases hp with rfl | rfl | rfl
  · exact working_waits (by change (_ && (l.nextVisit 0).isNone) = false; rw [hn 0 (by decide), Bool.and_false])
  · exact working_waits (hn 0 (by decide))
  · exact working_waits (hn 5 (by decide))

/-- A grace item waits while slot 5 holds its tag. -/
theorem closing_waits {l : Ledger} (h : (l.account 5).pendingSlot.map (·.tag) = some 118) :
    (working (.grace 118 5) l).memberWaits .intervalEngine = true := by
  have hn : (l.nextHolding 118 5).isNone = false := by
    rw [Option.isNone_eq_false_iff, Ledger.nextHolding, List.find?_isSome]
    refine ⟨5, List.mem_finRange _, ?_⟩
    cases hs : (l.account 5).pendingSlot with
    | none => rw [hs] at h; cases h
    | some p =>
      rw [hs] at h
      have h' : p.tag = 118 := Option.some.inj h
      simp only [Option.any_some, h']
      decide
  exact working_waits hn

/-- The age of an owner-since tag at 15 and 16; a due fold; a join with a sound and with a marked target; a leave with a
sound and with a marked owner. -/
theorem witness_AgeingAndFolds :
    (∀ since ∈ [(103 : Tag), 104], ∃ s : State, s.memberTurn .intervalEngine = true ∧ s.work = [.boundary 118 900 .ageing] ∧
      s.ledger.SoundIntake 7 ∧ (s.ledger.intake 7).ownerSince = some since) ∧
      (∀ tag ∈ [(118 : Tag), 117], ∃ s : State, s.memberTurn .intervalEngine = true ∧ s.work = [.boundary 118 900 .folds] ∧
        (s.ledger.intake 7).faultMark = false ∧ (s.ledger.intake 7).change = some { target := some 5, tag := tag } ∧
        (s.calendar.currentTag - 118).toNat ≤ (s.calendar.currentTag - tag).toNat ∧
        ∀ j, j < 7 → (s.ledger.intake j).change = none) ∧
      (∃ l : Ledger, l.SoundIntake 7 ∧ (l.intake 7).change = some { target := some 5, tag := 118 } ∧ l.SoundAccount 5 ∧
        (l.account 5).bills = true) ∧
      (∃ l : Ledger, l.SoundIntake 7 ∧ (l.intake 7).change = some { target := some 5, tag := 118 } ∧
        (l.account 5).faultMark = true) ∧
      ∀ l ∈ [withAccount (accountIn .active), withMarked], ∃ l' : Ledger, l'.account 5 = l.account 5 ∧ l'.SoundIntake 7 ∧
        (l'.intake 7).owner = some 5 ∧ (l'.intake 7).change = some { target := none, tag := 118 } := by
  refine ⟨fun since _ => ⟨working (.boundary 118 900 .ageing)
        (withBoth (accountIn .active) { member with ownerSince := some since }), interval_turn rfl rfl rfl rfl rfl, rfl,
      withBoth_soundIntake rfl (fun h => nomatch h), ?_⟩,
    fun tag ht => ⟨working (.boundary 118 900 .folds)
        (withBoth (accountIn .active) { joiner with change := some { target := some 5, tag := tag } }),
      interval_turn rfl rfl rfl rfl (folding_waits ?_), rfl,
      congrArg Intake.faultMark (withBoth_intake _ _), congrArg Intake.change (withBoth_intake _ _),
      by revert tag; decide, fun j hj => ?_⟩,
    ⟨withBoth (accountIn .active) joiner, withBoth_soundIntake rfl (by decide), ?_⟩,
    ⟨withMarked.putIntake 7 joiner, sound_putIntake rfl (by decide), ?_, congrArg Account.faultMark withMarked_self⟩,
    fun l _ => ⟨l.putIntake 7 { member with change := some { target := none, tag := 118 } }, rfl,
      sound_putIntake rfl (by decide), ?_⟩⟩
  · exact congrArg Intake.ownerSince (withBoth_intake _ _)
  · rw [withBoth_intake]; revert tag; decide
  · change ((withBoth _ _).intake j).change = none
    rw [withBoth, Ledger.intake_putIntake_ne _ _ (fun e => by subst e; exact absurd hj (by decide))]
    simp [withAccount, tariffed, Ledger.putAccount, Ledger.storeAccount, Ledger.intake, Ledger.cold, Intake.undefined,
      Intake.seal]
  · rw [withBoth_intake, withBoth_account]; exact ⟨rfl, withBoth_sound rfl, rfl⟩
  · exact congrArg Intake.change (Ledger.intake_putIntake_self _ _ _)
  · rw [Ledger.intake_putIntake_self]; exact ⟨rfl, rfl⟩

/-- Folds whose intake, whose target and whose owner fail their check words. -/
theorem witness_AgeingAndFolds_failing :
    (∃ l : Ledger, l.FailingIntake 7) ∧
      ∀ x ∈ [joiner, { member with change := some { target := none, tag := 118 } }], ∃ l : Ledger, l.SoundIntake 7 ∧
        l.intake 7 = Intake.seal x ∧ l.FailingAccount 5 := by
  refine ⟨⟨_, storedIntake_fails tariffed⟩, fun x hx => ⟨withFailing.putIntake 7 x, ?_,
    Ledger.intake_putIntake_self _ _ _, withFailing_fails⟩⟩
  simp only [List.mem_cons, List.not_mem_nil, or_false] at hx
  rcases hx with rfl | rfl <;> exact sound_putIntake rfl (by decide)

/-- The visit of an ACTIVE account with a member and of a SUSPENDED one, at its close instant (0, second 0 of hour 0 on
day 1) and at another. -/
theorem witness_AccountVisitOpensTheSlot :
    ∀ phase ∈ [AccountPhase.active, .suspended], ∀ t ∈ [0, 900], ∃ s : State, s.memberTurn .intervalEngine = true ∧
      s.work = [.boundary 118 t (.visits 5)] ∧ (s.ledger.account 5).bills = true ∧
      (∀ j : Slot, 5 ≤ j.val → j < 5 → (s.ledger.account j).bills = false) ∧ s.ledger.SoundAccount 5 ∧
      (s.ledger.account 5).phase = phase ∧ (s.ledger.account 5).members ≠ [] ∧ (s.ledger.account 5).closeDue = none ∧
      (s.ledger.account 5).closeDay = (dateTimeOf 0).day := by
  refine fun phase hp t _ => ⟨working (.boundary 118 t (.visits 5)) (withAccount { accountIn phase with members := [7] }),
    interval_turn rfl rfl rfl rfl (visiting_waits ?_ (.inr (.inr rfl))), rfl, ?_,
    fun j h h' => absurd h (Nat.not_le.mpr h'), withAccount_sound rfl, ?_⟩
  · refine (congrArg Account.bills (withAccount_self _)).trans ?_
    revert phase; decide
  · refine (congrArg Account.bills (withAccount_self _)).trans ?_
    revert phase; decide
  · change ((withAccount _).account 5).phase = phase ∧ ((withAccount _).account 5).members ≠ [] ∧
      ((withAccount _).account 5).closeDue = none ∧ ((withAccount _).account 5).closeDay = _
    rw [withAccount_self]
    exact ⟨rfl, List.cons_ne_nil _ _, rfl, rfl⟩

/-- The first visit of a boundary follows its last fold, and a visit goes past the slots in neither billing state; an
account without members. -/
theorem witness_AccountVisitOpensTheSlot_first :
    ∀ phase ∈ [BoundaryPhase.folds, .visits 0], ∃ s : State, s.memberTurn .intervalEngine = true ∧ s.work = [.boundary 118 900 phase] ∧
      s.ledger.dueFold s.calendar 118 = none ∧ (∀ j : Slot, j < 5 → (s.ledger.account j).bills = false) ∧
      s.ledger.SoundAccount 5 ∧ (s.ledger.account 5).phase = .active ∧ (s.ledger.account 5).members = [] := by
  refine fun phase hp => ⟨working (.boundary 118 900 phase) (withAccount (accountIn .active)),
    interval_turn rfl rfl rfl rfl (visiting_waits (congrArg Account.bills (withAccount_self _)) ?_), rfl, ?_,
    fun j hj => ?_, withAccount_sound rfl, congrArg Account.phase (withAccount_self _),
    congrArg Account.members (withAccount_self _)⟩
  · simp only [List.mem_cons, List.not_mem_nil, or_false] at hp
    rcases hp with rfl | rfl
    · exact .inl rfl
    · exact .inr (.inl rfl)
  · change (withAccount (accountIn .active)).dueFold cal119 118 = none
    decide +kernel
  · change ((withAccount _).account j).bills = false
    rw [withAccount_other _ (fun e => by subst e; exact absurd hj (by decide))]
    rfl

/-- The visit of an account that fails its check word. -/
theorem witness_AccountVisitOpensTheSlot_failing :
    ∃ s : State, s.memberTurn .intervalEngine = true ∧ s.work = [.boundary 118 900 (.visits 5)] ∧
      (s.ledger.account 5).bills = true ∧ s.ledger.FailingAccount 5 :=
  ⟨working (.boundary 118 900 (.visits 5)) withFailing,
    interval_turn rfl rfl rfl rfl (visiting_waits (congrArg Account.bills withFailing_self) (.inr (.inr rfl))), rfl,
    congrArg Account.bills withFailing_self, withFailing_fails⟩

theorem witness_SlotClosureClosesTheItem :
    (∃ s : State, s.memberTurn .intervalEngine = true ∧ s.work = [.grace 118 5] ∧
      (s.ledger.account 5).pendingSlot.map (·.tag) = some 118) ∧
      ∀ slot ∈ [none, some emptyPending], ∃ s : State, s.memberTurn .intervalEngine = true ∧ s.work = [.completeness 5 118] ∧
        (s.ledger.account 5).state = .active ∧ (s.ledger.account 5).pendingSlot = slot := by
  refine ⟨⟨working (.grace 118 5) (withAccount { accountIn .active with storedSlot := some emptyPending }),
      interval_turn rfl rfl rfl rfl (closing_waits (congrArg (fun a : Account => a.pendingSlot.map (·.tag)) (withAccount_self _))),
      rfl, congrArg (fun a : Account => a.pendingSlot.map (·.tag)) (withAccount_self _)⟩,
    fun slot _ => ⟨working (.completeness 5 118) (withAccount { accountIn .active with storedSlot := slot }),
      interval_turn rfl rfl rfl rfl rfl, rfl, ?_⟩⟩
  change ((withAccount _).account 5).state = _ ∧ ((withAccount _).account 5).pendingSlot = _
  rw [withAccount_self]
  exact ⟨rfl, rfl⟩

/-- A slot that closes, with a member that has reported and one that has not, and a due; an account without one, a marked
one and a failing one; a member's silence, for an intake that is marked, that fails, and at the limit. -/
theorem witness_ClosureEntersTheWindowAndCountsSilence :
    (∀ l ∈ [tariffed, blockTariff, markedTariff, failingTariff], ∃ l' : Ledger, l'.tariff 3 = l.tariff 3 ∧
      l'.SoundAccount 5 ∧ (l'.account 5).tariff = 3 ∧ (l'.account 5).closeDue ≠ none ∧
      ∃ p, (l'.account 5).storedSlot = some p ∧ p.expected.map (·.reported) = [true, false]) ∧
      (∃ l : Ledger, l.SoundAccount 5 ∧ (l.account 5).storedSlot = none) ∧
      (∃ l : Ledger, (l.account 5).faultMark = true) ∧
      (∃ l : Ledger, (l.account 5).faultMark = false ∧ (l.account 5).phase ≠ .free ∧ (l.account 5).checks = false) ∧
      (∃ l : Ledger, (l.intake 7).faultMark = true) ∧
      (∃ l : Ledger, (l.intake 7).faultMark = false ∧ (l.intake 7).checks = false) ∧
      ∃ l : Ledger, l.SoundIntake 7 ∧ (l.intake 7).silentCount = 2 ∧ (l.intake 7).silent = false := by
  refine ⟨fun l _ => ⟨l.putAccount 5
        { accountIn .active with
          closeDue := some { cause := .host, time := 900 }
          storedSlot :=
            some { emptyPending with expected := [{ intake := 7, reported := true }, { intake := 8, reported := false }] } },
      rfl, sound_put rfl, ?_⟩,
    ⟨withAccount (accountIn .active), withAccount_sound rfl, congrArg Account.storedSlot (withAccount_self _)⟩,
    ⟨withMarked, congrArg Account.faultMark withMarked_self⟩, ⟨withFailing, ?_⟩,
    ⟨withBoth (accountIn .active) { member with faultMark := true }, congrArg Intake.faultMark (withBoth_intake _ _)⟩,
    ⟨tariffed.storeIntake 7 failingIntake, ?_⟩,
    ⟨withBoth (accountIn .active) { member with silentCount := 2 }, withBoth_soundIntake rfl (by decide), ?_⟩⟩
  · rw [put_self]
    exact ⟨rfl, fun h => (nomatch h), _, rfl, rfl⟩
  · rw [withFailing_self]; exact ⟨rfl, fun h => (nomatch h), failing_fails⟩
  · rw [storedIntake_self]; exact ⟨rfl, failingIntake_fails⟩
  · rw [withBoth_intake]; exact ⟨rfl, rfl⟩

/-- The quantity of a KW window, and that of a KVA window, exist: 19,050,490,000 has the root 138,023. -/
theorem witness_EvaluationFollowsTheTariff :
    ∃ quantity : Nat, quantity * quantity ≤ 124300 * 124300 + 60000 * 60000 ∧
      124300 * 124300 + 60000 * 60000 < (quantity + 1) * (quantity + 1) :=
  ⟨138023, by decide⟩

theorem witness_BandNotifyAndSpotDemand :
    (∃ s : State, s.memberTurn .intervalEngine = true ∧ s.mode = .run ∧ s.work = [.minute 86400] ∧
      (∃ a, (s.ledger.account a).state ≠ .free ∧ (s.ledger.account a).tariff = 3) ∧ s.ledger.ReadyTariff 3) ∧
      (∃ s : State, s.memberTurn .intervalEngine = true ∧ s.mode = .run ∧ s.work = [.minute 86400] ∧
        (∃ a, (s.ledger.account a).state ≠ .free ∧ (s.ledger.account a).tariff = 3) ∧
        (s.ledger.tariff 3).state = .ready ∧ s.ledger.FailingTariff 3) ∧
      ∀ l ∈ [tariffed, markedTariff, failingTariff], ∃ s : State, s.Granted .readDemand [5] ∧ s.ledger.SoundAccount 5 ∧
        (s.ledger.account 5).phase ≠ .free ∧ s.ledger.tariff (s.ledger.account 5).tariff = l.tariff 3 ∧
        s.ledger.pool = l.pool := by
  refine ⟨⟨working (.minute 86400) (withAccount (accountIn .active)), interval_turn rfl rfl rfl rfl rfl, rfl, rfl,
      ⟨5, ?_⟩, withAccount_ready _⟩,
    ⟨working (.minute 86400) (failingTariff.putAccount 5 (accountIn .active)), interval_turn rfl rfl rfl rfl rfl, rfl, rfl,
      ⟨5, ?_⟩, by decide +kernel, failingTariff_fails⟩,
    fun l _ => ⟨asking .readDemand [5] (site .run (l.putAccount 5 (accountIn .active))),
      asking_granted rfl (by decide) (by decide) rfl, sound_put rfl, ?_⟩⟩
  · change ((withAccount _).account 5).state ≠ _ ∧ ((withAccount _).account 5).tariff = 3
    rw [withAccount_self]
    exact ⟨by decide, rfl⟩
  · change ((failingTariff.putAccount 5 (accountIn .active)).account 5).state ≠ _ ∧
      ((failingTariff.putAccount 5 (accountIn .active)).account 5).tariff = 3
    rw [put_self]
    exact ⟨by decide, rfl⟩
  · change ((l.putAccount 5 (accountIn .active)).account 5).phase ≠ _ ∧
      l.tariff ((l.putAccount 5 (accountIn .active)).account 5).tariff = l.tariff 3 ∧ l.pool = l.pool
    rw [put_self]
    exact ⟨by decide, rfl, rfl⟩

/-! ### Witnesses: settlement -/

/-- A close due. -/
def demoDue : CloseDue := { cause := .host, time := 900 }

/-- The roots that the power factor speaks of, and a ratchet history with a largest value. -/
theorem witness_CloseSettlesThePeriod :
    (363593179 * 363593179 ≤ 310000000 * 310000000 + 190000000 * 190000000 ∧
      310000000 * 310000000 + 190000000 * 190000000 < (363593179 + 1) * (363593179 + 1)) ∧
      some 620000 ∈ (Vector.replicate 11 (some 620000)).toList ∧
      ∀ v, some v ∈ (Vector.replicate 11 (some 620000)).toList → v ≤ 620000 := by
  refine ⟨by decide, by decide, fun v h => ?_⟩
  simp only [Vector.toList_replicate, List.mem_replicate, Option.some.injEq] at h
  omega

/-- The examination of slot 5: without a due, with a pending slot, under a settled section with CLOSE_BLOCKED clear and
set, under a FAULTED tariff, and under a READY one. -/
theorem witness_ExaminationClosesOrBlocks :
    (∀ due ∈ [none, some demoDue], ∀ slot ∈ [none, some emptyPending], ∀ frozen ∈ [none, some demoSettled],
      ∀ blocked : Bool, ∃ s : State, s.memberTurn .settlementEngine = true ∧ s.ledger.closeWork = [5] ∧ s.ledger.SoundAccount 5 ∧
        (s.ledger.account 5).bills = true ∧ (s.ledger.account 5).closeDue = due ∧
        (s.ledger.account 5).storedSlot = slot ∧ (s.ledger.account 5).settled = frozen ∧
        (s.ledger.account 5).closeBlocked = blocked ∧ s.ledger.ReadyTariff 3) ∧
      ∃ l : Ledger, l.SoundAccount 5 ∧ (l.account 5).closeDue = some demoDue ∧ (l.account 5).settled = none ∧
        (l.tariff (l.account 5).tariff).faultMark = true := by
  refine ⟨fun due _ slot _ frozen _ blocked =>
    ⟨site .run { withAccount
        { accountIn .active with closeDue := due, storedSlot := slot, settled := frozen, closeBlocked := blocked } with
        closeWork := [5] }, settlement_turn rfl rfl rfl rfl rfl rfl, rfl, withAccount_sound rfl, ?_⟩,
    ⟨(tariffed.storeTariff 3 { demoTariff with faultMark := true }).putAccount 5
        { accountIn .active with closeDue := some demoDue }, sound_put rfl, ?_⟩⟩
  · have held (a : Account) : ({ withAccount a with closeWork := [5] } : Ledger).account 5 = a.seal := withAccount_self a
    exact ⟨congrArg Account.bills (held _), congrArg Account.closeDue (held _), congrArg Account.storedSlot (held _),
      congrArg Account.settled (held _), congrArg Account.closeBlocked (held _), tariffed_ready⟩
  · rw [Ledger.account_putAccount_self]
    exact ⟨rfl, rfl, by decide +kernel⟩

/-- The examination of a marked account, of a failing one, of a failing FREE slot, and of a sound one with a due under a
failing tariff. -/
theorem witness_ExaminationClosesOrBlocks_failing :
    (∃ s : State, s.memberTurn .settlementEngine = true ∧ s.ledger.closeWork = [5] ∧ (s.ledger.account 5).faultMark = true) ∧
      (∃ s : State, s.memberTurn .settlementEngine = true ∧ s.ledger.closeWork = [5] ∧ s.ledger.FailingAccount 5) ∧
      (∃ s : State, s.memberTurn .settlementEngine = true ∧ s.ledger.closeWork = [5] ∧ (s.ledger.account 5).faultMark = false ∧
        (s.ledger.account 5).phase = .free ∧ (s.ledger.account 5).checks = false) ∧
      ∃ s : State, s.memberTurn .settlementEngine = true ∧ s.ledger.closeWork = [5] ∧ s.ledger.SoundAccount 5 ∧
        (s.ledger.account 5).bills = true ∧ (s.ledger.account 5).closeDue = some demoDue ∧
        (s.ledger.account 5).storedSlot = none ∧ (s.ledger.account 5).settled = none ∧
        s.ledger.FailingTariff (s.ledger.account 5).tariff := by
  have failingFree : ({ Account.coldContent with checkWord := 1 } : Account).checks = false := by decide +kernel
  refine ⟨⟨site .run { withMarked with closeWork := [5] }, settlement_turn rfl rfl rfl rfl rfl rfl, rfl, congrArg Account.faultMark withMarked_self⟩,
    ⟨site .run { withFailing with closeWork := [5] }, settlement_turn rfl rfl rfl rfl rfl rfl, rfl, withFailing_fails⟩,
    ⟨site .run { tariffed.storeAccount 5 { Account.coldContent with checkWord := 1 } with closeWork := [5] }, settlement_turn rfl rfl rfl rfl rfl rfl, rfl, ?_⟩,
    ⟨site .run { failingTariff.putAccount 5 { accountIn .active with closeDue := some demoDue } with closeWork := [5] },
      rfl, rfl, sound_put (l := failingTariff) rfl, ?_⟩⟩
  · change ((tariffed.storeAccount 5 _).account 5).faultMark = _ ∧ ((tariffed.storeAccount 5 _).account 5).phase = _ ∧
      ((tariffed.storeAccount 5 _).account 5).checks = _
    rw [stored_self]; exact ⟨rfl, rfl, failingFree⟩
  · change ((failingTariff.putAccount 5 _).account 5).bills = _ ∧ ((failingTariff.putAccount 5 _).account 5).closeDue = _ ∧
      ((failingTariff.putAccount 5 _).account 5).storedSlot = _ ∧ ((failingTariff.putAccount 5 _).account 5).settled = _ ∧
      failingTariff.FailingTariff ((failingTariff.putAccount 5 _).account 5).tariff
    rw [put_self]; exact ⟨rfl, rfl, rfl, rfl, failingTariff_fails⟩

/-- The other refusals of CHANGE_TARIFF: a FINAL account; an ACTIVE one under a marked and under a failing tariff; a new
tariff that is EMPTY, and one that fails. -/
theorem witness_CloseRequests_refusals :
    (∃ s : State, s.Granted .changeTariff [5, 3] ∧ s.ledger.SoundAccount 5 ∧ (s.ledger.account 5).phase = .final) ∧
      (∃ s : State, s.Granted .changeTariff [5, 3] ∧ s.ledger.SoundAccount 5 ∧
        s.ledger.account 5 = (accountIn .active).seal ∧ (s.ledger.tariff 3).faultMark = true) ∧
      (∃ s : State, s.Granted .changeTariff [5, 3] ∧ s.ledger.SoundAccount 5 ∧
        s.ledger.account 5 = (accountIn .active).seal ∧ s.ledger.FailingTariff 3) ∧
      (∃ s : State, s.Granted .changeTariff [5, 0] ∧ s.ledger.SoundAccount 5 ∧
        s.ledger.account 5 = (accountIn .active).seal ∧ s.ledger.ReadyTariff 3 ∧
        (s.ledger.tariff 0).state ≠ .ready ∧ ¬s.ledger.FailingTariff 0) ∧
      ∃ s : State, s.Granted .changeTariff [5, 0] ∧ s.ledger.SoundAccount 5 ∧
        s.ledger.account 5 = (accountIn .active).seal ∧ s.ledger.ReadyTariff 3 ∧ s.ledger.FailingTariff 0 := by
  have issue (p : List Byte) (l : Ledger) (h : p.length = 2) : (asked .changeTariff p l).Granted .changeTariff p :=
    asked_granted l (by omega) (by simp only [RequestCode.lengthFits, h]; rfl) rfl
  refine ⟨⟨_, issue _ (withAccount (accountIn .final)) rfl, withAccount_sound rfl, congrArg Account.phase (withAccount_self _)⟩,
    ⟨_, issue _ (markedTariff.putAccount 5 (accountIn .active)) rfl, sound_put rfl, put_self _ _, markedTariff_marked⟩,
    ⟨_, issue _ (failingTariff.putAccount 5 (accountIn .active)) rfl, sound_put rfl, put_self _ _, failingTariff_fails⟩,
    ⟨_, issue _ (withAccount (accountIn .active)) rfl, withAccount_sound rfl, withAccount_self _, withAccount_ready _, ?_,
      fun h => ?_⟩,
    ⟨_, issue _ ((tariffed.storeTariff 0 { Tariff.coldContent with checkWord := 1 }).putAccount 5 (accountIn .active)) rfl,
      sound_put rfl, put_self _ _, ?_, ?_⟩⟩
  · change (tariffed.tariff 0).state ≠ .ready
    decide +kernel
  · have h' : (tariffed.tariff 0).checks tariffed.pool 0 = false := h.2
    exact absurd h' (by decide +kernel)
  · refine ready_putAccount ⟨?_, ?_⟩ <;> decide +kernel
  · refine ⟨?_, ?_⟩
    · change ((tariffed.storeTariff 0 _).tariff 0).faultMark = false
      decide +kernel
    · change ((tariffed.storeTariff 0 _).tariff 0).checks tariffed.pool 0 = false
      decide +kernel

/-- CLOSE_NOW and RELEASE_SETTLEMENT in each state, without and with a due and a section; CHANGE_TARIFF to tariff 3 by a
billing account, with and without a period start. -/
theorem witness_CloseRequests :
    (∀ k ∈ [RequestCode.closeNow, .releaseSettlement], ∀ phase ∈ [AccountPhase.active, .suspended, .final],
      ∀ due ∈ [none, some demoDue], ∀ frozen ∈ [none, some demoSettled], ∃ s : State, s.Granted k [5] ∧
        field 0 1 [5] = (5 : Slot).val ∧ s.ledger.SoundAccount 5 ∧ (s.ledger.account 5).phase = phase ∧
        (s.ledger.account 5).closeDue = due ∧ (s.ledger.account 5).settled = frozen) ∧
      ∀ start ∈ [none, some 0], ∀ due ∈ [none, some demoDue], ∀ slot ∈ [none, some emptyPending],
        ∀ frozen ∈ [none, some demoSettled], ∃ s : State, s.Granted .changeTariff [5, 3] ∧
          field 0 1 [5, 3] = (5 : Slot).val ∧ field 1 1 [5, 3] = (3 : TariffNo).val ∧ s.ledger.SoundAccount 5 ∧
          (s.ledger.account 5).bills = true ∧ (s.ledger.account 5).period.start = start ∧
          (s.ledger.account 5).closeDue = due ∧ (s.ledger.account 5).storedSlot = slot ∧
          (s.ledger.account 5).settled = frozen ∧ s.ledger.ReadyTariff (s.ledger.account 5).tariff ∧
          s.ledger.ReadyTariff 3 := by
  refine ⟨fun k hk phase _ due _ frozen _ =>
      ⟨asking k [5] (site .run (withAccount { accountIn phase with closeDue := due, settled := frozen })), ?_,
        by decide, withAccount_sound rfl, ?_⟩,
    fun start _ due _ slot _ frozen _ =>
      ⟨asking .changeTariff [5, 3] (site .run (withAccount
          { accountIn .active with
            period := { Period.cold with start := start }, closeDue := due, storedSlot := slot, settled := frozen })),
        asking_granted rfl (by decide) (by decide) rfl, by decide, by decide, withAccount_sound rfl, ?_⟩⟩
  · simp only [List.mem_cons, List.not_mem_nil, or_false] at hk
    rcases hk with rfl | rfl <;> exact asking_granted rfl (by decide) (by decide) rfl
  · change ((withAccount _).account 5).phase = _ ∧ ((withAccount _).account 5).closeDue = _ ∧
      ((withAccount _).account 5).settled = _
    rw [withAccount_self]
    exact ⟨rfl, rfl, rfl⟩
  · change ((withAccount _).account 5).bills = _ ∧ ((withAccount _).account 5).period.start = _ ∧
      ((withAccount _).account 5).closeDue = _ ∧ ((withAccount _).account 5).storedSlot = _ ∧
      ((withAccount _).account 5).settled = _ ∧ (withAccount _).ReadyTariff ((withAccount _).account 5).tariff ∧
      (withAccount _).ReadyTariff 3
    rw [withAccount_self]
    exact ⟨rfl, rfl, rfl, rfl, rfl, withAccount_ready _, withAccount_ready _⟩

/-! ### Witnesses: repair, modes and starts -/

/-- REPAIR_ACCOUNT of slot 5 with the identity of OPEN_ACCOUNT and no ratchet history. -/
def repairParams : List Byte := 5 :: openParams ++ List.replicate 46 0

theorem witness_RepairAccountRebuilds :
    ∃ s : State, s.Granted .repairAccount repairParams ∧ field 0 1 repairParams = (5 : Slot).val ∧
      field 1 4 repairParams ≠ 0 ∧ field 5 1 repairParams = (3 : TariffNo).val ∧ field 10 1 repairParams ≤ 100 ∧
      1 ≤ field 11 1 repairParams ∧ field 11 1 repairParams ≤ 28 ∧ field 12 1 repairParams ≤ 23 ∧
      (s.ledger.account 5).faultMark = true ∧ s.ledger.ReadyTariff 3 ∧
      ∀ j, j ≠ 5 → (s.ledger.account j).state ≠ .free → (s.ledger.account j).number ≠ field 1 4 repairParams := by
  refine ⟨asking .repairAccount repairParams (site .run withMarked), asking_granted rfl (by decide) (by decide) rfl,
    by decide, by decide, by decide, by decide, by decide, by decide, by decide,
    congrArg Account.faultMark withMarked_self, tariffed_ready, fun j hj h => absurd ?_ h⟩
  change (withMarked.account j).state = _
  rw [withMarked, Ledger.account_storeAccount_ne _ _ (Ne.symm hj), tariffed_account]
  rfl

theorem repair_granted (l : Ledger) : (asked .repairAccount repairParams l).Granted .repairAccount repairParams :=
  asked_granted l (by decide) (by decide) rfl

/-- The verification of every intake, with a failing one and with none. The refusals of REPAIR_ACCOUNT: slot 64; on slot 5 a
FREE slot and a sound account; on a marked one, under an EMPTY and a failing tariff, and with a number that slot 0 holds. -/
theorem witness_RepairAccountRebuilds_refusals :
    ((∃ l : Ledger, l.FailingIntake 7) ∧ ∃ l : Ledger, ∀ j, ¬l.FailingIntake j) ∧
      (∃ s : State, s.Granted .repairAccount (64 :: repairParams.tail) ∧ 63 < field 0 1 (64 :: repairParams.tail)) ∧
      (∃ s : State, s.Granted .repairAccount repairParams ∧ (s.ledger.account 5).state = .free) ∧
      (∃ s : State, s.Granted .repairAccount repairParams ∧ (s.ledger.account 5).state = .active ∧
        (s.ledger.account 5).faultMark = false) ∧
      (∃ s : State, s.Granted .repairAccount repairParams ∧ (s.ledger.account 5).faultMark = true ∧
        (s.ledger.tariff 3).state ≠ .ready ∧ ¬s.ledger.FailingTariff 3) ∧
      (∃ s : State, s.Granted .repairAccount repairParams ∧ (s.ledger.account 5).faultMark = true ∧
        s.ledger.FailingTariff 3) ∧
      ∃ s : State, s.Granted .repairAccount repairParams ∧ (s.ledger.account 5).faultMark = true ∧
        s.ledger.ReadyTariff 3 ∧ (s.ledger.account 0).state ≠ .free ∧
        (s.ledger.account 0).number = field 1 4 repairParams := by
  have mark (l : Ledger) : ((l.storeAccount 5 { accountIn .active with faultMark := true }).account 5).faultMark = true := by
    rw [stored_self]
  refine ⟨⟨⟨_, storedIntake_fails tariffed⟩, ⟨Ledger.cold, fun j h => ?_⟩⟩,
    ⟨asked .repairAccount (64 :: repairParams.tail) tariffed, asked_granted _ (by decide) (by decide) rfl, by decide⟩,
    ⟨_, repair_granted tariffed, (congrArg Account.state (tariffed_account 5)).trans free_state⟩,
    ⟨_, repair_granted (withAccount (accountIn .active)), congrArg Account.state (withAccount_self _),
      congrArg Account.faultMark (withAccount_self _)⟩,
    ⟨_, repair_granted (markedTariff.storeAccount 5 { accountIn .active with faultMark := true }), mark _, ?_, fun h => ?_⟩,
    ⟨_, repair_granted (failingTariff.storeAccount 5 { accountIn .active with faultMark := true }), mark _,
      failingTariff_fails⟩,
    ⟨_, repair_granted (full.storeAccount 5 { accountIn .active with faultMark := true }), mark _, tariffed_ready, ?_⟩⟩
  · exact (cold_intakesSettled j).elim (fun m => by rw [h.1] at m; exact absurd m (by decide))
      (fun c => by rw [h.2] at c; exact absurd c (by decide))
  · change (markedTariff.tariff 3).state ≠ _
    decide +kernel
  · have h' : (markedTariff.tariff 3).faultMark = false := h.1
    rw [markedTariff_marked] at h'
    exact absurd h' (by decide)
  · change ((full.storeAccount 5 _).account 0).state ≠ _ ∧ ((full.storeAccount 5 _).account 0).number = _
    rw [Ledger.account_storeAccount_ne _ _ (by decide), full_account]
    decide

/-- DISCARD_ACCOUNT of slot 64, of a FREE slot, of a sound account, and of a marked one while an intake fails. REPAIR_INTAKE
with each parameter out of range, of a sound intake, and of a marked intake 7, while slot 0 fails, that no account lists and
that slots 5 and 6 list. -/
theorem witness_DiscardAndRepairIntake :
    (∃ s : State, s.Granted .discardAccount [64] ∧ 63 < field 0 1 [64]) ∧
      (∃ s : State, s.Granted .discardAccount [5] ∧ (s.ledger.account 5).state = .free) ∧
      (∃ s : State, s.Granted .discardAccount [5] ∧ (s.ledger.account 5).state = .active ∧
        (s.ledger.account 5).faultMark = false) ∧
      (∃ s : State, s.Granted .discardAccount [5] ∧ (s.ledger.account 5).faultMark = true ∧ s.ledger.FailingIntake 7) ∧
      (∀ p ∈ [[96, 3, 1, 0, 0, 0], [7, 4, 1, 0, 0, 0], [7, 3, 0, 0, 0, 0], [7, 3, 0x41, 0x42, 0x0F, 0]], ∃ s : State,
        s.Granted .repairIntake p) ∧
      (∃ s : State, s.Granted .repairIntake [7, 3, 0x40, 0x42, 0x0F, 0] ∧ (s.ledger.intake 7).faultMark = false) ∧
      ∀ members ∈ [[], [(7 : IntakeNo)]], ∃ s : State, s.Granted .repairIntake [7, 3, 0x40, 0x42, 0x0F, 0] ∧
        field 2 4 [7, 3, 0x40, 0x42, 0x0F, 0] = 1000000 ∧ (s.ledger.intake 7).faultMark = true ∧
        s.ledger.FailingAccount 5 ∧ (s.ledger.account 0).members = members ∧ (s.ledger.account 6).members = members ∧
        (s.ledger.account 0).bills = true ∧ (s.ledger.account 6).bills = true := by
  have discard (p : List Byte) (l : Ledger) (h : p.length = 1) : (asked .discardAccount p l).Granted .discardAccount p :=
    asked_granted l (by omega) (by simp only [RequestCode.lengthFits, h]; rfl) rfl
  have repair (p : List Byte) (l : Ledger) (h : p.length = 6) : (asked .repairIntake p l).Granted .repairIntake p :=
    asked_granted l (by omega) (by simp only [RequestCode.lengthFits, h]; rfl) rfl
  let listing (members : List IntakeNo) : Account := { accountIn .active with members := members }
  refine ⟨⟨_, discard _ tariffed rfl, by decide⟩,
    ⟨_, discard _ tariffed rfl, (congrArg Account.state (tariffed_account 5)).trans free_state⟩,
    ⟨_, discard _ (withAccount (accountIn .active)) rfl, congrArg Account.state (withAccount_self _),
      congrArg Account.faultMark (withAccount_self _)⟩,
    ⟨_, discard _ (withMarked.storeIntake 7 failingIntake) rfl, congrArg Account.faultMark withMarked_self,
      storedIntake_fails _⟩,
    fun p hp => ⟨_, repair p tariffed (by revert p; decide)⟩,
    ⟨_, repair _ (withBoth (accountIn .active) (intakeIn .free)) rfl, congrArg Intake.faultMark (withBoth_intake _ _)⟩,
    fun members _ => ⟨_, repair _
        ((failingOver ((tariffed.putAccount 0 (listing members)).putAccount 6 (listing members))).storeIntake 7
          { member with faultMark := true }) rfl, by decide, congrArg Intake.faultMark (storedIntake_self _ _),
      failingOver_fails _, ?_⟩⟩
  have at0 : (failingOver ((tariffed.putAccount 0 (listing members)).putAccount 6 (listing members))).account 0 =
      (listing members).seal := by
    rw [failingOver, Ledger.account_storeAccount_ne _ _ (by decide), Ledger.account_putAccount_ne _ _ (by decide),
      Ledger.account_putAccount_self]
  have at6 : (failingOver ((tariffed.putAccount 0 (listing members)).putAccount 6 (listing members))).account 6 =
      (listing members).seal := by
    rw [failingOver, Ledger.account_storeAccount_ne _ _ (by decide), Ledger.account_putAccount_self]
  exact ⟨congrArg Account.members at0, congrArg Account.members at6, congrArg Account.bills at0, congrArg Account.bills at6⟩

/-- A part whose sweep has reached a record. -/
def sweeping (p : Option SweepPosition) (l : Ledger) : State :=
  { site .run l with sweep := { position := p, faultCount := 0 } }

/-- VERIFY_STORE with the sweep IDLE and ACTIVE; the sweep at the last record of each kind, which verifies, and at a
failing account. -/
theorem witness_SweepVerifiesEachRecord :
    (∀ p ∈ [none, some (SweepPosition.intake 95)], ∃ s : State, s.Granted .verifyStore [] ∧ s.sweep.position = p) ∧
      (∃ s : State, s.memberTurn .integritySweep = true ∧ s.sweep.position = some (.tariff 15) ∧
        (s.ledger.tariff 15).checks s.ledger.pool 15 = true) ∧
      (∃ s : State, s.memberTurn .integritySweep = true ∧ s.sweep.position = some (.account 63) ∧ (s.ledger.account 63).checks = true) ∧
      (∃ s : State, s.memberTurn .integritySweep = true ∧ s.sweep.position = some (.account 5) ∧ (s.ledger.account 5).faultMark = false ∧
        (s.ledger.account 5).checks = false) ∧
      ∃ s : State, s.memberTurn .integritySweep = true ∧ s.sweep.position = some (.intake 95) ∧ (s.ledger.intake 95).checks = true := by
  refine ⟨fun p _ => ⟨asking .verifyStore [] (sweeping p .cold), asking_granted rfl (by decide) (by decide) rfl, rfl⟩,
    ⟨sweeping (some (.tariff 15)) .cold, sweep_turn rfl rfl rfl rfl rfl rfl rfl, rfl, by decide +kernel⟩,
    ⟨sweeping (some (.account 63)) .cold, sweep_turn rfl rfl rfl rfl rfl rfl rfl, rfl, by decide +kernel⟩,
    ⟨sweeping (some (.account 5)) withFailing, sweep_turn rfl rfl rfl rfl rfl rfl rfl, rfl, ?_⟩, ⟨sweeping (some (.intake 95)) .cold, sweep_turn rfl rfl rfl rfl rfl rfl rfl, rfl, by decide +kernel⟩⟩
  change (withFailing.account 5).faultMark = _ ∧ (withFailing.account 5).checks = _
  rw [withFailing_self]
  exact ⟨rfl, failing_fails⟩

/-- START_RUN with the calendar UNSET and SET, while no account fails its check word and while an ACTIVE one does. -/
theorem witness_StartRunEntersRun :
    ∀ isSet : Bool,
      (∃ s : State, s.Granted .startRun [] ∧ s.ledger.AccountsSettled ∧ s.calendar.isSet = isSet) ∧
        ∃ s : State, s.Granted .startRun [] ∧ s.calendar.isSet = isSet ∧ s.ledger.FailingAccount 5 ∧
          (s.ledger.account 5).phase = .active :=
  fun isSet =>
    ⟨⟨asking .startRun [] { State.reset with calendar := { Calendar.cold with isSet := isSet } },
      asking_granted rfl (by decide) (by decide) rfl, cold_accountsSettled, rfl⟩,
    ⟨asking .startRun [] { State.reset with calendar := { Calendar.cold with isSet := isSet }, ledger := withFailing },
      asking_granted rfl (by decide) (by decide) rfl, rfl, withFailing_fails, congrArg Account.phase withFailing_self⟩⟩

/-- STOP_RUN with every slot FREE and with none; SET_RUN_PARAMETERS good at the ends of its ranges, and bad in each
value; HOLD_ACCUMULATION and RELEASE_ACCUMULATION in each engine state. -/
theorem witness_ModeAndEngineRequests :
    (∃ s : State, s.Granted .stopRun [] ∧ ∀ i, (s.ledger.account i).state = .free) ∧
      (∃ s : State, s.Granted .stopRun [] ∧ ∃ i, (s.ledger.account i).state ≠ .free) ∧
      (∀ p ∈ [[1, 5, 1, 0], [30, 120, 255, 255], [4, 5, 1, 0], [15, 4, 1, 0], [1, 60, 1, 0], [15, 60, 0, 0]],
        ∃ s : State, s.Granted .setRunParameters p ∧ ∀ i, (s.ledger.tariff i).evaluation ≠ .block) ∧
      ∀ k ∈ [RequestCode.holdAccumulation, .releaseAccumulation], ∀ e ∈ [EngineState.running, .stopping, .held],
        ∃ s : State, s.Granted k [] ∧ s.engine = e := by
  refine ⟨⟨asking .stopRun [] (site .run .cold), asking_granted rfl (by decide) (by decide) rfl, fun i => ?_⟩,
    ⟨asking .stopRun [] (site .run full), asking_granted rfl (by decide) (by decide) rfl, 0, ?_⟩,
    fun p hp => ⟨asking .setRunParameters p .reset, ?_, fun i => ?_⟩,
    fun k hk e _ => ⟨asking k [] { State.reset with engine := e }, ?_, rfl⟩⟩
  · exact (congrArg Account.state (show Ledger.cold.account i = Account.free by simp [Ledger.cold, Ledger.account])).trans
      free_state
  · change (full.account 0).state ≠ _
    rw [full_account]; decide
  · simp only [List.mem_cons, List.not_mem_nil, or_false] at hp
    rcases hp with rfl | rfl | rfl | rfl | rfl | rfl <;> exact asking_granted rfl (by decide) (by decide) rfl
  · change (Ledger.cold.tariff i).evaluation ≠ _
    rw [show Ledger.cold.tariff i = Tariff.empty by simp [Ledger.cold, Ledger.tariff]]
    exact fun h => nomatch h
  · simp only [List.mem_cons, List.not_mem_nil, or_false] at hk
    rcases hk with rfl | rfl <;> exact asking_granted rfl (by decide) (by decide) rfl

/-- SET_RUN_PARAMETERS with its values in their ranges and a BLOCK tariff that they do not fit: N = 4 under S = 30 fits,
and N = 7 does not. -/
theorem witness_ModeAndEngineRequests_alignment :
    ∃ s : State, s.Granted .setRunParameters [30, 120, 255, 255] ∧ (s.ledger.tariff 3).state = .ready ∧
      (s.ledger.tariff 3).evaluation = .block ∧ 1440 % ((s.ledger.tariff 3).n * 30) ≠ 0 := by
  refine ⟨asking .setRunParameters [30, 120, 255, 255]
      (site .commissioning (tariffedAs { demoTariff with evaluation := .block, n := 7 })),
    asking_granted rfl (by decide) (by decide) rfl, ?_⟩
  decide +kernel

/-- READ_PART_STATUS in every mode; the attention requests at the last source and at a position that holds none. -/
theorem witness_StatusAndAttentionRequests :
    (∀ m : Mode, ∃ s : State, s.Granted .readPartStatus [] ∧ s.mode = m) ∧
      ∀ k ∈ [RequestCode.setAttentionMask, .ackAttention],
        (∃ s : State, s.Granted k [0, 8] ∧ field 0 2 [0, 8] < 4096) ∧
          ∃ s : State, s.Granted k [0, 16] ∧ 4096 ≤ field 0 2 [0, 16] := by
  refine ⟨fun m => ⟨asking .readPartStatus [] (site m .cold), asking_granted rfl (by decide) (by decide) ?_, rfl⟩,
    fun k hk => ⟨⟨asking k [0, 8] .reset, ?_, by decide⟩, ⟨asking k [0, 16] .reset, ?_, by decide⟩⟩⟩
  · cases m <;> rfl
  all_goals
    simp only [List.mem_cons, List.not_mem_nil, or_false] at hk
    rcases hk with rfl | rfl <;> exact asking_granted rfl (by decide) (by decide) rfl

theorem witness_StartsAreWarmOrCold :
    (∃ s : State, s.signature ≠ Config.fixedSignature) ∧ (∃ s : State, s.dipLatch = true) ∧
      (∀ m : Mode, ∃ s : State, s.signature = Config.fixedSignature ∧ s.dipLatch = false ∧ s.mode = m) :=
  ⟨⟨{ State.reset with signature := Config.otherSignature 0 }, otherSignature_ne_fixed 0⟩,
    ⟨{ State.reset with dipLatch := true }, rfl⟩,
    fun m => ⟨site m .cold, rfl, rfl, rfl⟩⟩

/-- The catch-up with no boundary missed and with four; the OUTAGE slots of an account under a ROLLING, a BLOCK and a
FAULTED tariff, and of one that is not ACTIVE; the missed close of the first instant of day 2, and an account without one;
the examination of a due with and without a settled section, under a READY and a FAULTED tariff. -/
theorem witness_CatchUpEntersRun :
    (∀ time ∈ [899, 3600], ∃ s : State, s.memberTurn .intervalEngine = true ∧ s.mode = .restarting ∧ s.sweep.position = none ∧
      s.calendar.lastBoundary = some 0 ∧ s.calendar.time = time) ∧
      (∀ l ∈ [tariffed, blockTariff, markedTariff], ∃ l' : Ledger, l'.tariff 3 = l.tariff 3 ∧ l'.SoundAccount 5 ∧
        (l'.account 5).phase = .active ∧ (l'.account 5).tariff = 3 ∧ (l'.account 5).ringPos = 0) ∧
      (1440 % (4 * 15) = 0 ∧ 4 * (15 * 60) ≤ 3600) ∧ (∃ l : Ledger, (l.account 5).state ≠ .active) ∧
      (∃ (c : Calendar) (l : Ledger), c.lastBoundary = some 0 ∧ c.time = 90000 ∧ l.SoundAccount 5 ∧
        (l.account 5).bills = true ∧ (l.account 5).closeDue = none ∧
        (dateTimeOf 86400).day = (l.account 5).closeDay ∧ (dateTimeOf 86400).hour = (l.account 5).closeHour) ∧
      ∀ l ∈ [tariffed, markedTariff], ∀ frozen ∈ [none, some demoSettled], ∃ l' : Ledger, l'.tariff 3 = l.tariff 3 ∧
        l'.SoundAccount 5 ∧ (l'.account 5).bills = true ∧ (l'.account 5).closeDue = some demoDue ∧
        (l'.account 5).storedSlot = none ∧ (l'.account 5).settled = frozen := by
  refine ⟨fun time _ => ⟨{ site .restarting .cold with calendar := calendarAt time none }, interval_turn rfl rfl rfl rfl rfl, rfl,
      rfl, rfl, rfl⟩,
    fun l _ => ⟨l.putAccount 5 (accountIn .active), rfl, sound_put rfl, ?_⟩, by decide,
    ⟨withAccount (accountIn .suspended), ?_⟩,
    ⟨calendarAt 90000 none, withAccount { accountIn .active with closeDay := 2 }, rfl, rfl, withAccount_sound rfl, ?_⟩,
    fun l _ frozen _ =>
      ⟨l.putAccount 5 { accountIn .active with closeDue := some demoDue, settled := frozen }, rfl, sound_put rfl, ?_⟩⟩
  · rw [put_self]; exact ⟨rfl, rfl, rfl⟩
  · rw [withAccount_self]; exact fun h => (nomatch h)
  · rw [withAccount_self]; exact ⟨rfl, rfl, by decide +kernel, by decide +kernel⟩
  · rw [put_self]; exact ⟨rfl, rfl, rfl, rfl⟩

/-- The clearing of owner-since tags in the catch-up: a marked and a failing intake; a sound one of age 15, which one missed
boundary takes to 16 and none does not. -/
theorem witness_CatchUpEntersRun_ageing :
    (∃ l : Ledger, (l.intake 7).faultMark = true) ∧ (∃ l : Ledger, l.FailingIntake 7) ∧
      (∃ l : Ledger, l.SoundIntake 7 ∧ (l.intake 7).ownerSince = some 104) ∧
      (cal119.currentTag - (104 : Tag)).toNat + 0 < 16 ∧ 16 ≤ (cal119.currentTag - (104 : Tag)).toNat + 1 :=
  ⟨⟨withBoth (accountIn .active) { member with faultMark := true }, congrArg Intake.faultMark (withBoth_intake _ _)⟩,
    ⟨_, storedIntake_fails tariffed⟩,
    ⟨withBoth (accountIn .active) { member with ownerSince := some 104 }, withBoth_soundIntake rfl (by decide),
      congrArg Intake.ownerSince (withBoth_intake _ _)⟩, by decide, by decide⟩

/-- A request that compares account numbers verifies the accounts: OPEN_ACCOUNT with the number of a failing account is
refused, and marks it (R2, R165). -/
theorem test_openAccount_verifies :
    ((openAccount openParams cal119 .run withFailing).1.account 5).faultMark = true ∧
      (openAccount openParams cal119 .run withFailing).2 = refuse .duplicateAccount := by
  decide +kernel

/-- Three grants in a row, and three group turns, to requesters that all wait. -/
theorem witness_ArbiterServesEveryRequester :
    let w : List Requester := [.requestEngine, .accumulationEngine, .closingGroup]
    let v : List GroupMember := [.intervalEngine, .settlementEngine, .integritySweep]
    Arbiter.fresh.nextRequester w = some .requestEngine ∧
      (Arbiter.fresh.grant .requestEngine).nextRequester w = some .accumulationEngine ∧
      ((Arbiter.fresh.grant .requestEngine).grant .accumulationEngine).nextRequester w = some .closingGroup ∧
      Arbiter.fresh.nextMember v = some .intervalEngine ∧
      (Arbiter.fresh.grantMember .intervalEngine).nextMember v = some .settlementEngine ∧
      ((Arbiter.fresh.grantMember .intervalEngine).grantMember .settlementEngine).nextMember v = some .integritySweep := by
  decide

/-- A part in RUN whose sweep is ACTIVE and whose host asks for the part status, after a grant to the Request Engine. -/
def contended (last : Requester) : State :=
  { asking .readPartStatus [] (sweeping (some (.tariff 0)) .cold) with arbiter := { last := some last, lastMember := none } }

/-- Two requesters that wait at once, and each in its turn. -/
theorem witness_ArbiterServesEveryRequester_turns :
    (contended .requestEngine).BuffersWhole ∧ (contended .requestEngine).membersWaiting = [.integritySweep] ∧
      (contended .requestEngine).requestersWaiting = [.requestEngine, .closingGroup] ∧
      (contended .requestEngine).memberTurn .integritySweep = true ∧ (contended .requestEngine).requestTurn = false ∧
      (contended .closingGroup).requestTurn = true ∧ (contended .closingGroup).memberTurn .integritySweep = false ∧
      (contended .closingGroup).arbiter.requesterAhead .closingGroup = 2 := by
  refine ⟨⟨?_, ?_, ?_⟩, ?_⟩ <;> decide +kernel

/-- A request that asks for none while others wait. -/
theorem witness_ArbiterServesEveryRequester_unasked :
    ∃ s : State, s.requestTurn = false ∧ s.port.busy = true ∧ s.requestWaits = false ∧
      requestAsks .openAccount (List.replicate 12 0) s = false :=
  ⟨{ asking .openAccount (List.replicate 12 0) (sweeping (some (.tariff 0)) .cold) with
      arbiter := { last := some .requestEngine, lastMember := none } }, by decide +kernel⟩

/-! ### Single steps -/

/-- The state after a command. -/
def after (c : Instr) (s : State) : State :=
  match exec c s with
  | .next t => t
  | .fault _ => s
  | .refused _ => s

/-- The first bytes of the response. -/
def responseOf (n : Nat) (s : State) : List Byte := s.port.responseBuffer.take n

theorem test_decodeTableWord : decodeTableWord 8 0x10 = none := rfl

theorem test_step_idles : step State.reset = .next State.reset := rfl

theorem test_step_takesTheFront :
    step { State.reset with pending := [.vbakDip, .powerLoss] } =
      .next { State.reset with dipLatch := true, pending := [.powerLoss] } := rfl

theorem test_execute_busy : (after (.execute 0) .reset).port.busy = true := by decide +kernel

theorem test_readStatus :
    (after (.readStatus 4) ({ State.reset with port := { Port.fresh 0x800 with overrun := true } }.raise .restartDone)).port.miso
      = [0, 0x24, 0x00, 0x08, 0] := by
  decide +kernel

theorem test_closeNow_wrongMode : responseOf 2 (after .closeNow (asking .closeNow [5] .reset)) = [4, 0] := by
  decide +kernel

theorem test_openAccount :
    let s := after .openAccount (asking .openAccount openParams (site .run tariffed))
    responseOf 3 s = [1, 1, 0] ∧ (s.ledger.account 0).number = 1047 ∧ (s.ledger.account 0).state = .active := by
  decide +kernel

theorem test_readTariff :
    responseOf 10 (after .readTariff (asking .readTariff [3] (site .run tariffed))) = [1, 20, 0, 9, 0, 0, 1, 0, 1, 0] := by
  decide +kernel

theorem test_setTime :
    (after .setTime (asking .setTime [0xE8, 7, 3, 1, 0, 0, 0] .reset)).calendar.time = 762566400 := by
  decide +kernel

/-- A trim of 20 seconds with S = 5 and G = 5 reaches the minute, the boundary at 300 and its expiry at 305. -/
theorem test_trimTime_reachesGrace :
    let params : RunParameters := { subinterval := 5, grace := 5, silenceLimit := 3, countPeriod := 0 }
    let s := after .trimTime (asking .trimTime [20]
      { runningAt 290 none with calendar := { calendarAt 290 none with params := params } })
    s.work = [.minute 300, .boundary 0 300 .ageing, .grace 0 0] ∧ s.calendar.grace = none ∧ s.calendar.time = 310 := by
  decide +kernel

/-- The command that each transaction byte is (R207). -/
theorem test_transactionCommand :
    [[0x01#8, 7, 8], [0x02#8, 7], [0x03#8, 0, 0], [0x04#8, 0], [0x05#8, 0], []].map transactionCommand =
      [.writeRequest [7, 8], .execute 1, .readStatus 2, .readResponse 1, .unknownTransaction (some 0x05) 1,
        .unknownTransaction none 0] := by
  decide

/-- A lane's bytes are split at flags; one flag closes a frame and opens the next. -/
theorem test_laneCommands :
    laneFrames [0x55, 0x7E, 0x7E, 1, 2, 0x7E, 3, 0x7E, 4] = [[1, 2], [3]] ∧
      laneCommands 2 ([0x55] ++ (LinkFrame.hello 0x7D01 0x7E).wire ++ [5, 6, 0x7E]) =
        [.hello 2 0x7D01 0x7E, .malformedFrame 2 [5, 6]] := by
  decide +kernel

/-- 2024-03-01 is a Friday. -/
theorem test_weekday : weekdayOf (762566400 / 86400) = 4 := by decide +kernel

theorem test_boundaryEvent :
    let s := after .boundaryEvent (runningAt 900 none)
    s.calendar.currentTag = 1 ∧ s.calendar.grace = some { tag := 0, expiry := 960 } ∧
      s.work = [.boundary 0 900 .ageing] ∧ s.laneBoundaries = [(0, 900)] := by
  decide +kernel

theorem test_hello_grants :
    let n := (after (.hello 0 0x1234 7) (withLane .run { Lane.cold true with state := .syncing })).lane 0
    n.state = .active ∧ n.outstanding = 4 ∧ n.waiting = [.boundary 255 none, .credit] := by
  decide +kernel

theorem test_increment_queued :
    let s := after (.increment 0 (frameOf 7)) (withLane .run (activeLane 1 0))
    s.arrivals = [entry 7 118] ∧ (s.lane 0).outstanding = 0 ∧ (s.lane 0).queued = 1 := by
  decide +kernel

theorem test_carrierAppear_resync :
    let s := after (.transmitFrame 0) (after (.carrierAppear 0) .reset)
    (s.lane 0).state = .syncing ∧ (s.lane 0).lineOut.take 2 = [0x7E, 0x83] ∧ (s.lane 0).waiting = [] := by
  decide +kernel

/-- 240 counts at scale 100 are held as 24,000 Wh when the intake has no owner. -/
theorem test_placeEntry_held :
    let s := after .placeEntry (arrived (entry 7 255) (withBoth (accountIn .active) (intakeIn .free)))
    (s.ledger.intake 7).held.imp = 24000 ∧ s.arrivals = [] ∧ s.ledger.attention = AttentionSource.heldEnergy.bit := by
  decide +kernel

/-- Under N = 1 and S = 15, 41,000 Wh in a slot are a demand of 164,000 W, stamped with the boundary time. -/
theorem test_slotClosure_demand :
    let pending := { emptyPending with energy := { imp := 41000, lag := 0, lead := 0 } }
    let s := after .slotClosure (working (.grace 118 0) (withAccount { accountIn .active with storedSlot := some pending }))
    (s.ledger.account 5).period.maxima[0] = some { value := 164000, time := 0, estimated := false } ∧
      (s.ledger.account 5).storedSlot = none ∧ s.work = [] := by
  decide +kernel

theorem test_settlementExamination_closes :
    let s := after .settlementExamination
      { site .run { withAccount { accountIn .active with closeDue := some demoDue } with closeWork := [5] } with
        calendar := calendarAt 1000 none }
    ((s.ledger.account 5).settled.map (·.cause)) = some .host ∧ (s.ledger.account 5).period.start = some 1000 ∧
      (s.ledger.account 5).closeDue = none ∧ s.ledger.attention = AttentionSource.settlementReady.bit := by
  decide +kernel

theorem test_sweepVerify_marks :
    let s := after .sweepVerify (sweeping (some (.account 5)) withFailing)
    (s.ledger.account 5).state = .faulted ∧ s.sweep = { position := some (.account 6), faultCount := 1 } := by
  decide +kernel

theorem test_restartCatchUp :
    let s := after .restartCatchUp { site .restarting .cold with calendar := calendarAt 3600 none }
    s.mode = .run ∧ s.calendar.currentTag = 4 ∧ s.calendar.lastBoundary = some 3600 := by
  decide +kernel

theorem test_deviceStart_warm :
    let s := after (.deviceStart false) (after .powerLoss (runningAt 900 (some { tag := 0, expiry := 960 })))
    s.mode = .restarting ∧ s.calendar.grace = none ∧ s.calendar.time = 900 ∧ s.atRest = false := by
  have valid : ({ runningAt 900 (some { tag := 0, expiry := 960 }) with powered := false } : State).storeValid = true :=
    (State.storeValid_iff _).mpr ⟨rfl, rfl⟩
  simp only [after, exec, execPowerLoss, execDeviceStart, valid, Bool.false_eq_true, if_false, if_true]
  exact ⟨rfl, rfl, rfl, rfl⟩

theorem test_deviceStart_cold :
    (after (.deviceStart false) (after .vbakDip (after .powerLoss (runningAt 900 none)))).calendar = Calendar.cold := by
  decide +kernel

/-- A trim back onto a minute start leaves no minute event due, though the last minute event is stale; a second passed
onto one leaves it due (R50). -/
theorem test_MinuteEventAfterTrim :
    (after .trimTime (asking .trimTime [0xE2] (runningAt 90 none))).calendar.time = 60 ∧
      (after .trimTime (asking .trimTime [0xE2] (runningAt 90 none))).minuteDue = false ∧
      (after .passageOfASecond (runningAt 59 none)).minuteDue = true := by
  decide +kernel

/-- A request in execution waits while the sweep has its turn, and is answered after it (R162). -/
theorem test_requestWaitsItsTurn :
    (after .readPartStatus (contended .requestEngine)).port.busy = true ∧
      responseOf 1 (after .readPartStatus (after .sweepVerify (contended .requestEngine))) = [1] ∧
      (after .sweepVerify (contended .closingGroup)).sweep.position = some (.tariff 0) := by
  decide +kernel

/-- A request that its ranges refuse takes no turn and leaves the arbiter as it is (R197). -/
theorem test_rangeRefusal_keepsTheArbiter :
    (after .openAccount (asking .openAccount (List.replicate 12 0) (contended .requestEngine))).arbiter =
        (contended .requestEngine).arbiter ∧
      responseOf 1 (after .openAccount (asking .openAccount (List.replicate 12 0) (contended .requestEngine))) = [3] := by
  decide +kernel

end Sys2Proof.Tests
end

