-- ==== Sys2Proof/Proofs/SlotClosure.lean ====
section
/-! SLOT_CLOSURE (R116): which account a grace item closes, what a completeness item closes, and the turn that carries
either out. What the closure of a slot does stands in closeSlot and is not opened here. -/

namespace Sys2Proof.Machine.SlotClosure

open Sys2Proof Sys2Proof.Machine

/-! ### Which slot an item closes -/

/-- Looking a tag up in an optional pending slot, as the model tests it and as the statements say it. -/
theorem any_tag_eq_true_iff {slot : Option PendingSlot} {tag : Tag} :
    slot.any (fun p => p.tag == tag) = true ↔ slot.map (·.tag) = some tag := by
  cases slot with
  | none => simp only [Option.any_none, Option.map_none, Bool.false_eq_true, reduceCtorEq]
  | some p => simp only [Option.any_some, Option.map_some, beq_iff_eq, Option.some.injEq]

/-- A search through the account slots finds the lowest slot that passes. (Stated of core's `List.find?` alone: the
model's files import no Mathlib.) -/
theorem find_allSlots_eq_some_iff {p : Slot → Bool} {i : Slot} :
    allSlots.find? p = some i ↔ p i = true ∧ ∀ j : Slot, j < i → ¬p j = true := by
  rw [List.find?_eq_some_iff_getElem]
  simp only [allSlots, List.getElem_finRange, List.length_finRange, Bool.not_eq_true', ← Bool.not_eq_true]
  constructor
  · rintro ⟨passes, n, bound, rfl, earlier⟩
    exact ⟨passes, fun j below => earlier j.val below⟩
  · rintro ⟨passes, earlier⟩
    exact ⟨passes, i.val, i.isLt, rfl, fun n below => earlier ⟨n, Nat.lt_trans below i.isLt⟩ below⟩

/-- The next account that holds a tag is the lowest one, from the slot on, whose pending slot carries it (R116). -/
theorem nextHolding_eq_some_iff {tag : Tag} {k : Nat} {l : Ledger} {i : Slot} :
    l.nextHolding tag k = some i ↔
      (k ≤ i.val ∧ (l.account i).pendingSlot.map (·.tag) = some tag) ∧
        ∀ j : Slot, j < i → k ≤ j.val → (l.account j).pendingSlot.map (·.tag) ≠ some tag := by
  rw [Ledger.nextHolding, find_allSlots_eq_some_iff]
  simp only [Bool.and_eq_true, decide_eq_true_eq, any_tag_eq_true_iff, not_and, ne_eq]

/-- A completeness item closes the slot exactly when its account is ACTIVE and holds its tag (R116). -/
theorem closeIfHolding_eq (c : Calendar) (tag : Tag) (i : Slot) (l : Ledger) :
    closeIfHolding c tag i l =
      if (l.account i).state = .active ∧ (l.account i).pendingSlot.map (·.tag) = some tag then closeSlot .ordinary c i l
      else l := by
  simp only [closeIfHolding, Bool.and_eq_true, decide_eq_true_eq, any_tag_eq_true_iff]

/-! ### The turn -/

/-- In the Interval Engine's turn SLOT_CLOSURE takes its step. -/
theorem exec_slotClosure_of_turn {s : State} (turn : s.memberTurn .intervalEngine = true) :
    exec .slotClosure s = .next s.closureStep :=
  congrArg Host.Outcome.next (if_pos turn)

/-- An item at the head that needs an operation is the one that the Interval Engine finds. -/
theorem currentWork_of_head {s : State} {w : WorkItem} {rest : List WorkItem} (head : s.work = w :: rest)
    (needs : workDone s.calendar s.ledger w = false) : s.currentWork = w :: rest := by
  rw [State.currentWork, head, openWork_cons needs]

/-- The turn leaves the ledger given and, of the list given, what still needs an operation (log 31). -/
theorem intervalTurn_eq (s : State) (l : Ledger) (work : List WorkItem) :
    s.intervalTurn l work = s.afterIntervalWork l (openWork s.calendar l work) := rfl

/-- The step on a grace item: the next account that holds its tag is closed, and the item goes on after that slot. -/
theorem closureStep_grace {s : State} {tag : Tag} {k : Nat} {i : Slot} {rest : List WorkItem}
    (head : s.work = .grace tag k :: rest) (found : s.ledger.nextHolding tag k = some i) :
    s.closureStep =
      s.intervalTurn (closeSlot .ordinary s.calendar i s.ledger) (.grace tag (i.val + 1) :: rest) := by
  have current : s.currentWork = .grace tag k :: rest := currentWork_of_head head (by rw [workDone, found]; rfl)
  simp only [State.closureStep, current, found]

/-- The step on a completeness item: it leaves the list, whether it closes a slot or is discarded (log 39). -/
theorem closureStep_completeness {s : State} {i : Slot} {tag : Tag} {rest : List WorkItem}
    (head : s.work = .completeness i tag :: rest) :
    s.closureStep = s.intervalTurn (closeIfHolding s.calendar tag i s.ledger) rest := by
  have current : s.currentWork = .completeness i tag :: rest := currentWork_of_head head rfl
  simp only [State.closureStep, current]

/-- Settles O43: a grace item by the search for the lowest slot that holds its tag, a completeness item by the test of
its own account. -/
theorem slotClosureClosesTheItem : Obligations.SlotClosureClosesTheItem := by
  intro s tag rest turn
  refine ⟨fun k i head from_k holds passed => ?grace, fun i head => ?completeness⟩
  case grace =>
    have found : s.ledger.nextHolding tag k = some i :=
      nextHolding_eq_some_iff.mpr ⟨⟨from_k, holds⟩, fun j below onward => passed j onward below⟩
    rw [exec_slotClosure_of_turn turn, closureStep_grace head found, intervalTurn_eq]
  case completeness =>
    rw [exec_slotClosure_of_turn turn, closureStep_completeness head, intervalTurn_eq, closeIfHolding_eq]

end Sys2Proof.Machine.SlotClosure
end

