-- ==== Sys2Proof/Proofs/PeriodSettlement.lean ====
section
/-! Period settlement (R138 to R153): the parts of a close, the Settlement Engine's examination by its cases, and the
three close requests, each by one equation that says what it does on a sound account. -/

namespace Sys2Proof.Machine.PeriodSettlement

open Sys2Proof Sys2Proof.Machine

/-! ### Marked and sound records (R160, R165) -/

section

variable {l : Ledger} {i : Slot} {t : TariffNo}

/-- A FAULTED account is in neither billing state (R160). -/
theorem bills_of_mark {a : Account} (mark : a.faultMark = true) : a.bills = false := by
  simp [Account.bills, Account.state, mark]

/-- An account that is not marked holds the pending slot that is stored (R120). -/
theorem pendingSlot_of_unmarked {a : Account} (unmarked : a.faultMark = false) : a.pendingSlot = a.storedSlot := by
  simp [Account.pendingSlot, unmarked]

/-- A marked tariff is not READY (R28). -/
theorem tariff_ne_ready_of_mark {t : Tariff} (mark : t.faultMark = true) : t.state ≠ .ready := by
  simp [Tariff.state, mark]

/-- A sound account passes its verification unchanged. -/
theorem checkAccount_of_soundAccount (sound : l.SoundAccount i) : l.checkAccount i = l :=
  Ledger.checkAccount_of_sound (.inr sound.2)

/-- An account that fails its verification is marked. -/
theorem checkAccount_of_failingAccount (failing : l.FailingAccount i) : l.checkAccount i = l.withAccountMarked i := by
  obtain ⟨unmarked, notFree, fails⟩ := failing
  exact Ledger.checkAccount_of_failing unmarked fails notFree

/-- A READY tariff passes its verification unchanged. -/
theorem checkTariff_of_readyTariff (ready : l.ReadyTariff t) : l.checkTariff t = l :=
  Ledger.checkTariff_of_sound (.inr ready.2)

/-- A tariff that fails its verification is marked. -/
theorem checkTariff_of_failingTariff (failing : l.FailingTariff t) : l.checkTariff t = l.withTariffMarked t := by
  obtain ⟨unmarked, fails⟩ := failing
  exact Ledger.checkTariff_of_failing unmarked fails

/-- A tariff that does not fail its verification is left as it is. -/
theorem checkTariff_of_not_failing (verifies : ¬l.FailingTariff t) : l.checkTariff t = l := by
  refine Ledger.checkTariff_of_sound ?_
  cases mark : (l.tariff t).faultMark with
  | true => exact .inl rfl
  | false => exact .inr ((Bool.not_eq_false _).mp fun fails => verifies ⟨mark, fails⟩)

/-- A tariff that an operation has marked is not READY. -/
theorem withTariffMarked_ne_ready (t : TariffNo) (l : Ledger) : ((l.withTariffMarked t).tariff t).state ≠ .ready := by
  refine tariff_ne_ready_of_mark ?_
  rw [Ledger.withTariffMarked, Ledger.tariff_raise, Ledger.tariff_storeTariff_self]

end

/-! ### The integer square root (overview, 5.2) -/

/-- The root's square does not pass the value, and the next root's does: the bits examined reach above the root. -/
theorem isqrt_bounds (v : Nat) : isqrt v * isqrt v ≤ v ∧ v < (isqrt v + 1) * (isqrt v + 1) := by
  have reach : v < 2 ^ (v.log2 / 2 + 1) * 2 ^ (v.log2 / 2 + 1) := by
    calc
      v < 2 ^ (v.log2 + 1) := Nat.lt_log2_self
      _ ≤ 2 ^ (v.log2 / 2 + 1 + (v.log2 / 2 + 1)) := Nat.pow_le_pow_right (by decide) (by omega)
      _ = 2 ^ (v.log2 / 2 + 1) * 2 ^ (v.log2 / 2 + 1) := Nat.pow_add ..
  exact isqrtBits_spec v (v.log2 / 2 + 1) 0 (Nat.zero_le v) (by simpa using reach)

/-- The bounds determine the root. -/
theorem isqrt_eq_of_bounds {v root : Nat} (low : root * root ≤ v) (high : v < (root + 1) * (root + 1)) :
    isqrt v = root := by
  obtain ⟨isqrt_low, isqrt_high⟩ := isqrt_bounds v
  have below : isqrt v < root + 1 := Nat.mul_self_lt_mul_self_iff.mp (Nat.lt_of_le_of_lt isqrt_low high)
  have above : root < isqrt v + 1 := Nat.mul_self_lt_mul_self_iff.mp (Nat.lt_of_le_of_lt low isqrt_high)
  omega

/-! ### Maxima and the ratchet history (R143, R145) -/

/-- A band maximum counts as estimated when it is present and flagged so. -/
theorem maximumEstimated_eq_true_iff {m : Option BandMaximum} :
    maximumEstimated m = true ↔ ∃ x, m = some x ∧ x.estimated = true := by
  cases m with
  | none => simp [maximumEstimated]
  | some x => simp [maximumEstimated]

/-- Some maximum of a period is estimated exactly when that of some band is. -/
theorem any_maximumEstimated_iff (maxima : Vector (Option BandMaximum) 4) :
    maxima.toList.any maximumEstimated = true ↔
      ∃ b : Band, ∃ m, maxima[b.val] = some m ∧ m.estimated = true := by
  rw [Vector.any_toList, Vector.any_eq_true]
  simp only [maximumEstimated_eq_true_iff]
  constructor
  · rintro ⟨k, bound, estimated⟩
    exact ⟨⟨k, bound⟩, estimated⟩
  · rintro ⟨b, estimated⟩
    exact ⟨b.val, b.isLt, estimated⟩

/-- The maximum of a band is the value of the maximum held, or 0. -/
theorem maximumOf_eq (b : Band) (p : Period) :
    p.maximumOf b = match p.maxima[b.val] with | none => 0 | some m => m.value := by
  rw [Period.maximumOf]
  cases p.maxima[b.val] <;> rfl

/-- The values of the ratchet history are those that some position holds. -/
theorem mem_ratchetValues_iff {a : Account} {v : Nat} :
    v ∈ a.ratchet.toList.filterMap id ↔ some v ∈ a.ratchet.toList := by
  simp only [List.mem_filterMap, id, exists_eq_right]

/-- The largest value of the ratchet history is one that is held and that no held value exceeds. -/
theorem largestRatchet_of_largest {a : Account} {largest : Nat} (held : some largest ∈ a.ratchet.toList)
    (bound : ∀ v, some v ∈ a.ratchet.toList → v ≤ largest) : a.largestRatchet = some largest :=
  List.max?_eq_some_iff.mpr ⟨mem_ratchetValues_iff.mpr held, fun v h => bound v (mem_ratchetValues_iff.mp h)⟩

/-- A ratchet history without a value has no largest one. -/
theorem largestRatchet_of_empty {a : Account} (empty : ∀ v, some v ∉ a.ratchet.toList) : a.largestRatchet = none :=
  List.max?_eq_none_iff.mpr
    (List.eq_nil_iff_forall_not_mem.mpr fun v h => empty v (mem_ratchetValues_iff.mp h))

/-- The ratchet reference is the tariff's share of the largest value, unless the tariff has no ratchet (R145). -/
theorem ratchetReference_of_largest {t : Tariff} {a : Account} {largest : Nat}
    (h : a.largestRatchet = some largest) :
    ratchetReference t a = if t.ratchetPercent = 0 then none else some (t.ratchetPercent * largest / 100) := by
  rw [ratchetReference, h, Option.map_some]

/-- Without a ratchet value there is no reference (R145). -/
theorem ratchetReference_of_empty {t : Tariff} {a : Account} (h : a.largestRatchet = none) :
    ratchetReference t a = none := by
  rw [ratchetReference, h, Option.map_none, ite_self]

/-! ### Reactive energy and power factor (R146) -/

/-- The absolute difference is what the larger exceeds the smaller by. -/
theorem absDiff_eq (a b : Nat) : absDiff a b = max a b - min a b := by
  rw [absDiff]; omega

/-- The reactive energy that a lead policy counts. -/
theorem reactive_eq (policy : LeadPolicy) (lag lead : Nat) :
    policy.reactive lag lead =
      match policy with
      | .ignore => lag
      | .add => lag + lead
      | .net => max lag lead - min lag lead := by
  cases policy with
  | ignore => rfl
  | add => rfl
  | net => exact absDiff_eq lag lead

/-- A period without energy has no power factor. -/
theorem powerFactor_of_none {p q : Nat} (noImport : p = 0) (noReactive : q = 0) : powerFactor p q = none :=
  if_pos ⟨noImport, noReactive⟩

/-- The power factor divides by the root that the bounds determine. -/
theorem powerFactor_of_root {p q root : Nat} (low : root * root ≤ p * p + q * q)
    (high : p * p + q * q < (root + 1) * (root + 1)) (energy : p ≠ 0 ∨ q ≠ 0) :
    powerFactor p q = some (p * 1000 / root) := by
  rw [powerFactor, if_neg (by omega), isqrt_eq_of_bounds low high]

/-! ### The ratchet step (R147) -/

/-- A value pushed stands in position 1. -/
theorem pushRatchet_first (value : Nat) (history : Vector (Option Nat) 11) :
    (pushRatchet value history)[0] = some value :=
  Vector.getElem_ofFn _

/-- A push moves every value one position on. -/
theorem pushRatchet_next (value : Nat) (history : Vector (Option Nat) 11) (k : Fin 10) :
    (pushRatchet value history)[k.val + 1] = history[k.val] :=
  Vector.getElem_ofFn _

/-! ### The close -/

/-- The result of a band in the settled section (R145). -/
theorem settledSection_band (cause : CloseCause) (late : Bool) (now : Seconds) (t : Tariff) (a : Account) (b : Band) :
    (settledSection cause late now t a).bands[b.val] =
      { maximum := a.period.maxima[b.val], billing := billingDemand t a b } :=
  Vector.getElem_ofFn _

/-- Settles O47: the settled section by the parts above, the ratchet step by the cause of the close. -/
theorem closeSettlesThePeriod : Obligations.CloseSettlesThePeriod := by
  refine ⟨fun cause late now t a => ?written, fun cause late now t a => ?started⟩
  case written =>
    refine ⟨settledSection cause late now t a, rfl, rfl, rfl, rfl, any_maximumEstimated_iff a.period.maxima, rfl, rfl,
      rfl, rfl, rfl, rfl, rfl, rfl, rfl, rfl, rfl, fun largest held bound => ?reference, fun empty => ?unreferenced,
      fun b => ?band, ?figures⟩
    case reference => exact ratchetReference_of_largest (largestRatchet_of_largest held bound)
    case unreferenced => exact ratchetReference_of_empty (largestRatchet_of_empty empty)
    case band =>
      intro m
      have maximum : a.period.maximumOf b = m := maximumOf_eq b a.period
      rw [settledSection_band, ← maximum]
      exact ⟨rfl, rfl⟩
    case figures =>
      intro imp q
      have reactive : t.leadPolicy.reactive a.period.energy.lag a.period.energy.lead = q := reactive_eq ..
      rw [← reactive]
      exact ⟨powerFactor_of_none, fun root low high energy => powerFactor_of_root low high energy, rfl⟩
  case started =>
    intro b m larger
    have maximum : a.period.maximumOf t.ratchetBand = m := maximumOf_eq t.ratchetBand a.period
    have larger_eq : max a.period.ratchetCarry (a.period.maximumOf t.ratchetBand) = larger := by rw [maximum]
    refine ⟨rfl, fun scheduled => ?pushed, fun carried => ?carried, fun retired => ?kept⟩
    case pushed =>
      subst scheduled
      rw [← larger_eq]
      exact ⟨rfl, pushRatchet_first _ a.ratchet, pushRatchet_next _ a.ratchet⟩
    case carried =>
      rw [← larger_eq]
      rcases carried with host | tariffChange
      · subst host
        exact ⟨rfl, rfl⟩
      · subst tariffChange
        exact ⟨rfl, rfl⟩
    case kept =>
      subst retired
      exact ⟨rfl, rfl⟩

/-! ### The cases of the examination (R140) -/

section

variable {late : Bool} {now : Seconds} {l : Ledger} {i : Slot}

/-- After its verification, an account that does not bill, has no due or holds a pending slot is left alone. -/
theorem examine_of_idle
    (idle : ((l.checkAccount i).account i).bills = false ∨ ((l.checkAccount i).account i).closeDue = none ∨
      ((l.checkAccount i).account i).pendingSlot ≠ none) :
    examine late now i l = l.checkAccount i := by
  simp only [examine]
  cases due : ((l.checkAccount i).account i).closeDue with
  | none => rfl
  | some d =>
    rcases idle with notBilling | noDue | pending
    · simp [notBilling]
    · rw [due] at noDue; cases noDue
    · simp [Option.isSome_iff_ne_none.mpr pending]

/-- A due that a settled section stands in the way of is blocked. -/
theorem examine_of_settled {due : CloseDue} (sound : l.SoundAccount i) (bills : (l.account i).bills = true)
    (owed : (l.account i).closeDue = some due) (noSlot : (l.account i).storedSlot = none)
    (settled : (l.account i).settled ≠ none) : examine late now i l = blockClose i l := by
  have noPending := (pendingSlot_of_unmarked sound.1).trans noSlot
  simp [examine, checkAccount_of_soundAccount sound, owed, bills, noPending, Option.isSome_iff_ne_none.mpr settled]

/-- Without a settled section the verified tariff decides between the close and the block. -/
theorem examine_of_unsettled {due : CloseDue} (sound : l.SoundAccount i) (bills : (l.account i).bills = true)
    (owed : (l.account i).closeDue = some due) (noSlot : (l.account i).storedSlot = none)
    (unsettled : (l.account i).settled = none) :
    examine late now i l =
      if ((l.checkTariff (l.account i).tariff).tariff (l.account i).tariff).state = .ready then
        performClose due.cause.toCause (late || (l.account i).closeBlocked) now i (l.checkTariff (l.account i).tariff)
      else blockClose i (l.checkTariff (l.account i).tariff) := by
  have noPending := (pendingSlot_of_unmarked sound.1).trans noSlot
  simp [examine, checkAccount_of_soundAccount sound, owed, bills, noPending, unsettled]

/-! ### The turn (R139) -/

/-- In its turn the Settlement Engine examines the account at the head of its list, which leaves the list. -/
theorem exec_settlementExamination_of_turn {s : State} {rest : List Slot}
    (turn : s.memberTurn .settlementEngine = true) (head : s.ledger.closeWork = i :: rest) :
    exec .settlementExamination s =
      .next
        (s.groupTurn .settlementEngine { examine false s.calendar.time i s.ledger with closeWork := rest }) := by
  have step : s.settleStep =
      s.groupTurn .settlementEngine { examine false s.calendar.time i s.ledger with closeWork := rest } := by
    simp [State.settleStep, settleNext, head]
  exact congrArg Host.Outcome.next ((if_pos turn).trans step)

end

/-- Settles O48: each case says what the examination makes of the ledger, and the turn takes the account off the list. -/
theorem examinationClosesOrBlocks : Obligations.ExaminationClosesOrBlocks := by
  intro s i rest turn head a after blocked
  have leaves {l : Ledger} (h : examine false s.calendar.time i s.ledger = l) :
      exec .settlementExamination s = after l := by
    rw [exec_settlementExamination_of_turn turn head, h]; rfl
  refine ⟨fun mark => leaves ?marked, fun failing => leaves ?failing, fun unmarked free fails => leaves ?free,
    fun sound idle => leaves ?idle, fun due sound bills owed noSlot => ⟨fun settled => leaves ?settled,
      fun unsettled mark => leaves ?faultedTariff, fun unsettled failing => leaves ?failingTariff,
      fun unsettled ready => leaves ?closed⟩⟩
  case marked =>
    have same : s.ledger.checkAccount i = s.ledger := Ledger.checkAccount_of_sound (.inl mark)
    rw [examine_of_idle (.inl (by rw [same]; exact bills_of_mark mark)), same]
  case failing =>
    have marked : ((s.ledger.checkAccount i).account i).faultMark = true := by
      simp [checkAccount_of_failingAccount failing, Ledger.withAccountMarked]
    rw [examine_of_idle (.inl (bills_of_mark marked)), checkAccount_of_failingAccount failing]
  case free =>
    have rewritten : s.ledger.checkAccount i = (s.ledger.storeAccount i .free).raise .integrityFault :=
      Ledger.checkAccount_of_free unmarked fails free
    rw [examine_of_idle (.inr (.inl ?_)), rewritten]
    rw [rewritten, Ledger.account_raise, Ledger.account_storeAccount_self]
    rfl
  case idle =>
    have same : s.ledger.checkAccount i = s.ledger := checkAccount_of_soundAccount sound
    rw [examine_of_idle ?_, same]
    rw [same, pendingSlot_of_unmarked sound.1]
    exact idle
  case settled => exact examine_of_settled sound bills owed noSlot settled
  case faultedTariff =>
    rw [examine_of_unsettled sound bills owed noSlot unsettled, Ledger.checkTariff_of_sound (.inl mark),
      if_neg (tariff_ne_ready_of_mark mark)]
    rfl
  case failingTariff =>
    rw [examine_of_unsettled sound bills owed noSlot unsettled, checkTariff_of_failingTariff failing,
      if_neg (withTariffMarked_ne_ready _ _)]
    rfl
  case closed =>
    rw [examine_of_unsettled sound bills owed noSlot unsettled, checkTariff_of_readyTariff ready, if_pos ready.1]
    rfl

/-! ### Requests on a sound account (R11, R162, R197) -/

section

variable {s : State} {k : RequestCode} {p : List Byte} {l : Ledger} {i : Slot}

theorem slotOf_val (i : Slot) : slotOf i.val = some i := dif_pos i.isLt

theorem tariffOf_val (t : TariffNo) : tariffOf t.val = some t := dif_pos t.isLt

/-- A granted request leaves the ledger and the answer of its own work, when its parameters alone do not refuse it. -/
theorem runRecordRequest_of_work {work : List Byte → Calendar → Mode → Ledger → Ledger × Answer} {a : Answer}
    (granted : s.Granted k p) (worked : work p s.calendar s.mode s.ledger = (l, a))
    (onRecords : a.code.onParameters = false) : runRecordRequest k work s = s.answered l a := by
  rw [runRecordRequest_answered granted (by rw [worked]; exact onRecords), worked]

theorem exec_closeNow_of_work {a : Answer} (granted : s.Granted .closeNow p)
    (worked : closeNow p s.calendar s.mode s.ledger = (l, a)) (onRecords : a.code.onParameters = false) :
    exec .closeNow s = .next (s.answered l a) :=
  congrArg Host.Outcome.next (runRecordRequest_of_work granted worked onRecords)

theorem exec_releaseSettlement_of_work {a : Answer} (granted : s.Granted .releaseSettlement p)
    (worked : releaseSettlement p s.calendar s.mode s.ledger = (l, a)) (onRecords : a.code.onParameters = false) :
    exec .releaseSettlement s = .next (s.answered l a) :=
  congrArg Host.Outcome.next (runRecordRequest_of_work granted worked onRecords)

theorem exec_changeTariff_of_work {a : Answer} (granted : s.Granted .changeTariff p)
    (worked : changeTariff p s.calendar s.mode s.ledger = (l, a)) (onRecords : a.code.onParameters = false) :
    exec .changeTariff s = .next (s.answered l a) :=
  congrArg Host.Outcome.next (runRecordRequest_of_work granted worked onRecords)

/-- An account that is not marked is in the state its field says (R160). -/
theorem state_of_unmarked {a : Account} (unmarked : a.faultMark = false) : a.state = a.phase.state := by
  simp [Account.state, unmarked]

/-- An unmarked account reports FREE exactly when its field says so. -/
theorem state_eq_free_iff {a : Account} (unmarked : a.faultMark = false) : a.state = .free ↔ a.phase = .free := by
  rw [state_of_unmarked unmarked]
  cases a.phase <;> simp [AccountPhase.state]

/-- An unmarked account reports FINAL exactly when its field says so. -/
theorem state_eq_final_iff {a : Account} (unmarked : a.faultMark = false) : a.state = .final ↔ a.phase = .final := by
  rw [state_of_unmarked unmarked]
  cases a.phase <;> simp [AccountPhase.state]

/-- An account in a billing state is neither FREE nor FINAL. -/
theorem phase_of_bills {a : Account} (bills : a.bills = true) : a.phase ≠ .free ∧ a.phase ≠ .final := by
  have unmarked : a.faultMark = false :=
    (Bool.not_eq_true _).mp fun mark => by rw [bills_of_mark mark] at bills; cases bills
  rw [Account.bills, state_of_unmarked unmarked] at bills
  constructor
  · intro free
    rw [free] at bills; cases bills
  · intro final
    rw [final] at bills; cases bills

/-- The addressing checks pass a request on to a sound account that is not FREE. -/
theorem addressAccount_of_soundAccount {n : Nat} {own : Slot → Account → Ledger → Ledger × Answer}
    (names : n = i.val) (sound : l.SoundAccount i) (notFree : (l.account i).phase ≠ .free) :
    addressAccount n true l own = own i (l.account i) l := by
  obtain ⟨unmarked, checks⟩ := sound
  exact addressAccount_sound (names ▸ slotOf_val i) (fun free => notFree ((state_eq_free_iff unmarked).mp free))
    unmarked checks

end

/-! ### CLOSE_NOW (R150) -/

section

variable {p : List Byte} {c : Calendar} {m : Mode} {l : Ledger} {i : Slot}

/-- CLOSE_NOW on a sound account. -/
theorem closeNow_of_soundAccount (names : field 0 1 p = i.val) (sound : l.SoundAccount i)
    (notFree : (l.account i).phase ≠ .free) :
    closeNow p c m l =
      if (l.account i).phase = .final then (l, refuse .wrongState)
      else if (l.account i).closeDue ≠ none then (l, refuse .closeAlreadyDue)
      else
        ((l.putAccount i { l.account i with closeDue := some { cause := .host, time := c.time } }).handToSettlement i,
          okDone) := by
  rw [closeNow, addressAccount_of_soundAccount names sound notFree]
  simp only [state_eq_final_iff sound.1, Option.isSome_iff_ne_none]

/-! ### RELEASE_SETTLEMENT (R153) -/

/-- RELEASE_SETTLEMENT on a sound account. -/
theorem releaseSettlement_of_soundAccount (names : field 0 1 p = i.val) (sound : l.SoundAccount i)
    (notFree : (l.account i).phase ≠ .free) :
    releaseSettlement p c m l =
      if (l.account i).settled = none then (l, refuse .nothingSettled)
      else if (l.account i).phase = .final then (l.storeAccount i .free, okDone)
      else if (l.account i).closeDue = none then (l.putAccount i { l.account i with settled := none }, okDone)
      else ((l.putAccount i { l.account i with settled := none }).handToSettlement i, okDone) := by
  have handed : (l.putAccount i { l.account i with settled := none }).handIfDue i =
      if (l.account i).closeDue = none then l.putAccount i { l.account i with settled := none }
      else (l.putAccount i { l.account i with settled := none }).handToSettlement i := by
    have due : ((l.putAccount i { l.account i with settled := none }).account i).closeDue = (l.account i).closeDue := by
      rw [Ledger.account_putAccount_self]; rfl
    rw [Ledger.handIfDue, due]
    cases (l.account i).closeDue <;> simp
  rw [releaseSettlement, addressAccount_of_soundAccount names sound notFree]
  simp only [state_eq_final_iff sound.1, Option.isNone_iff_eq_none, handed]
  split
  · rfl
  · split
    · rfl
    · split <;> rfl

end

/-! ### CHANGE_TARIFF (R151, R152) -/

/-- What CHANGE_TARIFF does once the account's record admits it: the present tariff and then the new one are verified and
have to be READY. `changeTariff_of_bills` says that it is the end of `changeTariff`. -/
def switchBetweenReady (c : Calendar) (i : Slot) (t : TariffNo) (l : Ledger) : Ledger × Answer :=
  let present := (l.account i).tariff
  let l := l.checkTariff present
  if (l.tariff present).state ≠ .ready then (l, refuse .faulted)
  else
    let l := l.checkTariff t
    if (l.tariff t).state ≠ .ready then (l, refuse .noSuchTariff) else (switchTariff c i t l, okDone)

section

variable {p : List Byte} {c : Calendar} {m : Mode} {l : Ledger} {i : Slot} {t : TariffNo}

/-- CHANGE_TARIFF of a FINAL account is refused. -/
theorem changeTariff_of_final (names : field 0 1 p = i.val) (tariff : field 1 1 p = t.val) (sound : l.SoundAccount i)
    (final : (l.account i).phase = .final) : changeTariff p c m l = (l, refuse .wrongState) := by
  have notFree : (l.account i).phase ≠ .free := by rw [final]; decide
  simp only [changeTariff, tariff, tariffOf_val, addressAccount_of_soundAccount names sound notFree,
    if_pos ((state_eq_final_iff sound.1).mpr final)]

/-- The checks of CHANGE_TARIFF on the record of a billing account, in their order. -/
theorem changeTariff_of_bills (names : field 0 1 p = i.val) (tariff : field 1 1 p = t.val) (sound : l.SoundAccount i)
    (bills : (l.account i).bills = true) :
    changeTariff p c m l =
      if (l.account i).settled ≠ none then (l, refuse .settlementPending)
      else if (l.account i).storedSlot ≠ none then (l, refuse .closureInProgress)
      else if (l.account i).closeDue ≠ none then (l, refuse .closeAlreadyDue)
      else switchBetweenReady c i t l := by
  obtain ⟨notFree, notFinal⟩ := phase_of_bills bills
  simp only [changeTariff, switchBetweenReady, tariff, tariffOf_val,
    addressAccount_of_soundAccount names sound notFree, if_neg (mt (state_eq_final_iff sound.1).mp notFinal),
    pendingSlot_of_unmarked sound.1, Option.isSome_iff_ne_none, bne_iff_ne]

/-- A billing account without a section, a slot and a due is judged by the two tariffs. -/
theorem changeTariff_of_admitted (names : field 0 1 p = i.val) (tariff : field 1 1 p = t.val)
    (sound : l.SoundAccount i) (bills : (l.account i).bills = true) (unsettled : (l.account i).settled = none)
    (noSlot : (l.account i).storedSlot = none) (noDue : (l.account i).closeDue = none) :
    changeTariff p c m l = switchBetweenReady c i t l := by
  rw [changeTariff_of_bills names tariff sound bills, if_neg (not_not_intro unsettled),
    if_neg (not_not_intro noSlot), if_neg (not_not_intro noDue)]

/-- A present tariff that is not READY once verified refuses the change with FAULTED. -/
theorem switchBetweenReady_of_unready {l' : Ledger} (checked : l.checkTariff (l.account i).tariff = l')
    (unready : (l'.tariff (l.account i).tariff).state ≠ .ready) :
    switchBetweenReady c i t l = (l', refuse .faulted) := by
  simp only [switchBetweenReady, checked, if_pos unready]

/-- Under a READY present tariff, a new one that is not READY once verified refuses the change with NO_SUCH_TARIFF. -/
theorem switchBetweenReady_of_new_unready {l' : Ledger} (present : l.ReadyTariff (l.account i).tariff)
    (checked : l.checkTariff t = l') (unready : (l'.tariff t).state ≠ .ready) :
    switchBetweenReady c i t l = (l', refuse .noSuchTariff) := by
  simp only [switchBetweenReady, checkTariff_of_readyTariff present, if_neg (not_not_intro present.1), checked,
    if_pos unready]

/-- Under two READY tariffs the change is made. -/
theorem switchBetweenReady_of_ready (present : l.ReadyTariff (l.account i).tariff) (new : l.ReadyTariff t) :
    switchBetweenReady c i t l = (switchTariff c i t l, okDone) := by
  simp only [switchBetweenReady, checkTariff_of_readyTariff present, if_neg (not_not_intro present.1),
    checkTariff_of_readyTariff new, if_neg (not_not_intro new.1)]

/-- A change without a period start writes the account alone (R152). -/
theorem switchTariff_of_unstarted (unstarted : (l.account i).period.start = none) :
    switchTariff c i t l = l.putAccount i { (l.account i).clearWindow with tariff := t } := by
  simp [switchTariff, unstarted]

/-- A change with a period start closes the period first (R152). -/
theorem switchTariff_of_started (started : (l.account i).period.start ≠ none) :
    switchTariff c i t l =
      (performClose .tariffChange false c.time i l).putAccount i
        { ((performClose .tariffChange false c.time i l).account i).clearWindow with tariff := t } := by
  simp [switchTariff, Option.isSome_iff_ne_none.mpr started]

/-- The account after a close is the closed one, with its check word. -/
theorem account_performClose_self (cause : CloseCause) (late : Bool) (now : Seconds) (i : Slot) (l : Ledger) :
    (performClose cause late now i l).account i =
      ((l.account i).closePeriod cause late now (l.tariff (l.account i).tariff)).seal := by
  rw [performClose, Ledger.account_raise, Ledger.account_putAccount_self]

/-- A close and a write after it leave every record but the account's as it is. -/
theorem differsAtAccount_put_performClose (cause : CloseCause) (late : Bool) (now : Seconds) (i : Slot) (a : Account)
    (l : Ledger) : l.DiffersAtAccount i ((performClose cause late now i l).putAccount i a) := by
  refine ⟨fun j other => ?_, rfl, rfl, rfl⟩
  rw [Ledger.account_putAccount_ne _ _ other.symm, performClose, Ledger.account_raise,
    Ledger.account_putAccount_ne _ _ other.symm]

end

/-! ### The three requests -/

/-- Settles O49: each request by the equation that says what it does on a sound account. -/
theorem closeRequests : Obligations.CloseRequests := by
  refine ⟨fun s p i names sound notFree => ⟨fun granted => ?closeNow, fun granted => ?release⟩,
    fun s p i t granted names tariff sound => ?tariffs, fun s p i t granted names tariff sound bills => ?change⟩
  case closeNow =>
    have answers {l : Ledger} {a : Answer} := exec_closeNow_of_work (l := l) (a := a) granted
    have outcome := closeNow_of_soundAccount (c := s.calendar) (m := s.mode) names sound notFree
    refine ⟨fun final => answers ?_ rfl, fun notFinal due => answers ?_ rfl, fun notFinal noDue => answers ?_ rfl⟩
    · rw [outcome, if_pos final]
    · rw [outcome, if_neg notFinal, if_pos due]
    · rw [outcome, if_neg notFinal, if_neg (not_not_intro noDue)]
  case release =>
    have answers {l : Ledger} {a : Answer} := exec_releaseSettlement_of_work (l := l) (a := a) granted
    have outcome := releaseSettlement_of_soundAccount (c := s.calendar) (m := s.mode) names sound notFree
    refine ⟨fun unsettled => answers ?_ rfl, fun settled final => answers ?_ rfl,
      fun settled notFinal noDue => answers ?_ rfl, fun settled notFinal due => answers ?_ rfl⟩
    · rw [outcome, if_pos unsettled]
    · rw [outcome, if_neg settled, if_pos final]
    · rw [outcome, if_neg settled, if_neg notFinal, if_pos noDue]
    · rw [outcome, if_neg settled, if_neg notFinal, if_neg due]
  case tariffs =>
    have answers {l : Ledger} {a : Answer} := exec_changeTariff_of_work (l := l) (a := a) granted
    refine ⟨fun final => answers (changeTariff_of_final names tariff sound final) rfl,
      fun bills unsettled noSlot noDue => ?_⟩
    have admitted := changeTariff_of_admitted (c := s.calendar) (m := s.mode) names tariff sound bills unsettled noSlot
      noDue
    refine ⟨fun mark => answers (admitted.trans ?presentMarked) rfl,
      fun failing => answers (admitted.trans ?presentFailing) rfl,
      fun present => ⟨fun verifies unready => answers (admitted.trans ?newUnready) rfl,
        fun failing => answers (admitted.trans ?newFailing) rfl⟩⟩
    case presentMarked =>
      exact switchBetweenReady_of_unready (Ledger.checkTariff_of_sound (.inl mark)) (tariff_ne_ready_of_mark mark)
    case presentFailing =>
      exact switchBetweenReady_of_unready (checkTariff_of_failingTariff failing) (withTariffMarked_ne_ready _ _)
    case newUnready =>
      exact switchBetweenReady_of_new_unready present (checkTariff_of_not_failing verifies) unready
    case newFailing =>
      exact switchBetweenReady_of_new_unready present (checkTariff_of_failingTariff failing)
        (withTariffMarked_ne_ready _ _)
  case change =>
    have answers {l : Ledger} {a : Answer} := exec_changeTariff_of_work (l := l) (a := a) granted
    have checks := changeTariff_of_bills (c := s.calendar) (m := s.mode) names tariff sound bills
    refine ⟨fun settled => answers ?_ rfl, fun unsettled slot => answers ?_ rfl,
      fun unsettled noSlot due => answers ?_ rfl, fun unsettled noSlot noDue present new => ?switches⟩
    · rw [checks, if_pos settled]
    · rw [checks, if_neg (not_not_intro unsettled), if_pos slot]
    · rw [checks, if_neg (not_not_intro unsettled), if_neg (not_not_intro noSlot), if_pos due]
    case switches =>
      intro switched
      have switches : exec .changeTariff s = .next (s.answered (switchTariff s.calendar i t s.ledger) okDone) :=
        answers ((changeTariff_of_admitted names tariff sound bills unsettled noSlot noDue).trans
          (switchBetweenReady_of_ready present new)) rfl
      refine ⟨fun unstarted => ?_, fun started => ⟨_, switches, ?_⟩⟩
      · rw [switches, switchTariff_of_unstarted unstarted]; rfl
      · rw [switchTariff_of_started started]
        refine ⟨?_, differsAtAccount_put_performClose .., rfl, rfl⟩
        rw [Ledger.account_putAccount_self, account_performClose_self]
        rfl

end Sys2Proof.Machine.PeriodSettlement
end

