-- ==== Sys2Proof/Proofs/IntegritySweep.lean ====
section
/-! VERIFY_STORE and the integrity sweep (R173 to R175): the order of the records, what one operation finds by the kind
of record and by whether it fails, and the turn that carries it out. What verifying a record does stands in
Laws/Records. -/

namespace Sys2Proof.Machine.IntegritySweep

open Sys2Proof Sys2Proof.Machine

/-! ### The order of the sweep (R174) -/

/-- The number after one that is not the last, as the sweep forms it and as the statement says it. -/
theorem mk_succ_eq_add_one {n : Nat} (i : Fin (n + 2)) (below : i.val + 1 < n + 2) :
    (⟨i.val + 1, below⟩ : Fin (n + 2)) = i + 1 :=
  Fin.ext (by rw [Fin.val_add, Fin.val_one, Nat.mod_eq_of_lt below])

theorem following_tariff (i : TariffNo) :
    (SweepPosition.tariff i).following = if i.val = 15 then some (.account 0) else some (.tariff (i + 1)) := by
  rw [SweepPosition.following]
  split
  · rw [if_neg (by omega), mk_succ_eq_add_one]
  · rw [if_pos (by omega)]

theorem following_account (i : Slot) :
    (SweepPosition.account i).following = if i.val = 63 then some (.intake 0) else some (.account (i + 1)) := by
  rw [SweepPosition.following]
  split
  · rw [if_neg (by omega), mk_succ_eq_add_one]
  · rw [if_pos (by omega)]

theorem following_intake (i : IntakeNo) :
    (SweepPosition.intake i).following = if i.val = 95 then none else some (.intake (i + 1)) := by
  rw [SweepPosition.following]
  split
  · rw [if_neg (by omega), mk_succ_eq_add_one]
  · rw [if_pos (by omega)]

/-- The sweep ends after intake 95 (R175). -/
theorem isNone_following_intake (i : IntakeNo) :
    (SweepPosition.intake i).following.isNone = decide (i.val = 95) := by
  rw [following_intake]
  by_cases last : i.val = 95 <;> simp [last]

/-! ### What an operation finds (R174) -/

section

variable {l : Ledger}

/-- A record that is marked, or that verifies, does not fail. -/
theorem not_failing {mark checks : Bool} (sound : mark = true ∨ checks = true) : (!mark && !checks) = false := by
  rcases sound with h | h <;> simp [h]

/-- An account that fails its check word is restored when FREE, and otherwise marked. -/
theorem checkAccount_of_fails {i : Slot} (unmarked : (l.account i).faultMark = false)
    (fails : (l.account i).checks = false) :
    l.checkAccount i =
      (l.storeAccount i
        (if (l.account i).phase = .free then Account.free else { l.account i with faultMark := true })).raise
        .integrityFault := by
  by_cases free : (l.account i).phase = .free
  · rw [Ledger.checkAccount_of_free unmarked fails free, if_pos free]
  · rw [Ledger.checkAccount_of_failing unmarked fails free, if_neg free]

end

/-! ### The operation -/

section

variable {s : State} {p : SweepPosition}

/-- The state after an operation of the sweep that left the ledger, its next position and its fault count so. -/
def swept (l : Ledger) (next : Option SweepPosition) (count : Nat) (s : State) : State :=
  { s with
    ledger := l
    sweep := { position := next, faultCount := count }
    arbiter := { last := some .closingGroup, lastMember := some .integritySweep } }

/-- In its turn the sweep verifies the record of its position and goes on to the next. -/
theorem exec_sweepVerify_of_turn (turn : s.memberTurn .integritySweep = true) (stands : s.sweep.position = some p) :
    exec .sweepVerify s =
      .next
        (swept ((p.check s.ledger).raiseIf p.following.isNone .sweepDone) p.following
          (if p.fails s.ledger then s.sweep.faultCount + 1 else s.sweep.faultCount) s) := by
  have step : s.sweepStep =
      swept ((p.check s.ledger).raiseIf p.following.isNone .sweepDone) p.following
        (if p.fails s.ledger then s.sweep.faultCount + 1 else s.sweep.faultCount) s := by
    rw [State.sweepStep, stands]; rfl
  rw [← step]
  exact congrArg Host.Outcome.next (if_pos turn)

/-- A record that does not fail leaves the fault count as it is. -/
theorem exec_sweepVerify_of_sound {l : Ledger} (turn : s.memberTurn .integritySweep = true)
    (stands : s.sweep.position = some p) (sound : p.fails s.ledger = false) (checked : p.check s.ledger = l) :
    exec .sweepVerify s =
      .next (swept (l.raiseIf p.following.isNone .sweepDone) p.following s.sweep.faultCount s) := by
  rw [exec_sweepVerify_of_turn turn stands, checked, sound]
  rfl

/-- A record that fails is counted. -/
theorem exec_sweepVerify_of_failing {l : Ledger} (turn : s.memberTurn .integritySweep = true)
    (stands : s.sweep.position = some p) (failing : p.fails s.ledger = true) (checked : p.check s.ledger = l) :
    exec .sweepVerify s =
      .next (swept (l.raiseIf p.following.isNone .sweepDone) p.following (s.sweep.faultCount + 1) s) := by
  rw [exec_sweepVerify_of_turn turn stands, checked, failing]
  rfl

end

/-! ### VERIFY_STORE (R173) -/

section

variable {s : State} {p : List Byte}

/-- VERIFY_STORE asks for no operation: issued, it is carried out at once. -/
theorem exec_verifyStore_of_issues (issued : s.Issues .verifyStore p) :
    exec .verifyStore s = .next ((verifyStore p s).1.respond (verifyStore p s).2) := by
  have named := issued.named
  have parameters := issued.parameters
  obtain ⟨awake, busy, -, -, -, admits⟩ := issued
  exact congrArg Host.Outcome.next (runRequest_runs awake busy named parameters admits)

/-- VERIFY_STORE begins a sweep when none is active. -/
theorem verifyStore_of_idle (idle : s.sweep.position = none) :
    verifyStore p s = ({ s with sweep := .begun }, okDone) := by
  rw [verifyStore, idle]; rfl

/-- VERIFY_STORE is refused while a sweep is active. -/
theorem verifyStore_of_active (active : s.sweep.position ≠ none) : verifyStore p s = (s, refuse .sweepActive) := by
  rw [verifyStore, if_pos (Option.isSome_iff_ne_none.mpr active)]

end

/-- Settles O52: the request by whether a sweep is active, an operation by the kind of its record and by whether the
record fails. -/
theorem sweepVerifiesEachRecord : Obligations.SweepVerifiesEachRecord := by
  intro s p
  refine ⟨fun issued => ⟨fun idle => ?begins, fun active => ?refused⟩, fun turn => ?operation⟩
  case begins => rw [exec_verifyStore_of_issues issued, verifyStore_of_idle idle]; rfl
  case refused => rw [exec_verifyStore_of_issues issued, verifyStore_of_active active]
  case operation =>
    intro after
    refine ⟨fun i stands => ?tariff, fun i stands => ?account, fun i stands => ?intake⟩
    case tariff =>
      intro next t
      have follows : (SweepPosition.tariff i).following = next := following_tariff i
      rw [← follows]
      refine ⟨fun sound => ?_, fun unmarked fails => ?_⟩
      · exact exec_sweepVerify_of_sound turn stands (not_failing sound) (Ledger.checkTariff_of_sound sound)
      · exact exec_sweepVerify_of_failing turn stands (by simp [SweepPosition.fails, unmarked, fails, t])
          (Ledger.checkTariff_of_failing unmarked fails)
    case account =>
      intro next a
      have follows : (SweepPosition.account i).following = next := following_account i
      rw [← follows]
      refine ⟨fun sound => ?_, fun unmarked fails => ?_⟩
      · exact exec_sweepVerify_of_sound turn stands (not_failing sound) (Ledger.checkAccount_of_sound sound)
      · exact exec_sweepVerify_of_failing turn stands (by simp [SweepPosition.fails, unmarked, fails, a])
          (checkAccount_of_fails unmarked fails)
    case intake =>
      intro next done x
      have follows : (SweepPosition.intake i).following = next := following_intake i
      have ends (l : Ledger) : l.raiseIf (SweepPosition.intake i).following.isNone .sweepDone = done l := by
        rw [isNone_following_intake, Ledger.raiseIf]
        simp only [decide_eq_true_eq, done]
      rw [← follows]
      refine ⟨fun sound => ?_, fun unmarked fails => ?_⟩
      · rw [exec_sweepVerify_of_sound turn stands (not_failing sound) (Ledger.checkIntake_of_sound sound), ends]
        rfl
      · rw [exec_sweepVerify_of_failing turn stands (by simp [SweepPosition.fails, unmarked, fails, x])
          (Ledger.checkIntake_of_failing unmarked fails), ends]
        rfl

end Sys2Proof.Machine.IntegritySweep
end

