-- ==== Sys2Proof/Proofs/Starts.lean ====
section
/-! The supply events and the two kinds of start (R176 to R178, R184 to R188): which start the retained store decides
on, what a start makes of each lane, and the state that a cold and a warm start leave. -/

namespace Sys2Proof.Machine.Starts

open Sys2Proof Sys2Proof.Machine

section

variable {s : State}

/-! ### Which start it is (R176, R184) -/

/-- The retained store is invalid exactly when the signature is not its fixed value or the latch is set. -/
theorem storeValid_eq_false_iff :
    s.storeValid = false ↔ s.signature ≠ Config.fixedSignature ∨ s.dipLatch = true := by
  rw [← Bool.not_eq_true, State.storeValid_iff, Decidable.not_and_iff_not_or_not, Bool.not_eq_false]

theorem exec_deviceStart_of_valid (valid : s.storeValid = true) :
    exec (.deviceStart false) s = .next s.warmStart :=
  congrArg Host.Outcome.next (if_pos valid)

theorem exec_deviceStart_of_invalid (invalid : s.storeValid = false) :
    exec (.deviceStart false) s = .next s.coldStart :=
  congrArg Host.Outcome.next (if_neg (ne_true_of_eq_false invalid))

/-- A warm start cut short leaves the retained state as it was (R187). -/
theorem exec_cutShort_of_valid (valid : s.storeValid = true) :
    exec (.deviceStart true) s = .next { s with resetHeld := true } :=
  congrArg Host.Outcome.next (if_pos valid)

/-- A cold start cut short leaves in the signature the value that it first wrote (R176). -/
theorem exec_cutShort_of_invalid (invalid : s.storeValid = false) :
    exec (.deviceStart true) s =
      .next
        { s with
          signature := Config.otherSignature s.signatureChoices
          signatureChoices := s.signatureChoices + 1
          resetHeld := true } :=
  congrArg Host.Outcome.next (if_neg (ne_true_of_eq_false invalid))

/-! ### What a start leaves -/

/-- A lane enters SYNCING at a start when its carrier is present, which the start does not change (R66, R84). -/
theorem started_fresh (carrier : Bool) (allotment errorLimit : Nat) :
    (Lane.fresh carrier allotment errorLimit).started =
      if carrier then (Lane.fresh true allotment errorLimit).enterSyncing
      else Lane.fresh false allotment errorLimit := by
  cases carrier <;> rfl

theorem lane_coldStart (s : State) (k : LaneNo) :
    s.coldStart.lane k = if (s.lane k).carrier then (Lane.cold true).enterSyncing else Lane.cold false :=
  (Vector.getElem_map ..).trans (started_fresh (s.lane k).carrier 4 8)

/-- A warm start keeps the records; the attention set and the Settlement Engine's list are cleared (R185). -/
theorem sameRecords_warm (l : Ledger) : l.SameRecords l.warm := ⟨rfl, rfl, rfl, rfl⟩

/-- What a warm start keeps and loses in every mode (R185): the records, the retained state and the run parameters stay,
and what the blocks had in progress goes. -/
theorem warmStart_kept_and_lost (s : State) :
    s.warmStart.signature = s.signature ∧ s.warmStart.dipLatch = s.dipLatch ∧ s.warmStart.atRest = false ∧
      s.ledger.SameRecords s.warmStart.ledger ∧ s.warmStart.ledger.closeWork = [] ∧
      s.warmStart.calendar = { s.calendar with grace := none } ∧ s.warmStart.port = Port.fresh s.port.mask ∧
      s.warmStart.engine = .running ∧ s.warmStart.arrivals = [] ∧ s.warmStart.work = [] ∧
      s.warmStart.laneBoundaries = [] ∧ s.warmStart.arbiter = { last := none, lastMember := none } := by
  by_cases mode : s.mode = .commissioning
  · rw [State.warmStart, if_pos mode]
    exact ⟨rfl, rfl, rfl, sameRecords_warm s.ledger, rfl, rfl, rfl, rfl, rfl, rfl, rfl, rfl⟩
  · rw [State.warmStart, if_neg mode]
    exact ⟨rfl, rfl, rfl, sameRecords_warm s.ledger, rfl, rfl, rfl, rfl, rfl, rfl, rfl, rfl⟩

theorem lanes_warmStart (s : State) :
    s.warmStart.lanes = s.lanes.map fun (n : Lane) => (Lane.fresh n.carrier n.allotment n.errorLimit).started := by
  by_cases mode : s.mode = .commissioning
  · rw [State.warmStart, if_pos mode]
  · rw [State.warmStart, if_neg mode]

theorem lane_warmStart (s : State) (k : LaneNo) :
    s.warmStart.lane k =
      if (s.lane k).carrier then (Lane.fresh true (s.lane k).allotment (s.lane k).errorLimit).enterSyncing
      else Lane.fresh false (s.lane k).allotment (s.lane k).errorLimit := by
  rw [State.lane, lanes_warmStart, Vector.getElem_map]
  exact started_fresh ..

/-- From COMMISSIONING a warm start completes at once, with RESTART_DONE raised alone (R188). -/
theorem warmStart_of_commissioning (mode : s.mode = .commissioning) :
    s.warmStart.mode = .commissioning ∧ s.warmStart.ledger.attention = AttentionSource.restartDone.bit ∧
      s.warmStart.sweep = { position := none, faultCount := s.sweep.faultCount } := by
  rw [State.warmStart, if_pos mode]
  exact ⟨mode, BitVec.zero_or, rfl⟩

/-- From RUN or RESTARTING a warm start begins the restart sweep (R186, R187). -/
theorem warmStart_of_running (mode : s.mode ≠ .commissioning) :
    s.warmStart.mode = .restarting ∧ s.warmStart.ledger.attention = 0 ∧
      s.warmStart.sweep = { position := some (.tariff 0), faultCount := 0 } := by
  rw [State.warmStart, if_neg mode]
  exact ⟨rfl, rfl, rfl⟩

end

/-- Settles O57: the retained store decides which start it is, and each is read off from the state it leaves. -/
theorem startsAreWarmOrCold : Obligations.StartsAreWarmOrCold := by
  intro s
  refine ⟨rfl, rfl, rfl, fun invalid => ?cutCold, fun fixed clear => ?cutWarm, fun invalid => ?cold,
    fun fixed clear => ?warm⟩
  case cutCold =>
    exact ⟨_, otherSignature_ne_fixed _, exec_cutShort_of_invalid (storeValid_eq_false_iff.mpr invalid)⟩
  case cutWarm => exact exec_cutShort_of_valid (s.storeValid_iff.mpr ⟨fixed, clear⟩)
  case cold =>
    exact ⟨s.coldStart, exec_deviceStart_of_invalid (storeValid_eq_false_iff.mpr invalid), rfl, rfl, rfl, rfl, rfl, rfl,
      rfl, rfl, rfl, rfl, rfl, rfl, rfl, lane_coldStart s⟩
  case warm =>
    obtain ⟨signature, latch, awake, records, list, calendar, port, engine, arrivals, work, boundaries, arbiter⟩ :=
      warmStart_kept_and_lost s
    exact ⟨s.warmStart, exec_deviceStart_of_valid (s.storeValid_iff.mpr ⟨fixed, clear⟩), signature.trans fixed,
      latch.trans clear, awake, records, list, calendar, port, engine, arrivals, work, boundaries, arbiter,
      lane_warmStart s, warmStart_of_commissioning, warmStart_of_running⟩

end Sys2Proof.Machine.Starts
end

