-- ==== Sys2Proof/Proofs/Arbitration.lean ====
section
/-! The arbiter (R162, R163): the choice by its place in the fixed cycle, who waits, and what a command can do. Every
command but a start changes neither a record nor the arbiter, or is an operation of whoever is chosen. -/

namespace Sys2Proof.Machine.Arbitration

open Sys2Proof Sys2Proof.Machine

/-! ### The choice by its place in the cycle -/

/-- What a search finds stands ahead of everything else that passes. -/
theorem idxOf_lt_of_find? {α : Type} [DecidableEq α] {p : α → Bool} {x r : α} (passes : p r = true) (other : r ≠ x) :
    ∀ {xs : List α}, xs.find? p = some x → xs.idxOf x < xs.idxOf r
  | [], found => nomatch found
  | y :: ys, found => by
    rw [List.find?_cons] at found
    cases hy : p y with
    | true =>
      rw [hy] at found
      obtain rfl : y = x := Option.some.inj found
      simp [List.idxOf_cons, beq_eq_false_iff_ne.mpr other.symm]
    | false =>
      rw [hy] at found
      have passed : p x = true := List.find?_some found
      have ne_x : y ≠ x := by rintro rfl; simp [hy] at passed
      have ne_r : y ≠ r := by rintro rfl; simp [hy] at passes
      simpa [List.idxOf_cons, beq_eq_false_iff_ne.mpr ne_x, beq_eq_false_iff_ne.mpr ne_r] using
        idxOf_lt_of_find? passes other found

theorem mem_requesterOrder (last : Option Requester) (r : Requester) : r ∈ requesterOrder last := by
  rcases last with _ | _ | _ | _ <;> cases r <;> decide

theorem mem_memberOrder (last : Option GroupMember) (m : GroupMember) : m ∈ memberOrder last := by
  rcases last with _ | _ | _ | _ <;> cases m <;> decide

theorem length_requesterOrder (last : Option Requester) : (requesterOrder last).length = 3 := by
  rcases last with _ | _ | _ | _ <;> rfl

theorem length_memberOrder (last : Option GroupMember) : (memberOrder last).length = 3 := by
  rcases last with _ | _ | _ | _ <;> rfl

/-- A grant begins the cycle behind the requester granted, so that whoever stood behind it moves up. -/
theorem idxOf_requesterOrder_lt {last : Option Requester} {r x : Requester}
    (behind : (requesterOrder last).idxOf x < (requesterOrder last).idxOf r) :
    (requesterOrder (some x)).idxOf r < (requesterOrder last).idxOf r := by
  revert behind
  rcases last with _ | _ | _ | _ <;> cases r <;> cases x <;> decide

theorem idxOf_memberOrder_lt {last : Option GroupMember} {m x : GroupMember}
    (behind : (memberOrder last).idxOf x < (memberOrder last).idxOf m) :
    (memberOrder (some x)).idxOf m < (memberOrder last).idxOf m := by
  revert behind
  rcases last with _ | _ | _ | _ <;> cases m <;> cases x <;> decide

/-- Whoever has at most two places ahead, and gains one with each grant to another, is reached within three grants. -/
theorem reached_within_three {first second third : Prop} {n₀ n₁ n₂ n₃ : Nat} (start : n₀ ≤ 2) (gain₁ : ¬first → n₁ < n₀)
    (gain₂ : ¬second → n₂ < n₁) (gain₃ : ¬third → n₃ < n₂) : first ∨ second ∨ third := by
  by_cases h₁ : first
  · exact .inl h₁
  · by_cases h₂ : second
    · exact .inr (.inl h₂)
    · have place := gain₁ h₁
      have nearer := gain₂ h₂
      exact .inr (.inr (Classical.byContradiction fun h₃ => by have past := gain₃ h₃; omega))

/-- How many turns of other members can come ahead of a member that waits. -/
def memberPlace (m : GroupMember) (b : Arbiter) : Nat := (memberOrder b.lastMember).idxOf m

section

variable {b : Arbiter} {r x : Requester} {w : List Requester}

theorem requesterAhead_le (b : Arbiter) (r : Requester) : b.requesterAhead r ≤ 2 := by
  have bound : (requesterOrder b.last).idxOf r < (requesterOrder b.last).length :=
    List.idxOf_lt_length_of_mem (mem_requesterOrder b.last r)
  rw [length_requesterOrder] at bound
  exact Nat.le_of_lt_succ bound

/-- A requester that waits and is not chosen has one grant fewer ahead of it. -/
theorem requesterAhead_grant_lt (waits : r ∈ w) (chosen : b.nextRequester w = some x) (other : r ≠ x) :
    (b.grant x).requesterAhead r < b.requesterAhead r :=
  idxOf_requesterOrder_lt (idxOf_lt_of_find? (p := fun r => decide (r ∈ w)) (decide_eq_true waits) other chosen)

theorem exists_nextRequester (b : Arbiter) (waits : w ≠ []) : ∃ r ∈ w, b.nextRequester w = some r := by
  obtain ⟨r, hr⟩ := List.exists_mem_of_ne_nil w waits
  have found : (b.nextRequester w).isSome = true :=
    List.find?_isSome.mpr ⟨r, mem_requesterOrder b.last r, decide_eq_true hr⟩
  obtain ⟨x, hx⟩ := Option.isSome_iff_exists.mp found
  exact ⟨x, Arbiter.nextRequester_mem hx, hx⟩

theorem nextRequester_singleton (b : Arbiter) (r : Requester) : b.nextRequester [r] = some r := by
  obtain ⟨x, mem, chosen⟩ := exists_nextRequester b (List.cons_ne_nil r [])
  rw [chosen, List.mem_singleton.mp mem]

/-- Three grants reach a requester that keeps waiting. -/
theorem nextRequester_within_three {y z : Requester} {w₁ w₂ w₃ : List Requester} (waits₁ : r ∈ w₁) (waits₂ : r ∈ w₂)
    (waits₃ : r ∈ w₃) (first : b.nextRequester w₁ = some x) (second : (b.grant x).nextRequester w₂ = some y)
    (third : ((b.grant x).grant y).nextRequester w₃ = some z) : r = x ∨ r = y ∨ r = z :=
  reached_within_three (requesterAhead_le b r) (requesterAhead_grant_lt waits₁ first)
    (requesterAhead_grant_lt waits₂ second) (requesterAhead_grant_lt waits₃ third)

/-- After a start the Request Engine is first in the cycle. -/
theorem nextRequester_fresh (waits : .requestEngine ∈ w) : Arbiter.fresh.nextRequester w = some .requestEngine := by
  rw [Arbiter.nextRequester]
  exact List.find?_cons_of_pos (decide_eq_true waits)

end

section

variable {b : Arbiter} {m x : GroupMember} {w : List GroupMember}

theorem memberPlace_le (b : Arbiter) (m : GroupMember) : memberPlace m b ≤ 2 := by
  have bound : (memberOrder b.lastMember).idxOf m < (memberOrder b.lastMember).length :=
    List.idxOf_lt_length_of_mem (mem_memberOrder b.lastMember m)
  rw [length_memberOrder] at bound
  exact Nat.le_of_lt_succ bound

theorem memberAhead_eq (b : Arbiter) (m : GroupMember) :
    b.memberAhead m = 3 * memberPlace m b + b.requesterAhead .closingGroup := rfl

theorem memberAhead_le (b : Arbiter) (m : GroupMember) : b.memberAhead m ≤ 8 := by
  have place := memberPlace_le b m
  have ahead := requesterAhead_le b .closingGroup
  rw [memberAhead_eq]
  omega

/-- A member that waits and is not chosen has one turn of another fewer ahead of it. -/
theorem memberPlace_grantMember_lt (waits : m ∈ w) (chosen : b.nextMember w = some x) (other : m ≠ x) :
    memberPlace m (b.grantMember x) < memberPlace m b :=
  idxOf_memberOrder_lt (idxOf_lt_of_find? (p := fun m => decide (m ∈ w)) (decide_eq_true waits) other chosen)

theorem exists_nextMember (b : Arbiter) (waits : w ≠ []) : ∃ m, b.nextMember w = some m := by
  obtain ⟨m, hm⟩ := List.exists_mem_of_ne_nil w waits
  have found : (b.nextMember w).isSome = true :=
    List.find?_isSome.mpr ⟨m, mem_memberOrder b.lastMember m, decide_eq_true hm⟩
  exact Option.isSome_iff_exists.mp found

/-- Three group turns reach a member that keeps waiting. -/
theorem nextMember_within_three {y z : GroupMember} {w₁ w₂ w₃ : List GroupMember} (waits₁ : m ∈ w₁) (waits₂ : m ∈ w₂)
    (waits₃ : m ∈ w₃) (first : b.nextMember w₁ = some x) (second : (b.grantMember x).nextMember w₂ = some y)
    (third : ((b.grantMember x).grantMember y).nextMember w₃ = some z) : m = x ∨ m = y ∨ m = z :=
  reached_within_three (memberPlace_le b m) (memberPlace_grantMember_lt waits₁ first)
    (memberPlace_grantMember_lt waits₂ second) (memberPlace_grantMember_lt waits₃ third)

end

/-! ### Who waits (R98, R111, R131, R139, R173; log 4) -/

section

variable {s : State} {k : RequestCode} {p : List Byte}

theorem mem_enginesWaiting_accumulation :
    .accumulationEngine ∈ s.enginesWaiting ↔ s.placementWaits = true := by
  cases hp : s.placementWaits <;> cases hm : s.membersWaiting.isEmpty <;> simp [State.enginesWaiting, hp, hm]

theorem mem_enginesWaiting_group : .closingGroup ∈ s.enginesWaiting ↔ s.membersWaiting ≠ [] := by
  rw [ne_eq, ← List.isEmpty_iff]
  cases hp : s.placementWaits <;> cases hm : s.membersWaiting.isEmpty <;> simp [State.enginesWaiting, hp, hm]

theorem requestEngine_not_mem_enginesWaiting : .requestEngine ∉ s.enginesWaiting := by
  cases hp : s.placementWaits <;> cases hm : s.membersWaiting.isEmpty <;> simp [State.enginesWaiting, hp, hm]

theorem mem_requestersWaiting {r : Requester} :
    r ∈ s.requestersWaiting ↔ (s.requestWaits = true ∧ r = .requestEngine) ∨ r ∈ s.enginesWaiting := by
  cases hw : s.requestWaits <;> simp [State.requestersWaiting, hw]

theorem mem_requestersWaiting_request : .requestEngine ∈ s.requestersWaiting ↔ s.requestWaits = true := by
  simp [mem_requestersWaiting, requestEngine_not_mem_enginesWaiting]

theorem mem_requestersWaiting_accumulation :
    .accumulationEngine ∈ s.requestersWaiting ↔ s.placementWaits = true := by
  simp [mem_requestersWaiting, mem_enginesWaiting_accumulation]

theorem mem_requestersWaiting_group : .closingGroup ∈ s.requestersWaiting ↔ s.membersWaiting ≠ [] := by
  simp [mem_requestersWaiting, mem_enginesWaiting_group]

theorem placementWaits_iff :
    s.placementWaits = true ↔
      s.atRest = false ∧ s.engine ≠ .held ∧ s.boundaryOpen = false ∧ s.arrivals ≠ [] := by
  simp [State.placementWaits, State.placementOpen, and_assoc]

theorem memberWaits_interval_iff :
    s.memberWaits .intervalEngine = true ↔
      openWork s.calendar s.ledger s.work ≠ [] ∨ s.mode = .restarting ∧ s.sweep.position = none := by
  simp [State.memberWaits, State.currentWork, State.catchUpDue]

theorem memberWaits_settlement_iff : s.memberWaits .settlementEngine = true ↔ s.ledger.closeWork ≠ [] := by
  simp [State.memberWaits]

theorem memberWaits_sweep_iff : s.memberWaits .integritySweep = true ↔ s.sweep.position ≠ none := by
  rw [State.memberWaits, Option.isSome_iff_ne_none]

/-! ### The request in execution (R162, R197) -/

/-- What passing the port's checks means. -/
theorem admitted_eq_some_iff :
    s.admitted k = some p ↔
      s.atRest = false ∧ s.port.busy = true ∧ requestNamed s.port.record = some k ∧ k.modeRefusal s.mode = none ∧
        parametersOf k s.port.record = some p := by
  rw [State.admitted]
  split
  · next barred =>
    refine ⟨fun h => (nomatch h), fun ⟨awake, busy, named, admits, _⟩ => ?_⟩
    simp [awake, busy, named, admits] at barred
  · next passed =>
    simp only [Bool.or_eq_true, not_or, Bool.not_eq_true, Bool.not_eq_false', bne_eq_false_iff_eq,
      Option.isSome_eq_false_iff, Option.isNone_iff_eq_none] at passed
    obtain ⟨⟨⟨awake, busy⟩, named⟩, admits⟩ := passed
    exact ⟨fun parameters => ⟨awake, busy, named, admits, parameters⟩, fun ⟨_, _, _, _, parameters⟩ => parameters⟩

theorem requestWaits_iff : s.requestWaits = true ↔ ∃ k p, s.admitted k = some p ∧ requestAsks k p s = true := by
  rw [State.requestWaits]
  constructor
  · intro waits
    split at waits
    · exact nomatch waits
    · next k _ => exact ⟨k, Option.any_eq_true .. |>.mp waits⟩
  · rintro ⟨k, p, admitted, asks⟩
    obtain ⟨-, -, named, -, -⟩ := admitted_eq_some_iff.mp admitted
    simp [named, admitted, asks]

theorem value_of_ofByte {b : Byte} (named : RequestCode.ofByte b = some k) : k.value = b := by
  simpa using List.find?_some named

/-- A record whose parameters pass the length check is the code, the length, the parameters and what lies beyond. -/
theorem record_of_parameters {record : List Byte} (named : requestNamed record = some k)
    (parameters : parametersOf k record = some p) :
    k.lengthFits p = true ∧ ∃ rest, record = [k.value, byte p.length] ++ p ++ rest := by
  match record with
  | [] => exact nomatch named
  | [_] => exact nomatch named
  | code :: length :: content =>
    have code_eq : k.value = code := value_of_ofByte (by simpa [requestNamed] using named)
    simp only [parametersOf, List.getD_cons_succ, List.getD_cons_zero, List.drop_succ_cons, List.drop_zero,
      List.length_cons, Option.ite_none_left_eq_some, Option.ite_none_right_eq_some, Option.some.injEq] at parameters
    obtain ⟨long, fits, rfl⟩ := parameters
    have length_eq : (content.take length.toNat).length = length.toNat := by
      rw [List.length_take]; omega
    refine ⟨fits, content.drop length.toNat, ?_⟩
    rw [code_eq, length_eq, byte, BitVec.ofNat_toNat, BitVec.setWidth_eq]
    simp

/-- With whole buffers, a request that passes the port's checks is issued. -/
theorem issues_of_admitted (whole : s.BuffersWhole) (admitted : s.admitted k = some p) : s.Issues k p := by
  obtain ⟨awake, busy, named, admits, parameters⟩ := admitted_eq_some_iff.mp admitted
  obtain ⟨fits, rest, record⟩ := record_of_parameters named parameters
  obtain ⟨-, -, filled⟩ := whole
  have short : s.port.record.length ≤ 128 := by
    rw [Port.record, List.length_take]
    exact Nat.le_trans (Nat.min_le_left ..) filled
  have bound : p.length ≤ 126 := by
    rw [record] at short
    simp only [List.length_append, List.length_cons, List.length_nil] at short
    omega
  exact ⟨awake, busy, bound, fits, ⟨rest, record⟩, admits⟩

theorem requestWaits_iff_issues (whole : s.BuffersWhole) :
    s.requestWaits = true ↔ ∃ k p, s.Issues k p ∧ requestAsks k p s = true := by
  rw [requestWaits_iff]
  exact ⟨fun ⟨k, p, admitted, asks⟩ => ⟨k, p, issues_of_admitted whole admitted, asks⟩,
    fun ⟨k, p, issued, asks⟩ => ⟨k, p, issued.admitted, asks⟩⟩

/-- While the request in execution asks, its turn is the one that level one gives the Request Engine. -/
theorem turn_requestEngine (waits : s.requestWaits = true) : s.turn .requestEngine = s.requestTurn := by
  simp [State.turn, State.requestTurn, State.requestersWaiting, waits]

end

/-! ### Steps that carry out no operation -/

/-- From `s` to `t` the arbiter grants nothing and no record changes. -/
def Idle (s t : State) : Prop := t.arbiter = s.arbiter ∧ s.ledger.SameRecords t.ledger

section

variable {s t u : State}

theorem sameRecords_refl (l : Ledger) : l.SameRecords l := ⟨rfl, rfl, rfl, rfl⟩

theorem Idle.refl (s : State) : Idle s s := ⟨rfl, sameRecords_refl s.ledger⟩

theorem Idle.trans (first : Idle s t) (second : Idle t u) : Idle s u := by
  obtain ⟨arbiter, accounts, intakes, tariffs, pool⟩ := first
  obtain ⟨arbiter', accounts', intakes', tariffs', pool'⟩ := second
  exact ⟨arbiter'.trans arbiter, accounts'.trans accounts, intakes'.trans intakes, tariffs'.trans tariffs,
    pool'.trans pool⟩

/-- A step that changes neither the arbiter nor the ledger. -/
theorem Idle.of_eq (arbiter : t.arbiter = s.arbiter) (ledger : t.ledger = s.ledger) : Idle s t :=
  ⟨arbiter, ledger ▸ sameRecords_refl s.ledger⟩

theorem Idle.ite {c : Prop} [Decidable c] (yes : Idle s t) (no : Idle s u) : Idle s (if c then t else u) := by
  split
  · exact yes
  · exact no

theorem idle_respond (a : Answer) (s : State) : Idle s (s.respond a) := .of_eq rfl rfl

theorem idle_raise (x : AttentionSource) (s : State) : Idle s (s.raise x) := ⟨rfl, rfl, rfl, rfl, rfl⟩

theorem idle_transact (f : Port → Port) (s : State) : Idle s (s.transact f) := .ite (.refl s) (.of_eq rfl rfl)

theorem idle_onLane (k : LaneNo) (f : Lane → Lane) (s : State) : Idle s (s.onLane k f) :=
  .ite (.refl s) (.of_eq rfl rfl)

theorem idle_laneOutcome (k : LaneNo) (outcome : Lane × Reception) (s : State) : Idle s (s.laneOutcome k outcome) :=
  .ite (.trans (.of_eq rfl rfl) (idle_raise .laneIsolated _)) (.of_eq rfl rfl)

theorem idle_receiveIncrement (k : LaneNo) (f : IncrementFrame) (s : State) : Idle s (s.receiveIncrement k f) :=
  .ite (.trans (idle_laneOutcome k _ s) (.of_eq rfl rfl)) (idle_laneOutcome k _ s)

theorem idle_takeLaneBoundary (s : State) : Idle s s.takeLaneBoundary := by
  rw [State.takeLaneBoundary]
  split
  · exact .refl s
  · exact .ite (.of_eq rfl rfl) (.of_eq rfl rfl)

theorem idle_produceMinute (start : Seconds) (s : State) : Idle s (s.produceMinute start) := .of_eq rfl rfl

theorem idle_produceGrace (s : State) : Idle s s.produceGrace := by
  rw [State.produceGrace]
  split
  · exact .refl s
  · exact .of_eq rfl rfl

/-- A boundary event raises at most BOUNDARY_COUNT in the ledger. -/
theorem idle_produceBoundary (time : Seconds) (s : State) : Idle s (s.produceBoundary time) :=
  .trans (idle_produceGrace s)
    ⟨rfl, Ledger.raiseIf_accounts .., Ledger.raiseIf_intakes .., Ledger.raiseIf_tariffs .., Ledger.raiseIf_pool ..⟩

theorem idle_takeGrace (s : State) : Idle s s.takeGrace := .ite (idle_produceGrace s) (.refl s)

theorem idle_takeMinute (s : State) : Idle s s.takeMinute := .ite (idle_produceMinute _ s) (.refl s)

theorem idle_takeBoundary (s : State) : Idle s s.takeBoundary := by
  refine .ite ?_ (.refl s)
  split
  · exact idle_produceBoundary _ s
  · exact .refl s

theorem idle_takeOwed (s : State) : Idle s s.takeOwed :=
  ((idle_takeGrace s).trans (idle_takeMinute _)).trans (idle_takeBoundary _)

theorem idle_reachMinute (before : Seconds) (s : State) : Idle s (s.reachMinute before) :=
  .ite (idle_produceMinute _ s) (.refl s)

theorem idle_reachBoundary (before : Seconds) (s : State) : Idle s (s.reachBoundary before) := by
  rw [State.reachBoundary]
  split
  · exact .ite (idle_produceBoundary _ s) (.refl s)
  · exact .refl s

theorem idle_reachGrace (s : State) : Idle s s.reachGrace := .ite (idle_produceGrace s) (.refl s)

theorem idle_trim (amount : Int) (s : State) : Idle s (s.trim amount) := by
  have moved : Idle s { s.takeOwed with calendar := s.takeOwed.calendar.moved amount } :=
    (idle_takeOwed s).trans (.of_eq rfl rfl)
  exact .ite (((moved.trans (idle_reachMinute _ _)).trans (idle_reachBoundary _ _)).trans (idle_reachGrace _)) moved

end

/-! ### What a request's own work leaves (log 5) -/

/-- The work of a request leaves the arbiter as it is, and the records too unless the request asks for an operation. -/
def KeepsUnlessAsking (asks : List Byte → State → Bool) (own : List Byte → State → State × Answer) : Prop :=
  ∀ p s, (own p s).1.arbiter = s.arbiter ∧ (asks p s = false → s.ledger.SameRecords (own p s).1.ledger)

theorem KeepsUnlessAsking.of_idle {asks : List Byte → State → Bool} {own : List Byte → State → State × Answer}
    (idle : ∀ p s, Idle s (own p s).1) : KeepsUnlessAsking asks own :=
  fun p s => ⟨(idle p s).1, fun _ => (idle p s).2⟩

section

variable (p : List Byte) (s : State)

theorem idle_setTime : Idle s (setTime p s).1 := by
  simp only [setTime]
  split
  · exact .refl s
  · exact .of_eq rfl rfl

theorem idle_trimTime : Idle s (trimTime p s).1 := by
  simp only [trimTime]
  split
  · exact .refl s
  · split
    · exact .refl s
    · split
      · exact .refl s
      · exact .ite (.refl s) (idle_trim _ s)

theorem idle_readTime : Idle s (readTime p s).1 := .refl s

theorem idle_restoreLane : Idle s (restoreLane p s).1 := by
  rw [restoreLane]
  split
  · exact .refl s
  · dsimp only
    split
    · exact .of_eq rfl rfl
    · exact .refl s

theorem idle_setLane : Idle s (setLane p s).1 := by
  rw [setLane]
  split
  · exact .refl s
  · split
    · exact .of_eq rfl rfl
    · exact .refl s

theorem idle_readLane : Idle s (readLane p s).1 := by
  rw [readLane]
  split
  · exact .refl s
  · exact .of_eq rfl rfl

theorem idle_holdAccumulation : Idle s (holdAccumulation p s).1 := by
  rw [holdAccumulation]
  split
  · exact .of_eq rfl rfl
  · exact .refl s

theorem idle_releaseAccumulation : Idle s (releaseAccumulation p s).1 := by
  rw [releaseAccumulation]
  split
  · exact .refl s
  · exact .of_eq rfl rfl

theorem idle_verifyStore : Idle s (verifyStore p s).1 := by
  rw [verifyStore]
  split
  · exact .refl s
  · exact .of_eq rfl rfl

theorem idle_stopRun : Idle s (stopRun p s).1 := by
  rw [stopRun]
  split
  · exact .refl s
  · exact .of_eq rfl rfl

theorem idle_setRunParameters : Idle s (setRunParameters p s).1 := by
  simp only [setRunParameters]
  split
  · exact .refl s
  · split
    · exact .refl s
    · exact .of_eq rfl rfl

theorem idle_readPartStatus : Idle s (readPartStatus p s).1 := .refl s

theorem idle_setAttentionMask : Idle s (setAttentionMask p s).1 := by
  rw [setAttentionMask]
  split
  · exact .refl s
  · exact .of_eq rfl rfl

theorem idle_ackAttention : Idle s (ackAttention p s).1 := by
  rw [ackAttention]
  split
  · exact .refl s
  · exact ⟨rfl, rfl, rfl, rfl, rfl⟩

end

/-- START_RUN writes accounts, once its check on the calendar has passed. -/
theorem startRun_keepsUnlessAsking : KeepsUnlessAsking startRunAsks startRun := by
  intro p s
  rw [startRun]
  cases set : s.calendar.isSet with
  | false => exact ⟨rfl, fun _ => sameRecords_refl s.ledger⟩
  | true => exact ⟨by simp, fun refused => nomatch set.symm.trans refused⟩

/-- A request on the ledger that its parameters alone refuse leaves the ledger as it is. -/
def RefusedUntouched (l : Ledger) (outcome : Ledger × Answer) : Prop :=
  outcome.2.code.onParameters = true → outcome.1 = l

/-- The answer is not one that the parameters alone give. -/
def DecidedOnRecords (outcome : Ledger × Answer) : Prop := outcome.2.code.onParameters = false

theorem KeepsUnlessAsking.of_untouched {work : List Byte → Calendar → Mode → Ledger → Ledger × Answer}
    (untouched : ∀ p c m l, RefusedUntouched l (work p c m l)) :
    KeepsUnlessAsking (recordAsks work) fun params s =>
      let outcome := work params s.calendar s.mode s.ledger
      (s.withLedger outcome.1, outcome.2) := by
  refine fun p s => ⟨rfl, fun refused => ?_⟩
  have same := untouched p s.calendar s.mode s.ledger (by simpa [recordAsks] using refused)
  rw [State.withLedger_ledger, same]
  exact sameRecords_refl s.ledger

section

variable {l : Ledger} {n : Nat} {ranges admits : Bool}

theorem RefusedUntouched.same (l : Ledger) (a : Answer) : RefusedUntouched l (l, a) := fun _ => rfl

theorem RefusedUntouched.of_decided {outcome : Ledger × Answer} (decided : DecidedOnRecords outcome) :
    RefusedUntouched l outcome := fun refused => nomatch refused.symm.trans decided

theorem untouched_addressAccount {own : Slot → Account → Ledger → Ledger × Answer}
    (decided : ∀ i a l, DecidedOnRecords (own i a l)) : RefusedUntouched l (addressAccount n ranges l own) := by
  rw [addressAccount]
  split
  · exact .same l _
  · split
    · exact .same l _
    · split
      · exact .same l _
      · refine .of_decided ?_
        dsimp only
        split
        · exact rfl
        · exact decided _ _ _

theorem untouched_addressFaulted {own : Slot → Account → Ledger × Answer}
    (decided : ∀ i a, DecidedOnRecords (own i a)) : RefusedUntouched l (addressFaulted n ranges l own) := by
  rw [addressFaulted]
  split
  · exact .same l _
  · split
    · exact .same l _
    · split
      · exact .same l _
      · split
        · exact .same l _
        · exact .of_decided (decided _ _)

theorem untouched_addressIntake {own : IntakeNo → Intake → Ledger → Ledger × Answer}
    (decided : ∀ i x l, DecidedOnRecords (own i x l)) :
    RefusedUntouched l (addressIntake n ranges admits l own) := by
  rw [addressIntake]
  split
  · exact .same l _
  · split
    · exact .same l _
    · split
      · exact .same l _
      · refine .of_decided ?_
        dsimp only
        split
        · exact rfl
        · exact decided _ _ _

theorem DecidedOnRecords.ite {c : Prop} [Decidable c] {a b : Ledger × Answer} (yes : DecidedOnRecords a)
    (no : DecidedOnRecords b) : DecidedOnRecords (if c then a else b) := by
  split
  · exact yes
  · exact no

theorem RefusedUntouched.ite {c : Prop} [Decidable c] {a b : Ledger × Answer} (yes : RefusedUntouched l a)
    (no : RefusedUntouched l b) : RefusedUntouched l (if c then a else b) := by
  split
  · exact yes
  · exact no

end

section

variable (p : List Byte) (c : Calendar) (m : Mode) (l : Ledger)

theorem untouched_openAccount : RefusedUntouched l (openAccount p c m l) := by
  simp only [openAccount]
  split
  · exact .same l _
  · refine .ite (.same l _) (.of_decided (.ite rfl (.ite rfl ?_)))
    split <;> rfl

theorem untouched_amendAccount : RefusedUntouched l (amendAccount p c m l) :=
  untouched_addressAccount fun _ _ _ => .ite rfl rfl

theorem untouched_suspendAccount : RefusedUntouched l (suspendAccount p c m l) :=
  untouched_addressAccount fun _ _ _ => .ite rfl rfl

theorem untouched_resumeAccount : RefusedUntouched l (resumeAccount p c m l) :=
  untouched_addressAccount fun _ _ _ => .ite rfl rfl

theorem untouched_retireAccount : RefusedUntouched l (retireAccount p c m l) :=
  untouched_addressAccount fun _ _ _ => .ite rfl (.ite rfl (.ite rfl rfl))

theorem untouched_findAccount : RefusedUntouched l (findAccount p c m l) := by
  simp only [findAccount]
  refine .ite (.same l _) (.of_decided ?_)
  split
  · exact rfl
  · rw [DecidedOnRecords]
    split <;> rfl

theorem untouched_readAccount : RefusedUntouched l (readAccount p c m l) := by
  rw [readAccount]
  split
  · next sec _ _ =>
    refine .ite (.same l _) (.ite (.same l _) (.of_decided (.ite rfl ?_)))
    cases sec with
    | identity => exact rfl
    | running => exact rfl
    | ratchet => exact rfl
    | settled =>
      simp only [readSection]
      split <;> rfl
    | window => exact .ite rfl rfl
  · exact .same l _

theorem untouched_listAccounts : RefusedUntouched l (listAccounts p c m l) := by
  rw [listAccounts]
  split
  · exact .same l _
  · exact .of_decided rfl

theorem untouched_writeTariff : RefusedUntouched l (writeTariff p c m l) := by
  rw [writeTariff]
  split
  · exact .same l _
  · exact .ite (.same l _) (.ite (.same l _) (.of_decided (.ite rfl (.ite rfl rfl))))

theorem untouched_deleteTariff : RefusedUntouched l (deleteTariff p c m l) := by
  rw [deleteTariff]
  split
  · exact .same l _
  · exact .of_decided (.ite rfl (.ite rfl (.ite rfl rfl)))

theorem untouched_readTariff : RefusedUntouched l (readTariff p c m l) := by
  simp only [readTariff]
  split
  · exact .same l _
  · refine .of_decided (.ite rfl ?_)
    split <;> rfl

theorem untouched_defineIntake : RefusedUntouched l (defineIntake p c m l) := by
  rw [defineIntake]
  split
  · exact .same l _
  · exact untouched_addressIntake fun _ _ _ => .ite rfl (.ite rfl rfl)

theorem untouched_assignIntake : RefusedUntouched l (assignIntake p c m l) := by
  rw [assignIntake]
  split
  · exact .same l _
  · exact untouched_addressIntake fun _ _ _ =>
      .ite rfl (.ite rfl (.ite rfl (.ite rfl (.ite rfl (.ite rfl rfl)))))

theorem untouched_unassignIntake : RefusedUntouched l (unassignIntake p c m l) := by
  refine untouched_addressIntake fun i x l => .ite (.ite rfl ?_) (.ite rfl rfl)
  split
  · exact .ite rfl (.ite rfl rfl)
  · exact rfl

theorem untouched_readIntake : RefusedUntouched l (readIntake p c m l) :=
  untouched_addressIntake fun _ _ _ => rfl

theorem untouched_collectHeld : RefusedUntouched l (collectHeld p c m l) :=
  untouched_addressIntake fun _ _ _ => rfl

theorem untouched_readDemand : RefusedUntouched l (readDemand p c m l) :=
  untouched_addressAccount fun _ _ _ => .ite rfl rfl

theorem untouched_closeNow : RefusedUntouched l (closeNow p c m l) :=
  untouched_addressAccount fun _ _ _ => .ite rfl (.ite rfl rfl)

theorem untouched_changeTariff : RefusedUntouched l (changeTariff p c m l) := by
  rw [changeTariff]
  split
  · exact .same l _
  · exact untouched_addressAccount fun _ _ _ =>
      .ite rfl (.ite rfl (.ite rfl (.ite rfl (.ite rfl (.ite rfl rfl)))))

theorem untouched_releaseSettlement : RefusedUntouched l (releaseSettlement p c m l) :=
  untouched_addressAccount fun _ _ _ => .ite rfl (.ite rfl rfl)

theorem untouched_repairAccount : RefusedUntouched l (repairAccount p c m l) := by
  simp only [repairAccount]
  split
  · exact .same l _
  · exact untouched_addressFaulted fun _ _ => .ite rfl (.ite rfl rfl)

theorem untouched_discardAccount : RefusedUntouched l (discardAccount p c m l) :=
  untouched_addressFaulted fun _ _ => rfl

theorem untouched_repairIntake : RefusedUntouched l (repairIntake p c m l) := by
  rw [repairIntake]
  split
  · exact .of_decided (.ite rfl rfl)
  · exact .same l _

end

/-! ### Carrying out a request (R162, R197) -/

/-- The command of a request carries it out as one that asks when `requestAsks` says so, with this work of its own,
which keeps the records unless the request asks. -/
def CarriedOut (k : RequestCode) (own : List Byte → State → State × Answer) : Prop :=
  (∀ s, exec k.command s = .next (runOperation k (requestAsks k) own s)) ∧ KeepsUnlessAsking (requestAsks k) own

/-- A request whose work is one operation on the ledger. -/
theorem exists_carriedOut_on_ledger {k : RequestCode} {work : List Byte → Calendar → Mode → Ledger → Ledger × Answer}
    (asks : requestAsks k = recordAsks work) (runs : ∀ s, exec k.command s = .next (runRecordRequest k work s))
    (untouched : ∀ p c m l, RefusedUntouched l (work p c m l)) : ∃ own, CarriedOut k own := by
  simp only [CarriedOut, asks]
  exact ⟨_, runs, .of_untouched untouched⟩

/-- A request that touches no record, and so never asks. -/
theorem exists_carriedOut_unasked {k : RequestCode} {own : List Byte → State → State × Answer}
    (asks : requestAsks k = fun _ _ => false) (runs : ∀ s, exec k.command s = .next (runRequest k own s))
    (idle : ∀ p s, Idle s (own p s).1) : ∃ own, CarriedOut k own := by
  refine ⟨own, ?_⟩
  rw [CarriedOut, asks]
  exact ⟨fun s => (runs s).trans (congrArg _ (runOperation_unasked fun _ _ => rfl).symm), .of_idle idle⟩

theorem exists_carriedOut (k : RequestCode) : ∃ own, CarriedOut k own := by
  cases k with
  | openAccount => exact exists_carriedOut_on_ledger rfl (fun _ => rfl) untouched_openAccount
  | amendAccount => exact exists_carriedOut_on_ledger rfl (fun _ => rfl) untouched_amendAccount
  | suspendAccount => exact exists_carriedOut_on_ledger rfl (fun _ => rfl) untouched_suspendAccount
  | resumeAccount => exact exists_carriedOut_on_ledger rfl (fun _ => rfl) untouched_resumeAccount
  | retireAccount => exact exists_carriedOut_on_ledger rfl (fun _ => rfl) untouched_retireAccount
  | findAccount => exact exists_carriedOut_on_ledger rfl (fun _ => rfl) untouched_findAccount
  | readAccount => exact exists_carriedOut_on_ledger rfl (fun _ => rfl) untouched_readAccount
  | listAccounts => exact exists_carriedOut_on_ledger rfl (fun _ => rfl) untouched_listAccounts
  | writeTariff => exact exists_carriedOut_on_ledger rfl (fun _ => rfl) untouched_writeTariff
  | deleteTariff => exact exists_carriedOut_on_ledger rfl (fun _ => rfl) untouched_deleteTariff
  | readTariff => exact exists_carriedOut_on_ledger rfl (fun _ => rfl) untouched_readTariff
  | setTime => exact exists_carriedOut_unasked rfl (fun _ => rfl) idle_setTime
  | trimTime => exact exists_carriedOut_unasked rfl (fun _ => rfl) idle_trimTime
  | readTime => exact exists_carriedOut_unasked rfl (fun _ => rfl) idle_readTime
  | restoreLane => exact exists_carriedOut_unasked rfl (fun _ => rfl) idle_restoreLane
  | setLane => exact exists_carriedOut_unasked rfl (fun _ => rfl) idle_setLane
  | readLane => exact exists_carriedOut_unasked rfl (fun _ => rfl) idle_readLane
  | defineIntake => exact exists_carriedOut_on_ledger rfl (fun _ => rfl) untouched_defineIntake
  | assignIntake => exact exists_carriedOut_on_ledger rfl (fun _ => rfl) untouched_assignIntake
  | unassignIntake => exact exists_carriedOut_on_ledger rfl (fun _ => rfl) untouched_unassignIntake
  | readIntake => exact exists_carriedOut_on_ledger rfl (fun _ => rfl) untouched_readIntake
  | collectHeld => exact exists_carriedOut_on_ledger rfl (fun _ => rfl) untouched_collectHeld
  | holdAccumulation => exact exists_carriedOut_unasked rfl (fun _ => rfl) idle_holdAccumulation
  | releaseAccumulation => exact exists_carriedOut_unasked rfl (fun _ => rfl) idle_releaseAccumulation
  | readDemand => exact exists_carriedOut_on_ledger rfl (fun _ => rfl) untouched_readDemand
  | closeNow => exact exists_carriedOut_on_ledger rfl (fun _ => rfl) untouched_closeNow
  | changeTariff => exact exists_carriedOut_on_ledger rfl (fun _ => rfl) untouched_changeTariff
  | releaseSettlement => exact exists_carriedOut_on_ledger rfl (fun _ => rfl) untouched_releaseSettlement
  | repairAccount => exact exists_carriedOut_on_ledger rfl (fun _ => rfl) untouched_repairAccount
  | discardAccount => exact exists_carriedOut_on_ledger rfl (fun _ => rfl) untouched_discardAccount
  | repairIntake => exact exists_carriedOut_on_ledger rfl (fun _ => rfl) untouched_repairIntake
  | verifyStore => exact exists_carriedOut_unasked rfl (fun _ => rfl) idle_verifyStore
  | startRun => exact ⟨_, fun _ => rfl, startRun_keepsUnlessAsking⟩
  | stopRun => exact ⟨_, fun _ => rfl, .of_idle idle_stopRun⟩
  | setRunParameters => exact ⟨_, fun _ => rfl, .of_idle idle_setRunParameters⟩
  | readPartStatus => exact ⟨_, fun _ => rfl, .of_idle idle_readPartStatus⟩
  | setAttentionMask => exact exists_carriedOut_unasked rfl (fun _ => rfl) idle_setAttentionMask
  | ackAttention => exact exists_carriedOut_unasked rfl (fun _ => rfl) idle_ackAttention

section

variable {s : State} {k : RequestCode} {p : List Byte} {own : List Byte → State → State × Answer}
  {asks : List Byte → State → Bool}

/-- A request that passes the port's checks does its own work and is answered. -/
theorem runRequest_of_admitted (admitted : s.admitted k = some p) :
    runRequest k own s = (own p s).1.respond (own p s).2 := by
  obtain ⟨awake, busy, named, admits, parameters⟩ := admitted_eq_some_iff.mp admitted
  exact runRequest_runs awake busy named parameters admits

/-- One that does not pass them is at most answered. -/
theorem idle_runRequest_of_not_admitted (barred : s.admitted k = none) : Idle s (runRequest k own s) := by
  by_cases none : s.atRest = true ∨ s.port.busy = false
  · rw [runRequest_idle none]
    exact .refl s
  · rw [not_or, Bool.not_eq_true, Bool.not_eq_false] at none
    obtain ⟨awake, busy⟩ := none
    cases named : requestNamed s.port.record with
    | none =>
      rw [runRequest_unnamed awake busy named]
      exact idle_respond _ s
    | some j =>
      by_cases same : j = k
      · subst same
        cases parameters : parametersOf j s.port.record with
        | none =>
          rw [runRequest_badLength awake busy named parameters]
          exact idle_respond _ s
        | some p =>
          cases admits : j.modeRefusal s.mode with
          | none =>
            have admitted := admitted_eq_some_iff.mpr ⟨awake, busy, named, admits, parameters⟩
            exact nomatch barred.symm.trans admitted
          | some code =>
            rw [runRequest_wrongMode awake busy named parameters admits]
            exact idle_respond _ s
      · rw [runRequest_other awake busy named same]
        exact .refl s

/-- A request that asks for no operation, or does not pass the port's checks, is carried out without one. -/
theorem idle_runOperation (keeps : KeepsUnlessAsking asks own)
    (unasked : ∀ p, s.admitted k = some p → asks p s = false) : Idle s (runOperation k asks own s) := by
  rw [runOperation_unasked unasked]
  cases admitted : s.admitted k with
  | none => exact idle_runRequest_of_not_admitted admitted
  | some p =>
    rw [runRequest_of_admitted admitted]
    obtain ⟨arbiter, records⟩ := keeps p s
    exact .trans ⟨arbiter, records (unasked p admitted)⟩ (idle_respond _ _)

/-- A request that is granted its operation leaves the arbiter with that grant. -/
theorem arbiter_runOperation_granted (keeps : KeepsUnlessAsking asks own) (admitted : s.admitted k = some p)
    (ask : asks p s = true) (turn : s.requestTurn = true) :
    (runOperation k asks own s).arbiter = s.arbiter.grant .requestEngine := by
  rw [runOperation_granted admitted ask turn, runRequest_of_admitted (s := s.requestGrant) admitted]
  exact (keeps p s.requestGrant).1

end

/-! ### What a command can do -/

/-- From `s` to `t` no operation is carried out, or one of the requester that the arbiter chooses. -/
def Serves (s t : State) : Prop :=
  Idle s t ∨
    (∃ r, r ≠ .closingGroup ∧ s.turn r = true ∧ t.arbiter = s.arbiter.grant r) ∨
      ∃ m, s.memberTurn m = true ∧ t.arbiter = s.arbiter.grantMember m

/-- Every step that a command takes carries out no operation, or one of whoever is chosen. -/
def Serving (c : Instr) : Prop := ∀ s t, exec c s = .next t → Serves s t

theorem Serving.of_eq {c : Instr} {f : State → State} (runs : ∀ s, exec c s = .next (f s))
    (serves : ∀ s, Serves s (f s)) : Serving c := by
  intro s t stepped
  rw [runs s] at stepped
  exact Host.Outcome.next.inj stepped ▸ serves s

theorem Serving.of_idle {c : Instr} {f : State → State} (runs : ∀ s, exec c s = .next (f s))
    (idle : ∀ s, Idle s (f s)) : Serving c := .of_eq runs fun s => .inl (idle s)

theorem serving_command (k : RequestCode) : Serving k.command := by
  obtain ⟨own, runs, keeps⟩ := exists_carriedOut k
  refine .of_eq runs fun s => ?_
  by_cases unasked : ∀ p, s.admitted k = some p → requestAsks k p s = false
  · exact .inl (idle_runOperation keeps unasked)
  · simp only [Classical.not_forall, Bool.not_eq_false] at unasked
    obtain ⟨p, admitted, ask⟩ := unasked
    cases turn : s.requestTurn with
    | false =>
      rw [runOperation_waits admitted ask turn]
      exact .inl (.refl s)
    | true =>
      have waits : s.requestWaits = true := requestWaits_iff.mpr ⟨k, p, admitted, ask⟩
      exact .inr (.inl ⟨.requestEngine, nofun, (turn_requestEngine waits).trans turn,
        arbiter_runOperation_granted keeps admitted ask turn⟩)

/-! ### The operations of the engines -/

section

variable (s : State)

/-- Everything an operation of the Interval Engine can do: nothing, or a turn of its own. -/
theorem ageStep_cases : s.ageStep = s ∨ ∃ l work, s.ageStep = s.intervalTurn l work := by
  rw [State.ageStep]
  split
  · exact .inr ⟨_, _, rfl⟩
  · exact .inl rfl

theorem foldStep_cases : s.foldStep = s ∨ ∃ l work, s.foldStep = s.intervalTurn l work := by
  rw [State.foldStep]
  split
  · split
    · exact .inr ⟨_, _, rfl⟩
    · exact .inl rfl
  · exact .inl rfl

theorem visitStep_cases : s.visitStep = s ∨ ∃ l work, s.visitStep = s.intervalTurn l work := by
  rw [State.visitStep]
  split
  · split
    · exact .inr ⟨_, _, rfl⟩
    · exact .inl rfl
  · exact .inl rfl

theorem closureStep_cases : s.closureStep = s ∨ ∃ l work, s.closureStep = s.intervalTurn l work := by
  rw [State.closureStep]
  split
  · split
    · exact .inr ⟨_, _, rfl⟩
    · exact .inl rfl
  · exact .inr ⟨_, _, rfl⟩
  · exact .inl rfl

theorem notifyStep_cases : s.notifyStep = s ∨ ∃ l work, s.notifyStep = s.intervalTurn l work := by
  rw [State.notifyStep]
  split
  · exact .inr ⟨_, _, rfl⟩
  · exact .inl rfl

/-- A member's operation, carried out in its turn alone, serves. -/
theorem serves_of_memberTurn {t : State} (m : GroupMember) (outcome : t = s ∨ t.arbiter = s.arbiter.grantMember m) :
    Serves s (if s.memberTurn m then t else s) := by
  split
  · next turn =>
    rcases outcome with rfl | granted
    · exact .inl (.refl t)
    · exact .inr (.inr ⟨m, turn, granted⟩)
  · exact .inl (.refl s)

theorem serves_of_intervalTurn {t : State} (outcome : t = s ∨ ∃ l work, t = s.intervalTurn l work) :
    Serves s (if s.memberTurn .intervalEngine then t else s) := by
  refine serves_of_memberTurn s .intervalEngine (outcome.imp_right ?_)
  rintro ⟨l, work, rfl⟩
  exact rfl

theorem arbiter_settleStep (due : s.ledger.closeWork ≠ []) :
    s.settleStep.arbiter = s.arbiter.grantMember .settlementEngine := by
  rw [State.settleStep, if_neg (by simpa using due)]
  rfl

theorem arbiter_sweepStep (active : s.sweep.position ≠ none) :
    s.sweepStep.arbiter = s.arbiter.grantMember .integritySweep := by
  rw [State.sweepStep]
  split
  · next ended => exact absurd ended active
  · exact rfl

theorem arbiter_restart : s.restart.arbiter = s.arbiter.grantMember .intervalEngine := rfl

theorem arbiter_takeEntry (queued : s.arrivals ≠ []) :
    s.takeEntry.arbiter = s.arbiter.grant .accumulationEngine := by
  rw [State.takeEntry]
  split
  · next empty => exact absurd empty queued
  · exact rfl

/-- The Accumulation Engine's turn is taken with an entry. -/
theorem arrivals_of_turn (turn : s.turn .accumulationEngine = true) : s.arrivals ≠ [] := by
  obtain ⟨-, -, -, queued⟩ := placementWaits_iff.mp (State.placementWaits_of_turn turn)
  exact queued

end

theorem serving_placeEntry : Serving .placeEntry := by
  refine .of_eq (fun _ => rfl) fun s => ?_
  split
  · next turn =>
    exact .inr (.inl ⟨.accumulationEngine, nofun, turn, arbiter_takeEntry s (arrivals_of_turn s turn)⟩)
  · exact .inl (.refl s)

theorem serving_settlementExamination : Serving .settlementExamination := by
  refine .of_eq (fun _ => rfl) fun s => serves_of_memberTurn s .settlementEngine ?_
  by_cases due : s.ledger.closeWork = []
  · exact .inl (if_pos (List.isEmpty_iff.mpr due))
  · exact .inr (arbiter_settleStep s due)

theorem serving_sweepVerify : Serving .sweepVerify := by
  refine .of_eq (fun _ => rfl) fun s => serves_of_memberTurn s .integritySweep ?_
  cases position : s.sweep.position with
  | none => exact .inl (by rw [State.sweepStep, position])
  | some p => exact .inr (arbiter_sweepStep s (by rw [position]; nofun))

theorem serving_restartCatchUp : Serving .restartCatchUp := by
  refine .of_eq (fun _ => rfl) fun s => ?_
  cases s.catchUpDue with
  | false => exact .inl (.refl s)
  | true => exact serves_of_memberTurn s .intervalEngine (.inr (arbiter_restart s))

/-! ### Every command -/

/-- A start apart, every command serves: the transactions, the lanes, the calendar and the supplies carry out no
operation, a request asks for one or not, and an engine takes its own. -/
theorem serving_of_ne_deviceStart {c : Instr} (notStart : ∀ cutShort, c ≠ .deviceStart cutShort) : Serving c := by
  cases c with
  | writeRequest data => exact .of_idle (fun _ => rfl) fun s => idle_transact _ s
  | execute clocked => exact .of_idle (fun _ => rfl) fun s => idle_transact _ s
  | readStatus clocked => exact .of_idle (fun _ => rfl) fun s => idle_transact _ s
  | readResponse clocked => exact .of_idle (fun _ => rfl) fun s => idle_transact _ s
  | unknownTransaction code clocked => exact .of_idle (fun _ => rfl) fun s => idle_transact _ s
  | openAccount => exact serving_command .openAccount
  | amendAccount => exact serving_command .amendAccount
  | suspendAccount => exact serving_command .suspendAccount
  | resumeAccount => exact serving_command .resumeAccount
  | retireAccount => exact serving_command .retireAccount
  | findAccount => exact serving_command .findAccount
  | readAccount => exact serving_command .readAccount
  | listAccounts => exact serving_command .listAccounts
  | writeTariff => exact serving_command .writeTariff
  | deleteTariff => exact serving_command .deleteTariff
  | readTariff => exact serving_command .readTariff
  | setTime => exact serving_command .setTime
  | trimTime => exact serving_command .trimTime
  | readTime => exact serving_command .readTime
  | restoreLane => exact serving_command .restoreLane
  | setLane => exact serving_command .setLane
  | readLane => exact serving_command .readLane
  | defineIntake => exact serving_command .defineIntake
  | assignIntake => exact serving_command .assignIntake
  | unassignIntake => exact serving_command .unassignIntake
  | readIntake => exact serving_command .readIntake
  | collectHeld => exact serving_command .collectHeld
  | holdAccumulation => exact serving_command .holdAccumulation
  | releaseAccumulation => exact serving_command .releaseAccumulation
  | readDemand => exact serving_command .readDemand
  | closeNow => exact serving_command .closeNow
  | changeTariff => exact serving_command .changeTariff
  | releaseSettlement => exact serving_command .releaseSettlement
  | repairAccount => exact serving_command .repairAccount
  | discardAccount => exact serving_command .discardAccount
  | repairIntake => exact serving_command .repairIntake
  | verifyStore => exact serving_command .verifyStore
  | startRun => exact serving_command .startRun
  | stopRun => exact serving_command .stopRun
  | setRunParameters => exact serving_command .setRunParameters
  | readPartStatus => exact serving_command .readPartStatus
  | setAttentionMask => exact serving_command .setAttentionMask
  | ackAttention => exact serving_command .ackAttention
  | hello k frontEnd firstSeq => exact .of_idle (fun _ => rfl) fun s => idle_onLane k _ s
  | increment k frame => exact .of_idle (fun _ => rfl) fun s => .ite (.refl s) (idle_receiveIncrement k frame s)
  | malformedFrame k content => exact .of_idle (fun _ => rfl) fun s => .ite (.refl s) (idle_laneOutcome k _ s)
  | carrierLoss k =>
    exact .of_idle (fun _ => rfl) fun s =>
      .ite (.of_eq rfl rfl) (.ite (.of_eq rfl rfl) (.trans (.of_eq rfl rfl) (idle_raise .laneDown _)))
  | carrierAppear k => exact .of_idle (fun _ => rfl) fun s => .of_eq rfl rfl
  | resyncTimerExpiry k => exact .of_idle (fun _ => rfl) fun s => .ite (.refl s) (idle_laneOutcome k _ s)
  | transmitFrame k => exact .of_idle (fun _ => rfl) fun s => idle_onLane k _ s
  | laneBoundary => exact .of_idle (fun _ => rfl) fun s => .ite (.refl s) (idle_takeLaneBoundary s)
  | minuteEvent => exact .of_idle (fun _ => rfl) fun s => .ite (.refl s) (idle_takeMinute s)
  | boundaryEvent => exact .of_idle (fun _ => rfl) fun s => .ite (.refl s) (idle_takeBoundary s)
  | graceExpiry => exact .of_idle (fun _ => rfl) fun s => .ite (.refl s) (idle_takeGrace s)
  | bandNotifyCheck => exact .of_eq (fun _ => rfl) fun s => serves_of_intervalTurn s (notifyStep_cases s)
  | boundaryAgeing => exact .of_eq (fun _ => rfl) fun s => serves_of_intervalTurn s (ageStep_cases s)
  | fold => exact .of_eq (fun _ => rfl) fun s => serves_of_intervalTurn s (foldStep_cases s)
  | accountVisit => exact .of_eq (fun _ => rfl) fun s => serves_of_intervalTurn s (visitStep_cases s)
  | slotClosure => exact .of_eq (fun _ => rfl) fun s => serves_of_intervalTurn s (closureStep_cases s)
  | placeEntry => exact serving_placeEntry
  | settlementExamination => exact serving_settlementExamination
  | sweepVerify => exact serving_sweepVerify
  | restartCatchUp => exact serving_restartCatchUp
  | powerLoss => exact .of_idle (fun _ => rfl) fun s => .of_eq rfl rfl
  | resetAssert => exact .of_idle (fun _ => rfl) fun s => .of_eq rfl rfl
  | vbakDip => exact .of_idle (fun _ => rfl) fun s => .of_eq rfl rfl
  | deviceStart cutShort => exact absurd rfl (notStart cutShort)
  | passageOfASecond =>
    exact .of_idle (fun _ => rfl) fun s => .ite (.of_eq rfl rfl) ((idle_takeOwed s).trans (.of_eq rfl rfl))

/-! ### The bounds -/

section

variable {s t : State}

/-- Turns, as the choices that the arbiter makes. -/
theorem turn_eq_true_iff {r : Requester} :
    s.turn r = true ↔ s.arbiter.nextRequester s.requestersWaiting = some r := beq_iff_eq

theorem memberTurn_eq_true_iff {m : GroupMember} :
    s.memberTurn m = true ↔ s.turn .closingGroup = true ∧ s.arbiter.nextMember s.membersWaiting = some m := by
  rw [State.memberTurn, Bool.and_eq_true, beq_iff_eq]

/-- A step that serves brings every requester that waits its own operation, or one place forward, when it carries out an
operation at all. -/
theorem serves_requester {r : Requester} (serves : Serves s t) (waits : r ∈ s.requestersWaiting) :
    Idle s t ∨ (s.turn r = true ∧ t.arbiter.last = some r) ∨
      t.arbiter.requesterAhead r < s.arbiter.requesterAhead r := by
  have granted {x : Requester} (turn : s.turn x = true) (last : t.arbiter.last = some x) :
      (s.turn r = true ∧ t.arbiter.last = some r) ∨ t.arbiter.requesterAhead r < s.arbiter.requesterAhead r := by
    by_cases own : r = x
    · subst own
      exact .inl ⟨turn, last⟩
    · have nearer := requesterAhead_grant_lt waits (turn_eq_true_iff.mp turn) own
      rw [Arbiter.requesterAhead, last]
      exact .inr nearer
  rcases serves with idle | ⟨x, -, turn, arbiter⟩ | ⟨m, turn, arbiter⟩
  · exact .inl idle
  · exact .inr (granted turn (by rw [arbiter]; rfl))
  · exact .inr (granted (memberTurn_eq_true_iff.mp turn).1 (by rw [arbiter]; rfl))

/-- The same for a member of the Closing Group: an operation outside the group brings the next group turn forward, a
turn of another member brings its own turn forward. -/
theorem serves_member {m : GroupMember} (serves : Serves s t) (waits : m ∈ s.membersWaiting) :
    Idle s t ∨ (s.memberTurn m = true ∧ t.arbiter = { last := some .closingGroup, lastMember := some m }) ∨
      t.arbiter.memberAhead m < s.arbiter.memberAhead m := by
  rcases serves with idle | ⟨x, outside, turn, arbiter⟩ | ⟨x, turn, arbiter⟩
  · exact .inl idle
  · have groupWaits : .closingGroup ∈ s.requestersWaiting :=
      mem_requestersWaiting_group.mpr (List.ne_nil_of_mem waits)
    have nearer := requesterAhead_grant_lt groupWaits (turn_eq_true_iff.mp turn) outside.symm
    have place : memberPlace m (s.arbiter.grant x) = memberPlace m s.arbiter := rfl
    rw [arbiter, memberAhead_eq, memberAhead_eq, place]
    exact .inr (.inr (by omega))
  · by_cases own : m = x
    · subst own
      exact .inr (.inl ⟨turn, arbiter⟩)
    · have nearer := memberPlace_grantMember_lt waits (memberTurn_eq_true_iff.mp turn).2 own
      have ahead := requesterAhead_le (s.arbiter.grantMember x) .closingGroup
      rw [arbiter, memberAhead_eq, memberAhead_eq]
      exact .inr (.inr (by omega))

end

/-! ### The choice imposed (log 1) -/

section

variable {s : State} {k : RequestCode} {p : List Byte}

/-- An engine's command out of turn leaves the state as it is. -/
theorem ite_of_not_turn {turn : Bool} {t : State} (outOfTurn : turn = false) : (if turn then t else s) = s :=
  if_neg (ne_true_of_eq_false outOfTurn)

theorem exec_interval_out_of_turn (outOfTurn : s.memberTurn .intervalEngine = false) :
    ∀ c ∈ [Instr.bandNotifyCheck, .boundaryAgeing, .fold, .accountVisit, .slotClosure, .restartCatchUp],
      exec c s = .next s := by
  intro c mem
  simp only [List.mem_cons, List.not_mem_nil, or_false] at mem
  rcases mem with rfl | rfl | rfl | rfl | rfl | rfl
  · exact congrArg _ (ite_of_not_turn outOfTurn)
  · exact congrArg _ (ite_of_not_turn outOfTurn)
  · exact congrArg _ (ite_of_not_turn outOfTurn)
  · exact congrArg _ (ite_of_not_turn outOfTurn)
  · exact congrArg _ (ite_of_not_turn outOfTurn)
  · exact congrArg _ (ite_of_not_turn (by rw [outOfTurn, Bool.and_false]))

theorem exec_command_out_of_turn (issued : s.Issues k p) (ask : requestAsks k p s = true)
    (outOfTurn : s.requestTurn = false) : exec k.command s = .next s := by
  obtain ⟨own, runs, -⟩ := exists_carriedOut k
  rw [runs, runOperation_waits issued.admitted ask outOfTurn]

/-- A request that asks for no operation is answered whoever waits. -/
theorem exec_command_unasked (issued : s.Issues k p) (unasked : requestAsks k p s = false) :
    ∃ t, exec k.command s = .next t ∧ t.port.busy = false ∧ t.arbiter = s.arbiter ∧ s.ledger.SameRecords t.ledger := by
  obtain ⟨own, runs, keeps⟩ := exists_carriedOut k
  obtain ⟨arbiter, records⟩ := keeps p s
  refine ⟨(own p s).1.respond (own p s).2, ?_, rfl, arbiter, records unasked⟩
  rw [runs, runOperation_unasked_runs issued unasked]

end

/-! ### Whoever is chosen has a command -/

section

variable {s : State}

/-- In its turn an operation of the Interval Engine is carried out as its step says. -/
theorem exec_interval_of_turn (turn : s.memberTurn .intervalEngine = true) :
    exec .boundaryAgeing s = .next s.ageStep ∧ exec .fold s = .next s.foldStep ∧
      exec .accountVisit s = .next s.visitStep ∧ exec .slotClosure s = .next s.closureStep ∧
      exec .bandNotifyCheck s = .next s.notifyStep :=
  ⟨congrArg _ (if_pos turn), congrArg _ (if_pos turn), congrArg _ (if_pos turn), congrArg _ (if_pos turn),
    congrArg _ (if_pos turn)⟩

theorem ageStep_of_current {tag : Tag} {time : Seconds} {rest : List WorkItem}
    (current : s.currentWork = .boundary tag time .ageing :: rest) :
    s.ageStep = s.intervalTurn (ageOwners s.calendar 0 s.ledger) (.boundary tag time .folds :: rest) := by
  rw [State.ageStep, current]

theorem foldStep_of_due {tag : Tag} {time : Seconds} {rest : List WorkItem} {i : IntakeNo}
    (current : s.currentWork = .boundary tag time .folds :: rest) (due : s.ledger.dueFold s.calendar tag = some i) :
    s.foldStep = s.intervalTurn (foldChange i s.ledger) (.boundary tag time .folds :: rest) := by
  simp only [State.foldStep, current, due]

theorem visitStep_of_next {tag : Tag} {time : Seconds} {phase : BoundaryPhase} {rest : List WorkItem} {k : Nat}
    {i : Slot}
    (current : s.currentWork = .boundary tag time phase :: rest)
    (start : phase.visitStart s.calendar s.ledger tag = some k) (found : s.ledger.nextVisit k = some i) :
    s.visitStep =
      s.intervalTurn (visitAccount s.calendar tag time i s.ledger)
        (.boundary tag time (.visits (i.val + 1)) :: rest) := by
  simp only [State.visitStep, current, start, Option.bind_some, found]

theorem closureStep_of_holding {tag : Tag} {rest : List WorkItem} {k : Nat} {i : Slot}
    (current : s.currentWork = .grace tag k :: rest) (found : s.ledger.nextHolding tag k = some i) :
    s.closureStep = s.intervalTurn (closeSlot .ordinary s.calendar i s.ledger) (.grace tag (i.val + 1) :: rest) := by
  simp only [State.closureStep, current, found]

theorem closureStep_of_completeness {tag : Tag} {rest : List WorkItem} {i : Slot}
    (current : s.currentWork = .completeness i tag :: rest) :
    s.closureStep = s.intervalTurn (closeIfHolding s.calendar tag i s.ledger) rest := by
  rw [State.closureStep, current]

theorem notifyStep_of_current {time : Seconds} {rest : List WorkItem} (current : s.currentWork = .minute time :: rest) :
    s.notifyStep = s.intervalTurn (if s.mode = .run then bandNotify time s.ledger else s.ledger) rest := by
  rw [State.notifyStep, current]

/-- The item at the head of the list as the engine finds it needs an operation. -/
theorem workDone_of_current {w : WorkItem} {rest : List WorkItem} (current : s.currentWork = w :: rest) :
    workDone s.calendar s.ledger w = false := by
  have head := List.head?_dropWhile_not (workDone s.calendar s.ledger) s.work
  have found : s.work.dropWhile (workDone s.calendar s.ledger) = w :: rest := current
  simpa [found] using head

/-- The operation that the item at the head needs is that of one of the engine's commands. -/
theorem exists_interval_command {w : WorkItem} {rest : List WorkItem} (turn : s.memberTurn .intervalEngine = true)
    (current : s.currentWork = w :: rest) : ∃ c l work, exec c s = .next (s.intervalTurn l work) := by
  obtain ⟨ageing, folding, visiting, closing, notifying⟩ := exec_interval_of_turn turn
  have needs := workDone_of_current current
  cases w with
  | boundary tag time phase =>
    cases phase with
    | ageing => exact ⟨.boundaryAgeing, _, _, ageing.trans (congrArg _ (ageStep_of_current current))⟩
    | folds =>
      cases due : s.ledger.dueFold s.calendar tag with
      | some i => exact ⟨.fold, _, _, folding.trans (congrArg _ (foldStep_of_due current due))⟩
      | none =>
        have visit : (s.ledger.nextVisit 0).isSome = true := by simpa [workDone, due] using needs
        have start : BoundaryPhase.folds.visitStart s.calendar s.ledger tag = some 0 := by
          rw [BoundaryPhase.visitStart, due]; rfl
        obtain ⟨i, found⟩ := Option.isSome_iff_exists.mp visit
        exact ⟨.accountVisit, _, _, visiting.trans (congrArg _ (visitStep_of_next current start found))⟩
    | visits k =>
      have visit : (s.ledger.nextVisit k).isSome = true := by simpa [workDone] using needs
      obtain ⟨i, found⟩ := Option.isSome_iff_exists.mp visit
      exact ⟨.accountVisit, _, _, visiting.trans (congrArg _ (visitStep_of_next current rfl found))⟩
  | grace tag k =>
    have holds : (s.ledger.nextHolding tag k).isSome = true := by simpa [workDone] using needs
    obtain ⟨i, found⟩ := Option.isSome_iff_exists.mp holds
    exact ⟨.slotClosure, _, _, closing.trans (congrArg _ (closureStep_of_holding current found))⟩
  | completeness i tag =>
    exact ⟨.slotClosure, _, _, closing.trans (congrArg _ (closureStep_of_completeness current))⟩
  | minute time => exact ⟨.bandNotifyCheck, _, _, notifying.trans (congrArg _ (notifyStep_of_current current))⟩

theorem exec_restartCatchUp_of_turn (due : s.catchUpDue = true) (turn : s.memberTurn .intervalEngine = true) :
    exec .restartCatchUp s = .next s.restart :=
  congrArg Host.Outcome.next (if_pos (by rw [due, turn]; rfl))

theorem exists_command_of_memberTurn {m : GroupMember} (turn : s.memberTurn m = true) :
    ∃ c t, exec c s = .next t ∧ t.arbiter = { last := some .closingGroup, lastMember := some m } := by
  obtain ⟨-, waits⟩ := State.memberWaits_of_turn turn
  cases m with
  | intervalEngine =>
    cases due : s.catchUpDue with
    | true => exact ⟨.restartCatchUp, s.restart, exec_restartCatchUp_of_turn due turn, arbiter_restart s⟩
    | false =>
      cases current : s.currentWork with
      | nil => simp [State.memberWaits, current, due] at waits
      | cons w rest =>
        obtain ⟨c, l, work, runs⟩ := exists_interval_command turn current
        exact ⟨c, _, runs, rfl⟩
  | settlementEngine =>
    exact ⟨.settlementExamination, s.settleStep, congrArg _ (if_pos turn),
      arbiter_settleStep s (memberWaits_settlement_iff.mp waits)⟩
  | integritySweep =>
    exact ⟨.sweepVerify, s.sweepStep, congrArg _ (if_pos turn), arbiter_sweepStep s (memberWaits_sweep_iff.mp waits)⟩

theorem exists_command_of_turn {r : Requester} (turn : s.turn r = true) :
    ∃ c t, exec c s = .next t ∧ t.arbiter.last = some r := by
  have waits : r ∈ s.requestersWaiting := Arbiter.nextRequester_mem (turn_eq_true_iff.mp turn)
  cases r with
  | requestEngine =>
    have asking := mem_requestersWaiting_request.mp waits
    obtain ⟨k, p, admitted, ask⟩ := requestWaits_iff.mp asking
    obtain ⟨own, runs, keeps⟩ := exists_carriedOut k
    have granted := arbiter_runOperation_granted keeps admitted ask ((turn_requestEngine asking).symm.trans turn)
    exact ⟨k.command, _, runs s, by rw [granted]; rfl⟩
  | accumulationEngine =>
    refine ⟨.placeEntry, s.takeEntry, congrArg _ (if_pos turn), ?_⟩
    rw [arbiter_takeEntry s (arrivals_of_turn s turn)]
    rfl
  | closingGroup =>
    obtain ⟨m, chosen⟩ := exists_nextMember s.arbiter (mem_requestersWaiting_group.mp waits)
    obtain ⟨c, t, runs, arbiter⟩ := exists_command_of_memberTurn (memberTurn_eq_true_iff.mpr ⟨turn, chosen⟩)
    exact ⟨c, t, runs, by rw [arbiter]⟩

end

/-- Settles O60: the choice and its bounds by places in the fixed cycle, its imposition by what every command can do. -/
theorem arbiterServesEveryRequester : Obligations.ArbiterServesEveryRequester := by
  refine ⟨fun b w => exists_nextRequester b, nextRequester_singleton,
    fun b r x y z w₁ w₂ w₃ => nextRequester_within_three, fun b m x y z w₁ w₂ w₃ => nextMember_within_three,
    fun w => nextRequester_fresh, fun s => ?waiting, fun s => ?imposed, fun s r => exists_command_of_turn,
    fun s m => exists_command_of_memberTurn, requesterAhead_le, memberAhead_le, fun s t c notStart stepped => ?served⟩
  case waiting =>
    exact ⟨mem_requestersWaiting_accumulation.trans placementWaits_iff, mem_requestersWaiting_group,
      fun whole => mem_requestersWaiting_request.trans (requestWaits_iff_issues whole),
      State.mem_membersWaiting.trans (and_congr_right' memberWaits_interval_iff),
      State.mem_membersWaiting.trans (and_congr_right' memberWaits_settlement_iff),
      State.mem_membersWaiting.trans (and_congr_right' memberWaits_sweep_iff)⟩
  case imposed =>
    refine ⟨fun outOfTurn => congrArg _ (ite_of_not_turn outOfTurn), exec_interval_out_of_turn,
      fun outOfTurn => congrArg _ (ite_of_not_turn outOfTurn), fun outOfTurn => congrArg _ (ite_of_not_turn outOfTurn),
      fun k p issued => ⟨exec_command_out_of_turn issued, fun ask => ?_, exec_command_unasked issued⟩⟩
    rw [turn_requestEngine (requestWaits_iff.mpr ⟨k, p, issued.admitted, ask⟩)]
  case served =>
    intro idle
    have serves : Serves s t := serving_of_ne_deviceStart notStart s t stepped
    exact ⟨fun r => serves_requester serves, fun m => serves_member serves⟩

end Sys2Proof.Machine.Arbitration
end

