-- ==== Sys2Proof/Proofs/RestAndIdleCommands.lean ====
section
/-! Commands without an effect (R46, R184; log 1, log 28, log 43): at rest, outside an execution, and of an engine that
has nothing to do. -/

namespace Sys2Proof.Machine.RestAndIdleCommands

open Sys2Proof Sys2Proof.Machine

section

variable {s : State} {k : RequestCode}

/-! ### Request commands -/

/-- At rest, or with no request in execution, none passes the port's checks. -/
theorem admitted_of_idle (idle : s.atRest = true ∨ s.port.busy = false) : s.admitted k = none := by
  rcases idle with rest | clear
  · simp [State.admitted, rest]
  · simp [State.admitted, clear]

/-- At rest, or with no request in execution, a request command does nothing. -/
theorem exec_command_of_idle (idle : s.atRest = true ∨ s.port.busy = false) : exec k.command s = .next s := by
  obtain ⟨own, runs, -⟩ := Arbitration.exists_carriedOut k
  have unasked : ∀ p, s.admitted k = some p → requestAsks k p s = false :=
    fun p admitted => nomatch (admitted_of_idle idle).symm.trans admitted
  rw [runs, runOperation_unasked unasked, runRequest_idle idle]

theorem exec_command_at_rest (rest : s.atRest = true) (k : RequestCode) : exec k.command s = .next s :=
  exec_command_of_idle (.inl rest)

/-! ### Rest (R184) -/

/-- A command that looks at the rest first leaves the state as it is. -/
theorem next_ite_at_rest {t : State} (rest : s.atRest = true) :
    (Host.Outcome.next (if s.atRest then s else t) : Host.Outcome State Fault Refusal) = .next s :=
  congrArg _ (if_pos rest)

/-- A command whose other conditions come after rest leaves the state as it is too. -/
theorem next_ite_at_rest_or {b : Bool} {t : State} (rest : s.atRest = true) :
    (Host.Outcome.next (if s.atRest || b then s else t) : Host.Outcome State Fault Refusal) = .next s :=
  congrArg _ (if_pos (by rw [rest]; rfl))

/-- No member of the Closing Group has a turn at rest. -/
theorem memberTurn_at_rest (rest : s.atRest = true) (m : GroupMember) : s.memberTurn m = false := by
  refine (Bool.not_eq_true _).mp fun turn => ?_
  obtain ⟨awake, -⟩ := State.memberWaits_of_turn turn
  exact nomatch rest.symm.trans awake

/-- Nor has the Accumulation Engine. -/
theorem placementTurn_at_rest (rest : s.atRest = true) : s.turn .accumulationEngine = false := by
  refine (Bool.not_eq_true _).mp fun turn => ?_
  obtain ⟨awake, -⟩ := Arbitration.placementWaits_iff.mp (State.placementWaits_of_turn turn)
  exact nomatch rest.symm.trans awake

theorem exec_interval_at_rest (rest : s.atRest = true) :
    ∀ c ∈ [Instr.bandNotifyCheck, .boundaryAgeing, .fold, .accountVisit, .slotClosure, .restartCatchUp],
      exec c s = .next s :=
  Arbitration.exec_interval_out_of_turn (memberTurn_at_rest rest .intervalEngine)

/-- At rest a lane that loses its carrier changes nothing else (log 28). -/
theorem exec_carrierLoss_at_rest (rest : s.atRest = true) (n : LaneNo) :
    exec (.carrierLoss n) s = .next (s.putLane n { s.lane n with carrier := false }) :=
  congrArg _ (if_pos rest)

/-- At rest a lane whose carrier appears stays in its state (log 28). -/
theorem exec_carrierAppear_at_rest (rest : s.atRest = true) (n : LaneNo) :
    exec (.carrierAppear n) s = .next (s.putLane n { s.lane n with carrier := true }) :=
  congrArg (fun lane => Host.Outcome.next (s.putLane n lane)) (if_neg (by rw [rest]; nofun))

/-- At rest a second passes in the calendar alone (R46, log 43). -/
theorem exec_passageOfASecond_at_rest (rest : s.atRest = true) :
    exec .passageOfASecond s = .next { s with calendar := s.calendar.tick false } :=
  congrArg _ (if_pos rest)

/-! ### Engines with nothing to do -/

/-- The Interval Engine finds no item on an empty list. -/
theorem currentWork_of_empty (empty : s.work = []) : s.currentWork = [] := by
  rw [State.currentWork, empty]; rfl

theorem ageStep_of_empty (empty : s.work = []) : s.ageStep = s := by
  rw [State.ageStep, currentWork_of_empty empty]

theorem foldStep_of_empty (empty : s.work = []) : s.foldStep = s := by
  rw [State.foldStep, currentWork_of_empty empty]

theorem visitStep_of_empty (empty : s.work = []) : s.visitStep = s := by
  rw [State.visitStep, currentWork_of_empty empty]

theorem closureStep_of_empty (empty : s.work = []) : s.closureStep = s := by
  rw [State.closureStep, currentWork_of_empty empty]

theorem notifyStep_of_empty (empty : s.work = []) : s.notifyStep = s := by
  rw [State.notifyStep, currentWork_of_empty empty]

/-- An engine's step that does nothing does nothing in its turn or out of it. -/
theorem next_ite_of_idle_step {turn : Bool} {t : State} (idle : t = s) :
    (Host.Outcome.next (if turn then t else s) : Host.Outcome State Fault Refusal) = .next s := by
  rw [idle, ite_self]

theorem exec_interval_of_empty (empty : s.work = []) :
    ∀ c ∈ [Instr.bandNotifyCheck, .boundaryAgeing, .fold, .accountVisit, .slotClosure], exec c s = .next s := by
  intro c mem
  simp only [List.mem_cons, List.not_mem_nil, or_false] at mem
  rcases mem with rfl | rfl | rfl | rfl | rfl
  · exact next_ite_of_idle_step (notifyStep_of_empty empty)
  · exact next_ite_of_idle_step (ageStep_of_empty empty)
  · exact next_ite_of_idle_step (foldStep_of_empty empty)
  · exact next_ite_of_idle_step (visitStep_of_empty empty)
  · exact next_ite_of_idle_step (closureStep_of_empty empty)

theorem takeEntry_of_empty (empty : s.arrivals = []) : s.takeEntry = s := by
  rw [State.takeEntry, empty]

theorem settleStep_of_empty (empty : s.ledger.closeWork = []) : s.settleStep = s :=
  if_pos (List.isEmpty_iff.mpr empty)

theorem sweepStep_of_idle (idle : s.sweep.position = none) : s.sweepStep = s := by
  rw [State.sweepStep, idle]

/-- The catch-up is due in RESTARTING alone, once the sweep has ended (R131). -/
theorem catchUpDue_eq_false (notDue : s.mode ≠ .restarting ∨ s.sweep.position ≠ none) : s.catchUpDue = false := by
  rw [State.catchUpDue, Bool.and_eq_false_iff, beq_eq_false_iff_ne, Option.isNone_eq_false_iff,
    Option.isSome_iff_ne_none]
  exact notDue

theorem exec_restartCatchUp_of_not_due (notDue : s.mode ≠ .restarting ∨ s.sweep.position ≠ none) :
    exec .restartCatchUp s = .next s :=
  congrArg _ (if_neg (by rw [catchUpDue_eq_false notDue]; nofun))

end

/-- Settles O3: at rest by the kind of the command, the rest by what each engine finds. -/
theorem restIgnoresCommands : Obligations.RestIgnoresCommands := by
  intro s
  refine ⟨fun rest c => ?atRest, fun clear k => exec_command_of_idle (.inr clear), exec_interval_of_empty,
    fun empty => next_ite_of_idle_step (takeEntry_of_empty empty),
    fun empty => next_ite_of_idle_step (settleStep_of_empty empty),
    fun idle => next_ite_of_idle_step (sweepStep_of_idle idle), exec_restartCatchUp_of_not_due⟩
  case atRest =>
    have request := exec_command_at_rest rest
    have interval := exec_interval_at_rest rest
    cases c with
    | writeRequest data => exact next_ite_at_rest rest
    | execute clocked => exact next_ite_at_rest rest
    | readStatus clocked => exact next_ite_at_rest rest
    | readResponse clocked => exact next_ite_at_rest rest
    | unknownTransaction code clocked => exact next_ite_at_rest rest
    | openAccount => exact request .openAccount
    | amendAccount => exact request .amendAccount
    | suspendAccount => exact request .suspendAccount
    | resumeAccount => exact request .resumeAccount
    | retireAccount => exact request .retireAccount
    | findAccount => exact request .findAccount
    | readAccount => exact request .readAccount
    | listAccounts => exact request .listAccounts
    | writeTariff => exact request .writeTariff
    | deleteTariff => exact request .deleteTariff
    | readTariff => exact request .readTariff
    | setTime => exact request .setTime
    | trimTime => exact request .trimTime
    | readTime => exact request .readTime
    | restoreLane => exact request .restoreLane
    | setLane => exact request .setLane
    | readLane => exact request .readLane
    | defineIntake => exact request .defineIntake
    | assignIntake => exact request .assignIntake
    | unassignIntake => exact request .unassignIntake
    | readIntake => exact request .readIntake
    | collectHeld => exact request .collectHeld
    | holdAccumulation => exact request .holdAccumulation
    | releaseAccumulation => exact request .releaseAccumulation
    | readDemand => exact request .readDemand
    | closeNow => exact request .closeNow
    | changeTariff => exact request .changeTariff
    | releaseSettlement => exact request .releaseSettlement
    | repairAccount => exact request .repairAccount
    | discardAccount => exact request .discardAccount
    | repairIntake => exact request .repairIntake
    | verifyStore => exact request .verifyStore
    | startRun => exact request .startRun
    | stopRun => exact request .stopRun
    | setRunParameters => exact request .setRunParameters
    | readPartStatus => exact request .readPartStatus
    | setAttentionMask => exact request .setAttentionMask
    | ackAttention => exact request .ackAttention
    | hello n frontEnd firstSeq => exact next_ite_at_rest rest
    | increment n frame => exact next_ite_at_rest_or rest
    | malformedFrame n content => exact next_ite_at_rest_or rest
    | carrierLoss n => exact exec_carrierLoss_at_rest rest n
    | carrierAppear n => exact exec_carrierAppear_at_rest rest n
    | resyncTimerExpiry n => exact next_ite_at_rest rest
    | transmitFrame n => exact next_ite_at_rest rest
    | laneBoundary => exact next_ite_at_rest rest
    | minuteEvent => exact next_ite_at_rest rest
    | boundaryEvent => exact next_ite_at_rest rest
    | graceExpiry => exact next_ite_at_rest rest
    | bandNotifyCheck => exact interval _ (by decide)
    | boundaryAgeing => exact interval _ (by decide)
    | fold => exact interval _ (by decide)
    | accountVisit => exact interval _ (by decide)
    | slotClosure => exact interval _ (by decide)
    | placeEntry => exact congrArg _ (Arbitration.ite_of_not_turn (placementTurn_at_rest rest))
    | settlementExamination =>
      exact congrArg _ (Arbitration.ite_of_not_turn (memberTurn_at_rest rest .settlementEngine))
    | sweepVerify => exact congrArg _ (Arbitration.ite_of_not_turn (memberTurn_at_rest rest .integritySweep))
    | restartCatchUp => exact interval _ (by decide)
    | powerLoss => exact trivial
    | resetAssert => exact trivial
    | vbakDip => exact trivial
    | deviceStart cutShort => exact trivial
    | passageOfASecond => exact exec_passageOfASecond_at_rest rest

end Sys2Proof.Machine.RestAndIdleCommands
end

