-- ==== Sys2Proof/Proofs/StatusAndAttention.lean ====
section
/-! READ_PART_STATUS (R183), SET_ATTENTION_MASK (R201) and ACK_ATTENTION (R202): the ten bytes of Table 11-3 one by one,
and the two masks by whether they name a position without a source. -/

namespace Sys2Proof.Machine.StatusAndAttention

open Sys2Proof Sys2Proof.Machine

/-! ### Layouts of one byte -/

section

variable {b : List Byte} {offset n : Nat} {flags : List Bool}

/-- A field of one byte is that byte. -/
theorem field_one (present : b[offset]? = some (byte n)) : field offset 1 b = n % 256 := by
  obtain ⟨bound, value⟩ := List.getElem?_eq_some_iff.mp present
  rw [field, List.drop_eq_getElem_cons bound, value]
  simp [leValue]

/-- A number sent in one byte. -/
theorem at_one (present : b[offset]? = some (byte n)) : At offset 1 n b := field_one present

/-- Flags sent in one byte spell the number that they pack. -/
theorem field_flags (present : b[offset]? = some (byte (bits flags))) (few : flags.length ≤ 8) :
    field offset 1 b = bits flags := by
  rw [field_one present]
  exact Nat.mod_eq_of_lt (Nat.lt_of_lt_of_le (bits_lt flags) (Nat.pow_le_pow_right (by decide) few))

/-- Each flag stands in its bit. -/
theorem flagAt_flags (present : b[offset]? = some (byte (bits flags))) (few : flags.length ≤ 8) (k : Nat) :
    FlagAt offset k (flags.getD k false) b := by
  rw [FlagAt, field_flags present few, testBit_bits]

end

/-! ### READ_PART_STATUS (R183) -/

theorem laneStateCode_lt (x : LaneState) : x.code < 4 := by cases x <;> decide

/-- Four codes below 4 packed into one byte are read back by their places. -/
theorem packed_codes {a b c d : Nat} (ha : a < 4) (hb : b < 4) (hc : c < 4) (hd : d < 4) :
    let packed := (a + 4 * b + 16 * c + 64 * d) % 256
    packed / 4 ^ 0 % 4 = a ∧ packed / 4 ^ 1 % 4 = b ∧ packed / 4 ^ 2 % 4 = c ∧ packed / 4 ^ 3 % 4 = d := by
  dsimp only
  omega

section

variable (s : State)

/-- The states of the lanes, two bits each. -/
theorem field_lanes_partStatus (k : LaneNo) :
    field 4 1 s.partStatus / 4 ^ k.val % 4 = (s.lane k).state.code := by
  have packed : field 4 1 s.partStatus = _ := field_one rfl
  rw [packed]
  obtain ⟨first, second, third, fourth⟩ := packed_codes (laneStateCode_lt (s.lane 0).state)
    (laneStateCode_lt (s.lane 1).state) (laneStateCode_lt (s.lane 2).state) (laneStateCode_lt (s.lane 3).state)
  match k with
  | 0 => exact first
  | 1 => exact second
  | 2 => exact third
  | 3 => exact fourth

/-- The count of FREE accounts. -/
theorem at_freeAccounts_partStatus :
    At 5 1 (allSlots.countP fun i => (s.ledger.account i).state == .free) s.partStatus := by
  refine at_one ?_
  rw [List.countP_eq_length_filter]
  rfl

/-- The count of free pool entries. -/
theorem at_freeEntries_partStatus :
    At 6 1 ((List.finRange 128).countP fun k => s.ledger.pool[k.val].owner.isNone) s.partStatus := by
  refine at_one ?_
  rw [List.countP_eq_length_filter]
  rfl

/-- The mask, in the two bytes behind the other eight. -/
theorem at_mask_partStatus : At 8 2 s.port.mask.toNat s.partStatus := by
  rw [At, State.partStatus, field_append_right (Nat.le_refl 8)]
  simpa using field_le 2 s.port.mask.toNat []

theorem partStatusLayout_partStatus : s.PartStatusLayout s.partStatus := by
  have length : s.partStatus.length = 10 := by simp [State.partStatus]
  have flags : s.partStatus[1]? = some (byte (bits [s.calendar.isSet, s.sweep.position.isSome])) := rfl
  have few : [s.calendar.isSet, s.sweep.position.isSome].length ≤ 8 := by simp
  have fill : field 1 1 s.partStatus < 4 := by
    rw [field_flags flags few]
    exact bits_lt _
  exact ⟨length, at_one rfl, flagAt_flags flags few 0, flagAt_flags flags few 1, fill, at_one rfl, at_one rfl,
    field_lanes_partStatus s, at_freeAccounts_partStatus s, at_freeEntries_partStatus s, at_one rfl,
    at_mask_partStatus s⟩

end

/-! ### Carrying the requests out -/

section

variable {s : State} {p : List Byte}

/-- READ_PART_STATUS always asks for its operation, and the grant changes nothing that it reports. -/
theorem exec_readPartStatus_of_granted (granted : s.Granted .readPartStatus p) :
    exec .readPartStatus s = .next (s.answered s.ledger (okWith s.partStatus)) :=
  congrArg Host.Outcome.next (runOperation_granted_runs (own := readPartStatus) (asks := alwaysAsks) granted rfl)

theorem exec_setAttentionMask_of_issues (issued : s.Issues .setAttentionMask p) :
    exec .setAttentionMask s = .next ((setAttentionMask p s).1.respond (setAttentionMask p s).2) :=
  congrArg Host.Outcome.next (Arbitration.runRequest_of_admitted issued.admitted)

theorem exec_ackAttention_of_issues (issued : s.Issues .ackAttention p) :
    exec .ackAttention s = .next ((ackAttention p s).1.respond (ackAttention p s).2) :=
  congrArg Host.Outcome.next (Arbitration.runRequest_of_admitted issued.admitted)

/-! ### The masks of twelve sources (R201, R202) -/

theorem maskOf_of_lt {value : Nat} (named : value < 4096) : maskOf value = some (BitVec.ofNat 12 value) := if_pos named

/-- A value of 4096 or more names a position from 12 to 15. -/
theorem maskOf_of_ge {value : Nat} (beyond : 4096 ≤ value) : maskOf value = none := if_neg (Nat.not_lt.mpr beyond)

theorem setAttentionMask_of_lt (named : field 0 2 p < 4096) :
    setAttentionMask p s =
      ({ s with port := { s.port with mask := BitVec.ofNat 12 (field 0 2 p) } },
        okWith (le 2 (field 0 2 p) ++ le 2 s.ledger.attention.toNat)) := by
  have same : (BitVec.ofNat 12 (field 0 2 p)).toNat = field 0 2 p := by
    rw [BitVec.toNat_ofNat]
    exact Nat.mod_eq_of_lt named
  simp only [setAttentionMask, maskOf_of_lt named, same]

theorem setAttentionMask_of_ge (beyond : 4096 ≤ field 0 2 p) : setAttentionMask p s = (s, refuse .outOfRange) := by
  rw [setAttentionMask, maskOf_of_ge beyond]

/-- The attention set once the sources that a value names are cleared. -/
def cleared (value : Nat) (attention : BitVec 12) : BitVec 12 := attention &&& ~~~BitVec.ofNat 12 value

/-- A source stays set exactly when the value does not name it. -/
theorem getLsbD_cleared (value : Nat) (attention : BitVec 12) {k : Nat} (source : k < 12) :
    (cleared value attention).getLsbD k = (attention.getLsbD k && !value.testBit k) := by
  rw [cleared, BitVec.getLsbD_and, BitVec.getLsbD_not, BitVec.getLsbD_ofNat]
  simp [source]

theorem ackAttention_of_lt (named : field 0 2 p < 4096) :
    ackAttention p s =
      (s.withLedger { s.ledger with attention := cleared (field 0 2 p) s.ledger.attention },
        okWith (le 2 (cleared (field 0 2 p) s.ledger.attention).toNat)) := by
  rw [ackAttention, maskOf_of_lt named]
  rfl

theorem ackAttention_of_ge (beyond : 4096 ≤ field 0 2 p) : ackAttention p s = (s, refuse .outOfRange) := by
  rw [ackAttention, maskOf_of_ge beyond]

end

/-- Settles O56: the part status byte by byte, the attention requests by whether the value names twelve sources only. -/
theorem statusAndAttentionRequests : Obligations.StatusAndAttentionRequests := by
  refine ⟨partStatusLayout_partStatus, ⟨rfl, rfl⟩, fun s p => ⟨exec_readPartStatus_of_granted, fun issued => ?setMask,
    fun issued => ?acknowledge⟩⟩
  case setMask =>
    rw [exec_setAttentionMask_of_issues issued]
    refine ⟨fun named => ?_, fun beyond => ?_⟩
    · rw [setAttentionMask_of_lt named]
    · rw [setAttentionMask_of_ge beyond]
  case acknowledge =>
    rw [exec_ackAttention_of_issues issued]
    refine ⟨fun named => ⟨cleared (field 0 2 p) s.ledger.attention, fun k => getLsbD_cleared _ _, ?_⟩, fun beyond => ?_⟩
    · rw [ackAttention_of_lt named]
      rfl
    · rw [ackAttention_of_ge beyond]

end Sys2Proof.Machine.StatusAndAttention
end

