-- ==== Sys2Proof/Proofs/ResetState.lean ====
section
/-! The state after reset (R1, R28, R84, R177, R178, R184; log 20): every record is the cold one of its kind, which
carries its check word, and the lanes, lists and buffers are those of a cold start. -/

namespace Sys2Proof.Machine.ResetState

open Sys2Proof Sys2Proof.Machine

/-! ### The cold records -/

@[simp] theorem account_reset (i : Slot) : State.reset.ledger.account i = Account.free := Vector.getElem_replicate _

@[simp] theorem intake_reset (i : IntakeNo) : State.reset.ledger.intake i = Intake.undefined :=
  Vector.getElem_replicate _

@[simp] theorem tariff_reset (t : TariffNo) : State.reset.ledger.tariff t = Tariff.empty := Vector.getElem_replicate _

@[simp] theorem poolEntry_reset (k : Fin 128) : State.reset.ledger.pool[k.val] = PoolEntry.free :=
  Vector.getElem_replicate _

@[simp] theorem lane_reset (k : LaneNo) : State.reset.lane k = Lane.cold false := Vector.getElem_replicate _

theorem state_free : Account.free.state = .free := rfl

theorem state_undefined : Intake.undefined.state = .undefined := rfl

theorem state_empty : Tariff.empty.state = .empty := rfl

/-- Every pool entry is free. -/
theorem freeEntries_reset : freeEntries State.reset.ledger.pool = List.finRange 128 :=
  List.filter_eq_self.mpr fun k _ => by rw [poolEntry_reset]; rfl

/-- The cold tariff has no points, whatever the pool holds: both its lists end at their heads. -/
theorem points_empty (pool : Vector PoolEntry 128) (t : TariffNo) : Tariff.empty.points pool t = some ([], []) := rfl

/-- The cold tariff carries the check word of its content. -/
theorem checks_empty (pool : Vector PoolEntry 128) (t : TariffNo) : Tariff.empty.checks pool t = true := by
  have word : crc (Tariff.empty.image [] []) = Tariff.empty.checkWord := rfl
  simp only [Tariff.checks, points_empty, word, beq_self_eq_true, Bool.or_true, Bool.and_self]

/-! ### The values -/

/-- The state after reset holds the cold values. -/
theorem reset_cold :
    (∀ i, State.reset.ledger.account i = Account.free ∧ (State.reset.ledger.account i).state = .free) ∧
      (∀ i, (State.reset.ledger.intake i).state = .undefined) ∧ (∀ t, (State.reset.ledger.tariff t).state = .empty) ∧
      (freeEntries State.reset.ledger.pool).length = 128 := by
  refine ⟨fun i => ⟨account_reset i, ?_⟩, fun i => ?_, fun t => ?_, ?_⟩
  · rw [account_reset, state_free]
  · rw [intake_reset, state_undefined]
  · rw [tariff_reset, state_empty]
  · rw [freeEntries_reset, List.length_finRange]

/-! ### The invariants -/

/-- Nothing is queued, no credit is outstanding, and the allotment is 4 (R63). -/
theorem linkLaw_reset : State.reset.LinkLaw := by
  refine ⟨Nat.zero_le _, fun k => ?_⟩
  rw [lane_reset]
  exact ⟨Nat.zero_le 8, rfl, by decide, by decide⟩

theorem recordsSealed_reset : State.reset.RecordsSealed := by
  refine ⟨fun i => .inr ?_, fun i => .inr ?_⟩
  · rw [account_reset]
    exact beq_iff_eq.mp Account.checks_free
  · rw [intake_reset]
    exact Intake.crc_seal _

theorem tariffsVerified_reset : State.reset.TariffsVerified := by
  refine fun t => .inr ?_
  rw [tariff_reset]
  exact checks_empty _ t

/-- Every slot is FREE, so no two accounts hold a number. -/
theorem numbersDistinct_reset : State.reset.NumbersDistinct :=
  fun i _ occupied => absurd ((congrArg Account.state (account_reset i)).trans state_free) occupied

/-- No intake joins an account, none being defined. -/
theorem countP_joining_reset (a : Slot) :
    (allIntakes.countP fun i =>
      !(State.reset.ledger.intake i).faultMark && (State.reset.ledger.intake i).joining a) = 0 :=
  List.countP_eq_zero.mpr fun i _ => by rw [intake_reset]; nofun

/-- No account has members and no intake an owner or a pending change. -/
theorem ownershipAgrees_reset : State.reset.OwnershipAgrees := by
  refine ⟨fun a _ => ?_, fun i _ change pending => ?_⟩
  · rw [countP_joining_reset, account_reset]
    refine ⟨fun i _ => ?_, List.nodup_nil, by decide, fun _ => rfl, fun occupied => absurd rfl occupied⟩
    rw [intake_reset]
    exact ⟨nofun, nofun⟩
  · rw [intake_reset] at pending
    exact nomatch pending

theorem buffersWhole_reset : State.reset.BuffersWhole :=
  ⟨List.length_replicate, List.length_replicate, Nat.zero_le _⟩

theorem workListsProper_reset : State.reset.WorkListsProper := ⟨List.nodup_nil, List.nodup_nil⟩

/-- Settles O4: the values by the cold record of each kind, each invariant by its own lemma. -/
theorem resetIsColdAndMeetsTheInvariants : Obligations.ResetIsColdAndMeetsTheInvariants := by
  obtain ⟨accounts, intakes, tariffs, pool⟩ := reset_cold
  exact ⟨⟨accounts, intakes, tariffs, pool, rfl, rfl, rfl, rfl, rfl, rfl, rfl, rfl⟩, linkLaw_reset, recordsSealed_reset,
    tariffsVerified_reset, numbersDistinct_reset, ownershipAgrees_reset, buffersWhole_reset, workListsProper_reset⟩

end Sys2Proof.Machine.ResetState
end

