-- ==== Sys2Proof/Proofs/RequestPort.lean ====
section
/-! The Request Port (R189 to R194, R197, R207; log 3, log 42): what each transaction does to the port and shows on MISO,
the command that a transaction is, and the port's checks of a request by what refuses it. -/

namespace Sys2Proof.Machine.RequestPort

open Sys2Proof Sys2Proof.Machine

/-! ### Transactions (R189) -/

section

variable {s : State}

/-- Outside rest a transaction changes the port alone. -/
theorem transact_of_awake (f : Port → Port) (awake : s.atRest = false) : s.transact f = { s with port := f s.port } :=
  if_neg (ne_true_of_eq_false awake)

theorem exec_writeRequest (data : List Byte) (awake : s.atRest = false) :
    exec (.writeRequest data) s = .next { s with port := s.port.write data } :=
  congrArg Host.Outcome.next (transact_of_awake (Port.write data) awake)

theorem exec_execute (n : Nat) (awake : s.atRest = false) :
    exec (.execute n) s = .next { s with port := s.port.execute n } :=
  congrArg Host.Outcome.next (transact_of_awake (Port.execute n) awake)

theorem exec_readStatus (n : Nat) (awake : s.atRest = false) :
    exec (.readStatus n) s = .next { s with port := s.port.readStatus s.ledger.attention n } :=
  congrArg Host.Outcome.next (transact_of_awake (Port.readStatus s.ledger.attention n) awake)

theorem exec_readResponse (n : Nat) (awake : s.atRest = false) :
    exec (.readResponse n) s = .next { s with port := s.port.readResponse n } :=
  congrArg Host.Outcome.next (transact_of_awake (Port.readResponse n) awake)

theorem exec_unknownTransaction (code : Option Byte) (n : Nat) (awake : s.atRest = false) :
    exec (.unknownTransaction code n) s = .next { s with port := s.port.ignore code n } :=
  congrArg Host.Outcome.next (transact_of_awake (Port.ignore code n) awake)

end

/-! ### WRITE_REQUEST (R191) -/

section

variable {p : Port} (data : List Byte)

/-- While BUSY a write is dropped (log 42). -/
theorem write_of_busy (busy : p.busy = true) :
    p.write data = { p with writeWhileBusy := true, miso := List.replicate (1 + data.length) 0 } := if_pos busy

theorem write_of_clear (clear : p.busy = false) :
    p.write data =
      { p with
        requestBuffer := data.take 128 ++ p.requestBuffer.drop (data.take 128).length
        fillCount := (data.take 128).length
        overrun := p.overrun || decide (128 < data.length)
        miso := List.replicate (1 + data.length) 0 } := if_neg (ne_true_of_eq_false clear)

theorem miso_write (p : Port) : (p.write data).miso = List.replicate (1 + data.length) 0 := by
  cases busy : p.busy with
  | true => rw [write_of_busy data busy]
  | false => rw [write_of_clear data busy]

/-- Bytes laid over a buffer from offset 0: below the bound each position holds its byte, or keeps its own. -/
theorem getElem?_take_append_drop {α : Type} (written held : List α) {bound k : Nat} (below : k < bound) :
    (written.take bound ++ held.drop (written.take bound).length)[k]? =
      if k < written.length then written[k]? else held[k]? := by
  split
  · next covered =>
    have inside : k < (written.take bound).length := by rw [List.length_take]; omega
    rw [List.getElem?_append_left inside, List.getElem?_take_of_lt below]
  · next uncovered =>
    have whole : written.take bound = written := List.take_of_length_le (by omega)
    rw [whole, List.getElem?_append_right (Nat.le_of_not_lt uncovered), List.getElem?_drop,
      Nat.add_sub_cancel' (Nat.le_of_not_lt uncovered)]

end

/-- Settles O5: the port as WRITE_REQUEST leaves it, by BUSY. -/
theorem writeRequestFillsTheBuffer : Obligations.WriteRequestFillsTheBuffer := by
  intro data s awake
  refine ⟨s.port.write data, exec_writeRequest data awake, miso_write data s.port, fun busy => ?dropped,
    fun clear => ?stored⟩
  case dropped => rw [write_of_busy data busy]
  case stored =>
    rw [write_of_clear data clear]
    exact ⟨List.length_take.trans (Nat.min_comm ..), fun k below => getElem?_take_append_drop data _ below, rfl, rfl⟩

/-! ### EXECUTE (R192) -/

section

variable {p : Port} (n : Nat)

theorem execute_of_busy (busy : p.busy = true) :
    p.execute n = { p with strayExecute := true, miso := List.replicate (1 + n) 0 } := if_pos busy

theorem execute_of_clear (clear : p.busy = false) :
    p.execute n =
      { p with
        busy := true
        responseReady := false
        responseBuffer := List.replicate 128 0
        miso := List.replicate (1 + n) 0 } := if_neg (ne_true_of_eq_false clear)

end

/-- Settles O6: the port as EXECUTE leaves it, by BUSY. -/
theorem executeStartsTheRequest : Obligations.ExecuteStartsTheRequest := by
  intro n s awake
  rw [exec_execute n awake]
  cases busy : s.port.busy with
  | true => rw [execute_of_busy n busy, if_pos rfl]
  | false => rw [execute_of_clear n busy, if_neg Bool.false_ne_true]

/-! ### What is shown after the transaction byte (R193, R194) -/

section

variable (n : Nat) (bytes : List Byte)

theorem length_padTo : (padTo n 0 bytes).length = n := by
  rw [padTo, List.length_append, List.length_take, List.length_replicate]
  omega

/-- The bytes themselves, then zeros. -/
theorem getElem?_padTo {n k : Nat} (clocked : k < n) : (padTo n 0 bytes)[k]? = some (bytes.getD k 0) := by
  rw [padTo, List.getElem?_append, List.length_take, List.getD_eq_getElem?_getD]
  split
  · next own =>
    have inside : k < bytes.length := Nat.lt_of_lt_of_le own (Nat.min_le_right ..)
    rw [List.getElem?_take_of_lt clocked, List.getElem?_eq_getElem inside, Option.getD_some]
  · next beyond =>
    have outside : bytes.length ≤ k := by omega
    rw [List.getElem?_replicate_of_lt (by omega), List.getElem?_eq_none outside, Option.getD_none]

/-- MISO carries 0 during the transaction byte, and then a byte for each that is clocked. -/
theorem shown_after_transaction_byte :
    (0 :: padTo n 0 bytes).length = 1 + n ∧ (0 :: padTo n 0 bytes)[0]? = some 0 ∧
      ∀ k < n, (0 :: padTo n 0 bytes)[k + 1]? = some (bytes.getD k 0) := by
  refine ⟨?_, rfl, fun k clocked => getElem?_padTo bytes clocked⟩
  rw [List.length_cons, length_padTo, Nat.add_comm]

end

/-! ### READ_STATUS (R193) -/

/-- The two bytes of the attention set, least significant first. -/
theorem le_attention (attention : BitVec 12) :
    le 2 attention.toNat = [attention.setWidth 8, (attention >>> 8).setWidth 8] := by
  have low : byte attention.toNat = attention.setWidth 8 := BitVec.eq_of_toNat_eq (by simp)
  have high : byte (attention.toNat / 256) = (attention >>> 8).setWidth 8 :=
    BitVec.eq_of_toNat_eq (by simp [Nat.shiftRight_eq_div_pow])
  rw [le, le, le, low, high]

/-- The status byte, the attention set, then zeros, position by position. -/
theorem getD_status (status : Byte) (attention : BitVec 12) (k : Nat) :
    ([status] ++ le 2 attention.toNat).getD k 0 =
      if k = 0 then status
      else if k = 1 then attention.setWidth 8
      else if k = 2 then (attention >>> 8).setWidth 8
      else 0 := by
  rw [le_attention]
  match k with
  | 0 => rfl
  | 1 => rfl
  | 2 => rfl
  | k + 3 => simp

/-- Settles O7: the bytes are those of the state before the flags are cleared. -/
theorem readStatusShowsAndClears : Obligations.ReadStatusShowsAndClears := by
  intro n s awake
  obtain ⟨length, first, behind⟩ :=
    shown_after_transaction_byte n ([s.port.statusByte s.ledger.attention] ++ le 2 s.ledger.attention.toNat)
  refine ⟨_, exec_readStatus n awake, length, first, fun k clocked => ?_⟩
  rw [← getD_status]
  exact behind k clocked

/-! ### READ_RESPONSE and unknown transactions (R189, R194) -/

section

variable {s : State} (n : Nat)

theorem readResponse_shows (awake : s.atRest = false) :
    ∃ shown : List Byte,
      exec (.readResponse n) s = .next { s with port := { s.port with miso := shown } } ∧
        shown.length = 1 + n ∧ shown[0]? = some 0 ∧
        ∀ k < n, shown[k + 1]? = some (s.port.responseBuffer.getD k 0) :=
  ⟨_, exec_readResponse n awake, shown_after_transaction_byte n s.port.responseBuffer⟩

/-- A transaction byte that was cut short clocks out no byte. -/
theorem ignore_none (p : Port) : p.ignore none n = { p with miso := [] } := rfl

theorem ignore_some (p : Port) (code : Byte) :
    p.ignore (some code) n = { p with miso := List.replicate (1 + n) 0 } := rfl

end

/-! ### The command that a transaction is (R207) -/

section

variable (data : List Byte)

theorem transactionCommand_named :
    transactionCommand (0x01#8 :: data) = .writeRequest data ∧
      transactionCommand (0x02#8 :: data) = .execute data.length ∧
      transactionCommand (0x03#8 :: data) = .readStatus data.length ∧
      transactionCommand (0x04#8 :: data) = .readResponse data.length := ⟨rfl, rfl, rfl, rfl⟩

theorem namesTransaction_eq_false_iff {code : Byte} :
    namesTransaction code = false ↔ code ∉ [0x01#8, 0x02#8, 0x03#8, 0x04#8] := by
  simp [namesTransaction, and_assoc]

/-- A byte that names no transaction differs from the four in its number too. -/
theorem transactionCommand_unnamed {code : Byte} (unnamed : code ∉ [0x01#8, 0x02#8, 0x03#8, 0x04#8]) :
    transactionCommand (code :: data) = .unknownTransaction (some code) data.length := by
  have differs (named : Byte) (mem : named ∈ [0x01#8, 0x02#8, 0x03#8, 0x04#8]) : code.toNat ≠ named.toNat :=
    fun same => unnamed (BitVec.eq_of_toNat_eq same ▸ mem)
  rw [transactionCommand]
  split
  · next same => exact absurd same (differs 0x01#8 (by decide))
  · next same => exact absurd same (differs 0x02#8 (by decide))
  · next same => exact absurd same (differs 0x03#8 (by decide))
  · next same => exact absurd same (differs 0x04#8 (by decide))
  · rfl

end

theorem wellFormed_transactionCommand (bytes : List Byte) : (transactionCommand bytes).wellFormed = true := by
  cases bytes with
  | nil => rfl
  | cons code data =>
    by_cases named : code ∈ [0x01#8, 0x02#8, 0x03#8, 0x04#8]
    · simp only [List.mem_cons, List.not_mem_nil, or_false] at named
      rcases named with rfl | rfl | rfl | rfl <;> rfl
    · rw [transactionCommand_unnamed data named, Instr.wellFormed, namesTransaction_eq_false_iff.mpr named]
      rfl

/-- Settles O8: the bytes shown, the transactions that do nothing, and the command by its first byte. -/
theorem readResponseReturnsTheBuffer : Obligations.ReadResponseReturnsTheBuffer := by
  refine ⟨fun n s awake => ⟨readResponse_shows n awake, ?cutShort, fun code _ => ?unknown⟩, fun data => ?commands, rfl,
    wellFormed_transactionCommand⟩
  case cutShort => rw [exec_unknownTransaction none 0 awake, ignore_none]
  case unknown => rw [exec_unknownTransaction (some code) n awake, ignore_some]
  case commands =>
    obtain ⟨write, execute, status, response⟩ := transactionCommand_named data
    exact ⟨write, execute, status, response, fun code unnamed => transactionCommand_unnamed data unnamed⟩

/-! ### The port's checks (R197) -/

section

variable {record : List Byte} {k : RequestCode}

/-- Check 1: a record below 2 bytes names no request. -/
theorem requestNamed_of_short (short : record.length < 2) : requestNamed record = none := if_pos short

/-- From 2 bytes on the first byte names the request. -/
theorem requestNamed_of_long (long : 2 ≤ record.length) :
    requestNamed record = RequestCode.ofByte (record.getD 0 0) := if_neg (Nat.not_lt.mpr long)

/-- Check 2: a byte that is no code of the catalogue names none. -/
theorem ofByte_of_unlisted {b : Byte} (unlisted : ∀ j : RequestCode, b ≠ j.value) : RequestCode.ofByte b = none :=
  List.find?_eq_none.mpr fun j _ => by simpa using (unlisted j).symm

theorem requestNamed_of_code (long : 2 ≤ record.length) (code : record.getD 0 0 = k.value) :
    requestNamed record = some k := by
  rw [requestNamed_of_long long, code, RequestCode.ofByte_value]

/-- Check 3: a record that ends before its parameters do, or parameters of another length than the request's. -/
theorem parametersOf_of_unfit
    (unfit : record.length < 2 + (record.getD 1 0).toNat ∨
      k.lengthFits ((record.drop 2).take (record.getD 1 0).toNat) = false) :
    parametersOf k record = none := by
  rw [parametersOf]
  rcases unfit with short | length
  · exact if_pos short
  · rw [length]
    exact ite_self none

theorem parametersOf_of_fit (long : 2 + (record.getD 1 0).toNat ≤ record.length)
    (fits : k.lengthFits ((record.drop 2).take (record.getD 1 0).toNat) = true) :
    parametersOf k record = some ((record.drop 2).take (record.getD 1 0).toNat) := by
  rw [parametersOf, if_neg (Nat.not_lt.mpr long), if_pos fits]

/-- Check 4, mode by mode (Table 10-2). -/
theorem modeRefusal_restarting (status : k ≠ .readPartStatus) (mask : k ≠ .setAttentionMask) :
    k.modeRefusal .restarting = some .restarting := if_neg (not_or.mpr ⟨status, mask⟩)

theorem modeRefusal_commissioning (barred : k ∈ [.suspendAccount, .resumeAccount, .closeNow, .stopRun]) :
    k.modeRefusal .commissioning = some .wrongMode := if_pos (by simpa using barred)

theorem modeRefusal_run (barred : k ∈ [.setTime, .startRun, .setRunParameters]) :
    k.modeRefusal .run = some .wrongMode := if_pos (by simpa using barred)

end

section

variable {s : State} {k : RequestCode} {code : RespCode} {p : List Byte}

/-- A request that does not pass the port's checks asks for no operation, and so is answered whoever waits. -/
theorem exec_command_of_not_admitted (barred : s.admitted k = none) :
    ∃ own, exec k.command s = .next (runRequest k own s) := by
  obtain ⟨own, runs, -⟩ := Arbitration.exists_carriedOut k
  refine ⟨own, (runs s).trans (congrArg Host.Outcome.next (runOperation_unasked fun p admitted => ?_))⟩
  exact nomatch barred.symm.trans admitted

/-- What one of the checks fails is not admitted. -/
theorem not_admitted_of_refused
    (refused : requestNamed s.port.record = none ∨ parametersOf k s.port.record = none ∨
      k.modeRefusal s.mode ≠ none) : s.admitted k = none := by
  refine Option.eq_none_iff_forall_ne_some.mpr fun p admitted => ?_
  obtain ⟨-, -, named, admits, parameters⟩ := Arbitration.admitted_eq_some_iff.mp admitted
  rcases refused with unnamed | unfit | mode
  · exact nomatch unnamed.symm.trans named
  · exact nomatch unfit.symm.trans parameters
  · exact absurd admits mode

variable (awake : s.atRest = false) (busy : s.port.busy = true)

include awake busy

theorem exec_command_unnamed (unnamed : requestNamed s.port.record = none) :
    exec k.command s = .next (s.respond (refuse .badRequest)) := by
  obtain ⟨own, runs⟩ := exec_command_of_not_admitted (k := k) (not_admitted_of_refused (.inl unnamed))
  rw [runs, runRequest_unnamed awake busy unnamed]

theorem exec_command_unfit (named : requestNamed s.port.record = some k)
    (unfit : parametersOf k s.port.record = none) : exec k.command s = .next (s.respond (refuse .badRequest)) := by
  obtain ⟨own, runs⟩ := exec_command_of_not_admitted (not_admitted_of_refused (.inr (.inl unfit)))
  rw [runs, runRequest_badLength awake busy named unfit]

theorem exec_command_wrong_mode (named : requestNamed s.port.record = some k)
    (parameters : parametersOf k s.port.record = some p) (mode : k.modeRefusal s.mode = some code) :
    exec k.command s = .next (s.respond (refuse code)) := by
  obtain ⟨own, runs⟩ := exec_command_of_not_admitted (not_admitted_of_refused (.inr (.inr (by rw [mode]; nofun))))
  rw [runs, runRequest_wrongMode awake busy named parameters mode]

end

/-- Settles O10: each check by what it finds in the record or the mode, once the checks before it have passed. -/
theorem portChecksRefuseInOrder : Obligations.PortChecksRefuseInOrder := by
  intro k s awake busy
  refine ⟨fun short => exec_command_unnamed awake busy (requestNamed_of_short short), fun long unlisted => ?_,
    fun long code => ?_⟩
  · exact exec_command_unnamed awake busy ((requestNamed_of_long long).trans (ofByte_of_unlisted unlisted))
  · have named : requestNamed s.port.record = some k := requestNamed_of_code long code
    refine ⟨fun unfit => exec_command_unfit awake busy named (parametersOf_of_unfit unfit), fun whole fits => ?_⟩
    have refused {code : RespCode} (mode : k.modeRefusal s.mode = some code) :
        exec k.command s = .next (s.respond (refuse code)) :=
      exec_command_wrong_mode awake busy named (parametersOf_of_fit whole fits) mode
    exact ⟨fun mode status mask => refused (mode ▸ modeRefusal_restarting status mask),
      fun mode barred => refused (mode ▸ modeRefusal_commissioning barred),
      fun mode barred => refused (mode ▸ modeRefusal_run barred)⟩

end Sys2Proof.Machine.RequestPort
end

