-- ==== Sys2Proof/Proofs/PortRecords.lean ====
section
/-! What the port shows (R195, R196, R200, R207): the status byte by its bits, and the response record laid over the
response buffer. -/

namespace Sys2Proof.Machine.PortRecords

open Sys2Proof Sys2Proof.Machine

/-! ### The status byte (R200, R207) -/

/-- A bit of the byte that packs flags is the flag at its position, and clear above the last. -/
theorem getLsbD_byte_bits (flags : List Bool) {k : Nat} (inside : k < 8) :
    (byte (bits flags)).getLsbD k = flags.getD k false := by
  rw [byte, BitVec.getLsbD_ofNat, testBit_bits, decide_eq_true inside, Bool.true_and]

/-- ATTN_N is low exactly while a source is set that the mask enables (R200). -/
theorem attnLow_eq_true_iff {attention mask : BitVec 12} :
    attnLow attention mask = true ↔ ∃ k < 12, attention.getLsbD k = true ∧ mask.getLsbD k = true := by
  rw [attnLow, bne_iff_ne]
  change attention &&& mask ≠ 0#12 ↔ _
  constructor
  · intro enabled
    refine Classical.byContradiction fun noneEnabled => enabled (BitVec.eq_of_getLsbD_eq fun k source => ?_)
    have notBoth : ¬(attention.getLsbD k = true ∧ mask.getLsbD k = true) := fun both => noneEnabled ⟨k, source, both⟩
    rwa [BitVec.getLsbD_and, BitVec.getLsbD_zero, ← Bool.not_eq_true, Bool.and_eq_true]
  · rintro ⟨k, -, set, enabled⟩ clear
    have bit : (attention &&& mask).getLsbD k = true := by rw [BitVec.getLsbD_and, set, enabled]; rfl
    rw [clear, BitVec.getLsbD_zero] at bit
    exact Bool.false_ne_true bit

section

variable (attention : BitVec 12) (p : Port)

/-- The flags of the status byte, in the order of their bits (R207). -/
def statusFlags : List Bool :=
  [p.busy, p.responseReady, p.overrun, p.writeWhileBusy, p.strayExecute, attnLow attention p.mask]

theorem getLsbD_statusByte {k : Nat} (inside : k < 8) :
    (p.statusByte attention).getLsbD k = (statusFlags attention p).getD k false :=
  getLsbD_byte_bits (statusFlags attention p) inside

/-- Bit 5 is ATTN (R200). -/
theorem getLsbD_statusByte_attn :
    (p.statusByte attention).getLsbD 5 = true ↔
      ∃ k < 12, attention.getLsbD k = true ∧ p.mask.getLsbD k = true := by
  rw [getLsbD_statusByte attention p (by decide)]
  exact attnLow_eq_true_iff

end

/-! ### The response record (R195, R196) -/

/-- A record that fits a buffer is laid over its first bytes, and the bytes beyond the record stay. -/
theorem laid_over {α : Type} {record held : List α} {n : Nat} (whole : held.length = n) (fits : record.length ≤ n) :
    let laid := (record ++ held.drop record.length).take n
    laid.length = n ∧ laid.take record.length = record ∧ laid.drop record.length = held.drop record.length := by
  have length : (record ++ held.drop record.length).length = n := by
    rw [List.length_append, List.length_drop, whole, Nat.add_sub_cancel' fits]
  rw [List.take_of_length_le (Nat.le_of_eq length)]
  exact ⟨length, List.take_left, List.drop_left⟩

theorem length_answerBytes (a : Answer) : a.bytes.length = 2 + a.payload.length := by
  rw [Answer.bytes, List.length_append]
  rfl

/-- The response buffer after a response whose record fits it. -/
theorem responseBuffer_respond {a : Answer} {p : Port} (whole : p.responseBuffer.length = 128)
    (fits : a.payload.length ≤ 126) :
    (p.respond a).responseBuffer.length = 128 ∧
      (p.respond a).responseBuffer.take (2 + a.payload.length) = a.bytes ∧
      (p.respond a).responseBuffer.drop (2 + a.payload.length) =
        p.responseBuffer.drop (2 + a.payload.length) := by
  have fitsBuffer : a.bytes.length ≤ 128 := by rw [length_answerBytes]; omega
  rw [← length_answerBytes]
  exact laid_over whole fitsBuffer

/-- Settles O9: the status byte bit by bit, and the response buffer in its two parts. -/
theorem statusByteAndResponseRecord : Obligations.StatusByteAndResponseRecord := by
  refine ⟨fun attention p => ?status, fun a p whole fits => ?response⟩
  case status =>
    have bit {k : Nat} (inside : k < 8) := getLsbD_statusByte attention p inside
    exact ⟨bit (by decide), bit (by decide), bit (by decide), bit (by decide), bit (by decide),
      getLsbD_statusByte_attn attention p, bit (by decide), bit (by decide)⟩
  case response =>
    obtain ⟨length, record, beyond⟩ := responseBuffer_respond whole fits
    exact ⟨rfl, rfl, length, record, beyond, rfl⟩

end Sys2Proof.Machine.PortRecords
end

