-- ==== Sys2Proof/Proofs/LinkFrames.lean ====
section
/-! Link frames (R64, R205, R206; log 25, log 37, log 40): the decoded bytes of the five frames, escaping and its inverse,
what the receiver makes of a frame sent, and the frames and commands that a lane's bytes hold. -/

namespace Sys2Proof.Machine.LinkFrames

open Sys2Proof Sys2Proof.Machine

/-! ### Numbers at their places -/

section

variable {bytes check : List Byte} {offset width value : Nat}

/-- The bytes of a number spell it where they stand. -/
theorem at_of_bytes (stands : (bytes.drop offset).take width = le width value) : At offset width value bytes := by
  rw [At, field, stands, leValue_le, Nat.pow_mul]

theorem byte_toNat_self (b : Byte) : byte b.toNat = b := by rw [byte, BitVec.ofNat_toNat, BitVec.setWidth_eq]

/-- A byte of the layout spells its own number. -/
theorem at_byte {b : Byte} (present : bytes[offset]? = some b) : At offset 1 b.toNat bytes :=
  StatusAndAttention.at_one (present.trans (congrArg some (byte_toNat_self b).symm))

/-- What a frame's body spells is spelt before its CRC as well. -/
theorem at_append (spelt : At offset width value bytes) (inside : offset + width ≤ bytes.length) :
    At offset width value (bytes ++ check) :=
  (field_append_left inside).trans spelt

/-- A field of 16 bits is read back as it was sent. -/
theorem ofNat_field_of_at {v : BitVec 16} (spelt : At offset 2 v.toNat bytes) :
    BitVec.ofNat 16 (field offset 2 bytes) = v := by
  rw [show field offset 2 bytes = v.toNat from spelt.trans (Nat.mod_eq_of_lt v.isLt), BitVec.ofNat_toNat,
    BitVec.setWidth_eq]

end

/-! ### The contents of the five frames (Table 11-2) -/

theorem hello_layout (id : BitVec 16) (seq : Byte) :
    let body := (LinkFrame.hello id seq).content
    body.length = 4 ∧ At 0 1 0x01 body ∧ At 1 2 id.toNat body ∧ At 3 1 seq.toNat body :=
  ⟨rfl, at_of_bytes rfl, at_of_bytes rfl, at_byte rfl⟩

/-- The flags of an INCREMENT stand alone in its last byte. -/
theorem increment_flags (g : IncrementFrame) :
    let body := (LinkFrame.increment g).content
    FlagAt 12 0 g.last body ∧ FlagAt 12 1 g.doubtful body ∧ field 12 1 body < 4 := by
  have present : (LinkFrame.increment g).content[12]? = some (byte (bits [g.last, g.doubtful])) := rfl
  have few : [g.last, g.doubtful].length ≤ 8 := by simp
  refine ⟨StatusAndAttention.flagAt_flags present few 0, StatusAndAttention.flagAt_flags present few 1, ?_⟩
  rw [StatusAndAttention.field_flags present few]
  exact bits_lt _

theorem increment_layout (g : IncrementFrame) :
    let body := (LinkFrame.increment g).content
    body.length = 13 ∧ At 0 1 0x02 body ∧ At 1 1 g.seq.toNat body ∧ At 2 1 g.intake.toNat body ∧
      At 3 1 g.tag.toNat body ∧ At 4 2 g.imp.toNat body ∧ At 6 2 g.exp.toNat body ∧ At 8 2 g.lag.toNat body ∧
      At 10 2 g.lead.toNat body ∧ FlagAt 12 0 g.last body ∧ FlagAt 12 1 g.doubtful body ∧ field 12 1 body < 4 :=
  ⟨rfl, at_of_bytes rfl, at_byte rfl, at_byte rfl, at_byte rfl, at_of_bytes rfl, at_of_bytes rfl, at_of_bytes rfl,
    at_of_bytes rfl, increment_flags g⟩

/-- An absent last boundary is sent as FFFFFFFF (log 25). -/
theorem boundary_layout (tag : Tag) (time : Option Seconds) :
    let body := (LinkFrame.boundary tag time).content
    body.length = 6 ∧ At 0 1 0x81 body ∧ At 1 1 tag.toNat body ∧ At 2 4 (sentTime time) body :=
  ⟨rfl, at_of_bytes rfl, at_byte rfl, at_of_bytes rfl⟩

/-- The count of a CREDIT is sent modulo 256 (log 37). -/
theorem credit_layout (count : Nat) :
    let body := (LinkFrame.credit count).content
    body.length = 2 ∧ At 0 1 0x82 body ∧ At 1 1 count body :=
  ⟨rfl, at_of_bytes rfl, at_of_bytes rfl⟩

theorem resync_layout :
    let body := LinkFrame.resync.content
    body.length = 1 ∧ At 0 1 0x83 body :=
  ⟨rfl, at_of_bytes rfl⟩

/-- The two bytes behind a body spell the CRC. -/
theorem at_crc (r : BitVec 16) : At 0 2 r.toNat (le 2 r.toNat) := at_of_bytes rfl

/-! ### Escaping (R205) -/

section

variable {b : Byte}

/-- A byte that has to be escaped: the flag or the escape byte itself. -/
def Special (b : Byte) : Prop := b = 0x7E#8 ∨ b = 0x7D#8

theorem escape_of_special (special : Special b) (bs : List Byte) :
    escape (b :: bs) = 0x7D#8 :: (b ^^^ 0x20#8) :: escape bs := if_pos special

theorem escape_of_plain (plain : ¬Special b) (bs : List Byte) : escape (b :: bs) = b :: escape bs := if_neg plain

theorem unescape_escaped (c : Byte) (cs : List Byte) :
    unescape (0x7D#8 :: c :: cs) = (unescape cs).map ((c ^^^ 0x20#8) :: ·) := rfl

theorem unescape_of_plain (plain : ¬Special b) (bs : List Byte) : unescape (b :: bs) = (unescape bs).map (b :: ·) := by
  have noEscape : b ≠ 0x7D#8 := fun escapeByte => plain (.inr escapeByte)
  cases bs with
  | nil => exact if_neg noEscape
  | cons c cs => exact if_neg noEscape

/-- Inverting bit 5 twice gives the byte back. -/
theorem invert_invert (b : Byte) : b ^^^ 0x20#8 ^^^ 0x20#8 = b := by
  rw [BitVec.xor_assoc, BitVec.xor_self, BitVec.xor_zero]

/-- An escaped byte is no flag any more. -/
theorem flag_ne_inverted (special : Special b) : 0x7E#8 ≠ b ^^^ 0x20#8 := by
  rcases special with rfl | rfl <;> decide

/-- The receiver undoes what the transmitter escaped. -/
theorem unescape_escape (bytes : List Byte) : unescape (escape bytes) = some bytes := by
  induction bytes with
  | nil => rfl
  | cons b bs ih =>
    by_cases special : Special b
    · rw [escape_of_special special, unescape_escaped, ih, invert_invert, Option.map_some]
    · rw [escape_of_plain special, unescape_of_plain special, ih, Option.map_some]

/-- Escaped bytes hold no flag. -/
theorem flag_notMem_escape (bytes : List Byte) : 0x7E#8 ∉ escape bytes := by
  induction bytes with
  | nil => exact List.not_mem_nil
  | cons b bs ih =>
    by_cases special : Special b
    · rw [escape_of_special special, List.mem_cons, List.mem_cons]
      exact not_or.mpr ⟨by decide, not_or.mpr ⟨flag_ne_inverted special, ih⟩⟩
    · rw [escape_of_plain special, List.mem_cons]
      exact not_or.mpr ⟨fun flag => special (.inl flag.symm), ih⟩

end

/-! ### A frame sent is received (R64, R205, R206) -/

section

variable (f : LinkFrame)

theorem length_decoded : f.decoded.length = f.content.length + 2 := by
  rw [LinkFrame.decoded, List.length_append, le_length]

/-- The receiver decodes what the transmitter escaped. -/
theorem receive_escape {bytes : List Byte} (held : bytes ≠ []) : receive (escape bytes) = classify bytes := by
  have sent : escape bytes ≠ [] := by
    intro empty
    have decoded := unescape_escape bytes
    rw [empty] at decoded
    exact held (Option.some.inj decoded).symm
  rw [receive, if_neg sent, unescape_escape]

/-- The CRC of every frame sent is found good. -/
theorem crcMatches_decoded : crcMatches f.decoded = true := by
  have body : f.decoded.length - 2 = f.content.length := by rw [length_decoded, Nat.add_sub_cancel]
  have check : field f.content.length 2 f.decoded = (crc f.content).toNat := by
    rw [LinkFrame.decoded, field_append_right (Nat.le_refl _), Nat.sub_self]
    exact (at_crc (crc f.content)).trans (Nat.mod_eq_of_lt (crc f.content).isLt)
  rw [crcMatches, body, check, LinkFrame.decoded, List.take_left, beq_self_eq_true]

theorem decoded_ne_nil : f.decoded ≠ [] := by
  intro empty
  have length := length_decoded f
  rw [empty, List.length_nil] at length
  omega

end

/-- The receiver takes a HELLO by its length, its kind and its CRC. -/
theorem classify_hello (id : BitVec 16) (seq : Byte) : classify (LinkFrame.hello id seq).decoded = .hello id seq := by
  obtain ⟨length, -, atId, -⟩ := hello_layout id seq
  have readId : BitVec.ofNat 16 (field 1 2 (LinkFrame.hello id seq).decoded) = id :=
    ofNat_field_of_at (at_append atId (by rw [length]; decide))
  rw [classify, if_pos ⟨rfl, rfl, crcMatches_decoded _⟩, readId]
  rfl

/-- Each field of an INCREMENT is read back. -/
theorem readIncrement_decoded (g : IncrementFrame) : readIncrement (LinkFrame.increment g).decoded = g := by
  obtain ⟨length, -, -, -, -, atImp, atExp, atLag, atLead, -⟩ := increment_layout g
  have readBack {offset : Nat} {v : BitVec 16} (spelt : At offset 2 v.toNat (LinkFrame.increment g).content)
      (inside : offset + 2 ≤ 13) : BitVec.ofNat 16 (field offset 2 (LinkFrame.increment g).decoded) = v :=
    ofNat_field_of_at (at_append spelt (length ▸ inside))
  have flags : (LinkFrame.increment g).decoded.getD 12 0 = byte (bits [g.last, g.doubtful]) := rfl
  rw [readIncrement, readBack atImp (by decide), readBack atExp (by decide), readBack atLag (by decide),
    readBack atLead (by decide), flags, PortRecords.getLsbD_byte_bits _ (by decide),
    PortRecords.getLsbD_byte_bits _ (by decide)]
  rfl

/-- An INCREMENT is longer than a HELLO, and is taken by its own length, kind and CRC. -/
theorem classify_increment (g : IncrementFrame) : classify (LinkFrame.increment g).decoded = .increment g := by
  have length : (LinkFrame.increment g).decoded.length = 15 := rfl
  have noHello : (LinkFrame.increment g).decoded.length ≠ 6 := by rw [length]; decide
  rw [classify, if_neg fun ⟨short, _⟩ => noHello short, if_pos ⟨length, rfl, crcMatches_decoded _⟩,
    readIncrement_decoded]

/-! ### A lane's bytes split at flags (R205) -/

section

variable {inside : Option (List Byte)} {bytes : List Byte}

theorem framesFrom_of_plain {b : Byte} (plain : b ≠ 0x7E#8) (bs : List Byte) :
    framesFrom inside (b :: bs) = framesFrom (inside.map (b :: ·)) bs := if_neg plain

/-- The first flag opens a frame. -/
theorem framesFrom_flag_outside (bs : List Byte) : framesFrom none (0x7E#8 :: bs) = framesFrom (some []) bs := rfl

/-- A flag closes the frame whose bytes were taken, unless there are none, and opens the next. -/
theorem framesFrom_flag_inside (taken bs : List Byte) :
    framesFrom (some taken) (0x7E#8 :: bs) =
      [taken.reverse].filter (fun c => !c.isEmpty) ++ framesFrom (some []) bs := by
  cases taken with
  | nil => rfl
  | cons c cs => rw [List.filter_cons_of_pos (by simp)]; rfl

/-- Bytes without a flag are taken into the frame that is open. -/
theorem framesFrom_append (flagless : 0x7E#8 ∉ bytes) (rest : List Byte) :
    framesFrom inside (bytes ++ rest) = framesFrom (inside.map (bytes.reverse ++ ·)) rest := by
  induction bytes generalizing inside with
  | nil => simp
  | cons b bs ih =>
    obtain ⟨plain, flaglessRest⟩ := not_or.mp (mt List.mem_cons.mpr flagless)
    rw [List.cons_append, framesFrom_of_plain (Ne.symm plain), ih flaglessRest, Option.map_map]
    simp [Function.comp_def]

/-- A frame that no flag closes is none. -/
theorem framesFrom_flagless (flagless : 0x7E#8 ∉ bytes) : framesFrom inside bytes = [] := by
  rw [← List.append_nil bytes, framesFrom_append flagless, framesFrom]

/-- Inside a frame each flag ends one stretch, and the stretches that hold bytes are the frames. -/
theorem framesFrom_contents {contents : List (List Byte)} {tail : List Byte}
    (flaglessContents : ∀ c ∈ contents, 0x7E#8 ∉ c) (flaglessTail : 0x7E#8 ∉ tail) :
    framesFrom (some []) ((contents.map (· ++ [0x7E#8])).flatten ++ tail) =
      contents.filter fun c => !c.isEmpty := by
  induction contents with
  | nil => exact framesFrom_flagless flaglessTail
  | cons c cs ih =>
    obtain ⟨flagless, flaglessRest⟩ := List.forall_mem_cons.mp flaglessContents
    rw [List.map_cons, List.flatten_cons, List.append_assoc, List.append_assoc, framesFrom_append flagless,
      Option.map_some, List.append_nil, List.singleton_append, framesFrom_flag_inside, List.reverse_reverse,
      ih flaglessRest, ← List.filter_append, List.singleton_append]

theorem laneFrames_contents {junk tail : List Byte} {contents : List (List Byte)} (flaglessJunk : 0x7E#8 ∉ junk)
    (flaglessContents : ∀ c ∈ contents, 0x7E#8 ∉ c) (flaglessTail : 0x7E#8 ∉ tail) :
    laneFrames (junk ++ [0x7E#8] ++ (contents.map (· ++ [0x7E#8])).flatten ++ tail) =
      contents.filter fun c => !c.isEmpty := by
  rw [laneFrames, List.append_assoc, List.append_assoc, framesFrom_append flaglessJunk, Option.map_none,
    List.singleton_append, framesFrom_flag_outside, framesFrom_contents flaglessContents flaglessTail]

/-- What is found between two flags: some bytes, and no flag. -/
def FrameContent (c : List Byte) : Prop := c ≠ [] ∧ 0x7E#8 ∉ c

/-- While the bytes taken hold no flag, each frame found holds bytes and no flag. -/
theorem frameContent_of_mem_framesFrom (flagless : ∀ taken ∈ inside, 0x7E#8 ∉ taken) :
    ∀ c ∈ framesFrom inside bytes, FrameContent c := by
  induction bytes generalizing inside with
  | nil => exact List.forall_mem_nil _
  | cons b bs ih =>
    have later : ∀ c ∈ framesFrom (some []) bs, FrameContent c := ih (by simp)
    by_cases flag : b = 0x7E#8
    · subst flag
      cases inside with
      | none => exact later
      | some taken =>
        rw [framesFrom_flag_inside, List.forall_mem_append]
        refine ⟨fun c closed => ?_, later⟩
        obtain ⟨rfl, held⟩ : c = taken.reverse ∧ ¬c = [] := by simpa using closed
        exact ⟨held, mt List.mem_reverse.mp (flagless taken rfl)⟩
    · rw [framesFrom_of_plain flag]
      refine ih fun extended opened => ?_
      obtain ⟨taken, takenSoFar, rfl⟩ := Option.map_eq_some_iff.mp opened
      exact List.not_mem_cons_of_ne_of_not_mem (Ne.symm flag) (flagless taken takenSoFar)

theorem frameContent_of_mem_laneFrames : ∀ c ∈ laneFrames bytes, FrameContent c :=
  frameContent_of_mem_framesFrom (by simp)

end

/-! ### The commands of a lane's bytes (R64, R205; log 40) -/

section

variable {content : List Byte} {received : Received} {k : LaneNo}

theorem classify_ne_nothing (d : List Byte) : classify d ≠ .nothing := by
  rw [classify]
  split
  · nofun
  · split <;> nofun

/-- Only two flags in a row bound no frame. -/
theorem receive_ne_nothing (held : content ≠ []) : receive content ≠ .nothing := by
  rw [receive, if_neg held]
  split
  · nofun
  · exact classify_ne_nothing _

/-- The command of a frame is well formed: a MALFORMED_FRAME holds no flag and is malformed. -/
theorem wellFormed_of_command (flagless : 0x7E#8 ∉ content) (judged : receive content = received) {i : Instr}
    (command : received.command k content = some i) : i.wellFormed = true := by
  cases received with
  | nothing => exact nomatch command
  | hello id seq => obtain rfl := Option.some.inj command; rfl
  | increment g => obtain rfl := Option.some.inj command; rfl
  | malformed =>
    obtain rfl := Option.some.inj command
    simp [Instr.wellFormed, flagless, judged]

/-- A partial function that has a value on every member of a list maps the list. -/
theorem filterMap_eq_map_of_forall {α β : Type} {f : α → Option β} {g : α → β} {items : List α}
    (defined : ∀ x ∈ items, f x = some (g x)) : items.filterMap f = items.map g := by
  induction items with
  | nil => rfl
  | cons x xs ih =>
    obtain ⟨first, rest⟩ := List.forall_mem_cons.mp defined
    rw [List.filterMap_cons_some first, ih rest, List.map_cons]

theorem wellFormed_of_mem_laneCommands {bytes : List Byte} : ∀ i ∈ laneCommands k bytes, i.wellFormed = true := by
  intro i sent
  obtain ⟨content, frame, command⟩ := List.mem_filterMap.mp sent
  obtain ⟨-, flagless⟩ := frameContent_of_mem_laneFrames content frame
  exact wellFormed_of_command flagless rfl command

end

/-- Settles O34: the five layouts, what the receiver makes of a frame sent, and the frames of a lane one by one. -/
theorem framesRoundTrip : Obligations.FramesRoundTrip := by
  refine ⟨fun f => ⟨f.content, le 2 (crc f.content).toNat, rfl, le_length _ _, at_crc _, ?layouts⟩,
    fun id seq => (receive_escape (decoded_ne_nil _)).trans (classify_hello id seq),
    fun g => (receive_escape (decoded_ne_nil _)).trans (classify_increment g),
    fun f => ⟨rfl, flag_notMem_escape f.decoded⟩,
    fun junk contents tail flaglessJunk flaglessContents flaglessTail =>
      laneFrames_contents flaglessJunk flaglessContents flaglessTail,
    fun k bytes => ⟨?commands, wellFormed_of_mem_laneCommands⟩⟩
  case layouts =>
    cases f with
    | hello id seq => exact hello_layout id seq
    | increment g => exact increment_layout g
    | boundary tag time => exact boundary_layout tag time
    | credit count => exact credit_layout count
    | resync => exact resync_layout
  case commands =>
    refine filterMap_eq_map_of_forall fun content frame => ?_
    obtain ⟨held, -⟩ := frameContent_of_mem_laneFrames content frame
    cases found : receive content with
    | nothing => exact absurd found (receive_ne_nothing held)
    | hello id seq => rfl
    | increment g => rfl
    | malformed => rfl

end Sys2Proof.Machine.LinkFrames
end

