-- ==== Sys2Proof/Proofs/CommandQueue.lean ====
section
/-! The queue of the waiting commands (log 1, log 32): a step takes its front, and every command completes and leaves the
queue behind it as it is, operation by operation. -/

namespace Sys2Proof.Machine.CommandQueue

open Sys2Proof Sys2Proof.Machine

/-! ### What the operations of the blocks leave -/

section

variable {s t u : State}

theorem pending_ite {c : Prop} [Decidable c] (yes : t.pending = s.pending) (no : u.pending = s.pending) :
    (if c then t else u).pending = s.pending := by
  split
  · exact yes
  · exact no

variable (s)

/-! #### The port and the lanes -/

theorem pending_transact (f : Port → Port) : (s.transact f).pending = s.pending := pending_ite rfl rfl

theorem pending_onLane (k : LaneNo) (f : Lane → Lane) : (s.onLane k f).pending = s.pending := pending_ite rfl rfl

theorem pending_laneOutcome (k : LaneNo) (outcome : Lane × Reception) :
    (s.laneOutcome k outcome).pending = s.pending := pending_ite rfl rfl

theorem pending_receiveIncrement (k : LaneNo) (f : IncrementFrame) :
    (s.receiveIncrement k f).pending = s.pending :=
  pending_ite (pending_laneOutcome s k _) (pending_laneOutcome s k _)

theorem pending_takeLaneBoundary : s.takeLaneBoundary.pending = s.pending := by
  rw [State.takeLaneBoundary]
  split
  · exact rfl
  · exact pending_ite rfl rfl

/-! #### The calendar's events (R50 to R58) -/

theorem pending_produceBoundary (time : Seconds) : (s.produceBoundary time).pending = s.pending :=
  s.produceGrace_pending

theorem pending_takeGrace : s.takeGrace.pending = s.pending := pending_ite s.produceGrace_pending rfl

theorem pending_takeMinute : s.takeMinute.pending = s.pending := pending_ite rfl rfl

theorem pending_takeBoundary : s.takeBoundary.pending = s.pending := by
  refine pending_ite ?_ rfl
  split
  · exact pending_produceBoundary s _
  · exact rfl

theorem pending_takeOwed : s.takeOwed.pending = s.pending := by
  rw [State.takeOwed, pending_takeBoundary, pending_takeMinute, pending_takeGrace]

theorem pending_reachMinute (before : Seconds) : (s.reachMinute before).pending = s.pending := pending_ite rfl rfl

theorem pending_reachBoundary (before : Seconds) : (s.reachBoundary before).pending = s.pending := by
  rw [State.reachBoundary]
  split
  · exact pending_ite (pending_produceBoundary s _) rfl
  · exact rfl

theorem pending_reachGrace : s.reachGrace.pending = s.pending := pending_ite s.produceGrace_pending rfl

/-- A trim takes the events owed, and a forward one those that it reaches. -/
theorem pending_trim (amount : Int) : (s.trim amount).pending = s.pending := by
  refine pending_ite ?_ (pending_takeOwed s)
  rw [pending_reachGrace, pending_reachBoundary, pending_reachMinute]
  exact pending_takeOwed s

/-! #### The engines -/

/-- Whatever an operation of the Interval Engine does. -/
theorem pending_of_intervalTurn (outcome : t = s ∨ ∃ l work, t = s.intervalTurn l work) : t.pending = s.pending := by
  rcases outcome with rfl | ⟨l, work, rfl⟩
  · rfl
  · exact s.intervalTurn_pending l work

theorem pending_settleStep : s.settleStep.pending = s.pending := pending_ite rfl (s.groupTurn_pending _ _)

theorem pending_sweepStep : s.sweepStep.pending = s.pending := by
  rw [State.sweepStep]
  split
  · exact rfl
  · exact rfl

theorem pending_restart : s.restart.pending = s.pending := by
  rw [State.restart, State.enterRun_pending, State.groupTurn_pending]

theorem pending_takeEntry : s.takeEntry.pending = s.pending := by
  rw [State.takeEntry]
  split
  · exact rfl
  · exact rfl

/-! #### The starts (R176, R184 to R188) -/

theorem pending_coldStart : s.coldStart.pending = s.pending := rfl

theorem pending_warmStart : s.warmStart.pending = s.pending := pending_ite rfl rfl

theorem pending_interruptedStart : s.interruptedStart.pending = s.pending := pending_ite rfl rfl

end

/-! ### What a request's own work leaves, where it changes more than the ledger -/

section

/-- Either of two works, each with its answer. -/
theorem pending_answered {c : Prop} [Decidable c] {s : State} {a b : State × Answer} (yes : a.1.pending = s.pending)
    (no : b.1.pending = s.pending) : (if c then a else b).1.pending = s.pending := by
  split
  · exact yes
  · exact no

variable (p : List Byte) (s : State)

theorem pending_setTime : (setTime p s).1.pending = s.pending := pending_answered rfl rfl

theorem pending_trimTime : (trimTime p s).1.pending = s.pending :=
  pending_answered rfl (pending_answered rfl (pending_answered rfl (pending_ite rfl (pending_trim s _))))

theorem pending_restoreLane : (restoreLane p s).1.pending = s.pending := by
  rw [restoreLane]
  split
  · exact rfl
  · exact pending_answered rfl rfl

theorem pending_setLane : (setLane p s).1.pending = s.pending := by
  rw [setLane]
  split
  · exact rfl
  · exact pending_answered rfl rfl

theorem pending_readLane : (readLane p s).1.pending = s.pending := by
  rw [readLane]
  split
  · exact rfl
  · exact rfl

theorem pending_holdAccumulation : (holdAccumulation p s).1.pending = s.pending := pending_answered rfl rfl

theorem pending_releaseAccumulation : (releaseAccumulation p s).1.pending = s.pending := pending_answered rfl rfl

theorem pending_verifyStore : (verifyStore p s).1.pending = s.pending := pending_answered rfl rfl

/-- The accounts of a run that starts are written in the ledger, and the mode and the lanes are those of RUN. -/
theorem pending_startRun : (startRun p s).1.pending = s.pending := by
  simp only [startRun]
  refine pending_answered rfl ?_
  rw [State.enterRun_pending, State.withLedger_pending]

theorem pending_stopRun : (stopRun p s).1.pending = s.pending := pending_answered rfl rfl

theorem pending_setRunParameters : (setRunParameters p s).1.pending = s.pending :=
  pending_answered rfl (pending_answered rfl rfl)

theorem pending_setAttentionMask : (setAttentionMask p s).1.pending = s.pending := by
  rw [setAttentionMask]
  split
  · exact rfl
  · exact rfl

theorem pending_ackAttention : (ackAttention p s).1.pending = s.pending := by
  rw [ackAttention]
  split
  · exact rfl
  · exact rfl

end

/-! ### Every command -/

/-- In every state the command has a next state, with the queue as it was. -/
def CompletesAndKeeps (c : Instr) : Prop := ∀ s, ∃ t, exec c s = .next t ∧ t.pending = s.pending

section

variable {c : Instr} {k : RequestCode} {own : List Byte → State → State × Answer}

theorem CompletesAndKeeps.of_eq {f : State → State} (runs : ∀ s, exec c s = .next (f s))
    (keeps : ∀ s, (f s).pending = s.pending) : CompletesAndKeeps c :=
  fun s => ⟨f s, runs s, keeps s⟩

/-- The operation of an engine, carried out in its turn alone. -/
theorem CompletesAndKeeps.of_turn {turn : State → Bool} {f : State → State}
    (runs : ∀ s, exec c s = .next (if turn s then f s else s)) (keeps : ∀ s, (f s).pending = s.pending) :
    CompletesAndKeeps c :=
  .of_eq runs fun s => pending_ite (keeps s) rfl

/-- A request that is answered whoever waits: its answer changes the port alone. -/
theorem CompletesAndKeeps.of_request (runs : ∀ s, exec c s = .next (runRequest k own s))
    (work : ∀ p s, (own p s).1.pending = s.pending) : CompletesAndKeeps c :=
  .of_eq runs fun s => runRequest_keeps (·.pending = s.pending) rfl (fun _ _ kept => kept) fun p _ => work p s

/-- A request that may ask for an operation: a grant changes the arbiter alone. -/
theorem CompletesAndKeeps.of_operation {asks : List Byte → State → Bool}
    (runs : ∀ s, exec c s = .next (runOperation k asks own s)) (work : ∀ p s, (own p s).1.pending = s.pending) :
    CompletesAndKeeps c :=
  .of_eq runs fun s =>
    runOperation_keeps (·.pending = s.pending) rfl (fun kept => kept) (fun _ _ kept => kept)
      fun p t kept => (work p t).trans kept

/-- A request whose work is one operation on the ledger: the ledger holds no queue. -/
theorem CompletesAndKeeps.of_record {work : List Byte → Calendar → Mode → Ledger → Ledger × Answer}
    (runs : ∀ s, exec c s = .next (runRecordRequest k work s)) : CompletesAndKeeps c :=
  .of_operation runs fun _ s => s.withLedger_pending _

end

theorem completesAndKeeps_deviceStart (cutShort : Bool) : CompletesAndKeeps (.deviceStart cutShort) :=
  .of_eq (fun _ => rfl) fun s =>
    pending_ite (pending_interruptedStart s) (pending_ite (pending_warmStart s) (pending_coldStart s))

/-- The transactions, the requests by what their work changes, the lanes, the calendar, the engines and the supplies. -/
theorem completesAndKeeps (c : Instr) : CompletesAndKeeps c := by
  cases c with
  | writeRequest | execute | readStatus | readResponse | unknownTransaction =>
    exact .of_eq (fun _ => rfl) fun s => pending_transact s _
  | openAccount | amendAccount | suspendAccount | resumeAccount | retireAccount | findAccount | readAccount
  | listAccounts | writeTariff | deleteTariff | readTariff | defineIntake | assignIntake | unassignIntake | readIntake
  | collectHeld | readDemand | closeNow | changeTariff | releaseSettlement | repairAccount | discardAccount
  | repairIntake => exact .of_record fun _ => rfl
  | setTime => exact .of_request (fun _ => rfl) pending_setTime
  | trimTime => exact .of_request (fun _ => rfl) pending_trimTime
  | readTime => exact .of_request (fun _ => rfl) fun _ _ => rfl
  | restoreLane => exact .of_request (fun _ => rfl) pending_restoreLane
  | setLane => exact .of_request (fun _ => rfl) pending_setLane
  | readLane => exact .of_request (fun _ => rfl) pending_readLane
  | holdAccumulation => exact .of_request (fun _ => rfl) pending_holdAccumulation
  | releaseAccumulation => exact .of_request (fun _ => rfl) pending_releaseAccumulation
  | verifyStore => exact .of_request (fun _ => rfl) pending_verifyStore
  | setAttentionMask => exact .of_request (fun _ => rfl) pending_setAttentionMask
  | ackAttention => exact .of_request (fun _ => rfl) pending_ackAttention
  | startRun => exact .of_operation (fun _ => rfl) pending_startRun
  | stopRun => exact .of_operation (fun _ => rfl) pending_stopRun
  | setRunParameters => exact .of_operation (fun _ => rfl) pending_setRunParameters
  | readPartStatus => exact .of_operation (fun _ => rfl) fun _ _ => rfl
  | hello k | transmitFrame k => exact .of_eq (fun _ => rfl) fun s => pending_onLane s k _
  | increment k frame => exact .of_eq (fun _ => rfl) fun s => pending_ite rfl (pending_receiveIncrement s k frame)
  | malformedFrame k | resyncTimerExpiry k =>
    exact .of_eq (fun _ => rfl) fun s => pending_ite rfl (pending_laneOutcome s k _)
  | carrierLoss => exact .of_eq (fun _ => rfl) fun s => pending_ite rfl (pending_ite rfl rfl)
  | carrierAppear k => exact .of_eq (fun _ => rfl) fun s => s.putLane_pending k _
  | laneBoundary => exact .of_eq (fun _ => rfl) fun s => pending_ite rfl (pending_takeLaneBoundary s)
  | minuteEvent => exact .of_eq (fun _ => rfl) fun s => pending_ite rfl (pending_takeMinute s)
  | boundaryEvent => exact .of_eq (fun _ => rfl) fun s => pending_ite rfl (pending_takeBoundary s)
  | graceExpiry => exact .of_eq (fun _ => rfl) fun s => pending_ite rfl (pending_takeGrace s)
  | bandNotifyCheck =>
    exact .of_turn (fun _ => rfl) fun s => pending_of_intervalTurn s (Arbitration.notifyStep_cases s)
  | boundaryAgeing => exact .of_turn (fun _ => rfl) fun s => pending_of_intervalTurn s (Arbitration.ageStep_cases s)
  | fold => exact .of_turn (fun _ => rfl) fun s => pending_of_intervalTurn s (Arbitration.foldStep_cases s)
  | accountVisit => exact .of_turn (fun _ => rfl) fun s => pending_of_intervalTurn s (Arbitration.visitStep_cases s)
  | slotClosure => exact .of_turn (fun _ => rfl) fun s => pending_of_intervalTurn s (Arbitration.closureStep_cases s)
  | placeEntry => exact .of_turn (fun _ => rfl) pending_takeEntry
  | settlementExamination => exact .of_turn (fun _ => rfl) pending_settleStep
  | sweepVerify => exact .of_turn (fun _ => rfl) pending_sweepStep
  | restartCatchUp => exact .of_turn (fun _ => rfl) pending_restart
  | powerLoss | resetAssert | vbakDip => exact .of_eq (fun _ => rfl) fun _ => rfl
  | deviceStart cutShort => exact completesAndKeeps_deviceStart cutShort
  | passageOfASecond =>
    exact .of_eq (fun _ => rfl) fun s =>
      pending_ite (s.tick_pending false) ((State.tick_pending _ true).trans (pending_takeOwed s))

/-- Settles O2, command by command: no operation that a command is made of changes the queue. -/
theorem everyCommandCompletesAndKeepsTheQueue : Obligations.EveryCommandCompletesAndKeepsTheQueue := completesAndKeeps

/-- Settles O1, by the branch of `step` for a queue with a front. -/
theorem stepRunsFrontCommand : Obligations.StepRunsFrontCommand := by
  intro c rest s front
  rw [step, front]

end Sys2Proof.Machine.CommandQueue
end

section
/-! What a command can do with the ledger: one inversion lemma over all commands, from which every invariant of the records
and of the Settlement Engine's list is derived. -/

namespace Sys2Proof.Machine.LedgerSteps

open Sys2Proof Sys2Proof.Machine

/-! ### The ledger's steps -/

/-- The work on the ledger of the requests that ask for a record store operation; the other requests do none. -/
def ledgerWork : RequestCode → List Byte → Calendar → Mode → Ledger → Ledger × Answer
  | .openAccount => openAccount | .amendAccount => amendAccount | .suspendAccount => suspendAccount
  | .resumeAccount => resumeAccount | .retireAccount => retireAccount | .findAccount => findAccount
  | .readAccount => readAccount | .listAccounts => listAccounts | .writeTariff => writeTariff
  | .deleteTariff => deleteTariff | .readTariff => readTariff | .defineIntake => defineIntake
  | .assignIntake => assignIntake | .unassignIntake => unassignIntake | .readIntake => readIntake
  | .collectHeld => collectHeld | .readDemand => readDemand | .closeNow => closeNow | .changeTariff => changeTariff
  | .releaseSettlement => releaseSettlement | .repairAccount => repairAccount | .discardAccount => discardAccount
  | .repairIntake => repairIntake
  | _ => fun _ _ _ l => (l, okDone)

/-- Everything that a command can do with the ledger `l`. -/
inductive LedgerStep (l : Ledger) : Ledger → Prop
  | kept : LedgerStep l l
  | alerted {m : Ledger} (attention : BitVec 12) : LedgerStep l m → LedgerStep l { m with attention := attention }
  | requested (k : RequestCode) (p : List Byte) (c : Calendar) (mode : Mode) : LedgerStep l (ledgerWork k p c mode l).1
  | started (t : Seconds) : LedgerStep l (eachOf allSlots (startAccount t) l)
  | aged (c : Calendar) : LedgerStep l (ageOwners c 0 l)
  | folded (i : IntakeNo) : LedgerStep l (foldChange i l)
  | visited (c : Calendar) (tag : Tag) (t : Seconds) (i : Slot) : LedgerStep l (visitAccount c tag t i l)
  | closed (c : Calendar) (i : Slot) : LedgerStep l (closeSlot .ordinary c i l)
  | notified (t : Seconds) : LedgerStep l (bandNotify t l)
  | placed (c : Calendar) (mode : Mode) (e : QueueEntry) : LedgerStep l (placeEntry c mode e l).ledger
  | settled (t : Seconds) : LedgerStep l (settleNext t l)
  | swept (p : SweepPosition) : LedgerStep l (p.check l)
  | caughtUp (c : Calendar) : LedgerStep l (catchUp c l)
  | warm : LedgerStep l l.warm
  | cold : LedgerStep l Ledger.cold

namespace LedgerStep

variable {l m : Ledger}

/-- A source raised, or not, is a change of the attention set. -/
theorem raise (x : AttentionSource) (step : LedgerStep l m) : LedgerStep l (m.raise x) := step.alerted _

theorem raiseIf (c : Bool) (x : AttentionSource) (step : LedgerStep l m) : LedgerStep l (m.raiseIf c x) := by
  cases c with
  | false => exact step
  | true => exact step.raise x

theorem of_eq (same : m = l) : LedgerStep l m := same ▸ .kept

end LedgerStep

/-- From `s` to `t` the ledger takes one of its steps. -/
def Steps (s t : State) : Prop := LedgerStep s.ledger t.ledger

/-- At most the attention set changes from one ledger to the other. -/
def Alerts (l m : Ledger) : Prop := ∃ attention, m = { l with attention := attention }

section

variable {s t u : State} {l m n : Ledger}

theorem Alerts.refl (l : Ledger) : Alerts l l := ⟨l.attention, rfl⟩

theorem Alerts.of_eq (same : m = l) : Alerts l m := same ▸ .refl l

theorem Alerts.raise (x : AttentionSource) (l : Ledger) : Alerts l (l.raise x) := ⟨_, rfl⟩

theorem Alerts.raiseIf (c : Bool) (x : AttentionSource) (l : Ledger) : Alerts l (l.raiseIf c x) := by
  cases c with
  | false => exact .refl l
  | true => exact .raise x l

theorem Alerts.trans (first : Alerts l m) (second : Alerts m n) : Alerts l n := by
  obtain ⟨_, rfl⟩ := first
  obtain ⟨_, rfl⟩ := second
  exact ⟨_, rfl⟩

theorem Alerts.step (alerts : Alerts l m) : LedgerStep l m := by
  obtain ⟨_, rfl⟩ := alerts
  exact LedgerStep.kept.alerted _

theorem Steps.of_eq (same : t.ledger = s.ledger) : Steps s t := LedgerStep.of_eq same

theorem Steps.ite {c : Prop} [Decidable c] (yes : Steps s t) (no : Steps s u) : Steps s (if c then t else u) := by
  split
  · exact yes
  · exact no

end

/-! ### Commands outside the record store -/

section

variable (s : State)

theorem alerts_ite {c : Prop} [Decidable c] {s t u : State} (yes : Alerts s.ledger t.ledger)
    (no : Alerts s.ledger u.ledger) : Alerts s.ledger (if c then t else u).ledger := by
  split
  · exact yes
  · exact no

theorem alerts_laneOutcome (k : LaneNo) (outcome : Lane × Reception) :
    Alerts s.ledger (s.laneOutcome k outcome).ledger := by
  refine alerts_ite ?_ (.of_eq rfl)
  exact .raise .laneIsolated s.ledger

theorem alerts_receiveIncrement (k : LaneNo) (f : IncrementFrame) :
    Alerts s.ledger (s.receiveIncrement k f).ledger :=
  alerts_ite (alerts_laneOutcome s k _) (alerts_laneOutcome s k _)

theorem ledger_takeLaneBoundary : s.takeLaneBoundary.ledger = s.ledger := by
  rw [State.takeLaneBoundary]
  split
  · rfl
  · dsimp only
    split <;> rfl

/-- A boundary event raises at most BOUNDARY_COUNT (R54). -/
theorem alerts_produceBoundary (t : Seconds) : Alerts s.ledger (s.produceBoundary t).ledger :=
  Alerts.trans (.of_eq s.produceGrace_ledger) (.raiseIf _ .boundaryCount _)

theorem alerts_takeGrace : Alerts s.ledger s.takeGrace.ledger := alerts_ite (.of_eq s.produceGrace_ledger) (.refl _)

theorem alerts_takeMinute : Alerts s.ledger s.takeMinute.ledger := alerts_ite (.refl _) (.refl _)

theorem alerts_takeBoundary : Alerts s.ledger s.takeBoundary.ledger := by
  refine alerts_ite ?_ (.refl _)
  split
  · exact alerts_produceBoundary s _
  · exact .refl _

theorem alerts_takeOwed : Alerts s.ledger s.takeOwed.ledger :=
  ((alerts_takeGrace s).trans (alerts_takeMinute _)).trans (alerts_takeBoundary _)

theorem alerts_reachBoundary (before : Seconds) : Alerts s.ledger (s.reachBoundary before).ledger := by
  rw [State.reachBoundary]
  split
  · exact alerts_ite (alerts_produceBoundary s _) (.refl _)
  · exact .refl _

theorem alerts_reachMinute (before : Seconds) : Alerts s.ledger (s.reachMinute before).ledger :=
  alerts_ite (.refl _) (.refl _)

theorem alerts_reachGrace : Alerts s.ledger s.reachGrace.ledger :=
  alerts_ite (.of_eq s.produceGrace_ledger) (.refl _)

theorem alerts_trim (amount : Int) : Alerts s.ledger (s.trim amount).ledger := by
  have moved : Alerts s.ledger { s.takeOwed with calendar := s.takeOwed.calendar.moved amount }.ledger :=
    alerts_takeOwed s
  exact alerts_ite
    (((moved.trans (alerts_reachMinute _ _)).trans (alerts_reachBoundary _ _)).trans (alerts_reachGrace _)) moved

end

/-! ### Requests -/

/-- The ledger after the work of a request that touches no record. -/
def LeavesRecords (own : List Byte → State → State × Answer) : Prop := ∀ p s, Alerts s.ledger (own p s).1.ledger

section

variable {k : RequestCode} {s : State}

/-- Carrying out a request answers, and does its own work at most once. -/
theorem steps_runRequest {own : List Byte → State → State × Answer} (work : ∀ p, Steps s (own p s).1) :
    Steps s (runRequest k own s) := by
  rcases runRequest_cases k own s with same | ⟨a, answered⟩ | ⟨p, ran⟩
  · rw [same]; exact .of_eq rfl
  · rw [answered]; exact .of_eq rfl
  · rw [ran]; exact work p

/-- A grant changes the arbiter alone. -/
theorem steps_runOperation {asks : List Byte → State → Bool} {own : List Byte → State → State × Answer}
    (work : ∀ p t, Steps t (own p t).1) : Steps s (runOperation k asks own s) := by
  rcases runOperation_cases k asks own s with same | unasked | granted
  · rw [same]; exact .of_eq rfl
  · rw [unasked]; exact steps_runRequest fun p => work p s
  · rw [granted]; exact steps_runRequest (s := s.requestGrant) fun p => work p s.requestGrant

theorem steps_runRecordRequest (j : RequestCode) : Steps s (runRecordRequest k (ledgerWork j) s) :=
  steps_runOperation fun p t => .requested j p t.calendar t.mode

end

theorem leaves_setTime : LeavesRecords setTime := by
  intro p s
  simp only [setTime]
  split <;> exact .refl _

theorem leaves_trimTime : LeavesRecords trimTime := by
  intro p s
  simp only [trimTime]
  split
  · exact .refl _
  · split
    · exact .refl _
    · split
      · exact .refl _
      · exact alerts_ite (.refl _) (alerts_trim s _)

theorem leaves_restoreLane : LeavesRecords restoreLane := by
  intro p s
  rw [restoreLane]
  split
  · exact .refl _
  · dsimp only
    split <;> exact .refl _

theorem leaves_setLane : LeavesRecords setLane := by
  intro p s
  rw [setLane]
  split
  · exact .refl _
  · split <;> exact .refl _

theorem leaves_readLane : LeavesRecords readLane := by
  intro p s
  rw [readLane]
  split <;> exact .refl _

theorem leaves_holdAccumulation : LeavesRecords holdAccumulation := by
  intro p s
  rw [holdAccumulation]
  split <;> exact .refl _

theorem leaves_releaseAccumulation : LeavesRecords releaseAccumulation := by
  intro p s
  rw [releaseAccumulation]
  split <;> exact .refl _

theorem leaves_verifyStore : LeavesRecords verifyStore := by
  intro p s
  rw [verifyStore]
  split <;> exact .refl _

theorem leaves_stopRun : LeavesRecords stopRun := by
  intro p s
  rw [stopRun]
  split <;> exact .refl _

theorem leaves_setRunParameters : LeavesRecords setRunParameters := by
  intro p s
  simp only [setRunParameters]
  split
  · exact .refl _
  · split <;> exact .refl _

theorem leaves_setAttentionMask : LeavesRecords setAttentionMask := by
  intro p s
  rw [setAttentionMask]
  split <;> exact .refl _

theorem leaves_ackAttention : LeavesRecords ackAttention := by
  intro p s
  rw [ackAttention]
  split
  · exact .refl _
  · exact ⟨_, rfl⟩

theorem steps_startRun (p : List Byte) (s : State) : Steps s (startRun p s).1 := by
  simp only [startRun]
  split
  · exact .of_eq rfl
  · simp only [Steps, State.enterRun_ledger, State.withLedger_ledger]
    exact .started s.calendar.time

/-! ### The engines -/

section

variable (s : State)

/-- A turn of the Interval Engine leaves the ledger that its operation left. -/
theorem steps_intervalTurn {l : Ledger} (work : List WorkItem) (step : LedgerStep s.ledger l) :
    Steps s (s.intervalTurn l work) := step

theorem steps_ageStep : Steps s s.ageStep := by
  rw [State.ageStep]
  split
  · exact steps_intervalTurn s _ (.aged s.calendar)
  · exact .of_eq rfl

theorem steps_foldStep : Steps s s.foldStep := by
  rw [State.foldStep]
  split
  · split
    · exact steps_intervalTurn s _ (.folded _)
    · exact .of_eq rfl
  · exact .of_eq rfl

theorem steps_visitStep : Steps s s.visitStep := by
  rw [State.visitStep]
  split
  · split
    · exact steps_intervalTurn s _ (.visited _ _ _ _)
    · exact .of_eq rfl
  · exact .of_eq rfl

theorem steps_closeIfHolding (c : Calendar) (tag : Tag) (i : Slot) (l : Ledger) :
    LedgerStep l (closeIfHolding c tag i l) := by
  simp only [closeIfHolding]
  split
  · exact .closed c i
  · exact .kept

theorem steps_closureStep : Steps s s.closureStep := by
  rw [State.closureStep]
  split
  · split
    · exact steps_intervalTurn s _ (.closed _ _)
    · exact .of_eq rfl
  · exact steps_intervalTurn s _ (steps_closeIfHolding _ _ _ _)
  · exact .of_eq rfl

theorem steps_notifyStep : Steps s s.notifyStep := by
  rw [State.notifyStep]
  split
  · next time rest _ =>
    by_cases run : s.mode = .run
    · rw [if_pos run]; exact steps_intervalTurn s _ (.notified time)
    · rw [if_neg run]; exact .of_eq rfl
  · exact .of_eq rfl

theorem steps_settleStep : Steps s s.settleStep := .ite (.of_eq rfl) (.settled s.calendar.time)

theorem steps_sweepStep : Steps s s.sweepStep := by
  rw [State.sweepStep]
  split
  · exact .of_eq rfl
  · next p _ => exact (LedgerStep.swept p).raiseIf _ _

theorem steps_restart : Steps s s.restart := (LedgerStep.caughtUp s.calendar).raise .restartDone

theorem steps_takeEntry : Steps s s.takeEntry := by
  rw [State.takeEntry]
  split
  · exact .of_eq rfl
  · next e rest _ => exact LedgerStep.placed s.calendar s.mode e

theorem steps_deviceStart (cutShort : Bool) :
    Steps s (if cutShort then s.interruptedStart else if s.storeValid then s.warmStart else s.coldStart) := by
  have interrupted : Steps s s.interruptedStart := .ite (.of_eq rfl) (.of_eq rfl)
  have restarted : Steps s s.warmStart := by
    simp only [State.warmStart]
    split
    · exact LedgerStep.warm.raise .restartDone
    · exact .warm
  exact .ite interrupted (.ite restarted .cold)

end

/-! ### Every command -/

/-- Every step that a command takes is a step of the ledger. -/
def StepsLedger (c : Instr) : Prop := ∀ s t, exec c s = .next t → Steps s t

section

variable {c : Instr} {k : RequestCode}

theorem StepsLedger.of_steps {f : State → State} (runs : ∀ s, exec c s = .next (f s)) (steps : ∀ s, Steps s (f s)) :
    StepsLedger c := by
  intro s t stepped
  rw [runs s] at stepped
  exact Host.Outcome.next.inj stepped ▸ steps s

theorem StepsLedger.of_alerts {f : State → State} (runs : ∀ s, exec c s = .next (f s))
    (alerts : ∀ s, Alerts s.ledger (f s).ledger) : StepsLedger c := .of_steps runs fun s => (alerts s).step

theorem StepsLedger.of_request {own : List Byte → State → State × Answer}
    (runs : ∀ s, exec c s = .next (runRequest k own s)) (leaves : LeavesRecords own) : StepsLedger c :=
  .of_steps runs fun s => steps_runRequest fun p => (leaves p s).step

theorem StepsLedger.of_operation {asks : List Byte → State → Bool} {own : List Byte → State → State × Answer}
    (runs : ∀ s, exec c s = .next (runOperation k asks own s)) (leaves : LeavesRecords own) : StepsLedger c :=
  .of_steps runs fun _ => steps_runOperation fun p t => (leaves p t).step

theorem StepsLedger.of_record (j : RequestCode) (runs : ∀ s, exec c s = .next (runRecordRequest k (ledgerWork j) s)) :
    StepsLedger c := .of_steps runs fun _ => steps_runRecordRequest j

/-- The operation of an engine, carried out in its turn alone. -/
theorem StepsLedger.of_turn {turn : State → Bool} {f : State → State}
    (runs : ∀ s, exec c s = .next (if turn s then f s else s)) (steps : ∀ s, Steps s (f s)) : StepsLedger c :=
  .of_steps runs fun s => .ite (steps s) (.of_eq rfl)

end

/-- The transactions, the requests by what their work changes, the lanes, the calendar, the engines and the supplies. -/
theorem stepsLedger (c : Instr) : StepsLedger c := by
  cases c with
  | writeRequest | execute | readStatus | readResponse | unknownTransaction =>
    exact .of_alerts (fun _ => rfl) fun s => alerts_ite (.refl _) (.refl _)
  | openAccount => exact .of_record .openAccount fun _ => rfl
  | amendAccount => exact .of_record .amendAccount fun _ => rfl
  | suspendAccount => exact .of_record .suspendAccount fun _ => rfl
  | resumeAccount => exact .of_record .resumeAccount fun _ => rfl
  | retireAccount => exact .of_record .retireAccount fun _ => rfl
  | findAccount => exact .of_record .findAccount fun _ => rfl
  | readAccount => exact .of_record .readAccount fun _ => rfl
  | listAccounts => exact .of_record .listAccounts fun _ => rfl
  | writeTariff => exact .of_record .writeTariff fun _ => rfl
  | deleteTariff => exact .of_record .deleteTariff fun _ => rfl
  | readTariff => exact .of_record .readTariff fun _ => rfl
  | defineIntake => exact .of_record .defineIntake fun _ => rfl
  | assignIntake => exact .of_record .assignIntake fun _ => rfl
  | unassignIntake => exact .of_record .unassignIntake fun _ => rfl
  | readIntake => exact .of_record .readIntake fun _ => rfl
  | collectHeld => exact .of_record .collectHeld fun _ => rfl
  | readDemand => exact .of_record .readDemand fun _ => rfl
  | closeNow => exact .of_record .closeNow fun _ => rfl
  | changeTariff => exact .of_record .changeTariff fun _ => rfl
  | releaseSettlement => exact .of_record .releaseSettlement fun _ => rfl
  | repairAccount => exact .of_record .repairAccount fun _ => rfl
  | discardAccount => exact .of_record .discardAccount fun _ => rfl
  | repairIntake => exact .of_record .repairIntake fun _ => rfl
  | setTime => exact .of_request (fun _ => rfl) leaves_setTime
  | trimTime => exact .of_request (fun _ => rfl) leaves_trimTime
  | readTime => exact .of_request (fun _ => rfl) fun _ s => .refl s.ledger
  | restoreLane => exact .of_request (fun _ => rfl) leaves_restoreLane
  | setLane => exact .of_request (fun _ => rfl) leaves_setLane
  | readLane => exact .of_request (fun _ => rfl) leaves_readLane
  | holdAccumulation => exact .of_request (fun _ => rfl) leaves_holdAccumulation
  | releaseAccumulation => exact .of_request (fun _ => rfl) leaves_releaseAccumulation
  | verifyStore => exact .of_request (fun _ => rfl) leaves_verifyStore
  | setAttentionMask => exact .of_request (fun _ => rfl) leaves_setAttentionMask
  | ackAttention => exact .of_request (fun _ => rfl) leaves_ackAttention
  | startRun => exact .of_steps (fun _ => rfl) fun _ => steps_runOperation steps_startRun
  | stopRun => exact .of_operation (fun _ => rfl) leaves_stopRun
  | setRunParameters => exact .of_operation (fun _ => rfl) leaves_setRunParameters
  | readPartStatus => exact .of_operation (fun _ => rfl) fun _ s => .refl s.ledger
  | hello | transmitFrame => exact .of_alerts (fun _ => rfl) fun s => alerts_ite (.refl _) (.refl _)
  | increment k frame => exact .of_alerts (fun _ => rfl) fun s => alerts_ite (.refl _) (alerts_receiveIncrement s k frame)
  | malformedFrame k | resyncTimerExpiry k =>
    exact .of_alerts (fun _ => rfl) fun s => alerts_ite (.refl _) (alerts_laneOutcome s k _)
  | carrierLoss =>
    exact .of_alerts (fun _ => rfl) fun s =>
      alerts_ite (.refl _) (alerts_ite (.refl _) (.raise .laneDown s.ledger))
  | carrierAppear => exact .of_alerts (fun _ => rfl) fun s => .refl _
  | laneBoundary =>
    exact .of_alerts (fun _ => rfl) fun s => alerts_ite (.refl _) (.of_eq (ledger_takeLaneBoundary s))
  | minuteEvent => exact .of_alerts (fun _ => rfl) fun s => alerts_ite (.refl _) (alerts_takeMinute s)
  | boundaryEvent => exact .of_alerts (fun _ => rfl) fun s => alerts_ite (.refl _) (alerts_takeBoundary s)
  | graceExpiry => exact .of_alerts (fun _ => rfl) fun s => alerts_ite (.refl _) (alerts_takeGrace s)
  | bandNotifyCheck => exact .of_turn (fun _ => rfl) steps_notifyStep
  | boundaryAgeing => exact .of_turn (fun _ => rfl) steps_ageStep
  | fold => exact .of_turn (fun _ => rfl) steps_foldStep
  | accountVisit => exact .of_turn (fun _ => rfl) steps_visitStep
  | slotClosure => exact .of_turn (fun _ => rfl) steps_closureStep
  | placeEntry => exact .of_turn (fun _ => rfl) steps_takeEntry
  | settlementExamination => exact .of_turn (fun _ => rfl) steps_settleStep
  | sweepVerify => exact .of_turn (fun _ => rfl) steps_sweepStep
  | restartCatchUp => exact .of_turn (fun _ => rfl) steps_restart
  | powerLoss | resetAssert | vbakDip => exact .of_alerts (fun _ => rfl) fun s => .refl s.ledger
  | deviceStart cutShort => exact .of_steps (fun _ => rfl) fun s => steps_deviceStart s cutShort
  | passageOfASecond =>
    exact .of_alerts (fun _ => rfl) fun s => alerts_ite (.refl _) (alerts_takeOwed s)

/-- A step of the device is a step of its ledger. -/
theorem ledgerStep_of_step {s t : State} (stepped : step s = .next t) : LedgerStep s.ledger t.ledger := by
  rw [step] at stepped
  split at stepped
  · exact .of_eq (congrArg State.ledger (Host.Outcome.next.inj stepped).symm)
  · next c rest _ => exact stepsLedger c { s with pending := rest } t stepped

end Sys2Proof.Machine.LedgerSteps
end

section
/-! What the operations do to the records, one record at a time. An operation is quiet when it keeps every account's number,
members and tariff and every intake's owner and pending change, and at most marks a tariff; the other operations are named
or sealing, which is less. -/

namespace Sys2Proof.Machine.RecordEdits

open Sys2Proof Sys2Proof.Machine Sys2Proof.Machine.PeriodSettlement

/-! ### One record before and after -/

/-- An account that is marked, carries its check word, or was not written (R164). -/
def ResealedAccount (a b : Account) : Prop := b = a ∨ b.faultMark = true ∨ b.checks = true

/-- The same for an intake: the check word is that of its content. -/
def ResealedIntake (x y : Intake) : Prop := y = x ∨ y.faultMark = true ∨ crc y.image = y.checkWord

/-- An account keeps its number while it is not FREE, and a FREE one stays FREE. -/
def SameNumber (a b : Account) : Prop := b.state ≠ .free → a.state ≠ .free ∧ b.number = a.number

/-- An account that is not marked was not, and keeps what ownership rests on; an account that does not bill may lose its
members. -/
def SameTerms (a b : Account) : Prop :=
  b.faultMark = false →
    a.faultMark = false ∧ b.bills = a.bills ∧ (b.members = a.members ∨ a.bills = false ∧ b.members = []) ∧
      (b.phase ≠ .free → a.phase ≠ .free ∧ b.tariff = a.tariff)

/-- An intake that is not marked was not, and keeps its owner and its pending change. -/
def SameOwner (x y : Intake) : Prop :=
  y.faultMark = false → x.faultMark = false ∧ y.phase = x.phase ∧ y.owner = x.owner ∧ y.change = x.change

structure QuietAccount (a b : Account) : Prop where
  resealed : ResealedAccount a b
  number : SameNumber a b
  terms : SameTerms a b

structure NamedAccount (a b : Account) : Prop where
  resealed : ResealedAccount a b
  number : SameNumber a b

structure QuietIntake (x y : Intake) : Prop where
  resealed : ResealedIntake x y
  owner : SameOwner x y

section

variable {a b c : Account} {x y z : Intake}

theorem ResealedAccount.trans (first : ResealedAccount a b) (second : ResealedAccount b c) : ResealedAccount a c := by
  rcases second with rfl | written
  · exact first
  · exact .inr written

theorem ResealedIntake.trans (first : ResealedIntake x y) (second : ResealedIntake y z) : ResealedIntake x z := by
  rcases second with rfl | written
  · exact first
  · exact .inr written

theorem SameNumber.trans (first : SameNumber a b) (second : SameNumber b c) : SameNumber a c := by
  intro notFree
  obtain ⟨between, number⟩ := second notFree
  obtain ⟨before, number'⟩ := first between
  exact ⟨before, number.trans number'⟩

theorem SameTerms.trans (first : SameTerms a b) (second : SameTerms b c) : SameTerms a c := by
  intro unmarked
  obtain ⟨unmarked', bills, members, terms⟩ := second unmarked
  obtain ⟨unmarked'', bills', members', terms'⟩ := first unmarked'
  refine ⟨unmarked'', bills.trans bills', ?_, fun notFree => ?_⟩
  · rcases members with same | ⟨idle, none⟩
    · rw [same]
      exact members'
    · exact .inr ⟨bills' ▸ idle, none⟩
  · obtain ⟨between, tariff⟩ := terms notFree
    obtain ⟨before, tariff'⟩ := terms' between
    exact ⟨before, tariff.trans tariff'⟩

theorem SameOwner.trans (first : SameOwner x y) (second : SameOwner y z) : SameOwner x z := by
  intro unmarked
  obtain ⟨unmarked', phase, owner, change⟩ := second unmarked
  obtain ⟨unmarked'', phase', owner', change'⟩ := first unmarked'
  exact ⟨unmarked'', phase.trans phase', owner.trans owner', change.trans change'⟩

theorem SameNumber.refl (a : Account) : SameNumber a a := fun notFree => ⟨notFree, rfl⟩

theorem SameTerms.refl (a : Account) : SameTerms a a :=
  fun unmarked => ⟨unmarked, rfl, .inl rfl, fun notFree => ⟨notFree, rfl⟩⟩

theorem QuietAccount.refl (a : Account) : QuietAccount a a := ⟨.inl rfl, .refl a, .refl a⟩

theorem QuietAccount.trans (first : QuietAccount a b) (second : QuietAccount b c) : QuietAccount a c :=
  ⟨first.resealed.trans second.resealed, first.number.trans second.number, first.terms.trans second.terms⟩

theorem QuietAccount.named (quiet : QuietAccount a b) : NamedAccount a b := ⟨quiet.resealed, quiet.number⟩

theorem NamedAccount.trans (first : NamedAccount a b) (second : NamedAccount b c) : NamedAccount a c :=
  ⟨first.resealed.trans second.resealed, first.number.trans second.number⟩

theorem QuietIntake.refl (x : Intake) : QuietIntake x x := ⟨.inl rfl, fun unmarked => ⟨unmarked, rfl, rfl, rfl⟩⟩

theorem QuietIntake.trans (first : QuietIntake x y) (second : QuietIntake y z) : QuietIntake x z :=
  ⟨first.resealed.trans second.resealed, first.owner.trans second.owner⟩

/-- A write of an account that keeps its number, its mark and its phase keeps its number. -/
theorem SameNumber.of_phase (number : b.number = a.number) (mark : b.faultMark = a.faultMark)
    (phase : b.phase = a.phase) : SameNumber a b := by
  intro notFree
  rw [Account.state, mark, phase] at notFree
  exact ⟨notFree, number⟩

/-- A write that keeps its mark, its phase, its members and its tariff keeps what ownership rests on. -/
theorem SameTerms.of_phase (mark : b.faultMark = a.faultMark) (phase : b.phase = a.phase)
    (members : b.members = a.members) (tariff : b.tariff = a.tariff) : SameTerms a b := by
  intro unmarked
  have bills : b.bills = a.bills := by rw [Account.bills, Account.bills, Account.state, Account.state, mark, phase]
  exact ⟨mark ▸ unmarked, bills, .inl members, fun notFree => ⟨phase ▸ notFree, tariff⟩⟩

/-- The check word is the one field that a seal changes. -/
theorem seal_fields (a : Account) :
    a.seal.faultMark = a.faultMark ∧ a.seal.phase = a.phase ∧ a.seal.number = a.number ∧ a.seal.members = a.members ∧
      a.seal.tariff = a.tariff := by
  simp only [Account.seal, and_self]

theorem seal_intakeFields (x : Intake) :
    x.seal.faultMark = x.faultMark ∧ x.seal.phase = x.phase ∧ x.seal.owner = x.owner ∧ x.seal.change = x.change := by
  simp only [Intake.seal, and_self]

theorem bills_seal (a : Account) : a.seal.bills = a.bills := by rw [Account.bills, Account.bills, Account.seal_state]

theorem SameNumber.seal (same : SameNumber a b) : SameNumber a b.seal := by
  obtain ⟨_, _, number, _, _⟩ := seal_fields b
  rw [SameNumber, Account.seal_state, number]
  exact same

theorem SameTerms.seal (same : SameTerms a b) : SameTerms a b.seal := by
  obtain ⟨mark, phase, _, members, tariff⟩ := seal_fields b
  rw [SameTerms, bills_seal, mark, phase, members, tariff]
  exact same

theorem SameOwner.seal (same : SameOwner x y) : SameOwner x y.seal := by
  obtain ⟨mark, phase, owner, change⟩ := seal_intakeFields y
  rw [SameOwner, mark, phase, owner, change]
  exact same

/-- An account written again with its content is quiet when the content is. -/
theorem QuietAccount.seal (number : SameNumber a b) (terms : SameTerms a b) : QuietAccount a b.seal :=
  ⟨.inr (.inr (Account.checks_seal b)), number.seal, terms.seal⟩

theorem QuietIntake.seal (owner : SameOwner x y) : QuietIntake x y.seal := ⟨.inr (.inr y.crc_seal), owner.seal⟩

/-- A write of an intake that keeps its mark, its phase, its owner and its pending change. -/
theorem SameOwner.of_phase (mark : y.faultMark = x.faultMark) (phase : y.phase = x.phase) (owner : y.owner = x.owner)
    (change : y.change = x.change) : SameOwner x y := fun unmarked => ⟨mark ▸ unmarked, phase, owner, change⟩

end

/-! ### Ledgers, record by record -/

/-- Each account and each intake as the relations say, each tariff as it was or marked, the pool as it was, and the
Settlement Engine's list without repetition when it was so before. -/
structure Edits (accounts : Account → Account → Prop) (intakes : Intake → Intake → Prop) (l m : Ledger) : Prop where
  account : ∀ i, accounts (l.account i) (m.account i)
  intake : ∀ i, intakes (l.intake i) (m.intake i)
  tariff : ∀ i, m.tariff i = l.tariff i ∨ (m.tariff i).faultMark = true
  pool : m.pool = l.pool
  list : l.closeWork.Nodup → m.closeWork.Nodup

/-- Numbers, members, tariffs, owners and pending changes are kept. -/
abbrev Quiet : Ledger → Ledger → Prop := Edits QuietAccount QuietIntake

/-- Account numbers are kept. -/
abbrev Named : Ledger → Ledger → Prop := Edits NamedAccount ResealedIntake

/-- Every record written is sealed. -/
abbrev Sealing : Ledger → Ledger → Prop := Edits ResealedAccount ResealedIntake

section

variable {Ra Ra' : Account → Account → Prop} {Rx Rx' : Intake → Intake → Prop} {l m n : Ledger}

theorem Edits.trans_of (accounts : ∀ a b c, Ra a b → Ra b c → Ra a c) (intakes : ∀ x y z, Rx x y → Rx y z → Rx x z)
    (first : Edits Ra Rx l m) (second : Edits Ra Rx m n) : Edits Ra Rx l n where
  account i := accounts _ _ _ (first.account i) (second.account i)
  intake i := intakes _ _ _ (first.intake i) (second.intake i)
  tariff i := by
    rcases second.tariff i with same | marked
    · rw [same]
      exact first.tariff i
    · exact .inr marked
  pool := second.pool.trans first.pool
  list once := second.list (first.list once)

theorem Edits.mono (accounts : ∀ a b, Ra a b → Ra' a b) (intakes : ∀ x y, Rx x y → Rx' x y) (edits : Edits Ra Rx l m) :
    Edits Ra' Rx' l m :=
  ⟨fun i => accounts _ _ (edits.account i), fun i => intakes _ _ (edits.intake i), edits.tariff, edits.pool, edits.list⟩

theorem Edits.trans_quiet (first : Quiet l m) (second : Quiet m n) : Quiet l n :=
  first.trans_of (fun _ _ _ => .trans) (fun _ _ _ => .trans) second

theorem Edits.trans_named (first : Named l m) (second : Named m n) : Named l n :=
  first.trans_of (fun _ _ _ => .trans) (fun _ _ _ => .trans) second

theorem Edits.trans_sealing (first : Sealing l m) (second : Sealing m n) : Sealing l n :=
  first.trans_of (fun _ _ _ => .trans) (fun _ _ _ => .trans) second

theorem Edits.named (quiet : Quiet l m) : Named l m := quiet.mono (fun _ _ => QuietAccount.named) fun _ _ => QuietIntake.resealed

theorem Edits.sealing (named : Named l m) : Sealing l m := named.mono (fun _ _ => NamedAccount.resealed) fun _ _ => id

theorem quiet_refl (l : Ledger) : Quiet l l := ⟨fun _ => .refl _, fun _ => .refl _, fun _ => .inl rfl, rfl, id⟩

theorem quiet_of_eq (same : m = l) : Quiet l m := same ▸ quiet_refl l

/-- Ledgers that hold the same records. -/
theorem quiet_of_records (accounts : m.accounts = l.accounts) (intakes : m.intakes = l.intakes)
    (tariffs : m.tariffs = l.tariffs) (pool : m.pool = l.pool) (list : l.closeWork.Nodup → m.closeWork.Nodup) :
    Quiet l m where
  account i := by rw [Ledger.account, Ledger.account, accounts]; exact .refl _
  intake i := by rw [Ledger.intake, Ledger.intake, intakes]; exact .refl _
  tariff i := .inl (by rw [Ledger.tariff, Ledger.tariff, tariffs])
  pool := pool
  list := list

theorem quiet_ite {c : Prop} [Decidable c] (yes : Quiet l m) (no : Quiet l n) : Quiet l (if c then m else n) := by
  split
  · exact yes
  · exact no

end

/-! ### Writes of one record -/

section

variable {l m : Ledger}

theorem quiet_raise (x : AttentionSource) (l : Ledger) : Quiet l (l.raise x) := quiet_of_records rfl rfl rfl rfl id

theorem quiet_raiseIf (c : Bool) (x : AttentionSource) (l : Ledger) : Quiet l (l.raiseIf c x) :=
  quiet_of_records (l.raiseIf_accounts ..) (l.raiseIf_intakes ..) (l.raiseIf_tariffs ..) (l.raiseIf_pool ..)
    (by rw [Ledger.raiseIf_closeWork]; exact id)

theorem quiet_handToSettlement (i : Slot) (l : Ledger) : Quiet l (l.handToSettlement i) := by
  rw [Ledger.handToSettlement]
  split
  · exact quiet_refl l
  · next absent =>
    refine quiet_of_records rfl rfl rfl rfl fun once => ?_
    exact List.nodup_append.mpr ⟨once, List.pairwise_singleton _ i, fun j mem k single same =>
      absent (List.mem_singleton.mp single ▸ same ▸ mem)⟩

theorem quiet_handIfDue (i : Slot) (l : Ledger) : Quiet l (l.handIfDue i) :=
  quiet_ite (quiet_handToSettlement i l) (quiet_refl l)

theorem Edits.raise (x : AttentionSource) (quiet : Quiet l m) : Quiet l (m.raise x) :=
  quiet.trans_quiet (quiet_raise x m)

theorem Edits.raiseIf (c : Bool) (x : AttentionSource) (quiet : Quiet l m) : Quiet l (m.raiseIf c x) :=
  quiet.trans_quiet (quiet_raiseIf c x m)

theorem Edits.handed (i : Slot) (quiet : Quiet l m) : Quiet l (m.handToSettlement i) :=
  quiet.trans_quiet (quiet_handToSettlement i m)

theorem Edits.handedIfDue (i : Slot) (quiet : Quiet l m) : Quiet l (m.handIfDue i) :=
  quiet.trans_quiet (quiet_handIfDue i m)

/-- A write of one account changes that account alone. -/
theorem edits_storeAccount {Ra : Account → Account → Prop} {Rx : Intake → Intake → Prop} (accounts : ∀ a, Ra a a)
    (intakes : ∀ x, Rx x x) {i : Slot} {a : Account} (written : Ra (l.account i) a) :
    Edits Ra Rx l (l.storeAccount i a) where
  account j := by
    rw [Ledger.account_storeAccount]
    split
    · next same => exact same ▸ written
    · exact accounts _
  intake j := intakes _
  tariff j := .inl rfl
  pool := rfl
  list := id

/-- A write of one intake changes that intake alone. -/
theorem edits_storeIntake {Ra : Account → Account → Prop} {Rx : Intake → Intake → Prop} (accounts : ∀ a, Ra a a)
    (intakes : ∀ x, Rx x x) {i : IntakeNo} {x : Intake} (written : Rx (l.intake i) x) :
    Edits Ra Rx l (l.storeIntake i x) where
  account j := accounts _
  intake j := by
    rw [Ledger.intake_storeIntake]
    split
    · next same => exact same ▸ written
    · exact intakes _
  tariff j := .inl rfl
  pool := rfl
  list := id

theorem quiet_storeAccount {i : Slot} {a : Account} (written : QuietAccount (l.account i) a) :
    Quiet l (l.storeAccount i a) := edits_storeAccount QuietAccount.refl QuietIntake.refl written

theorem quiet_storeIntake {i : IntakeNo} {x : Intake} (written : QuietIntake (l.intake i) x) :
    Quiet l (l.storeIntake i x) := edits_storeIntake QuietAccount.refl QuietIntake.refl written

theorem quiet_putAccount {i : Slot} {a : Account} (number : SameNumber (l.account i) a)
    (terms : SameTerms (l.account i) a) : Quiet l (l.putAccount i a) := quiet_storeAccount (.seal number terms)

/-- A write that keeps an account's number, mark, phase, members and tariff. -/
theorem quiet_putAccount_of_phase {i : Slot} {a : Account} (number : a.number = (l.account i).number)
    (mark : a.faultMark = (l.account i).faultMark) (phase : a.phase = (l.account i).phase)
    (members : a.members = (l.account i).members) (tariff : a.tariff = (l.account i).tariff) :
    Quiet l (l.putAccount i a) :=
  quiet_putAccount (.of_phase number mark phase) (.of_phase mark phase members tariff)

/-- A write that keeps an intake's mark, phase, owner and pending change. -/
theorem quiet_putIntake {i : IntakeNo} {x : Intake} (mark : x.faultMark = (l.intake i).faultMark)
    (phase : x.phase = (l.intake i).phase) (owner : x.owner = (l.intake i).owner)
    (change : x.change = (l.intake i).change) : Quiet l (l.putIntake i x) :=
  quiet_storeIntake (.seal (.of_phase mark phase owner change))

theorem namedAccount_refl (a : Account) : NamedAccount a a := (QuietAccount.refl a).named

theorem named_refl (l : Ledger) : Named l l := (quiet_refl l).named

theorem named_putIntake (i : IntakeNo) (x : Intake) (l : Ledger) : Named l (l.putIntake i x) :=
  edits_storeIntake namedAccount_refl (fun _ => .inl rfl) (.inr (.inr x.crc_seal))

theorem named_putAccount {i : Slot} {a : Account} (number : SameNumber (l.account i) a) :
    Named l (l.putAccount i a) :=
  edits_storeAccount namedAccount_refl (fun _ => .inl rfl) ⟨.inr (.inr a.checks_seal), number.seal⟩

/-- A slot made FREE has no number. -/
theorem named_storeFree (i : Slot) (l : Ledger) : Named l (l.storeAccount i .free) :=
  edits_storeAccount namedAccount_refl (fun _ => .inl rfl) ⟨.inr (.inr Account.checks_free), fun notFree => absurd rfl notFree⟩

theorem sealing_putAccount (i : Slot) (a : Account) (l : Ledger) : Sealing l (l.putAccount i a) :=
  edits_storeAccount (fun _ => .inl rfl) (fun _ => .inl rfl) (.inr (.inr a.checks_seal))

/-! ### Verification -/

theorem quiet_checkAccount (i : Slot) (l : Ledger) : Quiet l (l.checkAccount i) := by
  by_cases sound : (l.account i).faultMark = true ∨ (l.account i).checks = true
  · exact quiet_of_eq (Ledger.checkAccount_of_sound sound)
  · rw [not_or, Bool.not_eq_true, Bool.not_eq_true] at sound
    obtain ⟨unmarked, fails⟩ := sound
    by_cases free : (l.account i).phase = .free
    · rw [Ledger.checkAccount_of_free unmarked fails free]
      have idle : (l.account i).bills = false := by simp [Account.bills, Account.state, unmarked, free, AccountPhase.state]
      exact .raise _ (quiet_storeAccount ⟨.inr (.inr Account.checks_free), fun notFree => absurd rfl notFree,
        fun _ => ⟨unmarked, idle.symm ▸ rfl, .inr ⟨idle, rfl⟩, fun notFree => absurd rfl notFree⟩⟩)
    · rw [Ledger.checkAccount_of_failing unmarked fails free]
      have notFree := mt (state_eq_free_iff unmarked).mp free
      exact .raise _ (quiet_storeAccount
        ⟨.inr (.inl rfl), fun _ => ⟨notFree, rfl⟩, fun clear => absurd clear nofun⟩)

theorem quiet_checkIntake (i : IntakeNo) (l : Ledger) : Quiet l (l.checkIntake i) := by
  rcases l.checkIntake_cases i with same | marked
  · exact quiet_of_eq same
  · rw [marked]
    exact .raise _ (quiet_storeIntake ⟨.inr (.inl rfl), fun clear => absurd clear nofun⟩)

theorem quiet_checkTariff (i : TariffNo) (l : Ledger) : Quiet l (l.checkTariff i) where
  account j := by simp only [Ledger.account, Ledger.checkTariff_accounts]; exact .refl _
  intake j := by simp only [Ledger.intake, Ledger.checkTariff_intakes]; exact .refl _
  tariff j := by
    rcases l.checkTariff_cases i with same | marked
    · rw [same]
      exact .inl rfl
    · rw [marked, Ledger.tariff_raise, Ledger.tariff_storeTariff]
      split
      · exact .inr rfl
      · exact .inl rfl
  pool := l.checkTariff_pool i
  list := by rw [Ledger.checkTariff_closeWork]; exact id

theorem quiet_eachOf {α : Type} {act : α → Ledger → Ledger} (quiet : ∀ i l, Quiet l (act i l)) (numbers : List α)
    (l : Ledger) : Quiet l (eachOf numbers act l) :=
  eachOf_keeps (Quiet l) (fun i _ m so => so.trans_quiet (quiet i m)) (quiet_refl l)

theorem named_eachOf {α : Type} {act : α → Ledger → Ledger} (named : ∀ i l, Named l (act i l)) (numbers : List α)
    (l : Ledger) : Named l (eachOf numbers act l) :=
  eachOf_keeps (Named l) (fun i _ m so => so.trans_named (named i m)) (named_refl l)

theorem quiet_checkIntakes (l : Ledger) : Quiet l l.checkIntakes := quiet_eachOf quiet_checkIntake _ l

theorem quiet_checkNonFree (i : Slot) (l : Ledger) : Quiet l (checkNonFree i l) :=
  quiet_ite (quiet_refl l) (quiet_checkAccount i l)

theorem quiet_checkAccounts (l : Ledger) : Quiet l l.checkAccounts := quiet_eachOf quiet_checkNonFree _ l

end

/-! ### Closures (R116 to R122) -/

section

variable (l : Ledger)

theorem quiet_countSilence (limit : Nat) (m : ExpectedMember) : Quiet l (countSilence limit m l) := by
  refine (quiet_checkIntake m.intake l).trans_quiet ?_
  simp only [countSilence]
  split
  · exact quiet_refl _
  · split
    · exact quiet_putIntake rfl rfl rfl rfl
    · exact .raiseIf _ _ (quiet_putIntake rfl rfl rfl rfl)

/-- A closure of an account keeps everything of it but the window, the pending slot and the running period. -/
theorem close_keeps (kind : ClosureKind) (t : Tariff) (schedule : Schedule) (c : Calendar) (p : PendingSlot) (a : Account) :
    (a.close kind t schedule c p).1 =
      { a with
        window := (a.close kind t schedule c p).1.window
        ringPos := (a.close kind t schedule c p).1.ringPos
        storedSlot := none
        period := (a.close kind t schedule c p).1.period } := by
  have evaluated : ∀ t s b d, (evaluateWindow t schedule s b d).1 = { d with period := (evaluateWindow t schedule s b d).1.period } :=
    fun t s b d => evaluateWindow_keeps t schedule s b d
  simp only [Account.close]
  split
  · split
    · rw [evaluated]; rfl
    · rfl
  · split
    · rw [evaluated]; rfl
    · rfl

theorem quiet_closeSlot (kind : ClosureKind) (c : Calendar) (i : Slot) : Quiet l (closeSlot kind c i l) := by
  refine (quiet_checkAccount i l).trans_quiet ?_
  simp only [closeSlot]
  split
  · exact quiet_refl _
  · next p holds =>
    have counted := (quiet_checkTariff ((l.checkAccount i).account i).tariff (l.checkAccount i)).trans_quiet
      (quiet_eachOf (fun m l => quiet_countSilence l c.params.silenceLimit m) p.expected _)
    refine counted.trans_quiet ?_
    have closed (t : Tariff) (schedule : Schedule) (m : Ledger) :
        Quiet m (m.putAccount i ((m.account i).close kind t schedule c p).1) := by
      rw [close_keeps]
      exact quiet_putAccount_of_phase rfl rfl rfl rfl rfl
    exact quiet_ite (.handedIfDue i (.raiseIf _ _ (closed ..))) (.raiseIf _ _ (closed ..))

/-! ### Periods and settlement (R138 to R153) -/

theorem quiet_performClose (cause : CloseCause) (late : Bool) (now : Seconds) (i : Slot) :
    Quiet l (performClose cause late now i l) :=
  .raise _ (quiet_putAccount_of_phase rfl rfl rfl rfl rfl)

theorem quiet_blockClose (i : Slot) : Quiet l (blockClose i l) :=
  quiet_ite (quiet_refl l) (.raise _ (quiet_putAccount_of_phase rfl rfl rfl rfl rfl))

theorem quiet_examine (late : Bool) (now : Seconds) (i : Slot) : Quiet l (examine late now i l) := by
  refine (quiet_checkAccount i l).trans_quiet ?_
  simp only [examine]
  split
  · exact quiet_refl _
  · refine quiet_ite (quiet_refl _) (quiet_ite (quiet_refl _) (quiet_ite (quiet_blockClose _ i) ?_))
    exact (quiet_checkTariff _ _).trans_quiet (quiet_ite (quiet_performClose _ _ _ _ i) (quiet_blockClose _ i))

theorem quiet_settleNext (now : Seconds) : Quiet l (settleNext now l) := by
  rw [settleNext]
  split
  · exact quiet_refl l
  · next i rest head =>
    have examined := quiet_examine l false now i
    exact ⟨examined.account, examined.intake, examined.tariff, examined.pool, fun once =>
      (List.nodup_cons.mp (head ▸ once)).2⟩

/-! ### The Interval Engine and the placement -/

theorem quiet_startAccount (t : Seconds) (i : Slot) : Quiet l (startAccount t i l) := by
  refine quiet_ite ?_ (quiet_refl l)
  exact (quiet_checkAccount i l).trans_quiet (quiet_ite (quiet_refl _) (quiet_putAccount_of_phase rfl rfl rfl rfl rfl))

theorem quiet_rewriteIntake {f : Intake → Intake} (i : IntakeNo)
    (keeps : ∀ x, (f x).faultMark = x.faultMark ∧ (f x).phase = x.phase ∧ (f x).owner = x.owner ∧ (f x).change = x.change) :
    Quiet l (rewriteIntake f i l) := by
  obtain ⟨mark, phase, owner, change⟩ := keeps (l.intake i)
  exact quiet_ite (quiet_refl l) (quiet_putIntake mark phase owner change)

theorem quiet_ageOwners (c : Calendar) (missed : Nat) : Quiet l (ageOwners c missed l) := by
  refine (quiet_checkIntakes l).trans_quiet (quiet_eachOf (fun i m => ?_) _ _)
  split
  · exact quiet_refl m
  · exact quiet_ite (quiet_rewriteIntake m i fun x => ⟨rfl, rfl, rfl, rfl⟩) (quiet_refl m)

/-- A due placed on an account changes nothing else of it (R137). -/
theorem quiet_putAccount_placeDue (i : Slot) (due : CloseDue) :
    Quiet l (l.putAccount i ((l.account i).placeDue due)) := by
  simp only [Account.placeDue]
  split <;> exact quiet_putAccount_of_phase rfl rfl rfl rfl rfl

theorem quiet_detectClose (t : Seconds) (i : Slot) : Quiet l (detectClose t i l) := by
  exact quiet_ite (.handed i (quiet_putAccount_placeDue l i _)) (quiet_refl l)

theorem quiet_visitAccount (c : Calendar) (tag : Tag) (t : Seconds) (i : Slot) : Quiet l (visitAccount c tag t i l) := by
  refine (quiet_checkAccount i l).trans_quiet (quiet_ite (quiet_refl _) ?_)
  refine (quiet_detectClose _ t i).trans_quiet ?_
  generalize detectClose t i (l.checkAccount i) = m
  have opened : Quiet m (m.putAccount i { m.account i with storedSlot := some ((m.account i).newSlot tag) }) :=
    quiet_putAccount_of_phase rfl rfl rfl rfl rfl
  exact quiet_ite (opened.trans_quiet (quiet_ite (quiet_closeSlot _ .ordinary c i) (quiet_refl _))) (quiet_refl m)

theorem quiet_notifyCheck (time : Seconds) (t : TariffNo) (found : Ledger × Bool) :
    Quiet found.1 (notifyCheck time t found).1 := by
  simp only [notifyCheck]
  split
  · exact quiet_checkTariff t found.1
  · exact quiet_refl found.1

theorem quiet_bandNotify (time : Seconds) : Quiet l (bandNotify time l) := by
  have checked : ∀ (tariffs : List TariffNo) (found : Ledger × Bool), Quiet l found.1 →
      Quiet l (tariffs.foldl (fun found t => notifyCheck time t found) found).1 := by
    intro tariffs
    induction tariffs with
    | nil => exact fun _ so => so
    | cons t rest ih => exact fun found so => ih _ (so.trans_quiet (quiet_notifyCheck time t found))
  exact (checked allTariffs (l, false) (quiet_refl l)).trans_quiet (quiet_raiseIf _ _ _)

theorem quiet_holdEnergy (i : IntakeNo) (e : Energy) : Quiet l (holdEnergy i e l) :=
  .raiseIf _ _ (quiet_putIntake rfl rfl rfl rfl)

theorem quiet_placeInAccount (c : Calendar) (e : QueueEntry) (i : IntakeNo) (a : Slot) :
    Quiet l (placeInAccount c e i a l).ledger := by
  have reported : Quiet l (l.putIntake i ((l.intake i).reportPlaced e.tag)) := quiet_putIntake rfl rfl rfl rfl
  simp only [placeInAccount]
  split
  · split
    · exact reported.trans_quiet (quiet_putAccount_of_phase rfl rfl rfl rfl rfl)
    · exact reported.trans_quiet (quiet_putAccount_of_phase rfl rfl rfl rfl rfl)
  · exact reported.trans_quiet (quiet_putAccount_of_phase rfl rfl rfl rfl rfl)

theorem quiet_placeEntry (c : Calendar) (mode : Mode) (e : QueueEntry) : Quiet l (placeEntry c mode e l).ledger := by
  rw [placeEntry]
  split
  · exact quiet_refl l
  · next i _ =>
    refine (quiet_checkIntake i l).trans_quiet ?_
    dsimp only
    split
    · exact quiet_refl _
    · simp only [placeEnergy]
      split
      · exact quiet_holdEnergy _ i _
      · next a _ =>
        refine (quiet_checkAccount a _).trans_quiet ?_
        split
        · exact quiet_holdEnergy _ i _
        · exact quiet_placeInAccount _ c e i a

theorem quiet_sweep (p : SweepPosition) : Quiet l (p.check l) := by
  cases p with
  | tariff i => exact quiet_checkTariff i l
  | account i => exact quiet_checkAccount i l
  | intake i => exact quiet_checkIntake i l

/-! ### The restart catch-up, but for the folds (R131) -/

theorem quiet_closeStale (c : Calendar) (i : Slot) : Quiet l (closeStale c i l) :=
  quiet_ite (quiet_closeSlot l .stale c i) (quiet_refl l)

/-- The slot of a missed boundary changes the window alone (R133). -/
theorem enterOutage_keeps (t : Tariff) (s : Nat) (b : Seconds) (a : Account) :
    a.enterOutage t s b =
      { a with window := (a.enterOutage t s b).window, ringPos := (a.enterOutage t s b).ringPos } := by
  simp only [Account.enterOutage]
  split <;> rfl

/-- So do the slots of all of them. -/
theorem foldl_enterOutage_keeps (t : Tariff) (s : Nat) (instants : List Seconds) (a : Account) :
    instants.foldl (fun a b => a.enterOutage t s b) a =
      { a with
        window := (instants.foldl (fun a b => a.enterOutage t s b) a).window
        ringPos := (instants.foldl (fun a b => a.enterOutage t s b) a).ringPos } := by
  induction instants generalizing a with
  | nil => rfl
  | cons b rest ih =>
    rw [List.foldl_cons, ih, enterOutage_keeps]

theorem quiet_enterOutages (c : Calendar) (missed : Nat) (i : Slot) : Quiet l (enterOutages c missed i l) := by
  refine quiet_ite ((quiet_checkAccount i l).trans_quiet (quiet_ite (quiet_refl _) ?_)) (quiet_refl l)
  generalize l.checkAccount i = m
  have entered (t : Tariff) (s k : Nat) (instants : List Seconds) (n : Ledger) (same : n.account i = m.account i) :
      Quiet n (n.putAccount i
        (let a := instants.foldl (fun a b => a.enterOutage t s b) (m.account i)
        { a with period := { a.period with outageSlots := satAdd Config.max16 a.period.outageSlots k } })) := by
    rw [foldl_enterOutage_keeps, ← same]
    exact quiet_putAccount_of_phase rfl rfl rfl rfl rfl
  refine (quiet_checkTariff (m.account i).tariff m).trans_quiet (entered _ _ _ _ _ ?_)
  simp only [Ledger.account, Ledger.checkTariff_accounts]

/-- A due placed in the catch-up, on an account that is verified first. -/
theorem quiet_placeDue (i : Slot) (due : CloseDue) :
    Quiet l (if ((l.checkAccount i).account i).faultMark then l.checkAccount i else
      (l.checkAccount i).putAccount i (((l.checkAccount i).account i).placeDue due)) :=
  (quiet_checkAccount i l).trans_quiet (quiet_ite (quiet_refl _) (quiet_putAccount_placeDue _ i _))

theorem quiet_placeMissedDue (c : Calendar) (i : Slot) : Quiet l (placeMissedDue c i l) := by
  rw [placeMissedDue]
  cases (l.account i).missedClose c with
  | none => exact quiet_refl l
  | some t => exact quiet_ite (quiet_placeDue l i _) (quiet_refl l)

theorem quiet_examineMissed (now : Seconds) (i : Slot) : Quiet l (examineMissed now i l) :=
  quiet_ite (quiet_examine l true now i) (quiet_refl l)

theorem quiet_missedCloses (c : Calendar) (m : Nat) : Quiet l (missedCloses c m l) := by
  have due : Quiet l (if m = 0 then l else eachOf allSlots (placeMissedDue c) l) :=
    quiet_ite (quiet_refl l) (quiet_eachOf (fun i l => quiet_placeMissedDue l c i) allSlots l)
  have examined := due.trans_quiet (quiet_eachOf (fun i l => quiet_examineMissed l c.time i) allSlots _)
  simp only [missedCloses]
  exact examined.raiseIf _ _

end

end Sys2Proof.Machine.RecordEdits
end

section
/-! What the requests do to the records: the quiet ones, those that keep the account numbers, and those that seal every
record they write. -/

namespace Sys2Proof.Machine.RecordEdits

open Sys2Proof Sys2Proof.Machine Sys2Proof.Machine.LedgerSteps

/-! ### Billing accounts -/

section

variable {a b : Account}

theorem state_ne_free_of_bills (bills : a.bills = true) : a.state ≠ .free := by
  intro free
  simp [Account.bills, free] at bills

theorem state_ne_free_of_mark (mark : a.faultMark = true) : a.state ≠ .free := by
  simp [Account.state, mark]

/-- An account that is not marked bills in the states ACTIVE and SUSPENDED. -/
theorem bills_of_unmarked (unmarked : a.faultMark = false) :
    a.bills = true ↔ a.phase = .active ∨ a.phase = .suspended := by
  rw [Account.bills, Account.state, unmarked]
  cases a.phase <;> simp [AccountPhase.state]

theorem bills_of_state (notFree : a.state ≠ .free) (notFinal : a.state ≠ .final) (unmarked : a.faultMark = false) :
    a.bills = true := by
  rw [bills_of_unmarked unmarked]
  rw [Account.state, unmarked] at notFree notFinal
  cases phase : a.phase with
  | active => exact .inl rfl
  | suspended => exact .inr rfl
  | free => exact absurd (by simp [phase, AccountPhase.state]) notFree
  | final => exact absurd (by simp [phase, AccountPhase.state]) notFinal

/-- A billing account may change its state and keep its number. -/
theorem SameNumber.of_bills (bills : a.faultMark = false → a.bills = true) (number : b.number = a.number) :
    SameNumber a b := by
  intro _
  refine ⟨?_, number⟩
  cases mark : a.faultMark with
  | true => exact state_ne_free_of_mark mark
  | false => exact state_ne_free_of_bills (bills mark)

/-- A billing account that goes to a billing state keeps what ownership rests on. -/
theorem SameTerms.of_bills (bills : a.faultMark = false → a.bills = true) (mark : b.faultMark = a.faultMark)
    (billing : b.phase = .active ∨ b.phase = .suspended) (members : b.members = a.members) (tariff : b.tariff = a.tariff) :
    SameTerms a b := by
  intro unmarked
  have unmarked' := mark ▸ unmarked
  have bills' := (bills_of_unmarked unmarked).mpr billing
  refine ⟨unmarked', bills'.trans (bills unmarked').symm, .inl members, fun _ => ⟨fun free => ?_, tariff⟩⟩
  have := (bills_of_unmarked unmarked').mp (bills unmarked')
  simp [free] at this

/-- What a quiet operation leaves of a billing account bills, unless it is marked. -/
theorem QuietAccount.keeps_bills (quiet : QuietAccount a b) (bills : a.bills = true) :
    b.faultMark = false → b.bills = true := by
  intro unmarked
  obtain ⟨_, same, _, _⟩ := quiet.terms unmarked
  exact same.trans bills

end

/-! ### Requests that keep members, tariffs, owners and pending changes -/

section

variable {p : List Byte} {c : Calendar} {mode : Mode} (l : Ledger)

/-- The addressing checks verify the account they pass. -/
theorem quiet_addressAccount {n : Nat} {inRange : Bool} {l : Ledger} {own : Slot → Account → Ledger → Ledger × Answer}
    (work : ∀ i m, (m.account i).faultMark = false → Quiet m (own i (m.account i) m).1) :
    Quiet l (addressAccount n inRange l own).1 :=
  addressAccount_keeps (Quiet l) (quiet_refl l) (fun i m so => so.trans_quiet (quiet_checkAccount i m))
    fun i m so unmarked => so.trans_quiet (work i m unmarked)

theorem quiet_addressIntake {n : Nat} {inRange undef : Bool} {l : Ledger}
    {own : IntakeNo → Intake → Ledger → Ledger × Answer}
    (work : ∀ i m, (m.intake i).faultMark = false → Quiet m (own i (m.intake i) m).1) :
    Quiet l (addressIntake n inRange undef l own).1 :=
  addressIntake_keeps (Quiet l) (quiet_refl l) (fun i m so => so.trans_quiet (quiet_checkIntake i m))
    fun i m so unmarked => so.trans_quiet (work i m unmarked)

theorem quiet_ite_fst {c : Prop} [Decidable c] {l : Ledger} {x y : Ledger × Answer} (yes : Quiet l x.1)
    (no : Quiet l y.1) : Quiet l (if c then x else y).1 := by
  split
  · exact yes
  · exact no

theorem quiet_amendAccount : Quiet l (amendAccount p c mode l).1 :=
  quiet_addressAccount fun _ m _ =>
    quiet_ite_fst (quiet_refl m) (quiet_putAccount_of_phase rfl rfl rfl rfl rfl)

theorem quiet_suspendAccount : Quiet l (suspendAccount p c mode l).1 := by
  refine quiet_addressAccount fun i m _ => ?_
  dsimp only
  split
  · exact quiet_refl m
  · next active =>
    have bills : (m.account i).bills = true := by simp [Account.bills] at active ⊢; exact .inl active
    have closed := quiet_closeSlot m .ordinary c i
    have bills' := (closed.account i).keeps_bills bills
    exact closed.trans_quiet (quiet_putAccount (.of_bills bills' rfl) (.of_bills bills' rfl (.inr rfl) rfl rfl))

theorem quiet_resumeAccount : Quiet l (resumeAccount p c mode l).1 := by
  refine quiet_addressAccount fun i m _ => ?_
  dsimp only
  split
  · exact quiet_refl m
  · next suspended =>
    have bills : (m.account i).bills = true := by simp [Account.bills] at suspended ⊢; exact .inr suspended
    exact quiet_putAccount (.of_bills (fun _ => bills) rfl) (.of_bills (fun _ => bills) rfl (.inl rfl) rfl rfl)

theorem quiet_findAccount : Quiet l (findAccount p c mode l).1 := by
  rw [findAccount]
  dsimp only
  split
  · exact quiet_refl l
  · split
    · exact quiet_refl l
    · exact quiet_checkAccount _ l

theorem quiet_readSection (i : Slot) (part : Nat) (sec : AccountSection) : Quiet l (readSection i part sec l).1 := by
  cases sec with
  | identity | running | ratchet => exact quiet_refl l
  | settled =>
    simp only [readSection]
    split <;> exact quiet_refl l
  | window => exact quiet_ite_fst (quiet_checkTariff _ l) (quiet_checkTariff _ l)

theorem quiet_readAccount : Quiet l (readAccount p c mode l).1 := by
  rw [readAccount]
  split
  · next i sec _ _ =>
    refine quiet_ite_fst (quiet_refl l) (quiet_ite_fst (quiet_refl l) ?_)
    exact quiet_ite_fst (quiet_checkAccount i l) ((quiet_checkAccount i l).trans_quiet (quiet_readSection _ i _ sec))
  · exact quiet_refl l

theorem quiet_listAccounts : Quiet l (listAccounts p c mode l).1 := by
  rw [listAccounts]
  cases AccountFilter.ofCode (field 0 1 p) with
  | none => exact quiet_refl l
  | some filter =>
    have checked := quiet_checkAccounts l
    generalize l.checkAccounts = m at checked
    exact checked

theorem quiet_readTariff : Quiet l (readTariff p c mode l).1 := by
  rw [readTariff]
  split
  · exact quiet_refl l
  · next t _ =>
    refine quiet_ite_fst (quiet_refl l) ?_
    dsimp only
    split <;> exact quiet_checkTariff t l

theorem quiet_readIntake : Quiet l (readIntake p c mode l).1 := quiet_addressIntake fun _ m _ => quiet_refl m

theorem quiet_collectHeld : Quiet l (collectHeld p c mode l).1 :=
  quiet_addressIntake fun _ _ _ => quiet_putIntake rfl rfl rfl rfl

theorem quiet_readDemand : Quiet l (readDemand p c mode l).1 :=
  quiet_addressAccount fun _ m _ =>
    quiet_ite_fst (quiet_checkTariff _ m) (quiet_checkTariff _ m)

theorem quiet_closeNow : Quiet l (closeNow p c mode l).1 :=
  quiet_addressAccount fun i m _ =>
    quiet_ite_fst (quiet_refl m) (quiet_ite_fst (quiet_refl m) (.handed i (quiet_putAccount_of_phase rfl rfl rfl rfl rfl)))

end

/-! ### Requests that keep the account numbers -/

section

variable {p : List Byte} {c : Calendar} {mode : Mode} (l : Ledger)

theorem named_addressAccount {n : Nat} {inRange : Bool} {l : Ledger} {own : Slot → Account → Ledger → Ledger × Answer}
    (work : ∀ i m, (m.account i).faultMark = false → Named m (own i (m.account i) m).1) :
    Named l (addressAccount n inRange l own).1 :=
  addressAccount_keeps (Named l) (named_refl l) (fun i m so => so.trans_named (quiet_checkAccount i m).named)
    fun i m so unmarked => so.trans_named (work i m unmarked)

theorem named_addressIntake {n : Nat} {inRange undef : Bool} {l : Ledger}
    {own : IntakeNo → Intake → Ledger → Ledger × Answer}
    (work : ∀ i m, (m.intake i).faultMark = false → Named m (own i (m.intake i) m).1) :
    Named l (addressIntake n inRange undef l own).1 :=
  addressIntake_keeps (Named l) (named_refl l) (fun i m so => so.trans_named (quiet_checkIntake i m).named)
    fun i m so unmarked => so.trans_named (work i m unmarked)

theorem named_ite_fst {c : Prop} [Decidable c] {l : Ledger} {x y : Ledger × Answer} (yes : Named l x.1)
    (no : Named l y.1) : Named l (if c then x else y).1 := by
  split
  · exact yes
  · exact no

theorem named_ite {c : Prop} [Decidable c] {l x y : Ledger} (yes : Named l x) (no : Named l y) :
    Named l (if c then x else y) := by
  split
  · exact yes
  · exact no

/-- A write of an account that keeps its number, its mark and its phase. -/
theorem named_putAccount_of_phase {l : Ledger} {i : Slot} {a : Account} (number : a.number = (l.account i).number)
    (mark : a.faultMark = (l.account i).faultMark) (phase : a.phase = (l.account i).phase) :
    Named l (l.putAccount i a) := named_putAccount (.of_phase number mark phase)

theorem named_rewriteIntake (f : Intake → Intake) (i : IntakeNo) : Named l (rewriteIntake f i l) :=
  named_ite (named_refl l) (named_putIntake i _ l)

theorem named_rewriteEach (f : Intake → Intake) (numbers : List IntakeNo) : Named l (rewriteEach f numbers l) :=
  named_eachOf (fun i m => named_putIntake i _ m) numbers l

theorem named_releaseMembers (a : Slot) : Named l (releaseMembers a l) :=
  (quiet_checkIntakes l).named.trans_named
    (named_eachOf (fun i m => named_ite (named_rewriteIntake m _ i)
      (named_ite (named_rewriteIntake m _ i) (named_refl m))) allIntakes _)

/-- Only intakes are written when members are released. -/
theorem account_rewriteIntake (f : Intake → Intake) (i : IntakeNo) (a : Slot) :
    (rewriteIntake f i l).account a = l.account a := by
  rw [rewriteIntake]
  split <;> rfl

theorem account_releaseMembers (a j : Slot) : (releaseMembers a l).account j = l.account j := by
  have released : (releaseMembers a l).account j = l.checkIntakes.account j :=
    eachOf_keeps_value (fun m => m.account j) (fun i _ m => by
      split
      · exact account_rewriteIntake m _ i j
      · split
        · exact account_rewriteIntake m _ i j
        · rfl) _
  rw [released, Ledger.account, Ledger.account, Ledger.checkIntakes_accounts]

theorem account_rewriteEach (f : Intake → Intake) (numbers : List IntakeNo) (j : Slot) :
    (rewriteEach f numbers l).account j = l.account j :=
  eachOf_keeps_value (act := fun i l => l.putIntake i (f (l.intake i))) (fun m => m.account j) (fun _ _ _ => rfl) l

/-- The closure and the final close of a retirement (R20). -/
theorem quiet_finalClose (c : Calendar) (i : Slot) :
    Quiet l (performClose .retire false c.time i (closeSlot .forRetirement c i l)) :=
  (quiet_closeSlot l .forRetirement c i).trans_quiet (quiet_performClose _ _ _ _ i)

theorem named_retireInRun {l : Ledger} {i : Slot} (bills : (l.account i).bills = true) :
    Named l (retireInRun c i l) := by
  have closed := quiet_finalClose l c i
  have bills' := (closed.account i).keeps_bills bills
  refine (closed.named.trans_named (named_releaseMembers _ i)).trans_named (named_putAccount (.of_bills ?_ rfl))
  rw [account_releaseMembers]
  exact bills'

theorem named_retireInCommissioning (i : Slot) : Named l (retireInCommissioning i l) :=
  (named_releaseMembers l i).trans_named (named_storeFree i _)

/-- The verification of an account that is not FREE does not make it FREE. -/
theorem checkAccount_occupied {l : Ledger} {i : Slot} (occupied : (l.account i).state ≠ .free) :
    ((l.checkAccount i).account i).state ≠ .free := by
  by_cases sound : (l.account i).faultMark = true ∨ (l.account i).checks = true
  · rw [Ledger.checkAccount_of_sound sound]
    exact occupied
  · rw [not_or, Bool.not_eq_true, Bool.not_eq_true] at sound
    obtain ⟨unmarked, fails⟩ := sound
    rw [Ledger.checkAccount_of_failing unmarked fails (mt (PeriodSettlement.state_eq_free_iff unmarked).mpr occupied),
      Ledger.account_raise, Ledger.account_storeAccount_self]
    exact state_ne_free_of_mark rfl

/-- What holds of the ledger that the addressing checks leave, and after the work on a sound account that is not FREE, holds
after the request. -/
theorem addressAccount_occupied {n : Nat} {inRange : Bool} {l : Ledger} {own : Slot → Account → Ledger → Ledger × Answer}
    (P : Ledger → Prop) (checks : ∀ m, Quiet l m → P m)
    (work : ∀ i m, Quiet l m → m.SoundAccount i → (m.account i).state ≠ .free → P (own i (m.account i) m).1) :
    P (addressAccount n inRange l own).1 := by
  rw [addressAccount]
  split
  · exact checks l (quiet_refl l)
  · next i _ =>
    split
    · exact checks l (quiet_refl l)
    · split
      · exact checks l (quiet_refl l)
      · next occupied =>
        dsimp only
        split
        · exact checks _ (quiet_checkAccount i l)
        · next unmarked =>
          rw [Bool.not_eq_true] at unmarked
          have sound := (l.checkAccount_leaves_sound i).resolve_left (ne_true_of_eq_false unmarked)
          exact work i _ (quiet_checkAccount i l) ⟨unmarked, sound⟩ (checkAccount_occupied occupied)

theorem named_retireAccount : Named l (retireAccount p c mode l).1 := by
  refine addressAccount_occupied (Named l) (fun _ so => so.named) fun i m so sound occupied => ?_
  refine so.named.trans_named ?_
  dsimp only
  split
  · exact named_refl m
  · next notFinal =>
    have bills := bills_of_state occupied notFinal sound.1
    have checked := quiet_checkTariff (m.account i).tariff m
    have kept : ((m.checkTariff (m.account i).tariff).account i).bills = true := by
      rw [Ledger.account, Ledger.checkTariff_accounts]
      exact bills
    refine named_ite_fst (named_refl m) (named_ite_fst checked.named (checked.named.trans_named ?_))
    exact named_ite (named_retireInRun kept) (named_retireInCommissioning _ i)

theorem named_defineIntake : Named l (defineIntake p c mode l).1 := by
  rw [defineIntake]
  split
  · exact named_refl l
  · exact named_addressIntake fun i m _ =>
      named_ite_fst (named_refl m) (named_ite_fst (named_refl m) (named_putIntake i _ m))

theorem named_putAccount_join {l : Ledger} (i : IntakeNo) (a : Slot) : Named l (l.putAccount a ((l.account a).join i)) :=
  named_putAccount_of_phase rfl rfl rfl

theorem named_putAccount_leave {l : Ledger} (i : IntakeNo) (a : Slot) : Named l (l.putAccount a ((l.account a).leave i)) :=
  named_putAccount_of_phase rfl rfl rfl

theorem named_assign (i : IntakeNo) (a : Slot) : Named l (assign c mode i a l) :=
  named_ite (named_putIntake i _ l) ((named_putIntake i _ l).trans_named (named_putAccount_join i a))

theorem named_assignIntake : Named l (assignIntake p c mode l).1 := by
  rw [assignIntake]
  split
  · exact named_refl l
  · next a _ =>
    refine named_addressIntake fun i m _ => named_ite_fst (named_refl m) ?_
    have checked := (quiet_checkAccount a m).named
    have settled := checked.trans_named (quiet_checkIntakes _).named
    dsimp only
    generalize (m.checkAccount a).checkIntakes = n at settled
    exact named_ite_fst checked (named_ite_fst checked (named_ite_fst checked (named_ite_fst checked
      (named_ite_fst settled (settled.trans_named (named_assign n i a))))))

theorem named_unassignMember (i : IntakeNo) (a : Slot) : Named l (unassignMember c mode i a l).1 := by
  have checked := (quiet_checkAccount a l).named
  refine named_ite_fst checked (named_ite_fst (checked.trans_named (named_putIntake i _ _)) ?_)
  exact checked.trans_named ((named_putAccount_leave i a).trans_named (named_putIntake i _ _))

theorem named_unassignIntake : Named l (unassignIntake p c mode l).1 := by
  refine named_addressIntake fun i m _ => named_ite_fst (named_ite_fst (named_refl m) ?_)
    (named_ite_fst (named_putIntake i _ m) (named_refl m))
  split
  · exact named_unassignMember m i _
  · exact named_refl m

theorem named_switchTariff (i : Slot) (t : TariffNo) : Named l (switchTariff c i t l) := by
  refine Edits.trans_named (m := if (l.account i).period.start.isSome then performClose .tariffChange false c.time i l else l)
    (named_ite (quiet_performClose l _ _ _ i).named (named_refl l)) ?_
  exact named_putAccount_of_phase rfl rfl rfl

theorem named_changeTariff : Named l (changeTariff p c mode l).1 := by
  rw [changeTariff]
  split
  · exact named_refl l
  · next t _ =>
    refine named_addressAccount fun i m _ => named_ite_fst (named_refl m) (named_ite_fst (named_refl m)
      (named_ite_fst (named_refl m) (named_ite_fst (named_refl m) ?_)))
    have checked := quiet_checkTariff (m.account i).tariff m
    have both := (checked.trans_quiet (quiet_checkTariff t _)).named
    exact named_ite_fst checked.named (named_ite_fst both (both.trans_named (named_switchTariff _ i t)))

theorem named_releaseSettlement : Named l (releaseSettlement p c mode l).1 :=
  named_addressAccount fun i m _ => named_ite_fst (named_refl m) (named_ite_fst (named_storeFree i m)
    (Edits.named (.handedIfDue i (quiet_putAccount_of_phase rfl rfl rfl rfl rfl))))

theorem addressFaulted_keeps {n : Nat} {inRange : Bool} {l : Ledger} {own : Slot → Account → Ledger × Answer}
    (P : Ledger → Prop) (start : P l) (work : ∀ i, (l.account i).faultMark = true → P (own i (l.account i)).1) :
    P (addressFaulted n inRange l own).1 := by
  rw [addressFaulted]
  split
  · exact start
  · split
    · exact start
    · split
      · exact start
      · split
        · exact start
        · next marked => exact work _ (by simpa using marked)

theorem named_discardAccount : Named l (discardAccount p c mode l).1 :=
  addressFaulted_keeps (Named l) (named_refl l) fun i _ =>
    (((quiet_checkIntakes l).named.trans_named (named_rewriteEach _ _ _)).trans_named (named_rewriteEach _ _ _)).trans_named
      (named_storeFree i _)

theorem named_carryOutIntakeRepair (k : LaneNo) (scale : Nat) (i : IntakeNo) :
    Named l (carryOutIntakeRepair k scale c i l) :=
  ((quiet_checkAccounts l).named.trans_named (named_eachOf (fun a _ => named_putAccount_leave i a) _ _)).trans_named
    (named_putIntake i _ _)

theorem named_repairIntake : Named l (repairIntake p c mode l).1 := by
  rw [repairIntake]
  split
  · exact named_ite_fst (named_carryOutIntakeRepair l _ _ _) (named_refl l)
  · exact named_refl l

/-! ### Folds and the catch-up -/

theorem named_foldJoin (i : IntakeNo) (a : Slot) (tag : Tag) : Named l (foldJoin i a tag l) := by
  refine (quiet_checkAccount a l).named.trans_named (named_ite ?_ (named_putIntake i _ _))
  exact (named_putIntake i _ _).trans_named (named_putAccount_join i a)

theorem named_dropMember (i : IntakeNo) (owner : Option Slot) : Named l (dropMember i owner l) := by
  cases owner with
  | none => exact named_refl l
  | some a =>
    exact (quiet_checkAccount a l).named.trans_named (named_ite (named_refl _) (named_putAccount_leave i a))

theorem named_foldChange (i : IntakeNo) : Named l (foldChange i l) := by
  refine (quiet_checkIntake i l).named.trans_named (named_ite (named_refl _) ?_)
  split
  · exact named_refl _
  · exact named_foldJoin _ i _ _
  · exact (named_dropMember _ i _).trans_named (named_putIntake i _ _)

theorem named_foldMissed (i : IntakeNo) : Named l (foldMissed i l) := named_ite (named_foldChange l i) (named_refl l)

theorem quiet_closeStales (c : Calendar) : Quiet l (eachOf allSlots (closeStale c) l) :=
  quiet_eachOf (fun i m => quiet_closeStale m c i) allSlots l

theorem quiet_enterAllOutages (c : Calendar) (m : Nat) : Quiet l (eachOf allSlots (enterOutages c m) l) :=
  quiet_eachOf (fun i n => quiet_enterOutages n c m i) allSlots l

theorem named_bridgeGap (m : Nat) : Named l (bridgeGap c m l) :=
  named_ite (named_refl l) ((quiet_enterAllOutages l c m).named.trans_named
    (named_eachOf (fun i n => named_foldMissed n i) allIntakes _))

theorem named_catchUp : Named l (catchUp c l) :=
  (((quiet_closeStales l c).named.trans_named (named_bridgeGap _ _)).trans_named (quiet_ageOwners _ _ _).named).trans_named
    (quiet_missedCloses _ _ _).named

end

end Sys2Proof.Machine.RecordEdits
end

section
/-! The account numbers stay distinct (R2), and the records stay sealed (R164). -/

namespace Sys2Proof.Machine.RecordEdits

open Sys2Proof Sys2Proof.Machine Sys2Proof.Machine.LedgerSteps

/-! ### What a command does to the records -/

section

variable {p : List Byte} {c : Calendar} {mode : Mode} {l m : Ledger}

/-- The requests that install an account, or work on the tariffs' lists. -/
def Installs : RequestCode → Prop
  | .openAccount | .repairAccount | .writeTariff | .deleteTariff => True
  | _ => False

/-- Every other request on the records keeps the account numbers. -/
theorem named_ledgerWork {k : RequestCode} (other : ¬Installs k) : Named l (ledgerWork k p c mode l).1 := by
  cases k with
  | openAccount | repairAccount | writeTariff | deleteTariff => exact absurd trivial other
  | amendAccount => exact (@quiet_amendAccount p c mode l).named
  | suspendAccount => exact (@quiet_suspendAccount p c mode l).named
  | resumeAccount => exact (@quiet_resumeAccount p c mode l).named
  | retireAccount => exact @named_retireAccount p c mode l
  | findAccount => exact (@quiet_findAccount p c mode l).named
  | readAccount => exact (@quiet_readAccount p c mode l).named
  | listAccounts => exact (@quiet_listAccounts p c mode l).named
  | readTariff => exact (@quiet_readTariff p c mode l).named
  | defineIntake => exact @named_defineIntake p c mode l
  | assignIntake => exact @named_assignIntake p c mode l
  | unassignIntake => exact @named_unassignIntake p c mode l
  | readIntake => exact (@quiet_readIntake p c mode l).named
  | collectHeld => exact (@quiet_collectHeld p c mode l).named
  | readDemand => exact (@quiet_readDemand p c mode l).named
  | closeNow => exact (@quiet_closeNow p c mode l).named
  | changeTariff => exact @named_changeTariff p c mode l
  | releaseSettlement => exact @named_releaseSettlement p c mode l
  | discardAccount => exact @named_discardAccount p c mode l
  | repairIntake => exact @named_repairIntake p c mode l
  | _ => exact named_refl l

/-- What holds whatever the attention set, after every step that keeps the account numbers, after the four requests that do
not and after a cold start, holds after every step. -/
theorem keeps_of_step {P : Ledger → Prop} (alerts : ∀ m attention, P m → P { m with attention := attention })
    (named : ∀ m, Named l m → P m) (opened : ∀ p c mode, P (openAccount p c mode l).1)
    (repaired : ∀ p c mode, P (repairAccount p c mode l).1) (written : ∀ p c mode, P (writeTariff p c mode l).1)
    (deleted : ∀ p c mode, P (deleteTariff p c mode l).1) (cold : P Ledger.cold) (step : LedgerStep l m) : P m := by
  induction step with
  | kept => exact named l (named_refl l)
  | alerted attention _ ih => exact alerts _ attention ih
  | requested k p c mode =>
    by_cases other : Installs k
    · cases k with
      | openAccount => exact opened p c mode
      | repairAccount => exact repaired p c mode
      | writeTariff => exact written p c mode
      | deleteTariff => exact deleted p c mode
      | _ => exact other.elim
    · exact named _ (named_ledgerWork other)
  | started t => exact named _ (quiet_eachOf (fun i l => quiet_startAccount l t i) allSlots l).named
  | aged c => exact named _ (quiet_ageOwners l c 0).named
  | folded i => exact named _ (named_foldChange l i)
  | visited c tag t i => exact named _ (quiet_visitAccount l c tag t i).named
  | closed c i => exact named _ (quiet_closeSlot l .ordinary c i).named
  | notified t => exact named _ (quiet_bandNotify l t).named
  | placed c mode e => exact named _ (quiet_placeEntry l c mode e).named
  | settled t => exact named _ (quiet_settleNext l t).named
  | swept p => exact named _ (quiet_sweep l p).named
  | caughtUp c => exact named _ (named_catchUp l)
  | warm => exact named _ (quiet_of_records (l := l) (m := l.warm) rfl rfl rfl rfl fun _ => List.nodup_nil).named
  | cold => exact cold

end

/-! ### An account installed (R13, R169) -/

section

variable {p : List Byte} {c : Calendar} {mode : Mode} {l : Ledger}

/-- The verification of the accounts keeps the tariffs. -/
theorem tariff_checkAccounts (l : Ledger) (t : TariffNo) : l.checkAccounts.tariff t = l.tariff t := by
  rw [Ledger.tariff, Ledger.tariff, Ledger.checkAccounts_tariffs]

/-- What OPEN_ACCOUNT leaves: its verifications alone, or an account written over a FREE slot, under a READY tariff, with a
number that no other account carries. -/
theorem openAccount_installs (p : List Byte) (c : Calendar) (mode : Mode) (l : Ledger) :
    Quiet l (openAccount p c mode l).1 ∨
      ∃ m i r t start, Quiet l m ∧ (m.account i).state = .free ∧ (m.tariff t).state = .ready ∧
        m.holder r.number none = none ∧ (openAccount p c mode l).1 = m.putAccount i (.opened r t start) := by
  simp only [openAccount]
  cases tariffOf (IdentityRequest.ofBytes p).tariff with
  | none => exact .inl (quiet_refl l)
  | some t =>
    dsimp only
    split
    · exact .inl (quiet_refl l)
    · have checked := quiet_checkTariff t l
      have settled := checked.trans_quiet (quiet_checkAccounts _)
      have tariffs := tariff_checkAccounts (l.checkTariff t) t
      generalize (l.checkTariff t).checkAccounts = m at settled tariffs
      generalize l.checkTariff t = n at checked tariffs
      split
      · exact .inl checked
      · next ready =>
        split
        · exact .inl settled
        · next unused =>
          split
          · exact .inl settled
          · next i found =>
            refine .inr ⟨m, i, _, t, _, settled, by simpa using List.find?_some found, ?_, by simpa using unused, rfl⟩
            rw [tariffs]
            simpa using ready

/-- The intakes that a repair of an account writes. -/
theorem named_repairIntakes (numbers others : List IntakeNo) :
    Named l (rewriteEach Intake.withoutChange others (rewriteEach Intake.released numbers l)) :=
  (named_rewriteEach l _ _).trans_named (named_rewriteEach _ _ _)

/-- What REPAIR_ACCOUNT leaves: its verifications alone, or the repair of a marked account, under a READY tariff, with a
number that no other account carries. -/
theorem repairAccount_installs (p : List Byte) (c : Calendar) (mode : Mode) (l : Ledger) :
    Quiet l (repairAccount p c mode l).1 ∨
      ∃ m i r t ratchet start, Quiet l m ∧ (l.account i).faultMark = true ∧ (m.tariff t).state = .ready ∧
        m.holder r.number (some i) = none ∧
        (repairAccount p c mode l).1 = carryOutRepair r t ratchet start i m := by
  simp only [repairAccount]
  cases tariffOf (IdentityRequest.ofBytes (p.drop 1)).tariff with
  | none => exact .inl (quiet_refl l)
  | some t =>
    refine addressFaulted_keeps (fun result => Quiet l result ∨ ∃ m i r t ratchet start, Quiet l m ∧
      (l.account i).faultMark = true ∧ (m.tariff t).state = .ready ∧ m.holder r.number (some i) = none ∧
      result = carryOutRepair r t ratchet start i m) (.inl (quiet_refl l)) fun i marked => ?_
    have checked := quiet_checkTariff t l
    have settled := checked.trans_quiet (quiet_checkAccounts _)
    have tariffs := tariff_checkAccounts (l.checkTariff t) t
    generalize (l.checkTariff t).checkAccounts = m at settled tariffs
    generalize l.checkTariff t = n at checked tariffs
    split
    · exact .inl checked
    · next ready =>
      split
      · exact .inl settled
      · next unused =>
        refine .inr ⟨m, i, _, t, _, _, settled, marked, ?_, by simpa using unused, rfl⟩
        rw [tariffs]
        simpa using ready

/-- A repair writes intakes, then the account. -/
theorem carryOutRepair_writes (r : IdentityRequest) (t : TariffNo) (ratchet : Vector (Option Nat) 11)
    (start : Option Seconds) (i : Slot) (l : Ledger) :
    ∃ n a, Named l n ∧ a.number = r.number ∧ carryOutRepair r t ratchet start i l = n.putAccount i a :=
  ⟨_, _, (quiet_checkIntakes l).named.trans_named (named_repairIntakes _ _), rfl, rfl⟩

end

/-! ### Account numbers (R2) -/

/-- No two accounts of a ledger that are not FREE carry the same number. -/
def Distinct (l : Ledger) : Prop :=
  ∀ i j, (l.account i).state ≠ .free → (l.account j).state ≠ .free → (l.account i).number = (l.account j).number → i = j

theorem numbersDistinct_iff (s : State) : s.NumbersDistinct ↔ Distinct s.ledger := Iff.rfl

section

variable {l m n : Ledger} {i : Slot} {a : Account}

theorem Distinct.of_named (distinct : Distinct l) (named : Named l m) : Distinct m := by
  intro i j occupied occupied' same
  obtain ⟨before, number⟩ := (named.account i).number occupied
  obtain ⟨before', number'⟩ := (named.account j).number occupied'
  exact distinct i j before before' (number ▸ number' ▸ same)

/-- No account that is not FREE, but for the exception, carries a number that nobody holds. -/
theorem number_ne_of_holder {number : Nat} {except : Option Slot} (unheld : l.holder number except = none) {j : Slot}
    (other : some j ≠ except) (occupied : (l.account j).state ≠ .free) : (l.account j).number ≠ number := by
  have := List.find?_eq_none.mp unheld j (mem_allSlots j)
  simpa [other, occupied] using this

/-- An account written with a number that no other carries. -/
theorem Distinct.putAccount (distinct : Distinct l)
    (unused : ∀ j, j ≠ i → (l.account j).state ≠ .free → (l.account j).number ≠ a.number) :
    Distinct (l.putAccount i a) := by
  obtain ⟨_, _, number, _, _⟩ := seal_fields a
  have other : ∀ j, j ≠ i → ((l.putAccount i a).account j).state ≠ .free →
      ((l.putAccount i a).account j).number ≠ ((l.putAccount i a).account i).number := by
    intro j different occupied
    rw [Ledger.account_putAccount_ne _ a (Ne.symm different)] at occupied
    rw [Ledger.account_putAccount_ne _ a (Ne.symm different), Ledger.account_putAccount_self, number]
    exact unused j different occupied
  intro j k occupied occupied' same
  by_cases hj : j = i
  · by_cases hk : k = i
    · exact hj.trans hk.symm
    · exact absurd (hj ▸ same.symm) (other k hk occupied')
  · by_cases hk : k = i
    · exact absurd (hk ▸ same) (other j hj occupied)
    · rw [Ledger.account_putAccount_ne _ a (Ne.symm hj)] at occupied same
      rw [Ledger.account_putAccount_ne _ a (Ne.symm hk)] at occupied' same
      exact distinct j k occupied occupied' same

theorem Distinct.openAccount (distinct : Distinct l) (p : List Byte) (c : Calendar) (mode : Mode) :
    Distinct (openAccount p c mode l).1 := by
  rcases openAccount_installs p c mode l with quiet | ⟨m, i, r, t, start, quiet, _, _, unheld, installed⟩
  · exact distinct.of_named quiet.named
  · rw [installed]
    exact (distinct.of_named quiet.named).putAccount fun j _ occupied => number_ne_of_holder unheld nofun occupied

theorem Distinct.repairAccount (distinct : Distinct l) (p : List Byte) (c : Calendar) (mode : Mode) :
    Distinct (repairAccount p c mode l).1 := by
  rcases repairAccount_installs p c mode l with quiet | ⟨m, i, r, t, ratchet, start, quiet, _, _, unheld, installed⟩
  · exact distinct.of_named quiet.named
  · obtain ⟨n, a, written, number, repaired⟩ := carryOutRepair_writes r t ratchet start i m
    rw [installed, repaired]
    refine ((distinct.of_named quiet.named).of_named written).putAccount fun j different occupied => ?_
    obtain ⟨before, same⟩ := (written.account j).number occupied
    rw [same, number]
    exact number_ne_of_holder unheld (fun same => different (Option.some.inj same)) before

end

/-! ### The tariff requests, as far as the accounts and the intakes go -/

section

variable {l : Ledger}

/-- The window and the maxima of an account that names a tariff written are renewed (R41). -/
theorem underNewTariff_keeps (bandCount : Nat) (a : Account) :
    a.underNewTariff bandCount =
      { a with
        window := (a.underNewTariff bandCount).window, ringPos := (a.underNewTariff bandCount).ringPos
        period := (a.underNewTariff bandCount).period } := by
  simp only [Account.underNewTariff]
  split <;> rfl

theorem quiet_renewAccount (t : TariffNo) (bandCount : Nat) (repair : Bool) (i : Slot) (l : Ledger) :
    Quiet l (renewAccount t bandCount repair i l) := by
  refine quiet_ite (quiet_refl l) ((quiet_checkAccount i l).trans_quiet (quiet_ite (quiet_refl _) ?_))
  have renewed (m : Ledger) : Quiet m (m.putAccount i ((m.account i).underNewTariff bandCount)) := by
    rw [underNewTariff_keeps]
    exact quiet_putAccount_of_phase rfl rfl rfl rfl rfl
  exact quiet_ite (.handedIfDue i (renewed _)) (renewed _)

theorem quiet_renewAccounts (t : TariffNo) (bandCount : Nat) (repair : Bool) (l : Ledger) :
    Quiet l (eachOf allSlots (renewAccount t bandCount repair) l) :=
  quiet_eachOf (fun i l => quiet_renewAccount t bandCount repair i l) allSlots l

/-- What WRITE_TARIFF leaves: at most the verification of the tariff, or the carried-out write. -/
theorem writeTariff_cases (p : List Byte) (c : Calendar) (mode : Mode) (l : Ledger) :
    Quiet l (writeTariff p c mode l).1 ∨
      ∃ w repair, validList w.header.bandCount w.work = true ∧ validList w.header.bandCount w.rest = true ∧
        TariffWrite.ofBytes p = some w ∧
        w.work.length + w.rest.length ≤ (freeEntries (l.checkTariff w.index).pool).length ∧
        (writeTariff p c mode l).1 = carryOutWrite w repair (l.checkTariff w.index) := by
  simp only [writeTariff]
  cases written : TariffWrite.ofBytes p with
  | none => exact .inl (quiet_refl l)
  | some w =>
    dsimp only
    have checked := quiet_checkTariff w.index l
    split
    · exact .inl (quiet_refl l)
    · next valid =>
      split
      · exact .inl (quiet_refl l)
      · split
        · exact .inl checked
        · split
          · exact .inl checked
          · next room =>
            simp only [Bool.not_eq_true', Bool.not_eq_false, Bool.and_eq_true] at valid
            exact .inr ⟨w, _, valid.1, valid.2, rfl, Nat.le_of_not_lt room, rfl⟩

/-- What DELETE_TARIFF leaves: all as it was, or the tariff EMPTY, its pool entries freed, and no account naming it. -/
theorem deleteTariff_cases (p : List Byte) (c : Calendar) (mode : Mode) (l : Ledger) :
    (deleteTariff p c mode l).1 = l ∨
      ∃ t, (l.naming t).isEmpty = true ∧
        (deleteTariff p c mode l).1 = Ledger.storeTariff t .empty { l with pool := freeOwned t [] l.pool } := by
  rw [deleteTariff]
  cases tariffOf (field 0 1 p) with
  | none => exact .inl rfl
  | some t =>
    dsimp only
    split
    · exact .inl rfl
    · split
      · exact .inl rfl
      · next unnamed =>
        split
        · exact .inl rfl
        · exact .inr ⟨t, by simpa using unnamed, rfl⟩

theorem account_placeLists (w : TariffWrite) (l : Ledger) (i : Slot) : (l.placeLists w).1.account i = l.account i := by
  simp only [Ledger.placeLists, Ledger.account]

theorem intake_placeLists (w : TariffWrite) (l : Ledger) (i : IntakeNo) : (l.placeLists w).1.intake i = l.intake i := by
  simp only [Ledger.placeLists, Ledger.intake]

theorem closeWork_placeLists (w : TariffWrite) (l : Ledger) : (l.placeLists w).1.closeWork = l.closeWork := by
  simp only [Ledger.placeLists]

/-- Each account, each intake and the Settlement Engine's list are as after a quiet operation, when a tariff is written. -/
theorem quiet_carryOutWrite (w : TariffWrite) (repair : Bool) (l : Ledger) :
    (∀ i, QuietAccount (l.account i) ((carryOutWrite w repair l).account i)) ∧
      (∀ i, QuietIntake (l.intake i) ((carryOutWrite w repair l).intake i)) ∧
      (l.closeWork.Nodup → (carryOutWrite w repair l).closeWork.Nodup) := by
  have renewed := quiet_renewAccounts w.index w.header.bandCount repair (l.placeLists w).1
  simp only [carryOutWrite, Ledger.account_storeTariff, Ledger.intake_storeTariff, Ledger.storeTariff_closeWork]
  refine ⟨fun i => ?_, fun i => ?_, ?_⟩
  · have := renewed.account i
    rw [account_placeLists] at this
    exact this
  · have := renewed.intake i
    rw [intake_placeLists] at this
    exact this
  · have := renewed.list
    rw [closeWork_placeLists] at this
    exact this

/-- A property of the accounts, the intakes and the Settlement Engine's list that quiet operations keep is kept by the tariff
requests. -/
theorem quiet_tariffRequest {l : Ledger} {P : Ledger → Prop}
    (quiet : ∀ m, (∀ i, QuietAccount (l.account i) (m.account i)) → (∀ i, QuietIntake (l.intake i) (m.intake i)) →
      (l.closeWork.Nodup → m.closeWork.Nodup) → P m)
    (p : List Byte) (c : Calendar) (mode : Mode) : P (writeTariff p c mode l).1 ∧ P (deleteTariff p c mode l).1 := by
  constructor
  · rcases writeTariff_cases p c mode l with same | ⟨w, repair, _, _, _, _, written⟩
    · exact quiet _ same.account same.intake same.list
    · obtain ⟨accounts, intakes, list⟩ := quiet_carryOutWrite w repair (l.checkTariff w.index)
      have checked := quiet_checkTariff w.index l
      rw [written]
      exact quiet _ (fun i => (checked.account i).trans (accounts i)) (fun i => (checked.intake i).trans (intakes i))
        fun once => list (checked.list once)
  · rcases deleteTariff_cases p c mode l with same | ⟨t, _, deleted⟩
    · rw [same]
      exact quiet l (fun _ => .refl _) (fun _ => .refl _) id
    · rw [deleted]
      exact quiet _ (fun _ => .refl _) (fun _ => .refl _) id

end

section

variable {l m : Ledger}

/-- Every step of the ledger keeps the account numbers distinct. -/
theorem Distinct.of_step (distinct : Distinct l) (step : LedgerStep l m) : Distinct m := by
  have tariffs (p : List Byte) (c : Calendar) (mode : Mode) :=
    quiet_tariffRequest (l := l) (P := Distinct) (fun m accounts _ _ i j occupied occupied' same => by
      obtain ⟨before, number⟩ := (accounts i).number occupied
      obtain ⟨before', number'⟩ := (accounts j).number occupied'
      exact distinct i j before before' (number ▸ number' ▸ same)) p c mode
  exact keeps_of_step (fun _ _ so => so) (fun _ named => distinct.of_named named) distinct.openAccount distinct.repairAccount
    (fun p c mode => (tariffs p c mode).1) (fun p c mode => (tariffs p c mode).2) ResetState.numbersDistinct_reset step

end

/-- Settles O18: every step of the ledger keeps the numbers, or installs an account whose number no other carries. -/
theorem accountNumbersStayDistinct : Obligations.AccountNumbersStayDistinct :=
  fun _ _ distinct stepped => Distinct.of_step distinct (ledgerStep_of_step stepped)

end Sys2Proof.Machine.RecordEdits
end

section
/-! The switch-point pool (R32, R33): chains written over its free entries, the walks that reach them, and the entries of
the other tariffs. -/

namespace Sys2Proof.Machine.SwitchPool

open Sys2Proof Sys2Proof.Machine

abbrev Pool := Vector PoolEntry 128

/-! ### Chains -/

/-- The entry of a chain that carries a point and is followed by the rest. -/
def entryOf (owner : PoolOwner) (point : SwitchPoint) (rest : List (Fin 128 × SwitchPoint)) : PoolEntry :=
  { point := point, next := rest.head?.map (·.1.val), owner := some owner }

/-- A pool that holds a chain over the entries given, each with its point. -/
def Chained (owner : PoolOwner) (pool : Pool) : List (Fin 128 × SwitchPoint) → Prop
  | [] => True
  | (k, point) :: rest => pool[k.val] = entryOf owner point rest ∧ Chained owner pool rest

section

variable {owner : PoolOwner} {pool pool' : Pool} {chain : List (Fin 128 × SwitchPoint)}

/-- The walk from the head of a chain reaches its points (R38). -/
theorem walk_of_chained (chained : Chained owner pool chain) :
    walk pool owner chain.length (chain.head?.map (·.1.val)) = some (chain.map (·.2)) := by
  induction chain with
  | nil => rfl
  | cons entry rest ih =>
    obtain ⟨k, point⟩ := entry
    obtain ⟨here, further⟩ := chained
    have reached := ih further
    simp only [List.length_cons, List.head?_cons, Option.map_some, walk, k.isLt, dif_pos, here, entryOf, reached, if_true,
      List.map_cons]

/-- A chain is written over its own entries alone. -/
theorem writeChain_of_not_mem {k : Fin 128} (other : k ∉ chain.map (·.1)) :
    (writeChain owner chain pool)[k.val] = pool[k.val] := by
  induction chain generalizing pool with
  | nil => rfl
  | cons entry rest ih =>
    obtain ⟨j, point⟩ := entry
    simp only [List.map_cons, List.mem_cons, not_or] at other
    obtain ⟨different, further⟩ := other
    rw [writeChain, ih further]
    exact Vector.getElem_set_ne _ _ fun same => different (Fin.ext same.symm)

/-- A pool that agrees on its entries holds the same chain. -/
theorem Chained.of_agree (chained : Chained owner pool chain)
    (agree : ∀ k ∈ chain.map (·.1), pool'[k.val] = pool[k.val]) : Chained owner pool' chain := by
  induction chain with
  | nil => trivial
  | cons entry rest ih =>
    obtain ⟨here, further⟩ := chained
    exact ⟨(agree _ List.mem_cons_self).trans here, ih further fun k mem => agree k (List.mem_cons_of_mem _ mem)⟩

/-- A chain written over entries, each once, stands in the pool. -/
theorem chained_writeChain (once : (chain.map (·.1)).Nodup) : Chained owner (writeChain owner chain pool) chain := by
  induction chain generalizing pool with
  | nil => trivial
  | cons entry rest ih =>
    obtain ⟨k, point⟩ := entry
    obtain ⟨apart, further⟩ := List.nodup_cons.mp once
    refine ⟨?_, ih further⟩
    rw [writeChain, writeChain_of_not_mem apart]
    exact Vector.getElem_set_self ..

/-- A walk that succeeds meets entries of its owner alone, so it depends on these (R38). -/
theorem walk_of_agree (agree : ∀ k : Fin 128, pool[k.val].owner = some owner → pool'[k.val] = pool[k.val]) {count : Nat}
    {link : Option Nat} {points : List SwitchPoint} (reached : walk pool owner count link = some points) :
    walk pool' owner count link = some points := by
  induction count generalizing link points with
  | zero =>
    cases link with
    | none => exact reached
    | some i => exact nomatch reached
  | succ count ih =>
    cases link with
    | none => exact nomatch reached
    | some i =>
      rw [walk] at reached ⊢
      split at reached
      · next inside =>
        split at reached
        · next owned =>
          obtain ⟨further, walked, rfl⟩ := Option.map_eq_some_iff.mp reached
          have same := agree ⟨i, inside⟩ owned
          rw [dif_pos inside]
          simp only at same
          rw [same, if_pos owned, ih walked, Option.map_some]
        · exact nomatch reached
      · exact nomatch reached

end

/-! ### Free entries -/

section

variable {pool : Pool} {t : TariffNo} {kept : List (Fin 128)} {k : Fin 128}

theorem mem_freeEntries : k ∈ freeEntries pool ↔ pool[k.val].owner = none := by
  simp [freeEntries]

theorem freeEntries_nodup (pool : Pool) : (freeEntries pool).Nodup := (List.nodup_finRange 128).filter _

/-- Entries kept stay. -/
theorem freeOwned_of_kept (mem : k ∈ kept) : (freeOwned t kept pool)[k.val] = pool[k.val] := by
  simp [freeOwned, mem]

/-- Entries of other tariffs stay. -/
theorem freeOwned_of_other (other : (pool[k.val].owner.map (·.tariff)) ≠ some t) :
    (freeOwned t kept pool)[k.val] = pool[k.val] := by
  simp only [freeOwned, Vector.getElem_ofFn]
  rw [if_neg (fun owned => other owned.1)]

/-- Entries of the tariff that are not kept are freed. -/
theorem freeOwned_of_owned (owned : pool[k.val].owner.map (·.tariff) = some t) (mem : k ∉ kept) :
    (freeOwned t kept pool)[k.val] = PoolEntry.free := by
  simp only [freeOwned, Vector.getElem_ofFn]
  rw [if_pos ⟨owned, mem⟩]

end

/-! ### The lists of a tariff placed (R33) -/

/-- The entries that the working-day points of a write take: the lowest free ones. -/
def workEntries (w : TariffWrite) (pool : Pool) : List (Fin 128) := (freeEntries pool).take w.work.length

/-- The entries that the rest-day points take: the next free ones. -/
def restEntries (w : TariffWrite) (pool : Pool) : List (Fin 128) :=
  ((freeEntries pool).drop w.work.length).take w.rest.length

/-- Both chains written over the pool. -/
def chainsWritten (w : TariffWrite) (pool : Pool) : Pool :=
  writeChain ⟨w.index, .rest⟩ ((restEntries w pool).zip w.rest)
    (writeChain ⟨w.index, .working⟩ ((workEntries w pool).zip w.work) pool)

/-- The pool that a write leaves. -/
def poolWritten (w : TariffWrite) (pool : Pool) : Pool :=
  freeOwned w.index (workEntries w pool ++ restEntries w pool) (chainsWritten w pool)

theorem placeLists_eq (w : TariffWrite) (l : Ledger) :
    l.placeLists w =
      ({ l with pool := poolWritten w l.pool },
        { w.header with
          workHead := (workEntries w l.pool).head?.map (·.val)
          restHead := (restEntries w l.pool).head?.map (·.val) }) := rfl

section

variable {w : TariffWrite} {pool : Pool} {k : Fin 128}

theorem workEntries_append_restEntries (w : TariffWrite) (pool : Pool) :
    workEntries w pool ++ restEntries w pool = (freeEntries pool).take (w.work.length + w.rest.length) := by
  rw [workEntries, restEntries, List.take_add]

theorem entries_nodup (w : TariffWrite) (pool : Pool) : (workEntries w pool ++ restEntries w pool).Nodup := by
  rw [workEntries_append_restEntries]
  exact (List.take_sublist _ _).nodup (freeEntries_nodup pool)

/-- The entries taken were free. -/
theorem owner_of_taken (mem : k ∈ workEntries w pool ++ restEntries w pool) : pool[k.val].owner = none := by
  rw [workEntries_append_restEntries] at mem
  exact mem_freeEntries.mp (List.mem_of_mem_take mem)

theorem length_workEntries (room : w.work.length + w.rest.length ≤ (freeEntries pool).length) :
    (workEntries w pool).length = w.work.length := by
  rw [workEntries, List.length_take]
  omega

theorem length_restEntries (room : w.work.length + w.rest.length ≤ (freeEntries pool).length) :
    (restEntries w pool).length = w.rest.length := by
  rw [restEntries, List.length_take, List.length_drop]
  omega

theorem fst_zip_subset {entries : List (Fin 128)} {points : List SwitchPoint} {k : Fin 128}
    (mem : k ∈ (entries.zip points).map (·.1)) : k ∈ entries := by
  obtain ⟨⟨_, _⟩, zipped, rfl⟩ := List.mem_map.mp mem
  exact (List.of_mem_zip zipped).1

theorem nodup_fst_zip {entries : List (Fin 128)} {points : List SwitchPoint} (once : entries.Nodup)
    (short : entries.length ≤ points.length) : ((entries.zip points).map (·.1)).Nodup := by
  have fst : (entries.zip points).map (·.1) = entries := List.map_fst_zip short
  rw [fst]
  exact once

/-- An entry that no chain takes is written by none. -/
theorem chainsWritten_of_untaken (untaken : k ∉ workEntries w pool ++ restEntries w pool) :
    (chainsWritten w pool)[k.val] = pool[k.val] := by
  rw [List.mem_append, not_or] at untaken
  obtain ⟨notWork, notRest⟩ := untaken
  rw [chainsWritten, writeChain_of_not_mem fun mem => notRest (fst_zip_subset mem),
    writeChain_of_not_mem fun mem => notWork (fst_zip_subset mem)]

/-- An entry of another tariff stays as it is (R33). -/
theorem poolWritten_of_other {o : PoolOwner} (owned : pool[k.val].owner = some o) (other : o.tariff ≠ w.index) :
    (poolWritten w pool)[k.val] = pool[k.val] := by
  have untaken : k ∉ workEntries w pool ++ restEntries w pool := fun mem => by
    rw [owner_of_taken mem] at owned
    exact nomatch owned
  have written := chainsWritten_of_untaken (w := w) untaken
  rw [poolWritten, freeOwned_of_other, written]
  rw [written, owned]
  exact fun same => other (Option.some.inj same)

/-- An entry that the tariff owned before is freed (R33). -/
theorem poolWritten_of_owned {o : PoolOwner} (owned : pool[k.val].owner = some o) (own : o.tariff = w.index) :
    (poolWritten w pool)[k.val] = PoolEntry.free := by
  have untaken : k ∉ workEntries w pool ++ restEntries w pool := fun mem => by
    rw [owner_of_taken mem] at owned
    exact nomatch owned
  have written := chainsWritten_of_untaken (w := w) untaken
  refine freeOwned_of_owned ?_ untaken
  rw [written, owned, Option.map_some, own]

/-- A free entry that no point takes stays as it is. -/
theorem poolWritten_of_free (free : pool[k.val].owner = none) (untaken : k ∉ workEntries w pool ++ restEntries w pool) :
    (poolWritten w pool)[k.val] = pool[k.val] := by
  have written := chainsWritten_of_untaken (w := w) untaken
  rw [poolWritten, freeOwned_of_other, written]
  rw [written, free]
  exact nofun

/-- The chain of the working-day points stands in the pool that a write leaves. -/
theorem chained_work (w : TariffWrite) (pool : Pool) :
    Chained ⟨w.index, .working⟩ (poolWritten w pool) ((workEntries w pool).zip w.work) := by
  obtain ⟨once, _, apart⟩ := List.nodup_append.mp (entries_nodup w pool)
  have zipped := nodup_fst_zip (points := w.work) once (List.length_take_le ..)
  refine (chained_writeChain zipped).of_agree (pool := writeChain ⟨w.index, .working⟩ _ pool) fun k mem => ?_
  have work := fst_zip_subset mem
  rw [poolWritten, freeOwned_of_kept (List.mem_append_left _ work), chainsWritten,
    writeChain_of_not_mem fun mem' => apart k work k (fst_zip_subset mem') rfl]

/-- So does the chain of the rest-day points. -/
theorem chained_rest (w : TariffWrite) (pool : Pool) :
    Chained ⟨w.index, .rest⟩ (poolWritten w pool) ((restEntries w pool).zip w.rest) := by
  obtain ⟨_, once, _⟩ := List.nodup_append.mp (entries_nodup w pool)
  have zipped := nodup_fst_zip (points := w.rest) once (List.length_take_le ..)
  refine (chained_writeChain zipped).of_agree (pool := chainsWritten w pool) fun k mem => ?_
  rw [poolWritten, freeOwned_of_kept (List.mem_append_right _ (fst_zip_subset mem))]

/-- The walk over a chain zipped from as many entries as points reaches the points. -/
theorem walk_of_zip {owner : PoolOwner} {entries : List (Fin 128)} {points : List SwitchPoint}
    (same : entries.length = points.length) (chained : Chained owner pool (entries.zip points)) :
    walk pool owner points.length (entries.head?.map (·.val)) = some points := by
  have reached := walk_of_chained chained
  have head : (entries.zip points).head?.map (·.1.val) = entries.head?.map (·.val) := by
    cases entries with
    | nil => rfl
    | cons k rest =>
      cases points with
      | nil => exact nomatch same
      | cons q further => rfl
  rw [head, List.length_zip, same, Nat.min_self, List.map_snd_zip (Nat.le_of_eq same.symm)] at reached
  exact reached

end

/-! ### What WRITE_TARIFF carries -/

theorem length_readPoints (count : Nat) (p : List Byte) : (readPoints count p).length = count := by
  induction count generalizing p with
  | zero => rfl
  | succ count ih => rw [readPoints, List.length_cons, ih]

/-- The counts of the header are those of the lists (Table 11-3), and the header has no mark. -/
theorem counts_of_write {p : List Byte} {w : TariffWrite} (written : TariffWrite.ofBytes p = some w) :
    w.header.workCount = w.work.length ∧ w.header.restCount = w.rest.length ∧ w.header.faultMark = false := by
  rw [TariffWrite.ofBytes] at written
  split at written
  · split at written
    · obtain rfl := Option.some.inj written
      exact ⟨(length_readPoints _ _).symm, (length_readPoints _ _).symm, rfl⟩
    · exact nomatch written
  · exact nomatch written

/-- A valid list holds a point (R34). -/
theorem length_pos_of_validList {bands : Nat} {points : List SwitchPoint} (valid : validList bands points = true) :
    1 ≤ points.length := by
  simp only [validList, Bool.and_eq_true, decide_eq_true_eq] at valid
  exact valid.1.1.1.1

/-- The tariff that a write leaves, its check word included (R41). -/
def tariffWritten (w : TariffWrite) (pool : Pool) : Tariff :=
  let placed : Tariff :=
    { w.header with
      workHead := (workEntries w pool).head?.map (·.val), restHead := (restEntries w pool).head?.map (·.val) }
  { placed with checkWord := crc (placed.image w.work w.rest) }

section

variable {w : TariffWrite} {pool : Pool} {p : List Byte}

/-- The walks of a tariff written reach the points given (R33). -/
theorem points_written (written : TariffWrite.ofBytes p = some w)
    (room : w.work.length + w.rest.length ≤ (freeEntries pool).length) :
    (tariffWritten w pool).points (poolWritten w pool) w.index = some (w.work, w.rest) := by
  obtain ⟨work, rest, _⟩ := counts_of_write written
  have reachesWork := walk_of_zip (length_workEntries room) (chained_work w pool)
  have reachesRest := walk_of_zip (length_restEntries room) (chained_rest w pool)
  simp only [Tariff.points, tariffWritten, work, rest, reachesWork, reachesRest]

/-- A tariff written with valid lists is READY. -/
theorem state_written (written : TariffWrite.ofBytes p = some w)
    (valid : validList w.header.bandCount w.work = true) : (tariffWritten w pool).state = .ready := by
  obtain ⟨work, _, mark⟩ := counts_of_write written
  have holds := length_pos_of_validList valid
  have count : ¬(w.header.workCount = 0 ∧ w.header.restCount = 0) := fun none => by omega
  simp [Tariff.state, tariffWritten, mark, count]

/-- A tariff written verifies. -/
theorem checks_written (written : TariffWrite.ofBytes p = some w)
    (valid : validList w.header.bandCount w.work = true)
    (room : w.work.length + w.rest.length ≤ (freeEntries pool).length) :
    (tariffWritten w pool).checks (poolWritten w pool) w.index = true := by
  have state := state_written (pool := pool) written valid
  have ready : ((tariffWritten w pool).state != .empty) = true := by rw [state]; rfl
  simp only [Tariff.checks, points_written written room, ready, Bool.true_or, Bool.and_true]
  exact beq_self_eq_true _

end

/-! ### The tariffs verified (R38, R164) -/

/-- The walks of another tariff reach what they reached, when its entries stay. -/
theorem points_of_agree {pool pool' : Pool} {t : Tariff} {i : TariffNo} {lists : List SwitchPoint × List SwitchPoint}
    (agree : ∀ k : Fin 128, pool[k.val].owner.map (·.tariff) = some i → pool'[k.val] = pool[k.val])
    (reached : t.points pool i = some lists) : t.points pool' i = some lists := by
  have own (kind : ListKind) : ∀ k : Fin 128, pool[k.val].owner = some ⟨i, kind⟩ → pool'[k.val] = pool[k.val] :=
    fun k owned => agree k (by rw [owned]; rfl)
  rw [Tariff.points] at reached ⊢
  split at reached
  · next work rest =>
    rw [walk_of_agree (own .working) work, walk_of_agree (own .rest) rest]
    exact reached
  · exact nomatch reached

theorem checks_of_agree {pool pool' : Pool} {t : Tariff} {i : TariffNo}
    (agree : ∀ k : Fin 128, pool[k.val].owner.map (·.tariff) = some i → pool'[k.val] = pool[k.val])
    (checks : t.checks pool i = true) : t.checks pool' i = true := by
  rw [Tariff.checks] at checks ⊢
  cases reached : t.points pool i with
  | none =>
    rw [reached] at checks
    exact nomatch checks
  | some lists =>
    rw [points_of_agree agree reached]
    rw [reached] at checks
    exact checks

end Sys2Proof.Machine.SwitchPool
end

section
/-! Check words (R38, R164): after any step a record that is not marked carries the check word of its content, and a
tariff that is not marked verifies. -/

namespace Sys2Proof.Machine.CheckWords

open Sys2Proof Sys2Proof.Machine Sys2Proof.Machine.LedgerSteps Sys2Proof.Machine.RecordEdits Sys2Proof.Machine.SwitchPool

/-! ### Accounts and intakes -/

/-- Every account and intake is marked or carries the check word of its content. -/
def Sealed (l : Ledger) : Prop :=
  (∀ i, (l.account i).faultMark = true ∨ crc (l.account i).image = (l.account i).checkWord) ∧
    ∀ i, (l.intake i).faultMark = true ∨ crc (l.intake i).image = (l.intake i).checkWord

theorem recordsSealed_iff (s : State) : s.RecordsSealed ↔ Sealed s.ledger := Iff.rfl

section

variable {l m : Ledger} (p : List Byte) (c : Calendar) (mode : Mode)

theorem Sealed.of_records (wasSealed : Sealed l) (accounts : ∀ i, ResealedAccount (l.account i) (m.account i))
    (intakes : ∀ i, ResealedIntake (l.intake i) (m.intake i)) : Sealed m := by
  refine ⟨fun i => ?_, fun i => ?_⟩
  · rcases accounts i with same | marked | checks
    · rw [same]
      exact wasSealed.1 i
    · exact .inl marked
    · exact .inr (beq_iff_eq.mp checks)
  · rcases intakes i with same | marked | checks
    · rw [same]
      exact wasSealed.2 i
    · exact .inl marked
    · exact .inr checks

/-- An account installed is sealed. -/
theorem sealing_openAccount (l : Ledger) : Sealing l (openAccount p c mode l).1 := by
  rcases openAccount_installs p c mode l with quiet | ⟨m, i, r, t, start, quiet, _, _, _, installed⟩
  · exact quiet.named.sealing
  · rw [installed]
    exact quiet.named.sealing.trans_sealing (sealing_putAccount i _ m)

theorem sealing_repairAccount (l : Ledger) : Sealing l (repairAccount p c mode l).1 := by
  rcases repairAccount_installs p c mode l with quiet | ⟨m, i, r, t, ratchet, start, quiet, _, _, _, installed⟩
  · exact quiet.named.sealing
  · obtain ⟨n, a, written, _, repaired⟩ := carryOutRepair_writes r t ratchet start i m
    rw [installed, repaired]
    exact (quiet.named.trans_named written).sealing.trans_sealing (sealing_putAccount i a n)

/-- Every step of the ledger seals what it writes. -/
theorem Sealed.of_step (wasSealed : Sealed l) (step : LedgerStep l m) : Sealed m := by
  have edited (m : Ledger) (edits : Sealing l m) : Sealed m := wasSealed.of_records edits.account edits.intake
  have tariffs (p : List Byte) (c : Calendar) (mode : Mode) :=
    quiet_tariffRequest (l := l) (P := Sealed) (fun m accounts intakes _ =>
      wasSealed.of_records (fun i => (accounts i).resealed) fun i => (intakes i).resealed) p c mode
  exact keeps_of_step (fun _ _ so => so) (fun _ named => edited _ named.sealing)
    (fun p c mode => edited _ (sealing_openAccount p c mode l)) (fun p c mode => edited _ (sealing_repairAccount p c mode l))
    (fun p c mode => (tariffs p c mode).1) (fun p c mode => (tariffs p c mode).2) ResetState.recordsSealed_reset step

end

/-! ### Tariffs -/

/-- Every tariff is marked or verifies. -/
def Verified (l : Ledger) : Prop := ∀ i, (l.tariff i).faultMark = true ∨ (l.tariff i).checks l.pool i = true

theorem tariffsVerified_iff (s : State) : s.TariffsVerified ↔ Verified s.ledger := Iff.rfl

section

variable {l m : Ledger} {t : TariffNo} {p : List Byte} {w : TariffWrite} {repair : Bool}

theorem Verified.of_edits {Ra : Account → Account → Prop} {Rx : Intake → Intake → Prop} (verified : Verified l)
    (edits : Edits Ra Rx l m) : Verified m := by
  intro i
  rcases edits.tariff i with same | marked
  · rw [same, edits.pool]
    exact verified i
  · exact .inl marked

/-- A tariff stored that verifies over a pool in which the entries of the others stay. -/
theorem Verified.of_stored (verified : Verified l) {record : Tariff} (others : ∀ i, i ≠ t → m.tariff i = l.tariff i)
    (here : m.tariff t = record) (checks : record.checks m.pool t = true)
    (agree : ∀ (i : TariffNo) (k : Fin 128), i ≠ t → l.pool[k.val].owner.map (·.tariff) = some i →
      m.pool[k.val] = l.pool[k.val]) : Verified m := by
  intro i
  by_cases same : i = t
  · rw [same, here]
    exact .inr checks
  · rw [others i same]
    exact (verified i).imp_right (checks_of_agree fun k owned => agree i k same owned)

/-- The accounts renewed, a write leaves the other tariffs as they were or marked. -/
theorem carryOutWrite_eq (w : TariffWrite) (repair : Bool) (l : Ledger) :
    carryOutWrite w repair l =
      (eachOf allSlots (renewAccount w.index w.header.bandCount repair)
        { l with pool := poolWritten w l.pool }).storeTariff w.index (tariffWritten w l.pool) := by
  rw [carryOutWrite, placeLists_eq, tariffWritten]

/-- The accounts renewed keep the tariffs. -/
theorem tariffs_renewAccount (t : TariffNo) (bandCount : Nat) (repair : Bool) (i : Slot) (l : Ledger) :
    (renewAccount t bandCount repair i l).tariffs = l.tariffs := by
  have handed (m : Ledger) : (m.handIfDue i).tariffs = m.tariffs := by
    rw [Ledger.handIfDue]
    split
    · rcases m.handToSettlement_cases i with same | handed
      · rw [same]
      · rw [handed]
    · rfl
  simp only [renewAccount]
  split
  · rfl
  · split
    · exact l.checkAccount_tariffs i
    · split
      · rw [handed]
        exact l.checkAccount_tariffs i
      · exact l.checkAccount_tariffs i

theorem tariff_withPool (l : Ledger) (pool : Pool) (i : TariffNo) : ({ l with pool := pool } : Ledger).tariff i = l.tariff i := by
  simp only [Ledger.tariff]

theorem tariff_carryOutWrite (w : TariffWrite) (repair : Bool) (l : Ledger) (i : TariffNo) :
    (carryOutWrite w repair l).tariff i = if w.index = i then tariffWritten w l.pool else l.tariff i := by
  have kept : ∀ m : Ledger, (eachOf allSlots (renewAccount w.index w.header.bandCount repair) m).tariff i = m.tariff i :=
    fun m => eachOf_keeps_value (fun m => m.tariff i)
      (fun j _ m => by rw [Ledger.tariff, Ledger.tariff, tariffs_renewAccount]) m
  rw [carryOutWrite_eq, Ledger.tariff_storeTariff, kept, tariff_withPool]

theorem pool_carryOutWrite (w : TariffWrite) (repair : Bool) (l : Ledger) :
    (carryOutWrite w repair l).pool = poolWritten w l.pool := by
  rw [carryOutWrite_eq, Ledger.storeTariff_pool]
  exact (quiet_renewAccounts w.index w.header.bandCount repair { l with pool := poolWritten w l.pool }).pool

theorem Verified.carryOutWrite (verified : Verified l) (written : TariffWrite.ofBytes p = some w)
    (valid : validList w.header.bandCount w.work = true)
    (room : w.work.length + w.rest.length ≤ (freeEntries l.pool).length) : Verified (carryOutWrite w repair l) := by
  refine verified.of_stored (t := w.index) (record := tariffWritten w l.pool) (fun i other => ?_) ?_ ?_ fun i k other owned => ?_
  · rw [tariff_carryOutWrite, if_neg (Ne.symm other)]
  · rw [tariff_carryOutWrite, if_pos rfl]
  · rw [pool_carryOutWrite]
    exact checks_written written valid room
  · obtain ⟨o, owner, own⟩ := Option.map_eq_some_iff.mp owned
    rw [pool_carryOutWrite]
    exact poolWritten_of_other owner (own ▸ other)

theorem Verified.writeTariff (verified : Verified l) (p : List Byte) (c : Calendar) (mode : Mode) :
    Verified (writeTariff p c mode l).1 := by
  rcases writeTariff_cases p c mode l with quiet | ⟨w, repair, valid, _, written, room, carried⟩
  · exact verified.of_edits quiet
  · rw [carried]
    exact (verified.of_edits (quiet_checkTariff w.index l)).carryOutWrite written valid room

theorem Verified.deleteTariff (verified : Verified l) (p : List Byte) (c : Calendar) (mode : Mode) :
    Verified (deleteTariff p c mode l).1 := by
  rcases deleteTariff_cases p c mode l with same | ⟨t, _, deleted⟩
  · rw [same]
    exact verified
  · rw [deleted]
    refine verified.of_stored (t := t) (record := .empty) (fun i other => ?_) ?_ (ResetState.checks_empty _ t)
      fun i k other owned => ?_
    · rw [Ledger.tariff_storeTariff, if_neg (Ne.symm other), tariff_withPool]
    · rw [Ledger.tariff_storeTariff, if_pos rfl]
    · refine freeOwned_of_other ?_
      rw [owned]
      exact fun same => other (Option.some.inj same)

theorem Verified.of_step (verified : Verified l) (step : LedgerStep l m) : Verified m :=
  keeps_of_step (fun _ _ so => so) (fun _ named => verified.of_edits named)
    (fun p c mode => verified.of_edits (sealing_openAccount p c mode l))
    (fun p c mode => verified.of_edits (sealing_repairAccount p c mode l)) verified.writeTariff verified.deleteTariff
    ResetState.tariffsVerified_reset step

end

/-- Settles O53: every step of the ledger seals the accounts and intakes that it writes, and a tariff written or deleted
verifies while the entries of the others stay. -/
theorem checkWordsAreKept : Obligations.CheckWordsAreKept :=
  ⟨fun _ _ wasSealed stepped => Sealed.of_step wasSealed (ledgerStep_of_step stepped),
    fun _ _ verified stepped => Verified.of_step verified (ledgerStep_of_step stepped)⟩

end Sys2Proof.Machine.CheckWords
end

section
/-! The law of the link (R76): lane by lane, what the Intake Link Controller does to the credits outstanding and the queued
entries, and what the Arrival Queue gains and loses with them. -/

namespace Sys2Proof.Machine.LinkLaw

open Sys2Proof Sys2Proof.Machine

/-! ### One lane -/

/-- The law of one lane with so many entries in the Arrival Queue. -/
structure LaneLaw (entries : Nat) (n : Lane) : Prop where
  bound : n.outstanding + n.queued ≤ Config.maxAllotment
  queued : n.queued = entries
  positive : 1 ≤ n.allotment
  most : n.allotment ≤ Config.maxAllotment

section

variable {n m : Lane} {entries : Nat} {mode : Mode}

/-- A lane with the entries and the allotment of another, and no more credits outstanding. -/
theorem LaneLaw.of_le (law : LaneLaw entries n) (outstanding : m.outstanding ≤ n.outstanding)
    (queued : m.queued = n.queued) (allotment : m.allotment = n.allotment) : LaneLaw entries m := by
  obtain ⟨bound, count, positive, most⟩ := law
  exact ⟨by omega, by omega, by omega, by omega⟩

theorem LaneLaw.isolate (law : LaneLaw entries n) : LaneLaw entries n.isolate := law.of_le (Nat.zero_le _) rfl rfl

theorem LaneLaw.enterSyncing (law : LaneLaw entries n) : LaneLaw entries n.enterSyncing :=
  law.of_le (Nat.zero_le _) rfl rfl

theorem LaneLaw.lose (law : LaneLaw entries n) : LaneLaw entries n.lose := law.of_le (Nat.zero_le _) rfl rfl

theorem LaneLaw.countError (law : LaneLaw entries n) : LaneLaw entries n.countError.1 :=
  law.of_le n.countError_outstanding n.countError_queued n.countError_allotment

theorem LaneLaw.returnCredit (law : LaneLaw entries n) : LaneLaw entries (n.returnCredit mode) := by
  obtain ⟨bound, count, positive, most⟩ := law
  refine ⟨n.returnCredit_bound mode Config.maxAllotment bound most, ?_, ?_, ?_⟩
  · rwa [Lane.returnCredit_queued]
  · rwa [Lane.returnCredit_allotment]
  · rwa [Lane.returnCredit_allotment]

/-- Credits granted up to the allotment. -/
theorem LaneLaw.grant (law : LaneLaw entries n) {k : Nat}
    (room : n.outstanding + n.queued + k ≤ max (n.outstanding + n.queued) n.allotment) : LaneLaw entries (n.grant k) := by
  obtain ⟨bound, count, positive, most⟩ := law
  refine ⟨?_, ?_, ?_, ?_⟩
  · rw [Lane.grant_outstanding, Lane.grant_queued]
    omega
  · rwa [Lane.grant_queued]
  · rwa [Lane.grant_allotment]
  · rwa [Lane.grant_allotment]

theorem LaneLaw.announce (law : LaneLaw entries n) (tag : Tag) (time : Option Seconds) :
    LaneLaw entries (n.announce tag time) := law.of_le (Nat.le_refl _) rfl rfl

theorem LaneLaw.discardFrame (law : LaneLaw entries n) : LaneLaw entries (n.discardFrame mode) := by
  rw [Lane.discardFrame]
  split
  · exact (law.of_le (m := { n with outstanding := n.outstanding - 1 }) (Nat.sub_le _ _) rfl rfl).returnCredit
  · exact law

theorem LaneLaw.openSession (law : LaneLaw entries n) (tag : Tag) (time : Option Seconds) :
    LaneLaw entries (n.openSession mode tag time) := by
  have quiet : LaneLaw entries { n with outstanding := 0, toSend := 0 } := law.of_le (Nat.zero_le _) rfl rfl
  rw [Lane.openSession]
  dsimp only
  split
  · refine (quiet.announce tag time).grant ?_
    simp only [Lane.announce, Lane.send]
    omega
  · exact quiet

theorem LaneLaw.takeHello (law : LaneLaw entries n) (tag : Tag) (time : Option Seconds) (frontEnd : BitVec 16)
    (firstSeq : Byte) : LaneLaw entries (n.takeHello mode tag time frontEnd firstSeq) := by
  rw [Lane.takeHello]
  dsimp only
  split
  · refine LaneLaw.openSession ?_ tag time
    exact law.of_le (Nat.le_refl _) rfl rfl
  · refine LaneLaw.openSession ?_ tag time
    exact law.of_le (Nat.le_refl _) rfl rfl
  · exact law
  · exact law

theorem LaneLaw.enterRun (law : LaneLaw entries n) (tag : Tag) (time : Option Seconds) :
    LaneLaw entries (n.enterRun tag time) := by
  have restarted : LaneLaw entries { n with errorCount := 0 } := law.of_le (Nat.le_refl _) rfl rfl
  rw [Lane.enterRun]
  dsimp only
  split
  · refine (restarted.announce tag time).grant ?_
    simp only [Lane.announce, Lane.send]
    omega
  · exact restarted

/-- A lane set to an allotment from 1 to 8 (R81). -/
theorem LaneLaw.set (law : LaneLaw entries n) {allotment errorLimit : Nat} (positive : 1 ≤ allotment)
    (most : allotment ≤ Config.maxAllotment) : LaneLaw entries (n.set mode allotment errorLimit) := by
  have changed : LaneLaw entries { n with allotment := allotment, errorLimit := errorLimit } :=
    ⟨law.bound, law.queued, positive, most⟩
  rw [Lane.set]
  dsimp only
  split
  · refine changed.grant ?_
    dsimp only
    omega
  · exact changed

theorem LaneLaw.atBoundary (law : LaneLaw entries n) (tag : Tag) (time : Seconds) :
    LaneLaw entries (n.atBoundary tag time) := by
  rw [Lane.atBoundary]
  dsimp only
  split <;> exact law.of_le (Nat.le_refl _) rfl rfl

theorem LaneLaw.transmit (law : LaneLaw entries n) : LaneLaw entries n.transmit := by
  rw [Lane.transmit]
  split <;> exact law.of_le (Nat.le_refl _) rfl rfl

theorem LaneLaw.timerExpires (law : LaneLaw entries n) : LaneLaw entries n.timerExpires.1 := by
  rw [Lane.timerExpires]
  split
  · split
    · exact law.of_le (Nat.le_refl _) rfl rfl
    · exact law.isolate
  · exact law

theorem LaneLaw.takeMalformed (law : LaneLaw entries n) : LaneLaw entries (n.takeMalformed mode).1 := by
  have counted : LaneLaw entries n.countCrc := law.of_le (Nat.le_refl _) rfl rfl
  rw [Lane.takeMalformed]
  split
  · exact law
  · exact law
  · exact counted
  · dsimp only
    split
    · exact counted.countError
    · exact counted.countError.discardFrame

/-- The entries of a lane after a reception: one more when the increment was queued. -/
def entriesAfter (entries : Nat) (r : Reception) : Nat := if r = .queued then entries + 1 else entries

/-- The credit check spends a credit on the entry it queues (R73). -/
theorem LaneLaw.checkCredit (law : LaneLaw entries n) :
    LaneLaw (entriesAfter entries n.checkCredit.2) n.checkCredit.1 := by
  rw [Lane.checkCredit]
  split
  · obtain ⟨bound, count, positive, most⟩ := law
    exact ⟨by dsimp only; omega, by simp [entriesAfter, count], positive, most⟩
  · dsimp only
    split
    · exact LaneLaw.countError (law.of_le (Nat.le_refl _) rfl rfl)
    · exact LaneLaw.countError (law.of_le (Nat.le_refl _) rfl rfl)

theorem LaneLaw.takeIncrement (law : LaneLaw entries n) (seq : Byte) :
    LaneLaw (entriesAfter entries (n.takeIncrement mode seq).2) (n.takeIncrement mode seq).1 := by
  rw [Lane.takeIncrement]
  split
  · exact LaneLaw.discardFrame (law.of_le (Nat.le_refl _) rfl rfl)
  · split
    · exact LaneLaw.checkCredit (law.of_le (Nat.le_refl _) rfl rfl)
    · have counted : LaneLaw entries (Lane.countError
          { n with counters := { n.counters with sequenceGaps := satSucc Config.max16 n.counters.sequenceGaps } }).1 :=
        LaneLaw.countError (law.of_le (Nat.le_refl _) rfl rfl)
      dsimp only
      split
      · exact counted
      · exact LaneLaw.checkCredit (counted.of_le (Nat.le_refl _) rfl rfl)

/-- An entry that leaves the Arrival Queue leaves its lane's count, and its credit comes back (R75). -/
theorem LaneLaw.entryLeft (law : LaneLaw (entries + 1) n) (refused : Bool) :
    LaneLaw entries (n.entryLeft mode refused) := by
  obtain ⟨bound, count, positive, most⟩ := law
  exact LaneLaw.returnCredit ⟨by dsimp only; omega, by dsimp only; omega, positive, most⟩

end

/-! ### The four lanes and the Arrival Queue -/

/-- The entries of a lane in the Arrival Queue. -/
def entriesOf (k : LaneNo) (arrivals : List QueueEntry) : Nat := arrivals.countP fun e => e.lane == k

/-- Every entry is of one of the four lanes. -/
theorem length_arrivals (arrivals : List QueueEntry) :
    arrivals.length = entriesOf 0 arrivals + entriesOf 1 arrivals + entriesOf 2 arrivals + entriesOf 3 arrivals := by
  induction arrivals with
  | nil => rfl
  | cons e rest ih =>
    simp only [entriesOf, List.length_cons, List.countP_cons] at ih ⊢
    obtain ⟨k, hk⟩ := e.lane
    have lanes : k = 0 ∨ k = 1 ∨ k = 2 ∨ k = 3 := by omega
    rcases lanes with rfl | rfl | rfl | rfl <;> simp at * <;> omega

/-- The law holds when every lane keeps it: four lanes of at most 8 entries fill the Arrival Queue (R76, R79). -/
theorem linkLaw_iff (s : State) : s.LinkLaw ↔ ∀ k, LaneLaw (entriesOf k s.arrivals) (s.lane k) := by
  constructor
  · rintro ⟨_, lanes⟩ k
    obtain ⟨bound, queued, positive, most⟩ := lanes k
    exact ⟨bound, queued, positive, most⟩
  · intro lanes
    refine ⟨?_, fun k => ⟨(lanes k).bound, (lanes k).queued, (lanes k).positive, (lanes k).most⟩⟩
    have entries (k : LaneNo) : entriesOf k s.arrivals ≤ Config.maxAllotment := by
      have bound := (lanes k).bound
      rw [(lanes k).queued] at bound
      omega
    have := length_arrivals s.arrivals
    have := entries 0
    have := entries 1
    have := entries 2
    have := entries 3
    simp only [Config.arrivalCapacity, Config.maxAllotment] at *
    omega

section

variable {s t : State} {k : LaneNo} {n : Lane}

/-- The law speaks of the lanes and the Arrival Queue alone. -/
theorem linkLaw_of_same (law : s.LinkLaw) (lanes : t.lanes = s.lanes) (arrivals : t.arrivals = s.arrivals) :
    t.LinkLaw := by
  rw [linkLaw_iff] at law ⊢
  intro j
  rw [State.lane, lanes, arrivals]
  exact law j

/-- A change of one lane that keeps its law. -/
theorem linkLaw_putLane (law : s.LinkLaw) (kept : LaneLaw (entriesOf k s.arrivals) n) : (s.putLane k n).LinkLaw := by
  rw [linkLaw_iff] at law ⊢
  intro j
  rw [State.lane_putLane, State.putLane_arrivals]
  split
  · next same => exact same ▸ kept
  · exact law j

theorem linkLaw_mapLanes (law : s.LinkLaw) {f : Lane → Lane}
    (keeps : ∀ entries n, LaneLaw entries n → LaneLaw entries (f n)) : (s.mapLanes f).LinkLaw := by
  rw [linkLaw_iff] at law ⊢
  intro j
  rw [State.lane_mapLanes, State.mapLanes_arrivals]
  exact keeps _ _ (law j)

theorem laneLaw_of_linkLaw (law : s.LinkLaw) (k : LaneNo) : LaneLaw (entriesOf k s.arrivals) (s.lane k) :=
  (linkLaw_iff s).mp law k

theorem linkLaw_ite {c : Prop} [Decidable c] (yes : s.LinkLaw) (no : t.LinkLaw) : (if c then s else t).LinkLaw := by
  split
  · exact yes
  · exact no

theorem linkLaw_onLane (law : s.LinkLaw) {f : Lane → Lane}
    (keeps : ∀ entries n, LaneLaw entries n → LaneLaw entries (f n)) : (s.onLane k f).LinkLaw :=
  linkLaw_ite law (linkLaw_putLane law (keeps _ _ (laneLaw_of_linkLaw law k)))

/-- What a lane's controller leaves of the lane keeps the law, when it queues nothing. -/
theorem linkLaw_laneOutcome (law : s.LinkLaw) {outcome : Lane × Reception}
    (kept : LaneLaw (entriesOf k s.arrivals) outcome.1) : (s.laneOutcome k outcome).LinkLaw :=
  linkLaw_ite (linkLaw_of_same (linkLaw_putLane law kept) rfl rfl) (linkLaw_putLane law kept)

theorem lanes_laneOutcome (s : State) (k : LaneNo) (outcome : Lane × Reception) :
    (s.laneOutcome k outcome).lanes = (s.putLane k outcome.1).lanes ∧ (s.laneOutcome k outcome).arrivals = s.arrivals := by
  rw [State.laneOutcome]
  split <;> exact ⟨rfl, rfl⟩

/-- An increment queued stands in the Arrival Queue (R76). -/
theorem linkLaw_receiveIncrement (law : s.LinkLaw) (f : IncrementFrame) : (s.receiveIncrement k f).LinkLaw := by
  have kept := (laneLaw_of_linkLaw law k).takeIncrement (mode := s.mode) f.seq
  obtain ⟨lanes, arrivals⟩ := lanes_laneOutcome s k (Lane.takeIncrement s.mode f.seq (s.lane k))
  rw [State.receiveIncrement]
  generalize Lane.takeIncrement s.mode f.seq (s.lane k) = outcome at kept lanes arrivals ⊢
  by_cases queued : outcome.2 = .queued
  · rw [if_pos queued]
    rw [entriesAfter, if_pos queued] at kept
    rw [linkLaw_iff] at law ⊢
    intro j
    have lane : State.lane { s.laneOutcome k outcome with arrivals := (s.laneOutcome k outcome).arrivals ++ [arrivalOf k f] } j =
        (s.putLane k outcome.1).lane j := by simp only [State.lane, lanes]
    rw [lane, State.lane_putLane]
    dsimp only
    rw [arrivals, entriesOf, List.countP_append, ← entriesOf]
    split
    · next same =>
      subst same
      simpa [arrivalOf] using kept
    · next other =>
      have : ([arrivalOf k f].countP fun e => e.lane == j) = 0 := by simp [arrivalOf, other]
      rw [this]
      exact law j
  · rw [if_neg queued]
    rw [entriesAfter, if_neg queued] at kept
    exact linkLaw_laneOutcome law kept

theorem linkLaw_takeLaneBoundary (law : s.LinkLaw) : s.takeLaneBoundary.LinkLaw := by
  rw [State.takeLaneBoundary]
  split
  · exact law
  · exact linkLaw_ite (linkLaw_mapLanes (linkLaw_of_same law rfl rfl) fun _ _ law => law.atBoundary _ _)
      (linkLaw_of_same law rfl rfl)

theorem linkLaw_enterRun (law : s.LinkLaw) : s.enterRun.LinkLaw :=
  linkLaw_of_same (linkLaw_mapLanes law (f := Lane.enterRun s.calendar.endedTag s.calendar.lastBoundary)
    fun _ _ law => law.enterRun _ _) rfl rfl

/-- The entry at the head leaves the Arrival Queue and its lane's count (R75, R79). -/
theorem linkLaw_takeEntry (law : s.LinkLaw) : s.takeEntry.LinkLaw := by
  rw [State.takeEntry]
  split
  · exact law
  · next e rest head =>
    rw [linkLaw_iff] at law ⊢
    intro j
    have here := law j
    rw [head, entriesOf, List.countP_cons, ← entriesOf] at here
    have lane (p : Placed) : (s.finishPlacement e rest p).lane j =
        (s.putLane e.lane (Lane.entryLeft s.mode p.refused (s.lane e.lane))).lane j := rfl
    rw [lane, State.lane_putLane]
    have arrivals (p : Placed) : (s.finishPlacement e rest p).arrivals = rest := rfl
    rw [arrivals]
    split
    · next same =>
      subst same
      simp only [beq_self_eq_true, if_true] at here
      exact here.entryLeft _
    · next other =>
      simpa [other] using here

end

end Sys2Proof.Machine.LinkLaw
end

section
/-! The law of the link (R76), the buffers of the port (R190) and the engines' work lists (R111, R139) over every command.
An event of the calendar touches neither the lanes nor the port, and hands the Interval Engine no completeness item. -/

namespace Sys2Proof.Machine.LinkLaw

open Sys2Proof Sys2Proof.Machine

/-! ### The Interval Engine's list -/

/-- The account slot of a completeness item. -/
def completenessSlot : WorkItem → Option Slot
  | .completeness i _ => some i
  | _ => none

/-- A work list with at most one completeness item for each account slot (R111). -/
def Once (work : List WorkItem) : Prop := (work.filterMap completenessSlot).Nodup

theorem workListsProper_iff (s : State) : s.WorkListsProper ↔ s.ledger.closeWork.Nodup ∧ Once s.work := Iff.rfl

section

variable {work rest items : List WorkItem} {w x : WorkItem}

theorem Once.openWork (once : Once work) (c : Calendar) (l : Ledger) : Once (openWork c l work) :=
  ((List.dropWhile_sublist _).filterMap _).nodup once

/-- Items without an account slot add nothing. -/
theorem Once.append (once : Once work) (none : items.filterMap completenessSlot = []) : Once (work ++ items) := by
  rw [Once, List.filterMap_append, none, List.append_nil]
  exact once

theorem Once.tail (once : Once (w :: rest)) : Once rest := ((List.sublist_cons_self _ _).filterMap _).nodup once

/-- An item that leaves a state of its own work behind in the list. -/
theorem Once.cons (once : Once rest) (none : completenessSlot w = none) : Once (w :: rest) := by
  rw [Once, List.filterMap_cons_none none]
  exact once

/-- A completeness item is added for a slot that has none (R111). -/
theorem Once.addCompleteness (once : Once work) (tag : Tag) (i : Slot) : Once (addCompleteness tag i work) := by
  rw [Machine.addCompleteness]
  split
  · exact once
  · next absent =>
    rw [Once, List.filterMap_append]
    refine List.nodup_append.mpr ⟨once, List.pairwise_singleton _ i, fun j mem k single same => absent ?_⟩
    obtain rfl : k = i := List.mem_singleton.mp single
    obtain ⟨w, inWork, slot⟩ := List.mem_filterMap.mp mem
    cases w with
    | completeness m u =>
      obtain rfl : m = j := Option.some.inj slot
      exact List.any_eq_true.mpr ⟨_, inWork, decide_eq_true same.symm⟩
    | boundary | grace | minute => exact nomatch slot

end

/-! ### The events of the calendar -/

/-- From `s` to `t` the calendar may have produced events: the port, the lanes and the Arrival Queue are as they were, and
the Interval Engine's list has gained no completeness item. -/
structure Ticks (s t : State) : Prop where
  port : t.port = s.port
  lanes : t.lanes = s.lanes
  arrivals : t.arrivals = s.arrivals
  list : t.ledger.closeWork = s.ledger.closeWork
  work : ∃ items, t.work = s.work ++ items ∧ items.filterMap completenessSlot = []

section

variable {s t u : State}

theorem Ticks.refl (s : State) : Ticks s s := ⟨rfl, rfl, rfl, rfl, [], (List.append_nil _).symm, rfl⟩

theorem Ticks.trans (first : Ticks s t) (second : Ticks t u) : Ticks s u := by
  obtain ⟨items, work, none⟩ := first.work
  obtain ⟨items', work', none'⟩ := second.work
  refine ⟨second.port.trans first.port, second.lanes.trans first.lanes, second.arrivals.trans first.arrivals,
    second.list.trans first.list, items ++ items', ?_, ?_⟩
  · rw [work', work, List.append_assoc]
  · rw [List.filterMap_append, none, none', List.append_nil]

theorem Ticks.ite {c : Prop} [Decidable c] (yes : Ticks s t) (no : Ticks s u) : Ticks s (if c then t else u) := by
  split
  · exact yes
  · exact no

theorem ticks_produceGrace (s : State) : Ticks s s.produceGrace := by
  rw [State.produceGrace]
  split
  · exact .refl s
  · exact ⟨rfl, rfl, rfl, rfl, _, rfl, rfl⟩

theorem ticks_produceMinute (start : Seconds) (s : State) : Ticks s (s.produceMinute start) := by
  rw [State.produceMinute]
  split
  · exact ⟨rfl, rfl, rfl, rfl, _, rfl, rfl⟩
  · exact ⟨rfl, rfl, rfl, rfl, [], (List.append_nil _).symm, rfl⟩

theorem ticks_produceBoundary (time : Seconds) (s : State) : Ticks s (s.produceBoundary time) :=
  (ticks_produceGrace s).trans ⟨rfl, rfl, rfl, Ledger.raiseIf_closeWork .., _, rfl, rfl⟩

theorem ticks_takeGrace (s : State) : Ticks s s.takeGrace := .ite (ticks_produceGrace s) (.refl s)

theorem ticks_takeMinute (s : State) : Ticks s s.takeMinute := .ite (ticks_produceMinute _ s) (.refl s)

theorem ticks_takeBoundary (s : State) : Ticks s s.takeBoundary := by
  refine .ite ?_ (.refl s)
  split
  · exact ticks_produceBoundary _ s
  · exact .refl s

theorem ticks_takeOwed (s : State) : Ticks s s.takeOwed :=
  ((ticks_takeGrace s).trans (ticks_takeMinute _)).trans (ticks_takeBoundary _)

theorem ticks_reachMinute (before : Seconds) (s : State) : Ticks s (s.reachMinute before) :=
  .ite (ticks_produceMinute _ s) (.refl s)

theorem ticks_reachBoundary (before : Seconds) (s : State) : Ticks s (s.reachBoundary before) := by
  rw [State.reachBoundary]
  split
  · exact .ite (ticks_produceBoundary _ s) (.refl s)
  · exact .refl s

theorem ticks_reachGrace (s : State) : Ticks s s.reachGrace := .ite (ticks_produceGrace s) (.refl s)

/-- The calendar alone changed. -/
theorem ticks_calendar (s : State) (c : Calendar) : Ticks s { s with calendar := c } :=
  ⟨rfl, rfl, rfl, rfl, [], (List.append_nil _).symm, rfl⟩

theorem ticks_trim (amount : Int) (s : State) : Ticks s (s.trim amount) := by
  have moved := (ticks_takeOwed s).trans (ticks_calendar s.takeOwed (s.takeOwed.calendar.moved amount))
  exact .ite (((moved.trans (ticks_reachMinute _ _)).trans (ticks_reachBoundary _ _)).trans (ticks_reachGrace _)) moved

theorem ticks_tick (awake : Bool) (s : State) : Ticks s (s.tick awake) := ticks_calendar s _

theorem ticks_setTime (p : List Byte) (s : State) : Ticks s (setTime p s).1 := by
  simp only [setTime]
  split
  · exact .refl s
  · exact ticks_calendar s _

theorem ticks_trimTime (p : List Byte) (s : State) : Ticks s (trimTime p s).1 := by
  simp only [trimTime]
  split
  · exact .refl s
  · split
    · exact .refl s
    · split
      · exact .refl s
      · exact .ite (.refl s) (ticks_trim _ s)

theorem ticks_setRunParameters (p : List Byte) (s : State) : Ticks s (setRunParameters p s).1 := by
  simp only [setRunParameters]
  split
  · exact .refl s
  · split
    · exact .refl s
    · exact ticks_calendar s _

theorem linkLaw_of_ticks (law : s.LinkLaw) (ticks : Ticks s t) : t.LinkLaw :=
  linkLaw_of_same law ticks.lanes ticks.arrivals

end

/-! ### The law of the link, command by command -/

/-- The law holds after the command. -/
def KeepsLaw (c : Instr) : Prop := ∀ s t, s.LinkLaw → exec c s = .next t → t.LinkLaw

section

variable {c : Instr}

theorem KeepsLaw.of_run {f : State → State} (runs : ∀ s, exec c s = .next (f s)) (keeps : ∀ s, s.LinkLaw → (f s).LinkLaw) :
    KeepsLaw c := by
  intro s t law ran
  rw [runs s] at ran
  exact Host.Outcome.next.inj ran ▸ keeps s law

/-- What a response, a grant or a ledger leaves has the same lanes. -/
theorem KeepsLaw.of_request {k : RequestCode} {own : List Byte → State → State × Answer}
    (runs : ∀ s, exec c s = .next (runRequest k own s)) (keeps : ∀ p s, s.LinkLaw → (own p s).1.LinkLaw) : KeepsLaw c :=
  .of_run runs fun s law => runRequest_keeps State.LinkLaw law (fun _ _ so => so) fun p => keeps p s

theorem KeepsLaw.of_operation {k : RequestCode} {asks : List Byte → State → Bool}
    {own : List Byte → State → State × Answer} (runs : ∀ s, exec c s = .next (runOperation k asks own s))
    (keeps : ∀ p s, s.LinkLaw → (own p s).1.LinkLaw) : KeepsLaw c :=
  .of_run runs fun _ law => runOperation_keeps State.LinkLaw law id (fun _ _ so => so) keeps

theorem KeepsLaw.of_record {k : RequestCode} (own : List Byte → Calendar → Mode → Ledger → Ledger × Answer)
    (runs : ∀ s, exec c s = .next (runRecordRequest k own s)) : KeepsLaw c :=
  .of_run runs fun _ law => runRecordRequest_keeps State.LinkLaw law id (fun _ _ so => so) fun _ _ so => so

/-- An engine's operation that touches neither the lanes nor the Arrival Queue, in its turn. -/
theorem KeepsLaw.of_turn {turn : State → Bool} {f : State → State}
    (runs : ∀ s, exec c s = .next (if turn s then f s else s)) (keeps : ∀ s, s.LinkLaw → (f s).LinkLaw) : KeepsLaw c :=
  .of_run runs fun s law => linkLaw_ite (keeps s law) law

end

section

variable {s : State} (law : s.LinkLaw)
include law

theorem linkLaw_calendar (c : Calendar) : State.LinkLaw { s with calendar := c } := linkLaw_of_same law rfl rfl

theorem linkLaw_withLedger (l : Ledger) : (s.withLedger l).LinkLaw := linkLaw_of_same law rfl rfl

theorem linkLaw_groupTurn (m : GroupMember) (l : Ledger) : (s.groupTurn m l).LinkLaw := linkLaw_of_same law rfl rfl

theorem linkLaw_intervalTurn (l : Ledger) (work : List WorkItem) : (s.intervalTurn l work).LinkLaw :=
  linkLaw_of_same law rfl rfl

theorem linkLaw_restoreLane (p : List Byte) : (restoreLane p s).1.LinkLaw := by
  rw [restoreLane]
  split
  · exact law
  · dsimp only
    split
    · exact linkLaw_putLane law (laneLaw_of_linkLaw law _).enterSyncing
    · exact law

theorem linkLaw_setLane (p : List Byte) : (setLane p s).1.LinkLaw := by
  rw [setLane]
  split
  · exact law
  · split
    · next range =>
      obtain ⟨positive, most, _⟩ := range
      exact linkLaw_putLane law ((laneLaw_of_linkLaw law _).set positive most)
    · exact law

theorem linkLaw_readLane (p : List Byte) : (readLane p s).1.LinkLaw := by
  rw [readLane]
  split
  · exact law
  · exact linkLaw_putLane law ((laneLaw_of_linkLaw law _).of_le (Nat.le_refl _) rfl rfl)

theorem linkLaw_startRun (p : List Byte) : (startRun p s).1.LinkLaw := by
  simp only [startRun]
  split
  · exact law
  · exact linkLaw_enterRun (linkLaw_calendar (linkLaw_withLedger law _) _)

theorem linkLaw_stopRun (p : List Byte) : (stopRun p s).1.LinkLaw := by
  rw [stopRun]
  split <;> exact law

theorem linkLaw_holdAccumulation (p : List Byte) : (holdAccumulation p s).1.LinkLaw := by
  rw [holdAccumulation]
  split <;> exact law

theorem linkLaw_releaseAccumulation (p : List Byte) : (releaseAccumulation p s).1.LinkLaw := by
  rw [releaseAccumulation]
  split <;> exact law

theorem linkLaw_verifyStore (p : List Byte) : (verifyStore p s).1.LinkLaw := by
  rw [verifyStore]
  split <;> exact law

theorem linkLaw_setAttentionMask (p : List Byte) : (setAttentionMask p s).1.LinkLaw := by
  rw [setAttentionMask]
  split <;> exact law

theorem linkLaw_ackAttention (p : List Byte) : (ackAttention p s).1.LinkLaw := by
  rw [ackAttention]
  split <;> exact law

theorem linkLaw_ageStep : s.ageStep.LinkLaw := by
  rw [State.ageStep]
  split
  · exact linkLaw_intervalTurn law _ _
  · exact law

theorem linkLaw_foldStep : s.foldStep.LinkLaw := by
  rw [State.foldStep]
  split
  · split
    · exact linkLaw_intervalTurn law _ _
    · exact law
  · exact law

theorem linkLaw_visitStep : s.visitStep.LinkLaw := by
  rw [State.visitStep]
  split
  · split
    · exact linkLaw_intervalTurn law _ _
    · exact law
  · exact law

theorem linkLaw_closureStep : s.closureStep.LinkLaw := by
  rw [State.closureStep]
  split
  · split
    · exact linkLaw_intervalTurn law _ _
    · exact law
  · exact linkLaw_intervalTurn law _ _
  · exact law

theorem linkLaw_notifyStep : s.notifyStep.LinkLaw := by
  rw [State.notifyStep]
  split
  · exact linkLaw_intervalTurn law _ _
  · exact law

theorem linkLaw_sweepStep : s.sweepStep.LinkLaw := by
  rw [State.sweepStep]
  split
  · exact law
  · exact law

theorem linkLaw_restart : s.restart.LinkLaw :=
  linkLaw_enterRun (linkLaw_calendar (linkLaw_groupTurn law .intervalEngine _) _)

/-- A start leaves a lane without credits and without entries, at an allotment from 1 to 8 (R84, R185). -/
theorem linkLaw_warmStart : s.warmStart.LinkLaw := by
  have arrivals : s.warmStart.arrivals = [] := by
    rw [State.warmStart]
    split <;> rfl
  rw [linkLaw_iff]
  intro k
  obtain ⟨_, _, positive, most⟩ := laneLaw_of_linkLaw law k
  have fresh (carrier : Bool) : LaneLaw 0 (Lane.fresh carrier (s.lane k).allotment (s.lane k).errorLimit) :=
    ⟨Nat.zero_le _, rfl, positive, most⟩
  rw [Starts.lane_warmStart, arrivals]
  split
  · exact (fresh true).enterSyncing
  · exact fresh false

omit law in
theorem linkLaw_coldStart (s : State) : s.coldStart.LinkLaw := by
  rw [linkLaw_iff]
  intro k
  have fresh (carrier : Bool) : LaneLaw 0 (Lane.cold carrier) := ⟨Nat.zero_le _, rfl, Nat.le_add_left 1 3, Nat.le_add_right 4 4⟩
  rw [Starts.lane_coldStart]
  split
  · exact (fresh true).enterSyncing
  · exact fresh false

theorem linkLaw_deviceStart (cutShort : Bool) :
    (if cutShort then s.interruptedStart else if s.storeValid then s.warmStart else s.coldStart).LinkLaw :=
  linkLaw_ite (linkLaw_ite law law) (linkLaw_ite (linkLaw_warmStart law) (linkLaw_coldStart s))

end

/-- The lanes' commands by what they do to the lane, the placement by the entry that leaves, and the others by leaving the
lanes and the Arrival Queue as they are. -/
theorem keepsLaw (c : Instr) : KeepsLaw c := by
  cases c with
  | writeRequest | execute | readStatus | readResponse | unknownTransaction =>
    exact .of_run (fun _ => rfl) fun _ law => linkLaw_ite law law
  | openAccount => exact .of_record openAccount fun _ => rfl
  | amendAccount => exact .of_record amendAccount fun _ => rfl
  | suspendAccount => exact .of_record suspendAccount fun _ => rfl
  | resumeAccount => exact .of_record resumeAccount fun _ => rfl
  | retireAccount => exact .of_record retireAccount fun _ => rfl
  | findAccount => exact .of_record findAccount fun _ => rfl
  | readAccount => exact .of_record readAccount fun _ => rfl
  | listAccounts => exact .of_record listAccounts fun _ => rfl
  | writeTariff => exact .of_record writeTariff fun _ => rfl
  | deleteTariff => exact .of_record deleteTariff fun _ => rfl
  | readTariff => exact .of_record readTariff fun _ => rfl
  | defineIntake => exact .of_record defineIntake fun _ => rfl
  | assignIntake => exact .of_record assignIntake fun _ => rfl
  | unassignIntake => exact .of_record unassignIntake fun _ => rfl
  | readIntake => exact .of_record readIntake fun _ => rfl
  | collectHeld => exact .of_record collectHeld fun _ => rfl
  | readDemand => exact .of_record readDemand fun _ => rfl
  | closeNow => exact .of_record closeNow fun _ => rfl
  | changeTariff => exact .of_record changeTariff fun _ => rfl
  | releaseSettlement => exact .of_record releaseSettlement fun _ => rfl
  | repairAccount => exact .of_record repairAccount fun _ => rfl
  | discardAccount => exact .of_record discardAccount fun _ => rfl
  | repairIntake => exact .of_record repairIntake fun _ => rfl
  | setTime => exact .of_request (fun _ => rfl) fun p s law => linkLaw_of_ticks law (ticks_setTime p s)
  | trimTime => exact .of_request (fun _ => rfl) fun p s law => linkLaw_of_ticks law (ticks_trimTime p s)
  | readTime => exact .of_request (fun _ => rfl) fun _ _ law => law
  | restoreLane => exact .of_request (fun _ => rfl) fun p _ law => linkLaw_restoreLane law p
  | setLane => exact .of_request (fun _ => rfl) fun p _ law => linkLaw_setLane law p
  | readLane => exact .of_request (fun _ => rfl) fun p _ law => linkLaw_readLane law p
  | holdAccumulation => exact .of_request (fun _ => rfl) fun p _ law => linkLaw_holdAccumulation law p
  | releaseAccumulation => exact .of_request (fun _ => rfl) fun p _ law => linkLaw_releaseAccumulation law p
  | verifyStore => exact .of_request (fun _ => rfl) fun p _ law => linkLaw_verifyStore law p
  | setAttentionMask => exact .of_request (fun _ => rfl) fun p _ law => linkLaw_setAttentionMask law p
  | ackAttention => exact .of_request (fun _ => rfl) fun p _ law => linkLaw_ackAttention law p
  | startRun => exact .of_operation (fun _ => rfl) fun p _ law => linkLaw_startRun law p
  | stopRun => exact .of_operation (fun _ => rfl) fun p _ law => linkLaw_stopRun law p
  | setRunParameters =>
    exact .of_operation (fun _ => rfl) fun p s law => linkLaw_of_ticks law (ticks_setRunParameters p s)
  | readPartStatus => exact .of_operation (fun _ => rfl) fun _ _ law => law
  | hello k frontEnd firstSeq =>
    exact .of_run (fun _ => rfl) fun _ law => linkLaw_onLane law fun _ _ law => law.takeHello _ _ _ _
  | increment k frame =>
    exact .of_run (fun _ => rfl) fun _ law => linkLaw_ite law (linkLaw_receiveIncrement law frame)
  | malformedFrame k =>
    exact .of_run (fun _ => rfl) fun _ law =>
      linkLaw_ite law (linkLaw_laneOutcome law (laneLaw_of_linkLaw law k).takeMalformed)
  | resyncTimerExpiry k =>
    exact .of_run (fun _ => rfl) fun _ law =>
      linkLaw_ite law (linkLaw_laneOutcome law (laneLaw_of_linkLaw law k).timerExpires)
  | carrierLoss k =>
    refine .of_run (fun _ => rfl) fun s law => ?_
    have lost := linkLaw_putLane law (laneLaw_of_linkLaw law k).lose
    exact linkLaw_ite (linkLaw_putLane law ((laneLaw_of_linkLaw law k).of_le (Nat.le_refl _) rfl rfl))
      (linkLaw_ite lost (linkLaw_of_same lost rfl rfl))
  | carrierAppear k =>
    refine .of_run (fun _ => rfl) fun s law => linkLaw_putLane law ?_
    have carried : LaneLaw (entriesOf k s.arrivals) { s.lane k with carrier := true } :=
      (laneLaw_of_linkLaw law k).of_le (Nat.le_refl _) rfl rfl
    split
    · exact carried.enterSyncing
    · exact carried
  | transmitFrame => exact .of_run (fun _ => rfl) fun _ law => linkLaw_onLane law fun _ _ law => law.transmit
  | laneBoundary => exact .of_run (fun _ => rfl) fun _ law => linkLaw_ite law (linkLaw_takeLaneBoundary law)
  | minuteEvent =>
    exact .of_run (fun _ => rfl) fun s law => linkLaw_ite law (linkLaw_of_ticks law (ticks_takeMinute s))
  | boundaryEvent =>
    exact .of_run (fun _ => rfl) fun s law => linkLaw_ite law (linkLaw_of_ticks law (ticks_takeBoundary s))
  | graceExpiry =>
    exact .of_run (fun _ => rfl) fun s law => linkLaw_ite law (linkLaw_of_ticks law (ticks_takeGrace s))
  | bandNotifyCheck => exact .of_turn (fun _ => rfl) fun _ law => linkLaw_notifyStep law
  | boundaryAgeing => exact .of_turn (fun _ => rfl) fun _ law => linkLaw_ageStep law
  | fold => exact .of_turn (fun _ => rfl) fun _ law => linkLaw_foldStep law
  | accountVisit => exact .of_turn (fun _ => rfl) fun _ law => linkLaw_visitStep law
  | slotClosure => exact .of_turn (fun _ => rfl) fun _ law => linkLaw_closureStep law
  | placeEntry => exact .of_turn (fun _ => rfl) fun _ law => linkLaw_takeEntry law
  | settlementExamination => exact .of_turn (fun _ => rfl) fun _ law => linkLaw_ite law law
  | sweepVerify => exact .of_turn (fun _ => rfl) fun _ law => linkLaw_sweepStep law
  | restartCatchUp => exact .of_turn (fun _ => rfl) fun _ law => linkLaw_restart law
  | powerLoss | resetAssert | vbakDip => exact .of_run (fun _ => rfl) fun _ law => law
  | deviceStart cutShort => exact .of_run (fun _ => rfl) fun _ law => linkLaw_deviceStart law cutShort
  | passageOfASecond =>
    exact .of_run (fun _ => rfl) fun s law => linkLaw_ite (linkLaw_of_ticks law (ticks_tick false s))
      (linkLaw_of_ticks law ((ticks_takeOwed s).trans (ticks_tick true _)))

/-- Settles O33: the law holds lane by lane, and four lanes that keep it fill the Arrival Queue at most. -/
theorem linkLawIsKept : Obligations.LinkLawIsKept := by
  intro s t law stepped
  rw [step] at stepped
  split at stepped
  · exact Host.Outcome.next.inj stepped ▸ law
  · next c rest _ => exact keepsLaw c { s with pending := rest } t law stepped

end Sys2Proof.Machine.LinkLaw
end

section
/-! The buffers of the port hold 128 bytes (R190), and the work lists repeat no slot (R111, R139), after every command. -/

namespace Sys2Proof.Machine.WorkLists

open Sys2Proof Sys2Proof.Machine Sys2Proof.Machine.LedgerSteps Sys2Proof.Machine.RecordEdits Sys2Proof.Machine.LinkLaw

/-! ### The Settlement Engine's list -/

/-- Every step of the ledger keeps the Settlement Engine's list without repetition (R139). -/
theorem closeWork_nodup_of_step {l m : Ledger} (once : l.closeWork.Nodup) (step : LedgerStep l m) :
    m.closeWork.Nodup := by
  have tariffs (p : List Byte) (c : Calendar) (mode : Mode) :=
    quiet_tariffRequest (l := l) (P := fun m => m.closeWork.Nodup) (fun _ _ _ list => list once) p c mode
  exact keeps_of_step (P := fun m => m.closeWork.Nodup) (fun _ _ so => so) (fun _ named => named.list once)
    (fun p c mode => (CheckWords.sealing_openAccount p c mode l).list once)
    (fun p c mode => (CheckWords.sealing_repairAccount p c mode l).list once)
    (fun p c mode => (tariffs p c mode).1) (fun p c mode => (tariffs p c mode).2) List.nodup_nil step

/-! ### The buffers -/

/-- Both buffers hold 128 bytes and the fill count is at most 128. -/
def Whole (p : Port) : Prop :=
  p.requestBuffer.length = Config.bufferSize ∧ p.responseBuffer.length = Config.bufferSize ∧
    p.fillCount ≤ Config.bufferSize

section

variable {p : Port}

theorem whole_fresh (mask : BitVec 12) : Whole (Port.fresh mask) :=
  ⟨List.length_replicate, List.length_replicate, Nat.zero_le _⟩

/-- A response is written over the response buffer as a whole (R196). -/
theorem Whole.respond (whole : Whole p) (a : Answer) : Whole (p.respond a) := by
  obtain ⟨request, response, fill⟩ := whole
  refine ⟨request, ?_, fill⟩
  rw [Port.respond, List.length_take, List.length_append, List.length_drop, response]
  omega

theorem Whole.write (whole : Whole p) (data : List Byte) : Whole (p.write data) := by
  obtain ⟨request, response, fill⟩ := whole
  rw [Port.write]
  split
  · exact ⟨request, response, fill⟩
  · refine ⟨?_, response, ?_⟩
    · rw [List.length_append, List.length_drop, request, List.length_take]
      omega
    · exact List.length_take_le _ _

theorem Whole.execute (whole : Whole p) (clocked : Nat) : Whole (p.execute clocked) := by
  obtain ⟨request, response, fill⟩ := whole
  rw [Port.execute]
  split
  · exact ⟨request, response, fill⟩
  · exact ⟨request, List.length_replicate, fill⟩

end

/-! ### Every command -/

/-- The port is whole and the Interval Engine's list has a completeness item at most once for each slot. -/
structure Proper (s : State) : Prop where
  port : Whole s.port
  once : Once s.work

section

variable {s t : State} {c : Instr}

theorem Proper.of_same (proper : Proper s) (port : t.port = s.port) (work : t.work = s.work) : Proper t :=
  ⟨port ▸ proper.port, work ▸ proper.once⟩

theorem Proper.of_ticks (proper : Proper s) (ticks : Ticks s t) : Proper t := by
  obtain ⟨items, work, none⟩ := ticks.work
  exact ⟨ticks.port ▸ proper.port, work ▸ proper.once.append none⟩

theorem Proper.respond (proper : Proper s) (a : Answer) : Proper (s.respond a) := ⟨proper.port.respond a, proper.once⟩

theorem Proper.ite {c : Prop} [Decidable c] (yes : Proper s) (no : Proper t) : Proper (if c then s else t) := by
  split
  · exact yes
  · exact no

theorem Proper.transact (proper : Proper s) {f : Port → Port} (keeps : ∀ p, Whole p → Whole (f p)) :
    Proper (s.transact f) := .ite proper ⟨keeps _ proper.port, proper.once⟩

theorem Proper.laneOutcome (proper : Proper s) (k : LaneNo) (outcome : Lane × Reception) :
    Proper (s.laneOutcome k outcome) := .ite (proper.of_same rfl rfl) (proper.of_same rfl rfl)

theorem Proper.receiveIncrement (proper : Proper s) (k : LaneNo) (f : IncrementFrame) :
    Proper (s.receiveIncrement k f) :=
  .ite ((proper.laneOutcome k _).of_same rfl rfl) (proper.laneOutcome k _)

theorem Proper.takeLaneBoundary (proper : Proper s) : Proper s.takeLaneBoundary := by
  rw [State.takeLaneBoundary]
  split
  · exact proper
  · exact .ite (proper.of_same rfl rfl) (proper.of_same rfl rfl)

/-- A turn of the Interval Engine leaves a list that begins later. -/
theorem Proper.intervalTurn (proper : Proper s) (l : Ledger) {work : List WorkItem} (once : Once work) :
    Proper (s.intervalTurn l work) := ⟨proper.port, once.openWork _ _⟩

/-- The list as the Interval Engine finds it (log 31). -/
theorem Proper.current (proper : Proper s) : Once s.currentWork := proper.once.openWork _ _

theorem Proper.rest (proper : Proper s) {w : WorkItem} {rest : List WorkItem} (head : s.currentWork = w :: rest) :
    Once rest := by
  have once := proper.current
  rw [head] at once
  exact once.tail

theorem Proper.ageStep (proper : Proper s) : Proper s.ageStep := by
  rw [State.ageStep]
  split
  · next head => exact proper.intervalTurn _ ((proper.rest head).cons rfl)
  · exact proper

theorem Proper.foldStep (proper : Proper s) : Proper s.foldStep := by
  rw [State.foldStep]
  split
  · next head =>
    split
    · exact proper.intervalTurn _ ((proper.rest head).cons rfl)
    · exact proper
  · exact proper

theorem Proper.visitStep (proper : Proper s) : Proper s.visitStep := by
  rw [State.visitStep]
  split
  · next head =>
    split
    · exact proper.intervalTurn _ ((proper.rest head).cons rfl)
    · exact proper
  · exact proper

theorem Proper.closureStep (proper : Proper s) : Proper s.closureStep := by
  rw [State.closureStep]
  split
  · next head =>
    split
    · exact proper.intervalTurn _ ((proper.rest head).cons rfl)
    · exact proper
  · next head => exact proper.intervalTurn _ (proper.rest head)
  · exact proper

theorem Proper.notifyStep (proper : Proper s) : Proper s.notifyStep := by
  rw [State.notifyStep]
  split
  · next head => exact proper.intervalTurn _ (proper.rest head)
  · exact proper

theorem Proper.settleStep (proper : Proper s) : Proper s.settleStep := .ite proper (proper.of_same rfl rfl)

theorem Proper.sweepStep (proper : Proper s) : Proper s.sweepStep := by
  rw [State.sweepStep]
  split
  · exact proper
  · exact proper.of_same rfl rfl

/-- A placement adds at most the completeness item of the account whose slot it completed (R102, R111). -/
theorem Proper.takeEntry (proper : Proper s) : Proper s.takeEntry := by
  rw [State.takeEntry]
  split
  · exact proper
  · next e rest _ =>
    generalize placeEntry s.calendar s.mode e s.ledger = placed
    refine ⟨proper.port, ?_⟩
    rw [State.finishPlacement]
    cases placed.completed with
    | none => exact proper.current
    | some i => exact proper.current.addCompleteness e.tag i

theorem Proper.calendar (proper : Proper s) (c : Calendar) : Proper { s with calendar := c } := proper.of_same rfl rfl

theorem Proper.withLedger (proper : Proper s) (l : Ledger) : Proper (s.withLedger l) := proper.of_same rfl rfl

theorem Proper.groupTurn (proper : Proper s) (m : GroupMember) (l : Ledger) : Proper (s.groupTurn m l) :=
  proper.of_same rfl rfl

theorem Proper.enterRun (proper : Proper s) : Proper s.enterRun := proper.of_same rfl rfl

theorem Proper.restart (proper : Proper s) : Proper s.restart := ((proper.groupTurn .intervalEngine _).calendar _).enterRun

theorem Proper.deviceStart (proper : Proper s) (cutShort : Bool) :
    Proper (if cutShort then s.interruptedStart else if s.storeValid then s.warmStart else s.coldStart) := by
  have interrupted : Proper s.interruptedStart := .ite (proper.of_same rfl rfl) (proper.of_same rfl rfl)
  have warm : Proper s.warmStart := by
    rw [State.warmStart]
    split <;> exact ⟨whole_fresh _, List.nodup_nil⟩
  exact .ite interrupted (.ite warm ⟨whole_fresh _, List.nodup_nil⟩)

theorem Proper.startRun (proper : Proper s) (p : List Byte) : Proper (startRun p s).1 := by
  simp only [Machine.startRun]
  split
  · exact proper
  · exact ((proper.withLedger _).calendar _).enterRun

theorem Proper.stopRun (proper : Proper s) (p : List Byte) : Proper (stopRun p s).1 := by
  rw [Machine.stopRun]
  split
  · exact proper
  · exact ⟨proper.port, List.nodup_nil⟩

/-! The requests that change neither the buffers nor the list. -/

theorem Proper.restoreLane (proper : Proper s) (p : List Byte) : Proper (restoreLane p s).1 := by
  rw [Machine.restoreLane]
  split
  · exact proper
  · dsimp only
    split <;> exact proper.of_same rfl rfl

theorem Proper.setLane (proper : Proper s) (p : List Byte) : Proper (setLane p s).1 := by
  rw [Machine.setLane]
  split
  · exact proper
  · split <;> exact proper.of_same rfl rfl

theorem Proper.readLane (proper : Proper s) (p : List Byte) : Proper (readLane p s).1 := by
  rw [Machine.readLane]
  split <;> exact proper.of_same rfl rfl

theorem Proper.holdAccumulation (proper : Proper s) (p : List Byte) : Proper (holdAccumulation p s).1 := by
  rw [Machine.holdAccumulation]
  split <;> exact proper.of_same rfl rfl

theorem Proper.releaseAccumulation (proper : Proper s) (p : List Byte) : Proper (releaseAccumulation p s).1 := by
  rw [Machine.releaseAccumulation]
  split <;> exact proper.of_same rfl rfl

theorem Proper.verifyStore (proper : Proper s) (p : List Byte) : Proper (verifyStore p s).1 := by
  rw [Machine.verifyStore]
  split <;> exact proper.of_same rfl rfl

theorem Proper.setAttentionMask (proper : Proper s) (p : List Byte) : Proper (setAttentionMask p s).1 := by
  rw [Machine.setAttentionMask]
  split
  · exact proper
  · exact ⟨proper.port, proper.once⟩

theorem Proper.ackAttention (proper : Proper s) (p : List Byte) : Proper (ackAttention p s).1 := by
  rw [Machine.ackAttention]
  split <;> exact proper.of_same rfl rfl

/-- The buffers and the list stay proper after the command. -/
def KeepsProper (c : Instr) : Prop := ∀ s t, Proper s → exec c s = .next t → Proper t

theorem KeepsProper.of_run {f : State → State} (runs : ∀ s, exec c s = .next (f s)) (keeps : ∀ s, Proper s → Proper (f s)) :
    KeepsProper c := by
  intro s t proper ran
  rw [runs s] at ran
  exact Host.Outcome.next.inj ran ▸ keeps s proper

theorem KeepsProper.of_request {k : RequestCode} {own : List Byte → State → State × Answer}
    (runs : ∀ s, exec c s = .next (runRequest k own s)) (keeps : ∀ p s, Proper s → Proper (own p s).1) : KeepsProper c :=
  .of_run runs fun s proper => runRequest_keeps Proper proper (fun a _ so => so.respond a) fun p => keeps p s

theorem KeepsProper.of_operation {k : RequestCode} {asks : List Byte → State → Bool}
    {own : List Byte → State → State × Answer} (runs : ∀ s, exec c s = .next (runOperation k asks own s))
    (keeps : ∀ p s, Proper s → Proper (own p s).1) : KeepsProper c :=
  .of_run runs fun _ proper => runOperation_keeps Proper proper (fun so => so.of_same rfl rfl) (fun a _ so => so.respond a) keeps

theorem KeepsProper.of_record {k : RequestCode} (own : List Byte → Calendar → Mode → Ledger → Ledger × Answer)
    (runs : ∀ s, exec c s = .next (runRecordRequest k own s)) : KeepsProper c :=
  .of_run runs fun _ proper => runRecordRequest_keeps Proper proper (fun so => so.of_same rfl rfl)
    (fun a _ so => so.respond a) fun _ _ so => ⟨so.port, so.once⟩

theorem KeepsProper.of_turn {turn : State → Bool} {f : State → State}
    (runs : ∀ s, exec c s = .next (if turn s then f s else s)) (keeps : ∀ s, Proper s → Proper (f s)) : KeepsProper c :=
  .of_run runs fun s proper => .ite (keeps s proper) proper

end

/-- The transactions by what they do to the buffers, the Interval Engine and the placement by the list they leave, the
events of the calendar by the items they hand over, and the others by leaving both as they are. -/
theorem keepsProper (c : Instr) : KeepsProper c := by
  cases c with
  | writeRequest data => exact .of_run (fun _ => rfl) fun _ so => so.transact fun _ whole => whole.write data
  | execute clocked => exact .of_run (fun _ => rfl) fun _ so => so.transact fun _ whole => whole.execute clocked
  | readStatus | readResponse | unknownTransaction =>
    exact .of_run (fun _ => rfl) fun _ so => so.transact fun _ whole => whole
  | openAccount => exact .of_record openAccount fun _ => rfl
  | amendAccount => exact .of_record amendAccount fun _ => rfl
  | suspendAccount => exact .of_record suspendAccount fun _ => rfl
  | resumeAccount => exact .of_record resumeAccount fun _ => rfl
  | retireAccount => exact .of_record retireAccount fun _ => rfl
  | findAccount => exact .of_record findAccount fun _ => rfl
  | readAccount => exact .of_record readAccount fun _ => rfl
  | listAccounts => exact .of_record listAccounts fun _ => rfl
  | writeTariff => exact .of_record writeTariff fun _ => rfl
  | deleteTariff => exact .of_record deleteTariff fun _ => rfl
  | readTariff => exact .of_record readTariff fun _ => rfl
  | defineIntake => exact .of_record defineIntake fun _ => rfl
  | assignIntake => exact .of_record assignIntake fun _ => rfl
  | unassignIntake => exact .of_record unassignIntake fun _ => rfl
  | readIntake => exact .of_record readIntake fun _ => rfl
  | collectHeld => exact .of_record collectHeld fun _ => rfl
  | readDemand => exact .of_record readDemand fun _ => rfl
  | closeNow => exact .of_record closeNow fun _ => rfl
  | changeTariff => exact .of_record changeTariff fun _ => rfl
  | releaseSettlement => exact .of_record releaseSettlement fun _ => rfl
  | repairAccount => exact .of_record repairAccount fun _ => rfl
  | discardAccount => exact .of_record discardAccount fun _ => rfl
  | repairIntake => exact .of_record repairIntake fun _ => rfl
  | setTime => exact .of_request (fun _ => rfl) fun p s so => so.of_ticks (ticks_setTime p s)
  | trimTime => exact .of_request (fun _ => rfl) fun p s so => so.of_ticks (ticks_trimTime p s)
  | readTime => exact .of_request (fun _ => rfl) fun _ _ so => so
  | restoreLane => exact .of_request (fun _ => rfl) fun p _ so => so.restoreLane p
  | setLane => exact .of_request (fun _ => rfl) fun p _ so => so.setLane p
  | readLane => exact .of_request (fun _ => rfl) fun p _ so => so.readLane p
  | holdAccumulation => exact .of_request (fun _ => rfl) fun p _ so => so.holdAccumulation p
  | releaseAccumulation => exact .of_request (fun _ => rfl) fun p _ so => so.releaseAccumulation p
  | verifyStore => exact .of_request (fun _ => rfl) fun p _ so => so.verifyStore p
  | setAttentionMask => exact .of_request (fun _ => rfl) fun p _ so => so.setAttentionMask p
  | ackAttention => exact .of_request (fun _ => rfl) fun p _ so => so.ackAttention p
  | startRun => exact .of_operation (fun _ => rfl) fun p _ so => so.startRun p
  | stopRun => exact .of_operation (fun _ => rfl) fun p _ so => so.stopRun p
  | setRunParameters => exact .of_operation (fun _ => rfl) fun p s so => so.of_ticks (ticks_setRunParameters p s)
  | readPartStatus => exact .of_operation (fun _ => rfl) fun _ _ so => so
  | hello | transmitFrame => exact .of_run (fun _ => rfl) fun _ so => .ite so (so.of_same rfl rfl)
  | increment k frame => exact .of_run (fun _ => rfl) fun _ so => .ite so (so.receiveIncrement k frame)
  | malformedFrame k | resyncTimerExpiry k =>
    exact .of_run (fun _ => rfl) fun _ so => .ite so (so.laneOutcome k _)
  | carrierLoss k =>
    exact .of_run (fun _ => rfl) fun _ so =>
      .ite (so.of_same rfl rfl) (.ite (so.of_same rfl rfl) (so.of_same rfl rfl))
  | carrierAppear => exact .of_run (fun _ => rfl) fun _ so => so.of_same rfl rfl
  | laneBoundary => exact .of_run (fun _ => rfl) fun _ so => .ite so so.takeLaneBoundary
  | minuteEvent => exact .of_run (fun _ => rfl) fun s so => .ite so (so.of_ticks (ticks_takeMinute s))
  | boundaryEvent => exact .of_run (fun _ => rfl) fun s so => .ite so (so.of_ticks (ticks_takeBoundary s))
  | graceExpiry => exact .of_run (fun _ => rfl) fun s so => .ite so (so.of_ticks (ticks_takeGrace s))
  | bandNotifyCheck => exact .of_turn (fun _ => rfl) fun _ so => so.notifyStep
  | boundaryAgeing => exact .of_turn (fun _ => rfl) fun _ so => so.ageStep
  | fold => exact .of_turn (fun _ => rfl) fun _ so => so.foldStep
  | accountVisit => exact .of_turn (fun _ => rfl) fun _ so => so.visitStep
  | slotClosure => exact .of_turn (fun _ => rfl) fun _ so => so.closureStep
  | placeEntry => exact .of_turn (fun _ => rfl) fun _ so => so.takeEntry
  | settlementExamination => exact .of_turn (fun _ => rfl) fun _ so => so.settleStep
  | sweepVerify => exact .of_turn (fun _ => rfl) fun _ so => so.sweepStep
  | restartCatchUp => exact .of_turn (fun _ => rfl) fun _ so => so.restart
  | powerLoss | resetAssert | vbakDip => exact .of_run (fun _ => rfl) fun _ so => so.of_same rfl rfl
  | deviceStart cutShort => exact .of_run (fun _ => rfl) fun _ so => so.deviceStart cutShort
  | passageOfASecond =>
    exact .of_run (fun _ => rfl) fun s so =>
      .ite (so.of_ticks (ticks_tick false s)) (so.of_ticks ((ticks_takeOwed s).trans (ticks_tick true _)))

/-- The buffers and both work lists after a step. -/
theorem buffersAndLists_of_step {s t : State} (whole : s.BuffersWhole) (lists : s.WorkListsProper)
    (stepped : step s = .next t) : t.BuffersWhole ∧ t.WorkListsProper := by
  obtain ⟨list, once⟩ := (workListsProper_iff s).mp lists
  have proper : Proper t := by
    rw [step] at stepped
    split at stepped
    · exact Host.Outcome.next.inj stepped ▸ ⟨whole, once⟩
    · next c rest _ => exact keepsProper c { s with pending := rest } t ⟨whole, once⟩ stepped
  exact ⟨proper.port, (workListsProper_iff t).mpr ⟨closeWork_nodup_of_step list (ledgerStep_of_step stepped), proper.once⟩⟩

end Sys2Proof.Machine.WorkLists
end

section
/-! Ownership between records that are not marked (R9, R29, R88, R89): what agrees for one account and for one intake, and
which writes keep it. -/

namespace Sys2Proof.Machine.Ownership

open Sys2Proof Sys2Proof.Machine Sys2Proof.Machine.RecordEdits

/-! ### One account, one intake -/

/-- A MEMBER intake that names an account as its owner. -/
def Owned (a : Slot) (x : Intake) : Prop := x.phase = .member ∧ x.owner = some a

/-- The pending joins that name an account, of intakes that are not marked. -/
def joinCount (l : Ledger) (a : Slot) : Nat :=
  allIntakes.countP fun i => !(l.intake i).faultMark && (l.intake i).joining a

/-- A member list that agrees with the intakes. -/
structure Lists (l : Ledger) (a : Slot) (members : List IntakeNo) : Prop where
  member : ∀ i, (l.intake i).faultMark = false → (i ∈ members ↔ Owned a (l.intake i))
  once : members.Nodup
  room : members.length + joinCount l a ≤ Config.memberLimit

/-- An account that agrees with the intakes and the tariffs. -/
structure AccountFits (l : Ledger) (a : Slot) : Prop where
  lists : Lists l a (l.account a).members
  idle : (l.account a).bills = false → (l.account a).members = []
  tariff : (l.account a).phase ≠ .free → (l.tariff (l.account a).tariff).state ≠ .empty

/-- A pending change that agrees with its intake's state. -/
def ChangeFits (x : Intake) : Prop :=
  ∀ change, x.change = some change →
    (change.target ≠ none → x.phase = .free) ∧ (change.target = none → x.phase = .member)

/-- Ownership agrees between the records of a ledger that are not marked. -/
structure Agrees (l : Ledger) : Prop where
  account : ∀ a, (l.account a).faultMark = false → AccountFits l a
  intake : ∀ i, (l.intake i).faultMark = false → ChangeFits (l.intake i)

theorem ownershipAgrees_iff (s : State) : s.OwnershipAgrees ↔ Agrees s.ledger := by
  constructor
  · rintro ⟨accounts, intakes⟩
    refine ⟨fun a unmarked => ?_, intakes⟩
    obtain ⟨member, once, room, idle, tariff⟩ := accounts a unmarked
    exact ⟨⟨member, once, room⟩, idle, tariff⟩
  · rintro ⟨accounts, intakes⟩
    refine ⟨fun a unmarked => ?_, intakes⟩
    obtain ⟨⟨member, once, room⟩, idle, tariff⟩ := accounts a unmarked
    exact ⟨member, once, room, idle, tariff⟩

section

variable {l m : Ledger} {a : Slot} {i : IntakeNo} {x y : Intake}

theorem changeFits_of_none (none : x.change = none) : ChangeFits x := fun change some => by
  rw [none] at some
  exact nomatch some

theorem ChangeFits.of_same (fits : ChangeFits x) (phase : y.phase = x.phase) (change : y.change = x.change) :
    ChangeFits y := by
  intro pending same
  rw [phase]
  exact fits pending (change ▸ same)

theorem joining_of_change {a : Slot} (change : y.change = x.change) : y.joining a = x.joining a := by
  rw [Intake.joining, Intake.joining, change]

theorem joining_of_none {a : Slot} (none : x.change = none) : x.joining a = false := by rw [Intake.joining, none]

theorem joining_iff {a : Slot} : x.joining a = true ↔ ∃ tag, x.change = some { target := some a, tag := tag } := by
  rw [Intake.joining]
  split
  · next b tag change =>
    rw [change, beq_iff_eq]
    constructor
    · rintro rfl
      exact ⟨tag, rfl⟩
    · rintro ⟨_, same⟩
      cases same
      rfl
  · next other =>
    constructor
    · exact nofun
    · rintro ⟨tag, same⟩
      exact absurd same (other a tag)

/-! ### What an account sees of an intake -/

/-- An intake written is, for an account, owned as it was, and joins the account only if it did. -/
def Frames (a : Slot) (x y : Intake) : Prop :=
  y.faultMark = false → x.faultMark = false ∧ (Owned a y ↔ Owned a x) ∧ (y.joining a = true → x.joining a = true)

theorem Frames.refl (a : Slot) (x : Intake) : Frames a x x := fun unmarked => ⟨unmarked, Iff.rfl, id⟩

theorem Frames.trans {z : Intake} (first : Frames a x y) (second : Frames a y z) : Frames a x z := by
  intro unmarked
  obtain ⟨between, owned, joins⟩ := second unmarked
  obtain ⟨before, owned', joins'⟩ := first between
  exact ⟨before, owned.trans owned', fun j => joins' (joins j)⟩

theorem Frames.of_sameOwner (same : SameOwner x y) (a : Slot) : Frames a x y := by
  intro unmarked
  obtain ⟨before, phase, owner, change⟩ := same unmarked
  exact ⟨before, by rw [Owned, Owned, phase, owner], fun joins => joining_of_change change ▸ joins⟩

/-- A seal changes nothing of it. -/
theorem Frames.seal (frames : Frames a x y) : Frames a x y.seal := by
  obtain ⟨mark, phase, owner, change⟩ := seal_intakeFields y
  rw [Frames, Owned, mark, phase, owner, joining_of_change change]
  exact frames

theorem ChangeFits.seal (fits : ChangeFits y) : ChangeFits y.seal := by
  obtain ⟨_, phase, _, change⟩ := seal_intakeFields y
  exact fits.of_same phase change

/-! ### Member lists -/

/-- The pending joins are counted over a list of intakes. -/
theorem joinCount_le (joins : ∀ i, (m.intake i).faultMark = false → (m.intake i).joining a = true →
    (l.intake i).faultMark = false ∧ (l.intake i).joining a = true) : joinCount m a ≤ joinCount l a := by
  refine List.countP_mono_left fun i _ counted => ?_
  simp only [Bool.and_eq_true, Bool.not_eq_true'] at counted ⊢
  exact joins i counted.1 counted.2

/-- A join that has gone makes room for a member. -/
theorem countP_lt {α : Type} {p q : α → Bool} {i : α} {list : List α} (mem : i ∈ list) (gone : p i = false)
    (counted : q i = true) (mono : ∀ j, p j = true → q j = true) : list.countP p + 1 ≤ list.countP q := by
  induction list with
  | nil => exact nomatch mem
  | cons j rest ih =>
    rw [List.countP_cons, List.countP_cons]
    rcases List.mem_cons.mp mem with rfl | mem
    · have := List.countP_mono_left (l := rest) (p := p) (q := q) fun j _ => mono j
      simp only [gone, counted, if_true, Bool.false_eq_true, if_false]
      omega
    · have := ih mem
      by_cases pj : p j = true
      · simp only [pj, mono j pj, if_true]
        omega
      · rw [if_neg pj]
        omega

/-- A join placed on one intake is at most one more. -/
theorem countP_le_succ {α : Type} {p q : α → Bool} {i : α} {list : List α} (once : list.Nodup)
    (mono : ∀ j, j ≠ i → p j = true → q j = true) : list.countP p ≤ list.countP q + 1 := by
  induction list with
  | nil => exact Nat.zero_le _
  | cons j rest ih =>
    obtain ⟨apart, once'⟩ := List.nodup_cons.mp once
    rw [List.countP_cons, List.countP_cons]
    by_cases here : j = i
    · have further : rest.countP p ≤ rest.countP q :=
        List.countP_mono_left fun k mem => mono k fun same => apart (here ▸ same ▸ mem)
      split <;> split <;> omega
    · have := ih once'
      by_cases pj : p j = true
      · simp only [pj, mono j here pj, if_true]
        omega
      · rw [if_neg pj]
        split <;> omega

theorem Lists.frame {members : List IntakeNo} (lists : Lists l a members)
    (frames : ∀ i, Frames a (l.intake i) (m.intake i)) : Lists m a members where
  member i unmarked := by
    obtain ⟨before, owned, _⟩ := frames i unmarked
    exact (lists.member i before).trans owned.symm
  once := lists.once
  room := by
    have := joinCount_le (l := l) (m := m) (a := a) fun i unmarked joins => by
      obtain ⟨before, _, joined⟩ := frames i unmarked
      exact ⟨before, joined joins⟩
    have := lists.room
    omega

/-- An intake that was not a member joins a list. -/
theorem Lists.join {members : List IntakeNo} (lists : Lists l a members)
    (others : ∀ j, j ≠ i → Frames a (l.intake j) (m.intake j)) (before : (l.intake i).faultMark = false)
    (unowned : ¬Owned a (l.intake i)) (owned : Owned a (m.intake i))
    (room : members.length + 1 + joinCount m a ≤ Config.memberLimit) : Lists m a (members ++ [i]) where
  member j unmarked := by
    rw [List.mem_append, List.mem_singleton]
    by_cases same : j = i
    · subst same
      exact ⟨fun _ => owned, fun _ => .inr rfl⟩
    · obtain ⟨before, owned, _⟩ := others j same unmarked
      rw [owned, ← lists.member j before]
      exact ⟨fun mem => mem.resolve_right same, .inl⟩
  once := by
    refine List.nodup_append.mpr ⟨lists.once, List.pairwise_singleton _ i, fun j mem k single same => unowned ?_⟩
    obtain rfl : k = i := List.mem_singleton.mp single
    exact (lists.member k before).mp (same ▸ mem)
  room := by
    rw [List.length_append]
    exact room

/-- An intake that is a member no more leaves a list. -/
theorem Lists.leave {members : List IntakeNo} (lists : Lists l a members)
    (others : ∀ j, j ≠ i → Frames a (l.intake j) (m.intake j)) (unowned : ¬Owned a (m.intake i))
    (none : (m.intake i).change = none) : Lists m a (members.filter (· != i)) where
  member j unmarked := by
    rw [List.mem_filter]
    by_cases same : j = i
    · subst same
      exact ⟨fun mem => absurd mem.2 (by simp), fun owned => absurd owned unowned⟩
    · obtain ⟨before, owned, _⟩ := others j same unmarked
      rw [owned, ← lists.member j before]
      exact ⟨And.left, fun mem => ⟨mem, by simpa using same⟩⟩
  once := lists.once.sublist List.filter_sublist
  room := by
    have := List.length_filter_le (· != i) members
    have := joinCount_le (l := l) (m := m) (a := a) fun j unmarked joins => by
      by_cases same : j = i
      · subst same
        rw [joining_of_none none] at joins
        exact nomatch joins
      · obtain ⟨before, _, joined⟩ := others j same unmarked
        exact ⟨before, joined joins⟩
    have := lists.room
    omega

/-! ### Accounts and ledgers -/

/-- No tariff becomes EMPTY. -/
def TariffsStand (l m : Ledger) : Prop := ∀ t, (l.tariff t).state ≠ .empty → (m.tariff t).state ≠ .empty

theorem TariffsStand.of_edits {Ra : Account → Account → Prop} {Rx : Intake → Intake → Prop} (edits : Edits Ra Rx l m) :
    TariffsStand l m := by
  intro t stands
  rcases edits.tariff t with same | marked
  · rwa [same]
  · simp [Tariff.state, marked]

theorem AccountFits.frame (fits : (l.account a).faultMark = false → AccountFits l a)
    (terms : SameTerms (l.account a) (m.account a)) (unmarked : (m.account a).faultMark = false)
    (frames : ∀ i, Frames a (l.intake i) (m.intake i)) (tariffs : TariffsStand l m) : AccountFits m a := by
  obtain ⟨before, bills, members, named⟩ := terms unmarked
  obtain ⟨lists, idle, tariff⟩ := fits before
  have same : (m.account a).members = (l.account a).members := by
    rcases members with same | ⟨unbilled, none⟩
    · exact same
    · rw [none, idle unbilled]
  refine ⟨same ▸ lists.frame frames, fun unbilled => same.trans (idle (bills ▸ unbilled)), fun occupied => ?_⟩
  obtain ⟨occupied', name⟩ := named occupied
  rw [name]
  exact tariffs _ (tariff occupied')

/-- Ownership agrees after writes that change no account's members and frame every intake. -/
theorem Agrees.of_frames (agrees : Agrees l) (terms : ∀ a, SameTerms (l.account a) (m.account a))
    (frames : ∀ a i, Frames a (l.intake i) (m.intake i))
    (changes : ∀ i, (m.intake i).faultMark = false → ChangeFits (m.intake i)) (tariffs : TariffsStand l m) : Agrees m :=
  ⟨fun a unmarked => .frame (agrees.account a) (terms a) unmarked (frames a) tariffs, changes⟩

/-- Quiet operations keep ownership. -/
theorem Agrees.of_records (agrees : Agrees l) (accounts : ∀ a, QuietAccount (l.account a) (m.account a))
    (intakes : ∀ i, QuietIntake (l.intake i) (m.intake i)) (tariffs : TariffsStand l m) : Agrees m := by
  refine agrees.of_frames (fun a => (accounts a).terms) (fun a i => .of_sameOwner (intakes i).owner a) (fun i unmarked => ?_)
    tariffs
  obtain ⟨before, phase, _, change⟩ := (intakes i).owner unmarked
  exact (agrees.intake i before).of_same phase change

theorem Agrees.of_quiet (agrees : Agrees l) (quiet : Quiet l m) : Agrees m :=
  agrees.of_records quiet.account quiet.intake (.of_edits quiet)

theorem sameTerms_of_account (a : Slot) (same : m.account a = l.account a) : SameTerms (l.account a) (m.account a) :=
  same ▸ .refl _

theorem tariffsStand_of_same (same : m.tariffs = l.tariffs) : TariffsStand l m := by
  intro t
  rw [Ledger.tariff, Ledger.tariff, same]
  exact id

/-! ### One record written -/

/-- One intake written, of which every account sees what it saw. -/
theorem Agrees.putIntake (agrees : Agrees l) (frames : ∀ a, Frames a (l.intake i) y)
    (fits : ChangeFits y) : Agrees (l.putIntake i y) := by
  have written (j : IntakeNo) : (l.putIntake i y).intake j = if i = j then y.seal else l.intake j :=
    l.intake_storeIntake i j y.seal
  refine agrees.of_frames (fun a => .refl _) (fun a j => ?_) (fun j unmarked => ?_) (tariffsStand_of_same rfl)
  · rw [written]
    split
    · next same => exact same ▸ (frames a).seal
    · exact .refl a _
  · rw [written] at unmarked ⊢
    split
    · exact fits.seal
    · next other =>
      rw [if_neg other] at unmarked
      exact agrees.intake j unmarked

end

end Sys2Proof.Machine.Ownership
end

section
/-! The requests on intakes and the folds keep ownership (R91 to R95): an intake that joins a member list, one that leaves
it, a pending change placed and one withdrawn. -/

namespace Sys2Proof.Machine.Ownership

open Sys2Proof Sys2Proof.Machine Sys2Proof.Machine.RecordEdits

section

variable {l m : Ledger} {a : Slot} {i : IntakeNo} {x y : Intake}

/-! ### An intake joins a member list -/

theorem not_owned_of_free (free : x.phase = .free) : ¬Owned a x := by
  rintro ⟨member, _⟩
  rw [free] at member
  exact nomatch member

theorem owned_ownedBy (a : Slot) (tag : Tag) (x : Intake) : Owned a (x.ownedBy a tag).seal := by
  obtain ⟨_, phase, owner, _⟩ := seal_intakeFields (x.ownedBy a tag)
  rw [Owned, phase, owner]
  exact ⟨rfl, rfl⟩

/-- For another account, an intake that was FREE and joins a member list is as it was. -/
theorem frames_ownedBy {b : Slot} (other : a ≠ b) (free : x.phase = .free) (tag : Tag) :
    Frames b x (x.ownedBy a tag) := by
  intro unmarked
  refine ⟨unmarked, ⟨fun owned => absurd (Option.some.inj owned.2) other, fun owned => absurd owned (not_owned_of_free free)⟩,
    fun joins => ?_⟩
  rw [joining_of_none rfl] at joins
  exact nomatch joins

/-- The intake and the account written when an intake joins a member list. -/
def joined (i : IntakeNo) (a : Slot) (tag : Tag) (l : Ledger) : Ledger :=
  (l.putIntake i ((l.intake i).ownedBy a tag)).putAccount a ((l.account a).join i)

theorem intake_joined (i : IntakeNo) (a : Slot) (tag : Tag) (l : Ledger) (j : IntakeNo) :
    (joined i a tag l).intake j = if i = j then ((l.intake i).ownedBy a tag).seal else l.intake j :=
  l.intake_storeIntake i j _

theorem account_joined (i : IntakeNo) (a : Slot) (tag : Tag) (l : Ledger) (b : Slot) :
    (joined i a tag l).account b = if a = b then ((l.account a).join i).seal else l.account b :=
  (l.putIntake i ((l.intake i).ownedBy a tag)).account_putAccount a b _

theorem Agrees.joined (agrees : Agrees l) (bills : (l.account a).bills = true) (unmarked : (l.intake i).faultMark = false)
    (free : (l.intake i).phase = .free) (tag : Tag)
    (room : (l.account a).members.length + 1 + joinCount (joined i a tag l) a ≤ Config.memberLimit) :
    Agrees (joined i a tag l) := by
  have others (b : Slot) (j : IntakeNo) (other : j ≠ i) : Frames b (l.intake j) ((Ownership.joined i a tag l).intake j) := by
    rw [intake_joined, if_neg (Ne.symm other)]
    exact .refl b _
  refine ⟨fun b clear => ?_, fun j clear => ?_⟩
  · by_cases same : a = b
    · subst same
      have here : (Ownership.joined i a tag l).account a = ((l.account a).join i).seal := by
        rw [account_joined, if_pos rfl]
      obtain ⟨mark, phase, _, members, tariff⟩ := seal_fields ((l.account a).join i)
      rw [here, mark] at clear
      obtain ⟨lists, idle, named⟩ := agrees.account a clear
      refine ⟨?_, fun unbilled => ?_, fun occupied => ?_⟩
      · rw [here, members]
        refine lists.join (others a) unmarked (not_owned_of_free free) ?_ room
        rw [intake_joined, if_pos rfl]
        exact owned_ownedBy a tag _
      · rw [here, bills_seal] at unbilled
        exact absurd (bills.symm.trans unbilled) nofun
      · rw [here, tariff]
        rw [here, phase] at occupied
        exact named occupied
    · have kept : (Ownership.joined i a tag l).account b = l.account b := by rw [account_joined, if_neg same]
      refine .frame (agrees.account b) (sameTerms_of_account b kept) clear (fun j => ?_) (tariffsStand_of_same rfl)
      by_cases here : j = i
      · rw [here, intake_joined, if_pos rfl]
        exact (frames_ownedBy same free tag).seal
      · exact others b j here
  · rw [intake_joined] at clear ⊢
    split
    · exact (changeFits_of_none rfl).seal
    · next other =>
      rw [if_neg other] at clear
      exact agrees.intake j clear

/-! ### An intake leaves its member list -/

theorem frames_released (unowned : x.faultMark = false → ¬Owned a x) : Frames a x x.released := by
  intro unmarked
  refine ⟨unmarked, ⟨fun owned => (nomatch owned.1), fun owned => absurd owned (unowned unmarked)⟩, fun joins => ?_⟩
  rw [joining_of_none rfl] at joins
  exact nomatch joins

theorem not_owned_released (a : Slot) (x : Intake) : ¬Owned a x.released.seal := by
  obtain ⟨_, phase, _, _⟩ := seal_intakeFields x.released
  rw [Owned, phase]
  exact fun owned => nomatch owned.1

/-- An intake released, and each account as it was when it did not own the intake, or without it in its list. -/
theorem Agrees.released (agrees : Agrees l) (tariffs : m.tariffs = l.tariffs)
    (intakes : ∀ j, m.intake j = if i = j then (l.intake i).released.seal else l.intake j)
    (accounts : ∀ b, m.account b = ((l.account b).leave i).seal ∨
      m.account b = l.account b ∧ ((m.account b).faultMark = false → (l.intake i).faultMark = false → ¬Owned b (l.intake i))) :
    Agrees m := by
  have others (b : Slot) (j : IntakeNo) (other : j ≠ i) : Frames b (l.intake j) (m.intake j) := by
    rw [intakes, if_neg (Ne.symm other)]
    exact .refl b _
  refine ⟨fun b clear => ?_, fun j clear => ?_⟩
  · rcases accounts b with left | ⟨kept, unowned⟩
    · obtain ⟨mark, phase, _, members, tariff⟩ := seal_fields ((l.account b).leave i)
      rw [left, mark] at clear
      obtain ⟨lists, idle, named⟩ := agrees.account b clear
      obtain ⟨_, _, _, change⟩ := seal_intakeFields (l.intake i).released
      refine ⟨?_, fun unbilled => ?_, fun occupied => ?_⟩
      · rw [left, members]
        refine lists.leave (others b) ?_ ?_
        · rw [intakes, if_pos rfl]
          exact not_owned_released b _
        · rw [intakes, if_pos rfl, change]
          rfl
      · rw [left, bills_seal] at unbilled
        rw [left, members, Account.leave, idle unbilled]
        rfl
      · rw [left, tariff, Ledger.tariff, tariffs]
        rw [left, phase] at occupied
        exact named occupied
    · refine .frame (agrees.account b) (sameTerms_of_account b kept) clear (fun j => ?_) (tariffsStand_of_same tariffs)
      by_cases here : j = i
      · rw [here, intakes, if_pos rfl]
        exact (frames_released (unowned clear)).seal
      · exact others b j here
  · rw [intakes] at clear ⊢
    split
    · exact (changeFits_of_none rfl).seal
    · next other =>
      rw [if_neg other] at clear
      exact agrees.intake j clear

/-! ### A pending change placed or withdrawn -/

theorem frames_withoutChange (a : Slot) (x : Intake) : Frames a x x.withoutChange := by
  refine fun unmarked => ⟨unmarked, Iff.rfl, fun joins => ?_⟩
  rw [joining_of_none rfl] at joins
  exact nomatch joins

theorem Agrees.withoutChange (agrees : Agrees l) (i : IntakeNo) : Agrees (l.putIntake i (l.intake i).withoutChange) :=
  agrees.putIntake (fun a => frames_withoutChange a _) (changeFits_of_none rfl)

/-- A leave placed on a MEMBER intake (R94). -/
theorem Agrees.leaving (agrees : Agrees l) (member : (l.intake i).phase = .member) (tag : Tag) :
    Agrees (l.putIntake i { l.intake i with change := some { target := none, tag := tag } }) := by
  refine agrees.putIntake (fun a unmarked => ⟨unmarked, Iff.rfl, nofun⟩) fun change same => ?_
  obtain rfl := Option.some.inj same
  exact ⟨fun target => absurd rfl target, fun _ => member⟩

/-- A join placed on a FREE intake, with room in the account (R92, R93). -/
theorem Agrees.joining (agrees : Agrees l) (free : (l.intake i).phase = .free) (tag : Tag)
    (room : (l.account a).faultMark = false → (l.account a).members.length + joinCount l a + 1 ≤ Config.memberLimit) :
    Agrees (l.putIntake i { l.intake i with change := some { target := some a, tag := tag } }) := by
  have written (y : Intake) (j : IntakeNo) : (l.putIntake i y).intake j = if i = j then y.seal else l.intake j :=
    l.intake_storeIntake i j y.seal
  obtain ⟨mark, phase, owner, change⟩ :=
    seal_intakeFields { l.intake i with change := some { target := some a, tag := tag } }
  refine ⟨fun b clear => ?_, fun j clear => ?_⟩
  · by_cases same : a = b
    · subst same
      obtain ⟨lists, idle, named⟩ := agrees.account a clear
      refine ⟨⟨fun j unmarked => ?_, lists.once, ?_⟩, idle, named⟩
      · rw [written] at unmarked ⊢
        split
        · next here =>
          subst here
          rw [if_pos rfl, mark] at unmarked
          rw [Owned, phase, owner]
          exact lists.member i unmarked
        · next other =>
          rw [if_neg other] at unmarked
          exact lists.member j unmarked
      · have most := countP_le_succ (i := i) allIntakes_nodup
          (p := fun j => !((l.putIntake i { l.intake i with change := some { target := some a, tag := tag } }).intake j).faultMark &&
            ((l.putIntake i { l.intake i with change := some { target := some a, tag := tag } }).intake j).joining a)
          (q := fun j => !(l.intake j).faultMark && (l.intake j).joining a) fun j other counted => by
            rw [written, if_neg (Ne.symm other)] at counted
            exact counted
        have := room clear
        rw [joinCount] at this ⊢
        have here : (l.putIntake i { l.intake i with change := some { target := some a, tag := tag } }).account a =
          l.account a := rfl
        rw [here]
        omega
    · refine .frame (agrees.account b) (.refl _) clear (fun j => ?_) (tariffsStand_of_same rfl)
      rw [written]
      split
      · next here =>
        subst here
        refine Frames.seal fun unmarked => ⟨unmarked, Iff.rfl, fun joins => ?_⟩
        obtain ⟨tag', target⟩ := joining_iff.mp joins
        have target := Option.some.inj target
        exact absurd (Option.some.inj (congrArg PendingChange.target target)) same
      · exact .refl b _
  · rw [written] at clear ⊢
    split
    · refine ChangeFits.seal fun pending same => ?_
      obtain rfl := Option.some.inj same
      exact ⟨fun _ => free, nofun⟩
    · next other =>
      rw [if_neg other] at clear
      exact agrees.intake j clear

end

/-! ### The intake requests (R91 to R94) -/

section

variable {p : List Byte} {c : Calendar} {mode : Mode} {l : Ledger}

/-- What holds of the ledger that the addressing checks leave, and after the work on a sound intake that the request admits,
holds after the request. -/
theorem addressIntake_defined {n : Nat} {inRange undef : Bool} {l : Ledger}
    {own : IntakeNo → Intake → Ledger → Ledger × Answer} (P : Ledger → Prop) (checks : ∀ m, Quiet l m → P m)
    (work : ∀ i m, Quiet l m → m.SoundIntake i → (undef = false → (m.intake i).phase ≠ .undefined) →
      P (own i (m.intake i) m).1) : P (addressIntake n inRange undef l own).1 := by
  rw [addressIntake]
  split
  · exact checks l (quiet_refl l)
  · next i _ =>
    split
    · exact checks l (quiet_refl l)
    · split
      · exact checks l (quiet_refl l)
      · next admitted =>
        dsimp only
        split
        · exact checks _ (quiet_checkIntake i l)
        · next unmarked =>
          rw [Bool.not_eq_true] at unmarked
          have sound : (l.intake i).faultMark = true ∨ (l.intake i).checks = true := by
            rw [Ledger.intake_checkIntake_self] at unmarked
            split at unmarked
            · next sound => simpa using sound
            · exact nomatch unmarked
          rw [Ledger.checkIntake_of_sound sound] at unmarked ⊢
          refine work i l (quiet_refl l) ⟨unmarked, sound.resolve_left (ne_true_of_eq_false unmarked)⟩ fun strict phase => ?_
          rw [strict, Bool.not_false, Bool.and_true, decide_eq_true_eq, Intake.state, unmarked] at admitted
          exact admitted (by rw [phase]; rfl)

theorem phase_ne_member {x : Intake} (unmarked : x.faultMark = false) (other : x.state ≠ .member) :
    x.phase ≠ .member := by
  intro member
  rw [Intake.state, unmarked, member] at other
  exact other rfl

theorem phase_member {x : Intake} (member : x.state = .member) : x.phase = .member ∧ x.faultMark = false := by
  rw [Intake.state] at member
  split at member
  · exact nomatch member
  · next unmarked =>
    rw [Bool.not_eq_true] at unmarked
    refine ⟨?_, unmarked⟩
    cases phase : x.phase with
    | member => rfl
    | undefined | free =>
      rw [phase] at member
      exact nomatch member

theorem phase_free {x : Intake} (notUndefined : x.phase ≠ .undefined) (notMember : x.phase ≠ .member) :
    x.phase = .free := by
  cases phase : x.phase with
  | free => rfl
  | undefined => exact absurd phase notUndefined
  | member => exact absurd phase notMember

theorem Agrees.ite_fst {c : Prop} [Decidable c] {x y : Ledger × Answer} (yes : c → Agrees x.1) (no : ¬c → Agrees y.1) :
    Agrees (if c then x else y).1 := by
  split
  · exact yes ‹_›
  · exact no ‹_›

theorem Agrees.ite {c : Prop} [Decidable c] {x y : Ledger} (yes : c → Agrees x) (no : ¬c → Agrees y) :
    Agrees (if c then x else y) := by
  split
  · exact yes ‹_›
  · exact no ‹_›

theorem none_of_not_isSome {α : Type} {o : Option α} (absent : ¬o.isSome = true) : o = none := by
  cases o with
  | none => rfl
  | some _ => exact absurd rfl absent

theorem Agrees.defineIntake (agrees : Agrees l) : Agrees (defineIntake p c mode l).1 := by
  rw [Machine.defineIntake]
  split
  · exact agrees
  · refine addressIntake_defined Agrees (fun m quiet => agrees.of_quiet quiet) fun i m quiet sound _ => ?_
    have agrees := agrees.of_quiet quiet
    refine .ite_fst (fun _ => agrees) fun other => .ite_fst (fun _ => agrees) fun unchanged => ?_
    have change := none_of_not_isSome unchanged
    refine agrees.putIntake (fun a unmarked => ⟨unmarked, ⟨nofun, fun owned => ?_⟩, fun joins => joins⟩)
      (changeFits_of_none change)
    exact absurd owned.1 (phase_ne_member sound.1 other)

/-- Every intake that is sound is left by the verification of all of them. -/
theorem intake_checkIntakes_of_sound {i : IntakeNo} (sound : l.SoundIntake i) : l.checkIntakes.intake i = l.intake i := by
  rw [Ledger.intake_checkIntakes, if_pos (by rw [sound.2, Bool.or_true])]

/-- The joins counted are among the joins found, whatever their marks. -/
theorem joinCount_le_joiners (l : Ledger) (a : Slot) : joinCount l a ≤ (l.joiners a).length := by
  rw [joinCount, Ledger.joiners, ← List.countP_eq_length_filter]
  exact List.countP_mono_left fun i _ counted => (Bool.and_eq_true_iff.mp counted).2

theorem Agrees.assign (agrees : Agrees l) {i : IntakeNo} {a : Slot} (bills : (l.account a).bills = true)
    (unmarked : (l.intake i).faultMark = false) (free : (l.intake i).phase = .free)
    (room : (l.account a).members.length + joinCount l a + 1 ≤ Config.memberLimit) : Agrees (assign c mode i a l) := by
  refine .ite (fun _ => agrees.joining free _ fun _ => room) fun _ => agrees.joined bills unmarked free _ ?_
  have fewer : joinCount (Ownership.joined i a c.currentTag l) a ≤ joinCount l a := by
    refine joinCount_le fun j clear joins => ?_
    rw [intake_joined] at clear joins
    split at joins
    · rw [joining_of_none (by rw [(seal_intakeFields _).2.2.2]; rfl)] at joins
      exact nomatch joins
    · next other =>
      rw [if_neg other] at clear
      exact ⟨clear, joins⟩
  omega

theorem Agrees.assignIntake (agrees : Agrees l) : Agrees (assignIntake p c mode l).1 := by
  rw [Machine.assignIntake]
  split
  · exact agrees
  · next a _ =>
    refine addressIntake_defined Agrees (fun m quiet => agrees.of_quiet quiet) fun i m quiet sound notUndefined => ?_
    have agrees := agrees.of_quiet quiet
    have checked := agrees.of_quiet (quiet_checkAccount a m)
    have settled := checked.of_quiet (quiet_checkIntakes _)
    have same : (m.checkAccount a).checkIntakes.intake i = m.intake i := by
      have kept : (m.checkAccount a).intake i = m.intake i := by simp only [Ledger.intake, Ledger.checkAccount_intakes]
      have sound' : (m.checkAccount a).SoundIntake i := by rw [Ledger.SoundIntake, kept]; exact sound
      rw [intake_checkIntakes_of_sound sound', kept]
    have accounts : (m.checkAccount a).checkIntakes.account a = (m.checkAccount a).account a := by
      simp only [Ledger.account, Ledger.checkIntakes_accounts]
    dsimp only
    generalize (m.checkAccount a).checkIntakes = n at settled same accounts
    refine .ite_fst (fun _ => agrees) fun _ => .ite_fst (fun _ => checked) fun _ => .ite_fst (fun _ => checked)
      fun other => .ite_fst (fun _ => checked) fun _ => .ite_fst (fun _ => checked) fun bills => .ite_fst (fun _ => settled)
      fun room => settled.assign (by rw [accounts]; simpa using bills) (same ▸ sound.1) ?_ ?_
    · rw [same]
      exact phase_free (notUndefined rfl) (phase_ne_member sound.1 other)
    · have := joinCount_le_joiners n a
      omega

theorem Agrees.unassignMember (agrees : Agrees l) {i : IntakeNo} {a : Slot} (member : (l.intake i).phase = .member)
    (owner : (l.intake i).owner = some a) : Agrees (unassignMember c mode i a l).1 := by
  have checked := agrees.of_quiet (quiet_checkAccount a l)
  have same : (l.checkAccount a).intake i = l.intake i := by simp only [Ledger.intake, Ledger.checkAccount_intakes]
  rw [Machine.unassignMember]
  dsimp only
  generalize l.checkAccount a = n at checked same
  refine .ite_fst (fun _ => checked) fun _ => .ite_fst (fun _ => checked.leaving (same ▸ member) _) fun _ => ?_
  refine checked.released rfl (fun j => Ledger.intake_storeIntake _ i j _) fun b => ?_
  have written := n.account_putAccount a b ((n.account a).leave i)
  by_cases here : a = b
  · subst here
    rw [if_pos rfl] at written
    exact .inl written
  · rw [if_neg here] at written
    refine .inr ⟨written, fun _ _ owned => here ?_⟩
    rw [Owned, same, owner] at owned
    exact Option.some.inj owned.2

theorem Agrees.unassignIntake (agrees : Agrees l) : Agrees (unassignIntake p c mode l).1 := by
  refine addressIntake_defined Agrees (fun m quiet => agrees.of_quiet quiet) fun i m quiet _ _ => ?_
  have agrees := agrees.of_quiet quiet
  refine .ite_fst (fun member => .ite_fst (fun _ => agrees) fun _ => ?_) fun _ =>
    .ite_fst (fun _ => agrees.withoutChange i) fun _ => agrees
  split
  · next a owner => exact agrees.unassignMember (phase_member member).1 owner
  · exact agrees

/-! ### Folds (R95) -/

theorem Agrees.foldJoin (agrees : Agrees l) {i : IntakeNo} {a : Slot} {tag : Tag}
    (unmarked : (l.intake i).faultMark = false) (change : (l.intake i).change = some { target := some a, tag := tag }) :
    Agrees (foldJoin i a tag l) := by
  have checked := agrees.of_quiet (quiet_checkAccount a l)
  have same : (l.checkAccount a).intake i = l.intake i := by simp only [Ledger.intake, Ledger.checkAccount_intakes]
  rw [Machine.foldJoin]
  generalize l.checkAccount a = n at checked same
  rw [← same] at unmarked change
  have free := ((checked.intake i unmarked) _ change).1 nofun
  refine .ite (fun bills => checked.joined bills unmarked free tag ?_) fun _ => checked.withoutChange i
  have clear : (n.account a).faultMark = false := by
    cases mark : (n.account a).faultMark with
    | false => rfl
    | true => simp [Account.bills, Account.state, mark] at bills
  have room := (checked.account a clear).lists.room
  have fewer : joinCount (Ownership.joined i a tag n) a + 1 ≤ joinCount n a := by
    refine countP_lt (mem_allIntakes i) ?_ ?_ fun j counted => ?_
    · rw [intake_joined, if_pos rfl, joining_of_none (by rw [(seal_intakeFields _).2.2.2]; rfl), Bool.and_false]
    · rw [unmarked, joining_iff.mpr ⟨tag, change⟩]
      rfl
    · rw [intake_joined] at counted
      split at counted
      · rw [joining_of_none (by rw [(seal_intakeFields _).2.2.2]; rfl), Bool.and_false] at counted
        exact nomatch counted
      · exact counted
  omega

/-- The owner of an intake that leaves loses it, unless the owner is marked (R95). -/
theorem account_dropMember {i : IntakeNo} (owner : Option Slot) (same : (l.intake i).owner = owner) :
    ∃ n, Quiet l n ∧ n.intake i = l.intake i ∧ (dropMember i owner l).intakes = n.intakes ∧
      (dropMember i owner l).tariffs = n.tariffs ∧
      ∀ b, (dropMember i owner l).account b = ((n.account b).leave i).seal ∨
        (dropMember i owner l).account b = n.account b ∧
          ((n.account b).faultMark = false → ¬Owned b (n.intake i)) := by
  cases owner with
  | none =>
    refine ⟨l, quiet_refl l, rfl, rfl, rfl, fun b => .inr ⟨rfl, fun _ owned => ?_⟩⟩
    rw [Owned, same] at owned
    exact nomatch owned.2
  | some a =>
    have checked := quiet_checkAccount a l
    have kept : (l.checkAccount a).intake i = l.intake i := by simp only [Ledger.intake, Ledger.checkAccount_intakes]
    rw [dropMember]
    generalize l.checkAccount a = n at checked kept
    have other {b : Slot} (different : ¬a = b) : ¬Owned b (n.intake i) := by
      rw [kept, Owned, same]
      exact fun owned => different (Option.some.inj owned.2)
    refine ⟨n, checked, kept, ?_⟩
    by_cases mark : (n.account a).faultMark = true
    · rw [if_pos mark]
      refine ⟨rfl, rfl, fun b => .inr ⟨rfl, fun clear => other ?_⟩⟩
      rintro rfl
      exact absurd (mark.symm.trans clear) nofun
    · rw [if_neg mark]
      refine ⟨rfl, rfl, fun b => ?_⟩
      rw [n.account_putAccount a b]
      split
      · next here => exact here ▸ .inl rfl
      · next different => exact .inr ⟨rfl, fun _ => other different⟩

theorem Agrees.foldLeave (agrees : Agrees l) (i : IntakeNo) : Agrees (foldLeave i l) := by
  obtain ⟨n, quiet, same, intakes, tariffs, accounts⟩ := account_dropMember (l.intake i).owner rfl
  have checked := agrees.of_quiet quiet
  rw [Machine.foldLeave]
  generalize dropMember i (l.intake i).owner l = m at intakes tariffs accounts
  have kept (j : IntakeNo) : m.intake j = n.intake j := by rw [Ledger.intake, Ledger.intake, intakes]
  refine checked.released tariffs (fun j => ?_) fun b => (accounts b).imp_right fun ⟨here, unowned⟩ => ⟨here, fun clear _ => ?_⟩
  · rw [kept, Ledger.putIntake, Ledger.intake_storeIntake, kept]
  · have here' : (m.putIntake i (m.intake i).released).account b = n.account b := here
    rw [here'] at clear
    exact unowned clear

theorem Agrees.foldChange (agrees : Agrees l) (i : IntakeNo) : Agrees (foldChange i l) := by
  have checked := agrees.of_quiet (quiet_checkIntake i l)
  rw [Machine.foldChange]
  generalize l.checkIntake i = n at checked
  refine .ite (fun _ => checked) fun mark => ?_
  rw [Bool.not_eq_true] at mark
  split
  · exact checked
  · next a tag change => exact checked.foldJoin mark change
  · exact checked.foldLeave i

end

end Sys2Proof.Machine.Ownership
end

section
/-! The account requests keep ownership (R13, R20, R21, R152, R153, R169 to R171): the intakes released and the pending
changes withdrawn, intake by intake, and the accounts opened, freed and repaired. -/

namespace Sys2Proof.Machine.Ownership

open Sys2Proof Sys2Proof.Machine Sys2Proof.Machine.RecordEdits Sys2Proof.Machine.SwitchPool

/-! ### Intakes rewritten over a list -/

section

variable {l m : Ledger} {f : Intake → Intake} {i j : IntakeNo} {a : Slot}

theorem intake_rewriteIntake (f : Intake → Intake) (i j : IntakeNo) (l : Ledger) :
    (rewriteIntake f i l).intake j =
      if i = j ∧ (l.intake i).faultMark = false then (f (l.intake i)).seal else l.intake j := by
  rw [rewriteIntake]
  cases mark : (l.intake i).faultMark with
  | true => simp
  | false =>
    rw [if_neg Bool.false_ne_true, Ledger.putIntake, Ledger.intake_storeIntake]
    simp

/-- The intakes of a list rewritten, each once. -/
theorem intake_rewriteEach {numbers : List IntakeNo} (once : numbers.Nodup) (f : Intake → Intake) (j : IntakeNo)
    (l : Ledger) : (rewriteEach f numbers l).intake j = if j ∈ numbers then (f (l.intake j)).seal else l.intake j := by
  have written (i j : IntakeNo) (l : Ledger) :
      (l.putIntake i (f (l.intake i))).intake j = if i = j then (f (l.intake i)).seal else l.intake j :=
    l.intake_storeIntake i j _
  have pointwise := eachOf_pointwise (fun i (l : Ledger) => l.intake i) (act := fun i l => l.putIntake i (f (l.intake i)))
    (fun i j l different => by rw [written, if_neg different])
    (fun i l l' same => by rw [written, written, if_pos rfl, if_pos rfl, same]) once j l
  rw [rewriteEach, pointwise, written, if_pos rfl]

/-- What the release of an account's members leaves of an intake that the operation has verified (R20, step 3). -/
def releasedFrom (a : Slot) (members : List IntakeNo) (i : IntakeNo) (x : Intake) : Intake :=
  if x.faultMark then x
  else if i ∈ members then x.released.seal
  else if x.joining a then x.withoutChange.seal
  else x

theorem tariffs_releaseMembers (a : Slot) (l : Ledger) : (releaseMembers a l).tariffs = l.tariffs := by
  have rewritten (f : Intake → Intake) (i : IntakeNo) (m : Ledger) : (rewriteIntake f i m).tariffs = m.tariffs := by
    rw [rewriteIntake]
    split <;> rfl
  have released : (releaseMembers a l).tariffs = l.checkIntakes.tariffs :=
    eachOf_keeps_value (·.tariffs) (fun i _ m => by
      split
      · exact rewritten _ i m
      · split
        · exact rewritten _ i m
        · rfl) _
  rw [released, Ledger.checkIntakes_tariffs]

theorem intake_releaseMembers (a : Slot) (l : Ledger) (j : IntakeNo) :
    (releaseMembers a l).intake j = releasedFrom a (l.account a).members j (l.checkIntakes.intake j) := by
  have one (i j : IntakeNo) (m : Ledger) :
      (if i ∈ (l.account a).members then rewriteIntake Intake.released i m
        else if (m.intake i).joining a then rewriteIntake Intake.withoutChange i m else m).intake j =
      if i = j then releasedFrom a (l.account a).members i (m.intake i) else m.intake j := by
    rw [releasedFrom]
    by_cases member : i ∈ (l.account a).members
    · rw [if_pos member, if_pos member, intake_rewriteIntake]
      cases (m.intake i).faultMark <;> simp +contextual
    · rw [if_neg member, if_neg member]
      by_cases joins : (m.intake i).joining a = true
      · rw [if_pos joins, if_pos joins, intake_rewriteIntake]
        cases (m.intake i).faultMark <;> simp +contextual
      · rw [if_neg joins, if_neg joins]
        cases (m.intake i).faultMark <;> simp +contextual
  have pointwise := eachOf_pointwise (fun i (m : Ledger) => m.intake i)
    (act := fun i m => if i ∈ (l.account a).members then rewriteIntake Intake.released i m
      else if (m.intake i).joining a then rewriteIntake Intake.withoutChange i m else m)
    (fun i j m different => by rw [one, if_neg different])
    (fun i m m' same => by rw [one, one, if_pos rfl, if_pos rfl, same]) allIntakes_nodup j l.checkIntakes
  rw [releaseMembers, pointwise, if_pos (mem_allIntakes j), one, if_pos rfl]

/-! ### The members of an account released (R20, R21) -/

theorem faultMark_releasedFrom {members : List IntakeNo} {x : Intake} :
    (releasedFrom a members i x).faultMark = x.faultMark := by
  rw [releasedFrom]
  split
  · rfl
  · split
    · exact (seal_intakeFields _).1
    · split
      · exact (seal_intakeFields _).1
      · rfl

/-- For another account, a member released was not owned and is not. -/
theorem frames_releasedFrom {b : Slot} {members : List IntakeNo} {x : Intake}
    (unowned : x.faultMark = false → i ∈ members → ¬Owned b x) : Frames b x (releasedFrom a members i x) := by
  rw [releasedFrom]
  split
  · exact .refl b x
  · split
    · next member => exact (frames_released fun unmarked => unowned unmarked member).seal
    · split
      · exact (frames_withoutChange b x).seal
      · exact .refl b x

/-- The account's own members and pending joins are gone. -/
theorem gone_releasedFrom {members : List IntakeNo} {x : Intake} (unmarked : x.faultMark = false)
    (owned : Owned a x → i ∈ members) :
    ¬Owned a (releasedFrom a members i x) ∧ (releasedFrom a members i x).joining a = false := by
  rw [releasedFrom, if_neg (ne_true_of_eq_false unmarked)]
  split
  · refine ⟨not_owned_released a x, joining_of_none ?_⟩
    rw [(seal_intakeFields _).2.2.2]
    rfl
  · next outside =>
    split
    · obtain ⟨_, phase, owner, change⟩ := seal_intakeFields x.withoutChange
      refine ⟨?_, joining_of_none (by rw [change]; rfl)⟩
      rw [Owned, phase, owner]
      exact fun member => outside (owned member)
    · next apart => exact ⟨fun member => outside (owned member), by simpa using apart⟩

theorem changeFits_releasedFrom {members : List IntakeNo} {x : Intake} (fits : ChangeFits x) :
    ChangeFits (releasedFrom a members i x) := by
  rw [releasedFrom]
  split
  · exact fits
  · split
    · exact (changeFits_of_none rfl).seal
    · split
      · exact (changeFits_of_none rfl).seal
      · exact fits

/-- Ownership after the release of an account's members, when the account lists none any more. -/
theorem Agrees.releaseMembers (agrees : Agrees l) (unmarked : (l.account a).faultMark = false)
    (intakes : ∀ j, m.intake j = (Machine.releaseMembers a l).intake j) (tariffs : m.tariffs = l.tariffs)
    (others : ∀ b, b ≠ a → m.account b = l.account b) (members : (m.account a).members = [])
    (named : (m.account a).phase ≠ .free →
      (l.account a).phase ≠ .free ∧ (m.account a).tariff = (l.account a).tariff) : Agrees m := by
  have checked := agrees.of_quiet (quiet_checkIntakes l)
  have accounts (b : Slot) : l.checkIntakes.account b = l.account b := by
    simp only [Ledger.account, Ledger.checkIntakes_accounts]
  have tariffs' : m.tariffs = l.checkIntakes.tariffs := by rw [Ledger.checkIntakes_tariffs, tariffs]
  have written (j : IntakeNo) := (intakes j).trans (intake_releaseMembers a l j)
  obtain ⟨lists, _, tariff⟩ := checked.account a (by rw [accounts]; exact unmarked)
  rw [accounts] at lists tariff
  generalize l.checkIntakes = n at checked accounts tariffs' written lists tariff
  refine ⟨fun b clear => ?_, fun j clear => ?_⟩
  · by_cases same : b = a
    · subst same
      have none : joinCount m b = 0 := List.countP_eq_zero.mpr fun j _ => by
        rw [written, faultMark_releasedFrom]
        cases mark : (n.intake j).faultMark with
        | true => exact Bool.false_ne_true
        | false =>
          rw [(gone_releasedFrom mark (lists.member j mark).mpr).2]
          exact Bool.false_ne_true
      refine ⟨⟨fun j mark => ?_, ?_, ?_⟩, fun _ => members, fun occupied => ?_⟩
      · rw [members]
        rw [written, faultMark_releasedFrom] at mark
        rw [written]
        exact ⟨nofun, fun owned => absurd owned (gone_releasedFrom mark (lists.member j mark).mpr).1⟩
      · rw [members]
        exact List.nodup_nil
      · rw [members, none]
        exact Nat.zero_le _
      · obtain ⟨occupied', name⟩ := named occupied
        rw [name]
        exact tariffsStand_of_same tariffs' _ (tariff occupied')
    · refine .frame (checked.account b) (sameTerms_of_account b ((others b same).trans (accounts b).symm)) clear (fun j => ?_)
        (tariffsStand_of_same tariffs')
      rw [written]
      refine frames_releasedFrom fun mark member owned => same ?_
      exact Option.some.inj (owned.2.symm.trans ((lists.member j mark).mp member).2)
  · rw [written, faultMark_releasedFrom] at clear
    rw [written]
    exact changeFits_releasedFrom (checked.intake j clear)

end

/-! ### Retirement (R20, R21) -/

section

variable {l m : Ledger} {i : Slot} {a : Account} {c : Calendar} {mode : Mode} {p : List Byte}

theorem account_handIfDue (i j : Slot) (l : Ledger) : (l.handIfDue i).account j = l.account j := by
  rw [Ledger.handIfDue]
  split
  · rcases l.handToSettlement_cases i with same | handed
    · rw [same]
    · rw [handed]
      rfl
  · rfl

theorem account_raiseIf (b : Bool) (x : AttentionSource) (j : Slot) (l : Ledger) :
    (l.raiseIf b x).account j = l.account j := by
  rw [Ledger.account, Ledger.account, Ledger.raiseIf_accounts]

/-- A closure does not mark the account it verifies. -/
theorem faultMark_closeSlot {kind : ClosureKind} (sound : l.SoundAccount i) :
    ((closeSlot kind c i l).account i).faultMark = false := by
  obtain ⟨unmarked, checks⟩ := sound
  rw [closeSlot]
  dsimp only
  rw [Ledger.checkAccount_of_sound (.inr checks)]
  split
  · exact unmarked
  · next slot _ =>
    have counted (m : Ledger) :
        (eachOf slot.expected (countSilence c.params.silenceLimit) m).account i = m.account i := by
      simp only [Ledger.account]
      rw [eachOf_keeps_value (·.accounts) fun e _ m => countSilence_accounts ..]
    have kept (t : TariffNo) :
        ((eachOf slot.expected (countSilence c.params.silenceLimit) (l.checkTariff t)).account i) = l.account i := by
      rw [counted, Ledger.account, Ledger.account, Ledger.checkTariff_accounts]
    have closed (m : Ledger) (t : Tariff) (schedule : Schedule) (b : Bool) (x : AttentionSource) (same : m.account i = l.account i) :
        (((m.putAccount i ((m.account i).close kind t schedule c slot).1).raiseIf b x).account i).faultMark = false := by
      rw [account_raiseIf, Ledger.account_putAccount_self, (seal_fields _).1, close_keeps, same]
      exact unmarked
    split
    · rw [account_handIfDue]
      exact closed _ _ _ _ _ (kept _)
    · exact closed _ _ _ _ _ (kept _)

theorem phase_ne_free_of_bills (bills : a.bills = true) (unmarked : a.faultMark = false) : a.phase ≠ .free := by
  intro free
  have := (bills_of_unmarked unmarked).mp bills
  simp [free] at this

theorem Agrees.retireInRun (agrees : Agrees l) (sound : l.SoundAccount i) (bills : (l.account i).bills = true) :
    Agrees (retireInRun c i l) := by
  have closed := quiet_finalClose l c i
  have clear : ((performClose .retire false c.time i (closeSlot .forRetirement c i l)).account i).faultMark = false := by
    rw [performClose]
    rw [Ledger.account_raise, Ledger.account_putAccount_self, (seal_fields _).1]
    exact faultMark_closeSlot sound
  have bills' := (closed.account i).keeps_bills bills clear
  have agrees := agrees.of_quiet closed
  rw [Machine.retireInRun]
  dsimp only
  generalize performClose .retire false c.time i (closeSlot .forRetirement c i l) = n at agrees clear bills'
  obtain ⟨_, _, _, members, tariff⟩ :=
    seal_fields { (Machine.releaseMembers i n).account i with members := [], phase := .final }
  refine agrees.releaseMembers clear (fun j => rfl) ?_ (fun b other => ?_) ?_ fun _ => ⟨phase_ne_free_of_bills bills' clear, ?_⟩
  · have released : (Machine.releaseMembers i n).tariffs = n.tariffs := tariffs_releaseMembers i n
    exact released
  · rw [Ledger.account_putAccount_ne _ _ (Ne.symm other), account_releaseMembers]
  · rw [Ledger.account_putAccount_self, members]
  · rw [Ledger.account_putAccount_self, tariff, account_releaseMembers]

theorem Agrees.retireInCommissioning (agrees : Agrees l) (unmarked : (l.account i).faultMark = false) :
    Agrees (retireInCommissioning i l) := by
  refine agrees.releaseMembers unmarked (fun j => rfl) (tariffs_releaseMembers i l) (fun b other => ?_) ?_
    fun occupied => absurd ?_ occupied
  · rw [Machine.retireInCommissioning, Ledger.account_storeAccount_ne _ _ (Ne.symm other), account_releaseMembers]
  · rw [Machine.retireInCommissioning, Ledger.account_storeAccount_self]
    rfl
  · rw [Machine.retireInCommissioning, Ledger.account_storeAccount_self]
    rfl

theorem Agrees.retireAccount (agrees : Agrees l) : Agrees (retireAccount p c mode l).1 := by
  refine addressAccount_occupied Agrees (fun m quiet => agrees.of_quiet quiet) fun i m quiet sound occupied => ?_
  have agrees := agrees.of_quiet quiet
  refine .ite_fst (fun _ => agrees) fun notFinal => .ite_fst (fun _ => agrees) fun _ => ?_
  have bills := bills_of_state occupied notFinal sound.1
  have checked := agrees.of_quiet (quiet_checkTariff (m.account i).tariff m)
  have same : (m.checkTariff (m.account i).tariff).account i = m.account i := by
    simp only [Ledger.account, Ledger.checkTariff_accounts]
  refine .ite_fst (fun _ => checked) fun _ => .ite (fun _ => checked.retireInRun ?_ (by rw [same]; exact bills)) fun _ =>
    checked.retireInCommissioning (by rw [same]; exact sound.1)
  rw [Ledger.SoundAccount, same]
  exact sound

/-! ### Accounts written (R13, R152, R153) -/

/-- An account written with the member list it had, naming a tariff that is not EMPTY. -/
theorem Agrees.putAccount (agrees : Agrees l) (unmarked : a.faultMark = false → (l.account i).faultMark = false)
    (members : a.faultMark = false → a.members = (l.account i).members)
    (idle : a.faultMark = false → a.bills = false → a.members = [])
    (named : a.faultMark = false → a.phase ≠ .free → (l.tariff a.tariff).state ≠ .empty) : Agrees (l.storeAccount i a) := by
  refine ⟨fun b clear => ?_, agrees.intake⟩
  by_cases same : i = b
  · subst same
    have here : (l.storeAccount i a).account i = a := l.account_storeAccount_self i a
    rw [here] at clear
    obtain ⟨lists, _, _⟩ := agrees.account i (unmarked clear)
    refine ⟨?_, ?_, ?_⟩
    · rw [here, members clear]
      exact lists.frame fun j => .refl i _
    · rw [here]
      exact idle clear
    · rw [here]
      exact named clear
  · have kept : (l.storeAccount i a).account b = l.account b := l.account_storeAccount_ne a same
    exact .frame (agrees.account b) (sameTerms_of_account b kept) clear (fun j => .refl b _) (tariffsStand_of_same rfl)

end

end Sys2Proof.Machine.Ownership
end

section
/-! Ownership after every step (R9, R29, R88, R89): the accounts opened, freed and repaired, the tariffs written and
deleted, and the step itself. -/

namespace Sys2Proof.Machine.Ownership

open Sys2Proof Sys2Proof.Machine Sys2Proof.Machine.RecordEdits Sys2Proof.Machine.LedgerSteps

section

variable {l m : Ledger} {i : Slot} {a : Account} {c : Calendar} {mode : Mode} {p : List Byte}

/-! ### Accounts opened, released and renamed -/

theorem Agrees.openAccount (agrees : Agrees l) : Agrees (openAccount p c mode l).1 := by
  rcases openAccount_installs p c mode l with quiet | ⟨m, i, r, t, start, quiet, free, ready, _, installed⟩
  · exact agrees.of_quiet quiet
  · have agrees := agrees.of_quiet quiet
    have unmarked : (m.account i).faultMark = false := by
      cases mark : (m.account i).faultMark with
      | false => rfl
      | true => exact absurd free (state_ne_free_of_mark mark)
    have none : (m.account i).members = [] := by
      refine (agrees.account i unmarked).idle ?_
      cases bills : (m.account i).bills with
      | false => rfl
      | true => exact absurd free (state_ne_free_of_bills bills)
    obtain ⟨mark, _, _, members, tariff⟩ := seal_fields (.opened r t start)
    rw [installed]
    refine agrees.putAccount (fun _ => unmarked) (fun _ => ?_) (fun _ _ => members) fun _ _ => ?_
    · rw [members, none]
      rfl
    · rw [tariff]
      exact fun empty => nomatch ready.symm.trans empty

/-- A slot made FREE, when it lists nobody. -/
theorem Agrees.storeFree (agrees : Agrees l) (unmarked : (l.account i).faultMark = false)
    (none : (l.account i).members = []) : Agrees (l.storeAccount i .free) :=
  agrees.putAccount (fun _ => unmarked) (fun _ => none.symm) (fun _ _ => rfl) fun _ occupied => absurd rfl occupied

theorem Agrees.releaseSettlement (agrees : Agrees l) : Agrees (releaseSettlement p c mode l).1 := by
  refine addressAccount_occupied Agrees (fun m quiet => agrees.of_quiet quiet) fun i m quiet sound _ => ?_
  have agrees := agrees.of_quiet quiet
  refine .ite_fst (fun _ => agrees) fun _ => .ite_fst (fun final => ?_) fun _ =>
    agrees.of_quiet (.handedIfDue i (quiet_putAccount_of_phase rfl rfl rfl rfl rfl))
  refine agrees.storeFree sound.1 ((agrees.account i sound.1).idle ?_)
  rw [Account.bills, final]
  rfl

theorem Agrees.switchTariff (agrees : Agrees l) {t : TariffNo} (ready : (l.tariff t).state = .ready) :
    Agrees (switchTariff c i t l) := by
  have closed : ∃ n, Quiet l n ∧ n.tariffs = l.tariffs ∧
      Machine.switchTariff c i t l = n.putAccount i { (n.account i).clearWindow with tariff := t } := by
    rw [Machine.switchTariff]
    split
    · exact ⟨_, quiet_performClose l _ _ _ i, rfl, rfl⟩
    · exact ⟨l, quiet_refl l, rfl, rfl⟩
  obtain ⟨n, quiet, tariffs, switched⟩ := closed
  have agrees := agrees.of_quiet quiet
  obtain ⟨mark, phase, _, members, tariff⟩ := seal_fields { (n.account i).clearWindow with tariff := t }
  rw [switched]
  refine agrees.putAccount (fun clear => mark ▸ clear) (fun _ => members) (fun clear unbilled => ?_) fun _ _ => ?_
  · rw [members]
    rw [mark] at clear
    refine (agrees.account i clear).idle ?_
    rw [← unbilled, bills_seal]
    rfl
  · rw [tariff, Ledger.tariff, tariffs]
    exact fun empty => nomatch ready.symm.trans empty

theorem Agrees.changeTariff (agrees : Agrees l) : Agrees (changeTariff p c mode l).1 := by
  rw [Machine.changeTariff]
  split
  · exact agrees
  · next t _ =>
    refine addressAccount_occupied Agrees (fun m quiet => agrees.of_quiet quiet) fun i m quiet _ _ => ?_
    have agrees := agrees.of_quiet quiet
    have checked := quiet_checkTariff (m.account i).tariff m
    have both := checked.trans_quiet (quiet_checkTariff t _)
    refine .ite_fst (fun _ => agrees) fun _ => .ite_fst (fun _ => agrees) fun _ => .ite_fst (fun _ => agrees) fun _ =>
      .ite_fst (fun _ => agrees) fun _ => .ite_fst (fun _ => agrees.of_quiet checked) fun _ =>
      .ite_fst (fun _ => agrees.of_quiet both) fun ready => (agrees.of_quiet both).switchTariff (by simpa using ready)

/-! ### A marked account repaired or discarded (R169, R170) -/

theorem mem_owned {l : Ledger} {i : IntakeNo} {a : Slot} :
    i ∈ l.owned a ↔ (l.intake i).faultMark = false ∧ Owned a (l.intake i) := by
  rw [Ledger.owned, List.mem_filter, Bool.and_eq_true, beq_iff_eq, beq_iff_eq, Owned]
  constructor
  · rintro ⟨_, member, owner⟩
    obtain ⟨phase, unmarked⟩ := phase_member member
    exact ⟨unmarked, phase, owner⟩
  · rintro ⟨unmarked, phase, owner⟩
    exact ⟨mem_allIntakes i, by rw [Intake.state, unmarked, phase]; rfl, owner⟩

theorem mem_soundJoiners {l : Ledger} {i : IntakeNo} {a : Slot} :
    i ∈ l.soundJoiners a ↔ (l.intake i).faultMark = false ∧ (l.intake i).joining a = true := by
  rw [Ledger.soundJoiners, List.mem_filter, Bool.and_eq_true, Bool.not_eq_true']
  exact ⟨And.right, fun sound => ⟨mem_allIntakes i, sound⟩⟩

theorem owned_nodup (l : Ledger) (a : Slot) : (l.owned a).Nodup := allIntakes_nodup.filter _

theorem soundJoiners_nodup (l : Ledger) (a : Slot) : (l.soundJoiners a).Nodup := allIntakes_nodup.filter _

/-- What a repair or a discard of an account does to the intakes: some of those that it owns released, then some of those
that would join it without their change. -/
def intakesFreed (released joiners : List IntakeNo) (l : Ledger) : Ledger :=
  rewriteEach Intake.withoutChange joiners (rewriteEach Intake.released released l)

theorem intake_intakesFreed {released joiners : List IntakeNo} (once : released.Nodup) (once' : joiners.Nodup)
    (j : IntakeNo) (l : Ledger) :
    (intakesFreed released joiners l).intake j =
      if j ∈ joiners then (if j ∈ released then (l.intake j).released.seal else l.intake j).withoutChange.seal
      else if j ∈ released then (l.intake j).released.seal else l.intake j := by
  rw [intakesFreed, intake_rewriteEach once', intake_rewriteEach once]

theorem tariffs_rewriteEach (f : Intake → Intake) (numbers : List IntakeNo) (l : Ledger) :
    (rewriteEach f numbers l).tariffs = l.tariffs :=
  eachOf_keeps_value (act := fun i l => l.putIntake i (f (l.intake i))) (·.tariffs) (fun _ _ _ => rfl) l

theorem frames_intakesFreed {released joiners : List IntakeNo} (once : released.Nodup) (once' : joiners.Nodup) (b : Slot)
    (unowned : ∀ j ∈ released, ¬Owned b (l.intake j)) (j : IntakeNo) :
    Frames b (l.intake j) ((intakesFreed released joiners l).intake j) := by
  have first : Frames b (l.intake j) (if j ∈ released then (l.intake j).released.seal else l.intake j) := by
    split
    · next mem => exact (frames_released fun _ => unowned j mem).seal
    · exact .refl b _
  rw [intake_intakesFreed once once']
  split
  · exact first.trans (frames_withoutChange b _).seal
  · exact first

theorem faultMark_intakesFreed {released joiners : List IntakeNo} (once : released.Nodup) (once' : joiners.Nodup)
    (j : IntakeNo) : ((intakesFreed released joiners l).intake j).faultMark = (l.intake j).faultMark := by
  have first : (if j ∈ released then (l.intake j).released.seal else l.intake j).faultMark = (l.intake j).faultMark := by
    split
    · exact (seal_intakeFields _).1
    · rfl
  rw [intake_intakesFreed once once']
  split
  · exact (seal_intakeFields _).1.trans first
  · exact first

theorem changeFits_intakesFreed {released joiners : List IntakeNo} (once : released.Nodup) (once' : joiners.Nodup)
    (agrees : Agrees l) (j : IntakeNo) (clear : ((intakesFreed released joiners l).intake j).faultMark = false) :
    ChangeFits ((intakesFreed released joiners l).intake j) := by
  rw [intake_intakesFreed once once'] at clear ⊢
  split
  · exact (changeFits_of_none rfl).seal
  · next outside =>
    rw [if_neg outside] at clear
    split
    · exact (changeFits_of_none rfl).seal
    · next kept =>
      rw [if_neg kept] at clear
      exact agrees.intake j clear

/-- An account written over a marked one agrees with the intakes freed, and the others as before. -/
theorem Agrees.install {released joiners : List IntakeNo} (agrees : Agrees l) (once : released.Nodup)
    (once' : joiners.Nodup) (own : ∀ j ∈ released, Owned i (l.intake j))
    (fits : AccountFits ((intakesFreed released joiners l).storeAccount i a) i) :
    Agrees ((intakesFreed released joiners l).storeAccount i a) := by
  refine ⟨fun b clear => ?_, changeFits_intakesFreed once once' agrees⟩
  by_cases same : i = b
  · exact same ▸ fits
  · have kept : ((intakesFreed released joiners l).storeAccount i a).account b = l.account b := by
      rw [Ledger.account_storeAccount_ne _ _ same, intakesFreed, account_rewriteEach, account_rewriteEach]
    have tariffs : ((intakesFreed released joiners l).storeAccount i a).tariffs = l.tariffs := by
      rw [Ledger.storeAccount_tariffs, intakesFreed, tariffs_rewriteEach, tariffs_rewriteEach]
    refine .frame (agrees.account b) (sameTerms_of_account b kept) clear
      (frames_intakesFreed once once' b fun j mem owned => same ?_) (tariffsStand_of_same tariffs)
    exact Option.some.inj ((own j mem).2.symm.trans owned.2)

theorem owned_unsealed {x : Intake} : Owned i x.seal ↔ Owned i x := by
  obtain ⟨_, phase, owner, _⟩ := seal_intakeFields x
  rw [Owned, Owned, phase, owner]

/-- What an account owns of the intakes freed: what it owned, but for those released. -/
theorem owned_intakesFreed {released joiners : List IntakeNo} (once : released.Nodup) (once' : joiners.Nodup)
    (j : IntakeNo) : Owned i ((intakesFreed released joiners l).intake j) ↔ j ∉ released ∧ Owned i (l.intake j) := by
  have first : Owned i (if j ∈ released then (l.intake j).released.seal else l.intake j) ↔
      j ∉ released ∧ Owned i (l.intake j) := by
    split
    · next mem => exact ⟨fun owned => absurd owned (not_owned_released i _), fun kept => absurd mem kept.1⟩
    · next kept => exact ⟨fun owned => ⟨kept, owned⟩, And.right⟩
  rw [intake_intakesFreed once once']
  split
  · rw [owned_unsealed]
    exact first
  · exact first

/-- The pending joins that the intakes freed keep are those found that are not among the ones withdrawn. -/
theorem joining_intakesFreed {released joiners : List IntakeNo} (once' : joiners.Nodup) (j : IntakeNo) (clear : ((intakesFreed released joiners l).intake j).faultMark = false)
    (joins : ((intakesFreed released joiners l).intake j).joining i = true) :
    j ∈ (rewriteEach Intake.released released l).soundJoiners i ∧ j ∉ joiners := by
  rw [intakesFreed, intake_rewriteEach once'] at clear joins
  split at joins
  · rw [joining_of_none (by rw [(seal_intakeFields _).2.2.2]; rfl)] at joins
    exact nomatch joins
  · next outside =>
    rw [if_neg outside] at clear
    exact ⟨mem_soundJoiners.mpr ⟨clear, joins⟩, outside⟩

/-- Of the elements that satisfy a property, at most `k` do not stand behind the first `k`. -/
theorem countP_le_of_drop {α : Type} [DecidableEq α] {p q : α → Bool} {list : List α} {k : Nat}
    (left : ∀ j ∈ list, p j = true → q j = true ∧ j ∉ (list.filter q).drop k) : list.countP p ≤ k := by
  have fewer : list.countP p ≤ list.countP fun j => decide (j ∉ (list.filter q).drop k) && q j :=
    List.countP_mono_left fun j mem holds => by
      obtain ⟨here, outside⟩ := left j mem holds
      rw [here, decide_eq_true outside]
      rfl
  have first : ((list.filter q).filter fun j => decide (j ∉ (list.filter q).drop k)).length ≤ k := by
    have none : ((list.filter q).drop k).filter (fun j => decide (j ∉ (list.filter q).drop k)) = [] :=
      List.filter_eq_nil_iff.mpr fun j mem => by simpa using mem
    have split : (list.filter q).filter (fun j => decide (j ∉ (list.filter q).drop k)) =
        ((list.filter q).take k).filter fun j => decide (j ∉ (list.filter q).drop k) := by
      conv => lhs; arg 2; rw [← List.take_append_drop k (list.filter q)]
      rw [List.filter_append, none, List.append_nil]
    rw [split]
    exact Nat.le_trans (List.length_filter_le _ _) (List.length_take_le _ _)
  rw [List.filter_filter, ← List.countP_eq_length_filter] at first
  omega

theorem Agrees.carryOutRepair (agrees : Agrees l) {r : IdentityRequest} {t : TariffNo} {ratchet : Vector (Option Nat) 11}
    {start : Option Seconds} (ready : (l.tariff t).state = .ready) : Agrees (carryOutRepair r t ratchet start i l) := by
  have checked := agrees.of_quiet (quiet_checkIntakes l)
  have tariff : l.checkIntakes.tariff t = l.tariff t := by simp only [Ledger.tariff, Ledger.checkIntakes_tariffs]
  rw [Machine.carryOutRepair]
  generalize l.checkIntakes = n at checked tariff
  have once : ((n.owned i).drop Config.memberLimit).Nodup := (owned_nodup n i).sublist (List.drop_sublist _ _)
  generalize joiners : ((rewriteEach Intake.released ((n.owned i).drop Config.memberLimit) n).soundJoiners i).drop
    (Config.memberLimit - ((n.owned i).take Config.memberLimit).length) = withdrawn
  have once' : withdrawn.Nodup := joiners ▸ (soundJoiners_nodup _ i).sublist (List.drop_sublist _ _)
  obtain ⟨_, _, _, members, name⟩ := seal_fields (.repaired r t ratchet ((n.owned i).take Config.memberLimit) start)
  have members : (Account.seal (.repaired r t ratchet ((n.owned i).take Config.memberLimit) start)).members =
    (n.owned i).take Config.memberLimit := members
  refine checked.install once once' (fun j mem => (mem_owned.mp (List.mem_of_mem_drop mem)).2) ⟨?_, ?_, ?_⟩
  · rw [Ledger.account_storeAccount_self, members]
    refine ⟨fun j clear => ?_, (owned_nodup n i).sublist (List.take_sublist _ _), ?_⟩
    · rw [Ledger.intake_storeAccount, faultMark_intakesFreed once once'] at clear
      have listed : j ∈ n.owned i ↔ Owned i (n.intake j) := by rw [mem_owned, clear]; simp
      have parts := owned_nodup n i
      rw [← List.take_append_drop Config.memberLimit (n.owned i)] at parts listed
      obtain ⟨_, _, apart⟩ := List.nodup_append.mp parts
      rw [Ledger.intake_storeAccount, owned_intakesFreed once once', ← listed, List.mem_append]
      exact ⟨fun mem => ⟨fun mem' => apart j mem j mem' rfl, .inl mem⟩, fun owned => owned.2.resolve_right owned.1⟩
    · have fewer : joinCount (Ledger.storeAccount i
          (Account.repaired r t ratchet ((n.owned i).take Config.memberLimit) start).seal
            (intakesFreed ((n.owned i).drop Config.memberLimit) withdrawn n)) i ≤
          Config.memberLimit - ((n.owned i).take Config.memberLimit).length := by
        refine countP_le_of_drop (q := fun j =>
          !((rewriteEach Intake.released ((n.owned i).drop Config.memberLimit) n).intake j).faultMark &&
            ((rewriteEach Intake.released ((n.owned i).drop Config.memberLimit) n).intake j).joining i)
          fun j _ counted => ?_
        rw [Bool.and_eq_true, Bool.not_eq_true', Ledger.intake_storeAccount] at counted
        obtain ⟨found, left⟩ := joining_intakesFreed once' j counted.1 counted.2
        exact ⟨(List.mem_filter.mp found).2, fun mem => left (joiners ▸ mem)⟩
      have : ((n.owned i).take Config.memberLimit).length ≤ Config.memberLimit := List.length_take_le _ _
      exact Nat.le_trans (Nat.add_le_add_left fewer _) (by omega)
  · rw [Ledger.account_storeAccount_self, bills_seal]
    exact nofun
  · intro _
    rw [Ledger.account_storeAccount_self, name, Ledger.tariff, Ledger.storeAccount_tariffs, intakesFreed, tariffs_rewriteEach,
      tariffs_rewriteEach, ← Ledger.tariff]
    rw [← tariff] at ready
    exact fun empty => nomatch ready.symm.trans empty

theorem Agrees.repairAccount (agrees : Agrees l) : Agrees (repairAccount p c mode l).1 := by
  rcases repairAccount_installs p c mode l with quiet | ⟨m, i, r, t, ratchet, start, quiet, _, ready, _, installed⟩
  · exact agrees.of_quiet quiet
  · rw [installed]
    exact (agrees.of_quiet quiet).carryOutRepair ready

theorem Agrees.discardAccount (agrees : Agrees l) : Agrees (discardAccount p c mode l).1 := by
  refine addressFaulted_keeps Agrees agrees fun i _ => ?_
  have checked := agrees.of_quiet (quiet_checkIntakes l)
  dsimp only
  generalize l.checkIntakes = n at checked
  have once := owned_nodup n i
  have once' := soundJoiners_nodup (rewriteEach Intake.released (n.owned i) n) i
  refine checked.install once once' (fun j mem => (mem_owned.mp mem).2) ⟨⟨fun j clear => ?_, ?_, ?_⟩, ?_, ?_⟩
  · rw [Ledger.intake_storeAccount, faultMark_intakesFreed once once'] at clear
    rw [Ledger.intake_storeAccount, owned_intakesFreed once once', Ledger.account_storeAccount_self]
    exact ⟨nofun, fun owned => absurd (mem_owned.mpr ⟨clear, owned.2⟩) owned.1⟩
  · rw [Ledger.account_storeAccount_self]
    exact List.nodup_nil
  · have none : joinCount (Ledger.storeAccount i .free (intakesFreed (n.owned i)
        ((rewriteEach Intake.released (n.owned i) n).soundJoiners i) n)) i = 0 :=
      List.countP_eq_zero.mpr fun j _ counted => by
        rw [Bool.and_eq_true, Bool.not_eq_true', Ledger.intake_storeAccount] at counted
        obtain ⟨found, left⟩ := joining_intakesFreed once' j counted.1 counted.2
        exact left found
    rw [Ledger.account_storeAccount_self]
    exact Nat.le_trans (Nat.le_of_eq (by rw [none]; rfl)) (Nat.zero_le _)
  · rw [Ledger.account_storeAccount_self]
    exact fun _ => rfl
  · rw [Ledger.account_storeAccount_self]
    exact fun occupied => absurd rfl occupied

/-! ### A marked intake repaired (R171) -/

/-- The accounts after all but the first that list an intake have lost it. -/
theorem account_leaveEach {slots : List Slot} (once : slots.Nodup) (i : IntakeNo) (b : Slot) (l : Ledger) :
    (eachOf slots (fun a l => l.putAccount a ((l.account a).leave i)) l).account b =
      if b ∈ slots then ((l.account b).leave i).seal else l.account b := by
  have pointwise := eachOf_pointwise (fun a (l : Ledger) => l.account a)
    (act := fun a l => l.putAccount a ((l.account a).leave i))
    (fun a b l different => by rw [Ledger.account_putAccount_ne _ _ different])
    (fun a l l' same => by rw [Ledger.account_putAccount_self, Ledger.account_putAccount_self, same]) once b l
  rw [pointwise, Ledger.account_putAccount_self]

theorem mem_listing {l : Ledger} {i : IntakeNo} {a : Slot} :
    a ∈ l.listing i ↔ (l.account a).bills = true ∧ i ∈ (l.account a).members := by
  rw [Ledger.listing, List.mem_filter, Bool.and_eq_true, List.contains_iff_mem]
  exact ⟨And.right, fun both => ⟨mem_allSlots a, both⟩⟩

/-- The intake repaired is listed by its owner alone. -/
theorem Agrees.intakeRepaired (agrees : Agrees l) {k : LaneNo} {scale : Nat} {i : IntakeNo} {found : List Slot}
    (marked : (l.intake i).faultMark = true) (once : found.Nodup)
    (listing : ∀ b, b ∈ found ↔ (l.account b).bills = true ∧ i ∈ (l.account b).members)
    (intakes : m.intakes = l.intakes) (tariffs : m.tariffs = l.tariffs)
    (accounts : ∀ b, m.account b = if b ∈ found.tail then ((l.account b).leave i).seal else l.account b) :
    Agrees (m.putIntake i (.repaired k scale found.head? c)) := by
  have written (j : IntakeNo) : (m.putIntake i (.repaired k scale found.head? c)).intake j =
      if i = j then (Intake.repaired k scale found.head? c).seal else l.intake j := by
    rw [Ledger.putIntake, Ledger.intake_storeIntake, Ledger.intake, intakes]
    rfl
  have others (b : Slot) (j : IntakeNo) (other : j ≠ i) :
      Frames b (l.intake j) ((m.putIntake i (.repaired k scale found.head? c)).intake j) := by
    rw [written, if_neg (Ne.symm other)]
    exact .refl b _
  obtain ⟨_, phase, owner, change⟩ := seal_intakeFields (.repaired k scale found.head? c)
  have here (b : Slot) : Owned b ((m.putIntake i (.repaired k scale found.head? c)).intake i) ↔ found.head? = some b := by
    rw [written, if_pos rfl, Owned, phase, owner]
    refine ⟨And.right, fun head => ⟨?_, head⟩⟩
    rw [Intake.repaired, head]
    rfl
  have unchanged : ((m.putIntake i (.repaired k scale found.head? c)).intake i).change = none := by
    rw [written, if_pos rfl, change]
    rfl
  have account (b : Slot) : (m.putIntake i (.repaired k scale found.head? c)).account b = m.account b := rfl
  have tariff (t : TariffNo) : (m.putIntake i (.repaired k scale found.head? c)).tariff t = l.tariff t := by
    rw [Ledger.tariff, Ledger.tariff, ← tariffs]
    rfl
  refine ⟨fun b clear => ?_, fun j clear => ?_⟩
  · by_cases mem : b ∈ found.tail
    · have left : m.account b = ((l.account b).leave i).seal := by rw [accounts, if_pos mem]
      obtain ⟨mark, phase, _, members, name⟩ := seal_fields ((l.account b).leave i)
      rw [account, left, mark] at clear
      obtain ⟨lists, idle, named⟩ := agrees.account b clear
      refine ⟨?_, fun unbilled => ?_, fun occupied => ?_⟩
      · rw [account, left, members]
        refine lists.leave (others b) ?_ unchanged
        rw [here]
        intro head
        cases found with
        | nil => exact nomatch head
        | cons first rest =>
          obtain rfl := Option.some.inj head
          exact (List.nodup_cons.mp once).1 mem
      · rw [account, left, bills_seal] at unbilled
        rw [account, left, members, Account.leave, idle unbilled]
        rfl
      · rw [account, left, phase] at occupied
        rw [account, left, name, tariff]
        exact named occupied
    · have kept : m.account b = l.account b := by rw [accounts, if_neg mem]
      rw [account, kept] at clear
      obtain ⟨lists, idle, named⟩ := agrees.account b clear
      refine ⟨⟨fun j unmarked => ?_, ?_, ?_⟩, ?_, fun occupied => ?_⟩
      · rw [account, kept]
        by_cases same : j = i
        · subst same
          rw [here]
          constructor
          · intro member
            have bills : (l.account b).bills = true := by
              cases bills : (l.account b).bills with
              | true => rfl
              | false =>
                rw [idle bills] at member
                exact nomatch member
            have inFound := (listing b).mpr ⟨bills, member⟩
            cases found with
            | nil => exact nomatch inFound
            | cons first rest => exact congrArg some ((List.mem_cons.mp inFound).resolve_right mem).symm
          · intro head
            exact ((listing b).mp (List.mem_of_head? head)).2
        · obtain ⟨before, owned, _⟩ := others b j same unmarked
          rw [owned]
          exact lists.member j before
      · rw [account, kept]
        exact lists.once
      · have fewer : joinCount (m.putIntake i (.repaired k scale found.head? c)) b ≤ joinCount l b :=
          joinCount_le fun j unmarked joins => by
            by_cases same : j = i
            · subst same
              rw [joining_of_none unchanged] at joins
              exact nomatch joins
            · obtain ⟨before, _, joined⟩ := others b j same unmarked
              exact ⟨before, joined joins⟩
        rw [account, kept]
        exact Nat.le_trans (Nat.add_le_add_left fewer _) lists.room
      · rw [account, kept]
        exact idle
      · rw [account, kept] at occupied
        rw [account, kept, tariff]
        exact named occupied
  · by_cases same : j = i
    · subst same
      exact changeFits_of_none unchanged
    · rw [written, if_neg (Ne.symm same)] at clear ⊢
      exact agrees.intake j clear

theorem Agrees.carryOutIntakeRepair (agrees : Agrees l) {k : LaneNo} {scale : Nat} {i : IntakeNo}
    (marked : (l.intake i).faultMark = true) : Agrees (carryOutIntakeRepair k scale c i l) := by
  have checked := agrees.of_quiet (quiet_checkAccounts l)
  have same : l.checkAccounts.intake i = l.intake i := by simp only [Ledger.intake, Ledger.checkAccounts_intakes]
  rw [Machine.carryOutIntakeRepair]
  generalize l.checkAccounts = n at checked same
  generalize listed : n.listing i = found
  have once : found.Nodup := listed ▸ allSlots_nodup.filter _
  have once' : found.tail.Nodup := once.sublist (List.tail_sublist _)
  have listing (b : Slot) : b ∈ found ↔ (n.account b).bills = true ∧ i ∈ (n.account b).members := listed ▸ mem_listing
  have left := account_leaveEach once' i
  have intakes : (eachOf found.tail (fun a l => l.putAccount a ((l.account a).leave i)) n).intakes = n.intakes :=
    eachOf_keeps_value (act := fun a l => l.putAccount a ((l.account a).leave i)) (·.intakes) (fun _ _ _ => rfl) n
  have tariffs : (eachOf found.tail (fun a l => l.putAccount a ((l.account a).leave i)) n).tariffs = n.tariffs :=
    eachOf_keeps_value (act := fun a l => l.putAccount a ((l.account a).leave i)) (·.tariffs) (fun _ _ _ => rfl) n
  have accounts := fun b => left b n
  generalize eachOf found.tail (fun a l => l.putAccount a ((l.account a).leave i)) n = m at intakes tariffs accounts
  exact checked.intakeRepaired (same ▸ marked) once listing intakes tariffs accounts

theorem Agrees.repairIntake (agrees : Agrees l) : Agrees (repairIntake p c mode l).1 := by
  rw [Machine.repairIntake]
  split
  · exact .ite_fst (fun marked => agrees.carryOutIntakeRepair marked) fun _ => agrees
  · exact agrees

/-! ### Tariffs written and deleted (R41, R42) -/

theorem Agrees.writeTariff (agrees : Agrees l) : Agrees (writeTariff p c mode l).1 := by
  rcases writeTariff_cases p c mode l with quiet | ⟨w, repair, valid, _, written, _, carried⟩
  · exact agrees.of_quiet quiet
  · obtain ⟨accounts, intakes, _⟩ := quiet_carryOutWrite w repair (l.checkTariff w.index)
    rw [carried]
    refine (agrees.of_quiet (quiet_checkTariff w.index l)).of_records accounts intakes fun t stands => ?_
    rw [CheckWords.tariff_carryOutWrite]
    split
    · rw [SwitchPool.state_written written valid]
      exact nofun
    · exact stands

/-- No account names a tariff deleted (R29, R42). -/
theorem Agrees.deleteTariff (agrees : Agrees l) : Agrees (deleteTariff p c mode l).1 := by
  rcases deleteTariff_cases p c mode l with same | ⟨t, unnamed, deleted⟩
  · rw [same]
    exact agrees
  · rw [deleted]
    refine ⟨fun b clear => ?_, agrees.intake⟩
    obtain ⟨lists, idle, named⟩ := agrees.account b clear
    refine ⟨lists.frame fun j => .refl b _, idle, fun occupied => ?_⟩
    have other : (l.account b).tariff ≠ t := fun name => by
      have holds : b ∈ l.naming t := by
        rw [Ledger.naming, List.mem_filter, Account.names, Bool.and_eq_true, bne_iff_ne, beq_iff_eq]
        exact ⟨mem_allSlots b, mt (PeriodSettlement.state_eq_free_iff clear).mp occupied, name⟩
      rw [List.isEmpty_iff.mp unnamed] at holds
      exact nomatch holds
    have kept : (Ledger.storeTariff t .empty { l with pool := freeOwned t [] l.pool }).tariff (l.account b).tariff =
        l.tariff (l.account b).tariff := by
      rw [Ledger.tariff_storeTariff_ne _ _ (Ne.symm other), CheckWords.tariff_withPool]
    exact kept ▸ named occupied

/-! ### The step -/

theorem Agrees.of_same (agrees : Agrees l) (accounts : ∀ b, m.account b = l.account b)
    (intakes : ∀ j, m.intake j = l.intake j) (tariffs : m.tariffs = l.tariffs) : Agrees m := by
  refine agrees.of_frames (fun b => sameTerms_of_account b (accounts b)) (fun b j => ?_) (fun j clear => ?_)
    (tariffsStand_of_same tariffs)
  · rw [intakes]
    exact .refl b _
  · rw [intakes] at clear ⊢
    exact agrees.intake j clear

theorem Agrees.foldMissed (agrees : Agrees l) (i : IntakeNo) : Agrees (foldMissed i l) :=
  .ite (fun _ => agrees.foldChange i) fun _ => agrees

theorem Agrees.bridgeGap (agrees : Agrees l) (n : Nat) : Agrees (bridgeGap c n l) := by
  have outages := agrees.of_quiet (quiet_enterAllOutages l c n)
  rw [Machine.bridgeGap]
  generalize eachOf allSlots (enterOutages c n) l = m at outages
  split
  · exact agrees
  · exact eachOf_keeps Agrees (fun i _ _ so => so.foldMissed i) outages

theorem Agrees.catchUp (agrees : Agrees l) : Agrees (catchUp c l) :=
  (((agrees.of_quiet (quiet_closeStales l c)).bridgeGap _).of_quiet (quiet_ageOwners _ _ _)).of_quiet
    (quiet_missedCloses _ _ _)

/-- Every request on the records keeps ownership. -/
theorem Agrees.ledgerWork (agrees : Agrees l) (k : RequestCode) : Agrees (ledgerWork k p c mode l).1 := by
  cases k with
  | openAccount => exact @Agrees.openAccount l c mode p agrees
  | amendAccount => exact agrees.of_quiet (@quiet_amendAccount p c mode l)
  | suspendAccount => exact agrees.of_quiet (@quiet_suspendAccount p c mode l)
  | resumeAccount => exact agrees.of_quiet (@quiet_resumeAccount p c mode l)
  | retireAccount => exact @Agrees.retireAccount l c mode p agrees
  | findAccount => exact agrees.of_quiet (@quiet_findAccount p c mode l)
  | readAccount => exact agrees.of_quiet (@quiet_readAccount p c mode l)
  | listAccounts => exact agrees.of_quiet (@quiet_listAccounts p c mode l)
  | writeTariff => exact @Agrees.writeTariff l c mode p agrees
  | deleteTariff => exact @Agrees.deleteTariff l c mode p agrees
  | readTariff => exact agrees.of_quiet (@quiet_readTariff p c mode l)
  | defineIntake => exact @Agrees.defineIntake p c mode l agrees
  | assignIntake => exact @Agrees.assignIntake p c mode l agrees
  | unassignIntake => exact @Agrees.unassignIntake p c mode l agrees
  | readIntake => exact agrees.of_quiet (@quiet_readIntake p c mode l)
  | collectHeld => exact agrees.of_quiet (@quiet_collectHeld p c mode l)
  | readDemand => exact agrees.of_quiet (@quiet_readDemand p c mode l)
  | closeNow => exact agrees.of_quiet (@quiet_closeNow p c mode l)
  | changeTariff => exact @Agrees.changeTariff l c mode p agrees
  | releaseSettlement => exact @Agrees.releaseSettlement l c mode p agrees
  | repairAccount => exact @Agrees.repairAccount l c mode p agrees
  | discardAccount => exact @Agrees.discardAccount l c mode p agrees
  | repairIntake => exact @Agrees.repairIntake l c mode p agrees
  | _ => exact agrees

theorem Agrees.of_step (agrees : Agrees l) (step : LedgerStep l m) : Agrees m := by
  induction step with
  | kept => exact agrees
  | alerted attention _ ih => exact ih.of_same (fun _ => rfl) (fun _ => rfl) rfl
  | requested k p c mode => exact agrees.ledgerWork k
  | started t => exact agrees.of_quiet (quiet_eachOf (fun i l => quiet_startAccount l t i) allSlots l)
  | aged c => exact agrees.of_quiet (quiet_ageOwners l c 0)
  | folded i => exact agrees.foldChange i
  | visited c tag t i => exact agrees.of_quiet (quiet_visitAccount l c tag t i)
  | closed c i => exact agrees.of_quiet (quiet_closeSlot l .ordinary c i)
  | notified t => exact agrees.of_quiet (quiet_bandNotify l t)
  | placed c mode e => exact agrees.of_quiet (quiet_placeEntry l c mode e)
  | settled t => exact agrees.of_quiet (quiet_settleNext l t)
  | swept p => exact agrees.of_quiet (quiet_sweep l p)
  | caughtUp c => exact agrees.catchUp
  | warm => exact agrees.of_same (fun _ => rfl) (fun _ => rfl) rfl
  | cold => exact (ownershipAgrees_iff .reset).mp ResetState.ownershipAgrees_reset

end

/-- Settles O59: the buffers and the work lists command by command, and ownership over every step of the ledger. -/
theorem buffersAndListsAreKept : Obligations.BuffersAndListsAreKept :=
  ⟨fun _ _ whole lists stepped => WorkLists.buffersAndLists_of_step whole lists stepped,
    fun s t agrees stepped =>
      (ownershipAgrees_iff t).mpr (((ownershipAgrees_iff s).mp agrees).of_step (ledgerStep_of_step stepped))⟩

end Sys2Proof.Machine.Ownership
end

section
/-! The rules that the requests on records share: what a granted request answers, what one refused by its parameters
answers, and the addressing checks of R11 and R90, each said once for every request. With them, the requests on accounts. -/

namespace Sys2Proof.Machine.RequestRules

open Sys2Proof Sys2Proof.Machine
open Sys2Proof.Machine.PeriodSettlement

/-! ### Answers -/

section

variable {s : State} {k : RequestCode} {c : Instr} {p : List Byte} {l : Ledger} {a : Answer}
  {work : List Byte → Calendar → Mode → Ledger → Ledger × Answer}

/-- A granted request answers what its work on the ledger gives. -/
theorem exec_of_work (runs : exec c s = .next (runRecordRequest k work s)) (granted : s.Granted k p)
    (worked : work p s.calendar s.mode s.ledger = (l, a)) (onRecords : a.code.onParameters = false) :
    exec c s = .next (s.answered l a) :=
  runs.trans (congrArg Host.Outcome.next (runRecordRequest_of_work granted worked onRecords))

/-- A request that its parameters refuse is answered whoever waits (log 5). -/
theorem exec_of_refusal (runs : exec c s = .next (runRecordRequest k work s)) (issues : s.Issues k p)
    (refused : work p s.calendar s.mode s.ledger = (s.ledger, a)) (byParameters : a.code.onParameters = true) :
    exec c s = .next (s.respond a) := by
  rw [runs, runRecordRequest_refused issues (by rw [refused]; exact byParameters), refused]
  rfl

end

/-! ### The addressing checks of R11 -/

section

variable {l : Ledger} {i : Slot} {n : Nat} {rangesHold : Bool} {own : Slot → Account → Ledger → Ledger × Answer}

/-- A number above 63 names no slot. -/
theorem slotOf_of_above (above : 63 < n) : slotOf n = none := dif_neg (by omega)

/-- A number above 15 names no tariff. -/
theorem tariffOf_of_above (above : 15 < n) : tariffOf n = none := dif_neg (by omega)

/-- A slot or a parameter out of range refuses the request. -/
theorem addressAccount_of_range (bad : 63 < n ∨ rangesHold = false) :
    addressAccount n rangesHold l own = (l, refuse .outOfRange) := by
  rw [addressAccount]
  rcases bad with above | outside
  · rw [slotOf_of_above above]
  · cases slotOf n with
    | none => rfl
    | some i => simp [outside]

/-- A FREE slot has no account to address. -/
theorem addressAccount_of_free (names : n = i.val) (free : (l.account i).state = .free) :
    addressAccount n true l own = (l, refuse .noSuchAccount) := by
  simp [addressAccount, names, slotOf_val, free]

/-- An account with its mark set is FAULTED. -/
theorem state_of_mark {a : Account} (mark : a.faultMark = true) : a.state = .faulted := if_pos mark

/-- A marked account is refused. -/
theorem addressAccount_of_mark (names : n = i.val) (mark : (l.account i).faultMark = true) :
    addressAccount n true l own = (l, refuse .faulted) := by
  have same : l.checkAccount i = l := Ledger.checkAccount_of_sound (.inl mark)
  simp [addressAccount, names, slotOf_val, state_of_mark mark, same, mark]

/-- A failing account is marked and refused. -/
theorem addressAccount_of_failing (names : n = i.val) (failing : l.FailingAccount i) :
    addressAccount n true l own = (l.withAccountMarked i, refuse .faulted) := by
  have notFree : (l.account i).state ≠ .free := mt (state_eq_free_iff failing.1).mp failing.2.1
  have marked : ((l.withAccountMarked i).account i).faultMark = true := by simp [Ledger.withAccountMarked]
  simp [addressAccount, names, slotOf_val, notFree, checkAccount_of_failingAccount failing, marked]

end

/-! ### A request that addresses an account -/

section

variable {s : State} {k : RequestCode} {c : Instr} {p : List Byte} {rangesHold : Bool}
  {work : List Byte → Calendar → Mode → Ledger → Ledger × Answer}

/-- With these parameters the request is the addressing checks, and then work of its own. -/
def Addresses (work : List Byte → Calendar → Mode → Ledger → Ledger × Answer) (p : List Byte) (rangesHold : Bool) : Prop :=
  ∀ c mode l, ∃ own, work p c mode l = addressAccount (field 0 1 p) rangesHold l own

/-- Out of range, such a request is refused whoever waits. -/
theorem exec_of_range (runs : exec c s = .next (runRecordRequest k work s)) (issues : s.Issues k p)
    (addresses : Addresses work p rangesHold) (bad : 63 < field 0 1 p ∨ rangesHold = false) :
    exec c s = .next (s.respond (refuse .outOfRange)) := by
  obtain ⟨own, worked⟩ := addresses s.calendar s.mode s.ledger
  exact exec_of_refusal runs issues (worked.trans (addressAccount_of_range bad)) rfl

/-- On a FREE slot, on a marked account and on a failing one, such a request is refused (R11). -/
theorem exec_of_unsound {i : Slot} (runs : exec c s = .next (runRecordRequest k work s)) (granted : s.Granted k p)
    (addresses : Addresses work p true) (names : field 0 1 p = i.val) :
    ((s.ledger.account i).state = .free → exec c s = .next (s.answered s.ledger (refuse .noSuchAccount))) ∧
      ((s.ledger.account i).faultMark = true → exec c s = .next (s.answered s.ledger (refuse .faulted))) ∧
      (s.ledger.FailingAccount i → exec c s = .next (s.answered (s.ledger.withAccountMarked i) (refuse .faulted))) := by
  obtain ⟨own, worked⟩ := addresses s.calendar s.mode s.ledger
  refine ⟨fun free => ?_, fun mark => ?_, fun failing => ?_⟩
  · exact exec_of_work runs granted (worked.trans (addressAccount_of_free names free)) rfl
  · exact exec_of_work runs granted (worked.trans (addressAccount_of_mark names mark)) rfl
  · exact exec_of_work runs granted (worked.trans (addressAccount_of_failing names failing)) rfl

end

/-! ### The seven requests that check nothing but the address, and AMEND_ACCOUNT (R11, R14) -/

/-- CHANGE_TARIFF adds the range of its tariff index. -/
theorem addresses_changeTariff (p : List Byte) : Addresses changeTariff p (decide (field 1 1 p ≤ 15)) := by
  intro c mode l
  rw [changeTariff]
  rcases Nat.lt_or_ge 15 (field 1 1 p) with above | inside
  · rw [tariffOf_of_above above]
    exact ⟨fun _ _ l => (l, okDone), (addressAccount_of_range (.inr (decide_eq_false (by omega)))).symm⟩
  · rw [tariffOf, dif_pos (by omega), decide_eq_true inside]
    exact ⟨_, rfl⟩

/-- AMEND_ACCOUNT adds the ranges of the terms. -/
theorem addresses_amendAccount (p : List Byte) :
    Addresses amendAccount p (termsInRange (field 5 1 p) (field 6 1 p) (field 7 1 p)) := fun _ _ _ => ⟨_, rfl⟩

/-- The ranges of the contract terms (R12, R14, R168). -/
theorem termsInRange_eq_true_iff {percent day hour : Nat} :
    termsInRange percent day hour = true ↔ percent ≤ 100 ∧ 1 ≤ day ∧ day ≤ 28 ∧ hour ≤ 23 := by
  simp [termsInRange, and_assoc]

/-- What R11 says of a request that addresses an account, with the ranges as the statement of the request names them. -/
theorem addressing {s : State} {k : RequestCode} {c : Instr} {p : List Byte} {rangesHold : Bool} {bad : Prop}
    {work : List Byte → Calendar → Mode → Ledger → Ledger × Answer}
    (runs : exec c s = .next (runRecordRequest k work s)) (issues : s.Issues k p)
    (addresses : Addresses work p rangesHold) (ranges : bad ↔ 63 < field 0 1 p ∨ rangesHold = false) :
    (bad → exec c s = .next (s.respond (refuse .outOfRange))) ∧
      ∀ i : Slot, s.requestTurn = true → ¬bad → field 0 1 p = i.val →
        ((s.ledger.account i).state = .free → exec c s = .next (s.answered s.ledger (refuse .noSuchAccount))) ∧
          ((s.ledger.account i).faultMark = true → exec c s = .next (s.answered s.ledger (refuse .faulted))) ∧
          (s.ledger.FailingAccount i →
            exec c s = .next (s.answered (s.ledger.withAccountMarked i) (refuse .faulted))) := by
  refine ⟨fun outside => exec_of_range runs issues addresses (ranges.mp outside), fun i turn inside names => ?_⟩
  have holds : rangesHold = true := by
    cases outside : rangesHold with
    | true => rfl
    | false => exact absurd (ranges.mpr (.inr outside)) inside
  subst holds
  exact exec_of_unsound runs ⟨issues, turn⟩ addresses names

/-- R11 for the seven requests that have no range of their own but CHANGE_TARIFF's tariff index. -/
theorem addressing_of_named {s : State} {p : List Byte} {k : RequestCode}
    (named : k ∈ [RequestCode.suspendAccount, .resumeAccount, .retireAccount, .readDemand, .closeNow, .releaseSettlement,
      .changeTariff]) (issues : s.Issues k p) :
    let bad := 63 < field 0 1 p ∨ (k = .changeTariff ∧ 15 < field 1 1 p)
    (bad → exec k.command s = .next (s.respond (refuse .outOfRange))) ∧
      ∀ i : Slot, s.requestTurn = true → ¬bad → field 0 1 p = i.val →
        ((s.ledger.account i).state = .free → exec k.command s = .next (s.answered s.ledger (refuse .noSuchAccount))) ∧
          ((s.ledger.account i).faultMark = true → exec k.command s = .next (s.answered s.ledger (refuse .faulted))) ∧
          (s.ledger.FailingAccount i →
            exec k.command s = .next (s.answered (s.ledger.withAccountMarked i) (refuse .faulted))) := by
  have slotOnly {j : RequestCode} (other : j ≠ .changeTariff) :
      63 < field 0 1 p ∨ (j = .changeTariff ∧ 15 < field 1 1 p) ↔ 63 < field 0 1 p ∨ true = false := by simp [other]
  simp only [List.mem_cons, List.not_mem_nil, or_false] at named
  rcases named with rfl | rfl | rfl | rfl | rfl | rfl | rfl
  · exact addressing (work := suspendAccount) rfl issues (fun _ _ _ => ⟨_, rfl⟩) (slotOnly (by decide))
  · exact addressing (work := resumeAccount) rfl issues (fun _ _ _ => ⟨_, rfl⟩) (slotOnly (by decide))
  · exact addressing (work := retireAccount) rfl issues (fun _ _ _ => ⟨_, rfl⟩) (slotOnly (by decide))
  · exact addressing (work := readDemand) rfl issues (fun _ _ _ => ⟨_, rfl⟩) (slotOnly (by decide))
  · exact addressing (work := closeNow) rfl issues (fun _ _ _ => ⟨_, rfl⟩) (slotOnly (by decide))
  · exact addressing (work := releaseSettlement) rfl issues (fun _ _ _ => ⟨_, rfl⟩) (slotOnly (by decide))
  · exact addressing (work := changeTariff) rfl issues (addresses_changeTariff p) (by simp)

section

variable {p : List Byte} {c : Calendar} {m : Mode} {l : Ledger} {i : Slot}

/-- AMEND_ACCOUNT on a sound account replaces the terms, unless it is FINAL. -/
theorem amendAccount_of_soundAccount (names : field 0 1 p = i.val)
    (inRange : termsInRange (field 5 1 p) (field 6 1 p) (field 7 1 p) = true) (sound : l.SoundAccount i)
    (notFree : (l.account i).phase ≠ .free) :
    amendAccount p c m l =
      if (l.account i).phase = .final then (l, refuse .wrongState)
      else
        (l.putAccount i
          { l.account i with
            contractDemand := field 1 4 p
            minPercent := field 5 1 p
            closeDay := field 6 1 p
            closeHour := field 7 1 p },
          okDone) := by
  rw [amendAccount, inRange, addressAccount_of_soundAccount names sound notFree]
  simp only [state_eq_final_iff sound.1]

end

/-- Settles O13: the addressing checks once for all requests, and AMEND_ACCOUNT's own work on a sound account. -/
theorem amendAccountReplacesTheTerms : Obligations.AmendAccountReplacesTheTerms := by
  refine ⟨fun s p k named issues => addressing_of_named named issues, ?_⟩
  intro s p issues bad
  have ranges : bad ↔
      63 < field 0 1 p ∨ termsInRange (field 5 1 p) (field 6 1 p) (field 7 1 p) = false := by
    rw [← Bool.not_eq_true, termsInRange_eq_true_iff]
    simp only [bad]
    omega
  obtain ⟨outside, addressed⟩ := addressing (work := amendAccount) (c := .amendAccount) rfl issues (addresses_amendAccount p) ranges
  refine ⟨outside, fun i turn inside names => ?_⟩
  obtain ⟨free, mark, failing⟩ := addressed i turn inside names
  have inRange : termsInRange (field 5 1 p) (field 6 1 p) (field 7 1 p) = true :=
    (Bool.not_eq_false _).mp fun out => inside (ranges.mpr (.inr out))
  refine ⟨free, mark, fun unmarked notFree fails => failing ⟨unmarked, notFree, fails⟩, fun sound => ⟨fun phase => ?_, fun final => ?_⟩⟩
  · have notFree : (s.ledger.account i).phase ≠ .free := by rcases phase with h | h <;> rw [h] <;> decide
    have notFinal : (s.ledger.account i).phase ≠ .final := by rcases phase with h | h <;> rw [h] <;> decide
    exact exec_of_work (work := amendAccount) rfl ⟨issues, turn⟩
      ((amendAccount_of_soundAccount names inRange sound notFree).trans (if_neg notFinal)) rfl
  · have notFree : (s.ledger.account i).phase ≠ .free := by rw [final]; decide
    exact exec_of_work (work := amendAccount) rfl ⟨issues, turn⟩
      ((amendAccount_of_soundAccount names inRange sound notFree).trans (if_pos final)) rfl

end Sys2Proof.Machine.RequestRules
end

section
/-! OPEN_ACCOUNT and the verification of all accounts that it and LIST_ACCOUNTS rest on (R12, R13, R26, R165). -/

namespace Sys2Proof.Machine.AccountTable

open Sys2Proof Sys2Proof.Machine
open Sys2Proof.Machine.PeriodSettlement Sys2Proof.Machine.RequestRules

/-! ### The verification of every account -/

section

variable {l : Ledger} {i j : Slot}

/-- Whether an account fails is decidable from its record. -/
def fails (a : Account) : Bool := !a.faultMark && a.phase != .free && !a.checks

theorem fails_iff : fails (l.account i) = true ↔ l.FailingAccount i := by
  simp [fails, Ledger.FailingAccount, and_assoc]

/-- An account that fails is marked, any other is left. -/
theorem checkNonFree_of_failing (failing : l.FailingAccount i) : checkNonFree i l = l.withAccountMarked i := by
  rw [checkNonFree, if_neg (mt (state_eq_free_iff failing.1).mp failing.2.1), checkAccount_of_failingAccount failing]

theorem checkNonFree_of_not_failing (stands : ¬l.FailingAccount i) : checkNonFree i l = l := by
  rw [checkNonFree]
  split
  · rfl
  · next notFree =>
    refine Ledger.checkAccount_of_sound ?_
    cases mark : (l.account i).faultMark with
    | true => exact .inl rfl
    | false =>
      cases checks : (l.account i).checks with
      | true => exact .inr rfl
      | false => exact absurd ⟨mark, mt (state_eq_free_iff mark).mpr notFree, checks⟩ stands

/-- INTEGRITY_FAULT, raised again, adds nothing. -/
theorem attention_raise_raise (x : AttentionSource) (l : Ledger) : ((l.raise x).raise x).attention = (l.raise x).attention := by
  simp [Ledger.raise, BitVec.or_assoc]

/-- The verification of a list of accounts raises INTEGRITY_FAULT when one of them fails, and nothing else (R165). -/
theorem attention_eachOf_checkNonFree (numbers : List Slot) (l : Ledger) :
    (eachOf numbers checkNonFree l).attention =
      if numbers.any fun i => fails (l.account i) then (l.raise .integrityFault).attention else l.attention := by
  induction numbers generalizing l with
  | nil => simp
  | cons i rest ih =>
    rw [eachOf_cons, ih]
    by_cases failing : l.FailingAccount i
    · have found : ((i :: rest).any fun i => fails (l.account i)) = true := by simp [fails_iff.mpr failing]
      rw [checkNonFree_of_failing failing, if_pos found]
      split
      · exact attention_raise_raise _ _
      · rfl
    · have passes : fails (l.account i) = false := (Bool.not_eq_true _).mp (mt fails_iff.mp failing)
      rw [checkNonFree_of_not_failing failing, List.any_cons, passes, Bool.false_or]

theorem attention_checkAccounts (l : Ledger) :
    l.checkAccounts.attention =
      if allSlots.any fun i => fails (l.account i) then (l.raise .integrityFault).attention else l.attention :=
  attention_eachOf_checkNonFree allSlots l

theorem any_fails_iff : (allSlots.any fun i => fails (l.account i)) = true ↔ ∃ i, l.FailingAccount i := by
  simp [fails_iff]

theorem account_checkAccounts_of_failing (failing : l.FailingAccount j) :
    l.checkAccounts.account j = { l.account j with faultMark := true } := by
  obtain ⟨unmarked, notFree, fails⟩ := failing
  rw [Ledger.account_checkAccounts, if_neg]
  simp [unmarked, fails, state_eq_free_iff unmarked, notFree]

theorem account_checkAccounts_of_not_failing (stands : ¬l.FailingAccount j) : l.checkAccounts.account j = l.account j := by
  rw [Ledger.account_checkAccounts]
  split
  · rfl
  · next fails =>
    simp only [not_or, Bool.not_eq_true] at fails
    obtain ⟨notFree, unmarked, fails⟩ := fails
    exact absurd ⟨unmarked, mt (state_eq_free_iff unmarked).mpr notFree, fails⟩ stands

/-- The verification makes no slot FREE and none that was FREE another state. -/
theorem state_checkAccounts_eq_free_iff : (l.checkAccounts.account j).state = .free ↔ (l.account j).state = .free := by
  by_cases failing : l.FailingAccount j
  · rw [account_checkAccounts_of_failing failing]
    have notFree := mt (state_eq_free_iff failing.1).mp failing.2.1
    simp [Account.state] at notFree ⊢
    exact notFree
  · rw [account_checkAccounts_of_not_failing failing]

/-- No slot that is not FREE holds the number. -/
theorem holder_eq_none_iff {number : Nat} :
    l.holder number none = none ↔ ∀ j, (l.account j).state ≠ .free → (l.account j).number ≠ number := by
  simp [Ledger.holder]

end

/-! ### The checks of OPEN_ACCOUNT in their order (R12) -/

section

variable {p : List Byte} {c : Calendar} {m : Mode} {l : Ledger} {i : Slot} {t : TariffNo}

/-- A tariff that is not READY, or fails its verification, is not READY once verified. -/
theorem checkTariff_ne_ready (unready : ¬l.ReadyTariff t) : ((l.checkTariff t).tariff t).state ≠ .ready := by
  by_cases failing : l.FailingTariff t
  · rw [checkTariff_of_failingTariff failing]
    exact withTariffMarked_ne_ready t l
  · rw [checkTariff_of_not_failing failing]
    intro ready
    refine unready ⟨ready, ?_⟩
    cases checks : (l.tariff t).checks l.pool t with
    | true => rfl
    | false =>
      cases mark : (l.tariff t).faultMark with
      | true => exact absurd ready (tariff_ne_ready_of_mark mark)
      | false => exact absurd ⟨mark, checks⟩ failing

/-- The ranges of an identity (R12). -/
theorem identity_inRange_iff :
    (IdentityRequest.ofBytes p).inRange = true ↔
      field 0 4 p ≠ 0 ∧ field 9 1 p ≤ 100 ∧ 1 ≤ field 10 1 p ∧ field 10 1 p ≤ 28 ∧ field 11 1 p ≤ 23 := by
  rw [IdentityRequest.inRange, Bool.and_eq_true, termsInRange_eq_true_iff]
  simp [IdentityRequest.ofBytes]

/-- An identity out of range refuses the request. -/
theorem openAccount_of_range (bad : 15 < field 4 1 p ∨ (IdentityRequest.ofBytes p).inRange = false) :
    openAccount p c m l = (l, refuse .outOfRange) := by
  have index : (IdentityRequest.ofBytes p).tariff = field 4 1 p := rfl
  rw [openAccount]
  rcases bad with above | outside
  · simp [index, tariffOf_of_above above]
  · cases tariffOf (IdentityRequest.ofBytes p).tariff with
    | none => rfl
    | some t => simp [outside]

/-- A tariff that is not READY refuses the request, marked when it fails. -/
theorem openAccount_of_unready (names : field 4 1 p = t.val) (inRange : (IdentityRequest.ofBytes p).inRange = true)
    (unready : ¬l.ReadyTariff t) : openAccount p c m l = (l.checkTariff t, refuse .noSuchTariff) := by
  have index : (IdentityRequest.ofBytes p).tariff = t.val := names
  simp [openAccount, index, tariffOf_val, inRange, checkTariff_ne_ready unready]

/-- Under a READY tariff the number decides, and then the table. -/
theorem openAccount_of_ready (names : field 4 1 p = t.val) (inRange : (IdentityRequest.ofBytes p).inRange = true)
    (ready : l.ReadyTariff t) :
    openAccount p c m l =
      if (l.holder (field 0 4 p) none).isSome then (l.checkAccounts, refuse .duplicateAccount)
      else
        match allSlots.find? (fun i => decide ((l.account i).state = .free)) with
        | none => (l.checkAccounts, refuse .noFreeSlot)
        | some i =>
          (l.checkAccounts.putAccount i (.opened (.ofBytes p) t (periodStartIn m c)), okWith [byte i.val]) := by
  have index : (IdentityRequest.ofBytes p).tariff = t.val := names
  have number : (IdentityRequest.ofBytes p).number = field 0 4 p := rfl
  simp only [openAccount, index, tariffOf_val, inRange, checkTariff_of_readyTariff ready, ready.1,
    Ledger.holder_checkAccounts, number, state_checkAccounts_eq_free_iff]
  rfl

/-- The lowest FREE slot. -/
theorem find_free_eq_some_iff :
    allSlots.find? (fun i => decide ((l.account i).state = .free)) = some i ↔
      (l.account i).state = .free ∧ ∀ j, j < i → (l.account j).state ≠ .free := by
  rw [SlotClosure.find_allSlots_eq_some_iff]
  simp

/-- Sealing writes the check word alone. -/
theorem seal_eq_withCheckWord (a : Account) : a.seal = { a with checkWord := a.seal.checkWord } := rfl

/-- The check word of a record is no part of what is sealed. -/
theorem seal_opened (r : IdentityRequest) (t : TariffNo) (start : Option Seconds) :
    (Account.opened r t start).seal =
      Account.seal
        { Account.free with
          number := r.number
          phase := .active
          tariff := t
          contractDemand := r.contractDemand
          minPercent := r.minPercent
          closeDay := r.closeDay
          closeHour := r.closeHour
          period := { Period.cold with start := start } } := by
  rw [Account.free, seal_eq_withCheckWord Account.coldContent]
  generalize Account.coldContent.seal.checkWord = w
  rfl

end

/-- Settles O12: the verification of all accounts, and the checks one after another. -/
theorem openAccountChecks : Obligations.OpenAccountChecks := by
  refine ⟨fun l => ⟨l.checkAccounts_intakes, l.checkAccounts_tariffs, l.checkAccounts_pool, l.checkAccounts_closeWork,
    fun failing => ?raised, fun settled => ?quiet, fun j => ⟨account_checkAccounts_of_failing, account_checkAccounts_of_not_failing⟩⟩, ?requests⟩
  case raised => rw [attention_checkAccounts, if_pos (any_fails_iff.mpr failing)]
  case quiet => 
    have none : ¬(allSlots.any fun i => fails (l.account i)) = true := by
      rw [any_fails_iff]
      exact fun ⟨j, failing⟩ => settled j failing
    rw [attention_checkAccounts, if_neg none]
  case requests =>
    intro s p issues bad
    have ranges : bad ↔ 15 < field 4 1 p ∨ (IdentityRequest.ofBytes p).inRange = false := by
      rw [← Bool.not_eq_true, identity_inRange_iff]
      simp only [bad]
      omega
    refine ⟨fun outside => ?refused, fun t turn inside names => ?checked⟩
    case refused => exact exec_of_refusal (work := openAccount) rfl issues (openAccount_of_range (ranges.mp outside)) rfl
    case checked =>
      have inRange : (IdentityRequest.ofBytes p).inRange = true :=
        (Bool.not_eq_false _).mp fun out => inside (ranges.mpr (.inr out))
      have granted : s.Granted .openAccount p := ⟨issues, turn⟩
      have answers {l : Ledger} {a : Answer} :=
        exec_of_work (work := openAccount) (c := .openAccount) (l := l) (a := a) rfl granted
      refine ⟨fun unready => answers (openAccount_of_unready names inRange unready) rfl,
        fun ready => ⟨fun ⟨j, notFree, same⟩ => answers ?duplicate rfl, fun full => answers ?full rfl⟩⟩
      case duplicate =>
        have held : (s.ledger.holder (field 0 4 p) none).isSome = true := by
          rw [Option.isSome_iff_ne_none, Ne, holder_eq_none_iff]
          exact fun none => none j notFree same
        rw [openAccount_of_ready names inRange ready, if_pos held]
      case full =>
        have unheld : s.ledger.holder (field 0 4 p) none = none := holder_eq_none_iff.mpr fun j _ => (full j).2
        have noFree : allSlots.find? (fun i => decide ((s.ledger.account i).state = .free)) = none :=
          List.find?_eq_none.mpr fun j _ => by simp [(full j).1]
        rw [openAccount_of_ready names inRange ready, unheld, noFree]
        rfl

/-- Settles O11: with every check passed the lowest FREE slot is written. -/
theorem openAccountFillsTheLowestFreeSlot : Obligations.OpenAccountFillsTheLowestFreeSlot := by
  intro s p i t granted number names percent dayLow dayHigh hour ready unheld free lowest
  have inRange : (IdentityRequest.ofBytes p).inRange = true :=
    identity_inRange_iff.mpr ⟨number, percent, dayLow, dayHigh, hour⟩
  refine exec_of_work (work := openAccount) rfl granted ?_ rfl
  rw [openAccount_of_ready names inRange ready, holder_eq_none_iff.mpr unheld, find_free_eq_some_iff.mpr ⟨free, lowest⟩]
  simp only [Option.isSome_none, Bool.false_eq_true, if_false, Ledger.putAccount, seal_opened]
  rfl

/-! ### LIST_ACCOUNTS (R26) -/

section

variable {p : List Byte} {c : Calendar} {m : Mode} {l : Ledger}

/-- An account reports FAULTED exactly when it is marked. -/
theorem state_eq_faulted_iff {a : Account} : a.state = .faulted ↔ a.faultMark = true := by
  cases mark : a.faultMark with
  | true => simp [Account.state, mark]
  | false =>
    rw [state_of_unmarked mark]
    cases a.phase <;> simp [AccountPhase.state]

/-- What LIST_ACCOUNTS answers under a filter. -/
def listed (filter : AccountFilter) (l : Ledger) : List Slot :=
  allSlots.filter fun i => filter.admits (l.checkAccounts.account i)

theorem listAccounts_of_filter {filter : AccountFilter} (names : AccountFilter.ofCode (field 0 1 p) = some filter) :
    listAccounts p c m l =
      (l.checkAccounts, okWith (byte (listed filter l).length :: (listed filter l).map fun i => byte i.val)) := by
  rw [listAccounts, names]
  rfl

theorem mem_listed {filter : AccountFilter} {i : Slot} :
    i ∈ listed filter l ↔ filter.admits (l.checkAccounts.account i) = true := by
  simp [listed]

/-- The listed slots ascend. -/
theorem listed_ascends (filter : AccountFilter) (l : Ledger) : (listed filter l).Pairwise (· < ·) :=
  (List.pairwise_lt_finRange 64).filter _

/-- A code names a filter, and the filter admits what Table 11-1 gives for the code. -/
theorem filter_of_code {code : Nat} (low : 1 ≤ code) (high : code ≤ 5) :
    ∃ filter, AccountFilter.ofCode code = some filter ∧
      ∀ a : Account, filter.admits a = true ↔
        (code = 1 ∧ a.state ≠ .free) ∨ (code = 2 ∧ a.state ≠ .faulted ∧ a.settled ≠ none) ∨
          (code = 3 ∧ a.state ≠ .faulted ∧ a.closeBlocked = true) ∨ (code = 4 ∧ a.state = .faulted) ∨
          (code = 5 ∧ a.state ≠ .faulted ∧ a.period.exceeded = true) := by
  obtain rfl | rfl | rfl | rfl | rfl : code = 1 ∨ code = 2 ∨ code = 3 ∨ code = 4 ∨ code = 5 := by omega
  · exact ⟨.nonfree, rfl, fun a => by simp [AccountFilter.admits]⟩
  · exact ⟨.settledPresent, rfl, fun a => by simp [AccountFilter.admits, state_eq_faulted_iff, Option.isSome_iff_ne_none]⟩
  · exact ⟨.closeBlocked, rfl, fun a => by simp [AccountFilter.admits, state_eq_faulted_iff]⟩
  · exact ⟨.faulted, rfl, fun a => by simp [AccountFilter.admits, state_eq_faulted_iff]⟩
  · exact ⟨.exceeded, rfl, fun a => by simp [AccountFilter.admits, state_eq_faulted_iff]⟩

/-- No other code names a filter. -/
theorem filter_of_other_code {code : Nat} (other : code = 0 ∨ 5 < code) : AccountFilter.ofCode code = none := by
  rw [AccountFilter.ofCode] <;> omega

end

/-- Settles O17: the code names the filter, and the answer lists what it admits. -/
theorem listAccountsAnswersTheFilter : Obligations.ListAccountsAnswersTheFilter := by
  refine ⟨fun s p issues other => ?refused, fun s p granted low high => ?listed⟩
  case refused =>
    refine exec_of_refusal (work := listAccounts) rfl issues ?_ rfl
    rw [listAccounts, filter_of_other_code other]
  case listed =>
    obtain ⟨filter, names, admits⟩ := filter_of_code low high
    refine ⟨listed filter s.ledger, exec_of_work (work := listAccounts) rfl granted (listAccounts_of_filter names) rfl,
      listed_ascends filter s.ledger, fun i => ?_⟩
    rw [mem_listed]
    exact admits _

end Sys2Proof.Machine.AccountTable
end

section
/-! The requests that move an account between its states: SUSPEND_ACCOUNT, RESUME_ACCOUNT and RETIRE_ACCOUNT
(R16 to R21, R167). -/

namespace Sys2Proof.Machine.AccountStates

open Sys2Proof Sys2Proof.Machine
open Sys2Proof.Machine.PeriodSettlement Sys2Proof.Machine.RequestRules Sys2Proof.Machine.AccountTable
open Sys2Proof.Machine.Ownership

section

variable {p : List Byte} {c : Calendar} {m : Mode} {l : Ledger} {i : Slot}

/-! ### SUSPEND_ACCOUNT and RESUME_ACCOUNT (R16, R18) -/

/-- An unmarked account reports ACTIVE exactly when its field says so. -/
theorem state_eq_active_iff {a : Account} (unmarked : a.faultMark = false) : a.state = .active ↔ a.phase = .active := by
  rw [state_of_unmarked unmarked]
  cases a.phase <;> simp [AccountPhase.state]

/-- An unmarked account reports SUSPENDED exactly when its field says so. -/
theorem state_eq_suspended_iff {a : Account} (unmarked : a.faultMark = false) :
    a.state = .suspended ↔ a.phase = .suspended := by
  rw [state_of_unmarked unmarked]
  cases a.phase <;> simp [AccountPhase.state]

/-- SUSPEND_ACCOUNT on a sound account closes its slot and suspends it, when it is ACTIVE. -/
theorem suspendAccount_of_soundAccount (names : field 0 1 p = i.val) (sound : l.SoundAccount i)
    (notFree : (l.account i).phase ≠ .free) :
    suspendAccount p c m l =
      if (l.account i).phase = .active then
        ((closeSlot .ordinary c i l).putAccount i
          { (closeSlot .ordinary c i l).account i with phase := .suspended }, okDone)
      else (l, refuse .wrongState) := by
  rw [suspendAccount, addressAccount_of_soundAccount names sound notFree]
  by_cases active : (l.account i).phase = .active
  · rw [if_pos active, if_neg (by simp [(state_eq_active_iff sound.1).mpr active])]
  · rw [if_neg active, if_pos (by simpa using mt (state_eq_active_iff sound.1).mp active)]

/-- Without a pending slot there is nothing to close. -/
theorem closeSlot_of_no_slot {kind : ClosureKind} (sound : l.SoundAccount i) (noSlot : (l.account i).storedSlot = none) :
    closeSlot kind c i l = l := by
  have same : l.checkAccount i = l := checkAccount_of_soundAccount sound
  rw [closeSlot_none, same]
  rw [same, pendingSlot_of_unmarked sound.1, noSlot]

/-- RESUME_ACCOUNT on a sound account makes it ACTIVE with a cleared window, when it is SUSPENDED. -/
theorem resumeAccount_of_soundAccount (names : field 0 1 p = i.val) (sound : l.SoundAccount i)
    (notFree : (l.account i).phase ≠ .free) :
    resumeAccount p c m l =
      if (l.account i).phase = .suspended then
        (l.putAccount i { (l.account i).clearWindow with phase := .active }, okDone)
      else (l, refuse .wrongState) := by
  rw [resumeAccount, addressAccount_of_soundAccount names sound notFree]
  by_cases suspended : (l.account i).phase = .suspended
  · rw [if_pos suspended, if_neg (by simp [(state_eq_suspended_iff sound.1).mpr suspended])]
  · rw [if_neg suspended, if_pos (by simpa using mt (state_eq_suspended_iff sound.1).mp suspended)]

end

/-- Settles O14: both requests by the state that the sound account is in. -/
theorem suspendAndResume : Obligations.SuspendAndResume := by
  intro s p i names sound
  have notFree_of {x : AccountPhase} (phase : (s.ledger.account i).phase = x) (other : x ≠ .free) :
      (s.ledger.account i).phase ≠ .free := phase ▸ other
  refine ⟨fun granted => ⟨fun active => ?suspended, fun other => ?unsuspended⟩,
    fun granted => ⟨fun suspended => ?resumed, fun other => ?unresumed⟩⟩
  case suspended =>
    have worked := suspendAccount_of_soundAccount (c := s.calendar) (m := s.mode) names sound (notFree_of active (by decide))
    rw [if_pos active] at worked
    refine ⟨fun noSlot => ?without, fun slot => exec_of_work (work := suspendAccount) rfl granted worked rfl⟩
    case without =>
      rw [closeSlot_of_no_slot sound noSlot] at worked
      exact exec_of_work (work := suspendAccount) rfl granted worked rfl
  case unsuspended =>
    have notFree : (s.ledger.account i).phase ≠ .free := other.elim (notFree_of · (by decide)) (notFree_of · (by decide))
    have notActive : (s.ledger.account i).phase ≠ .active := by rcases other with h | h <;> rw [h] <;> decide
    exact exec_of_work (work := suspendAccount) rfl granted
      ((suspendAccount_of_soundAccount names sound notFree).trans (if_neg notActive)) rfl
  case resumed =>
    exact exec_of_work (work := resumeAccount) rfl granted
      ((resumeAccount_of_soundAccount names sound (notFree_of suspended (by decide))).trans (if_pos suspended)) rfl
  case unresumed =>
    have notFree : (s.ledger.account i).phase ≠ .free := other.elim (notFree_of · (by decide)) (notFree_of · (by decide))
    have notSuspended : (s.ledger.account i).phase ≠ .suspended := by rcases other with h | h <;> rw [h] <;> decide
    exact exec_of_work (work := resumeAccount) rfl granted
      ((resumeAccount_of_soundAccount names sound notFree).trans (if_neg notSuspended)) rfl

/-! ### RETIRE_ACCOUNT (R19 to R21) -/

section

variable {p : List Byte} {c : Calendar} {m : Mode} {l : Ledger} {i : Slot}

/-- What RETIRE_ACCOUNT does once the account's record admits it: the tariff is verified and has to be READY. -/
def retireUnderReady (c : Calendar) (mode : Mode) (i : Slot) (l : Ledger) : Ledger × Answer :=
  let t := (l.account i).tariff
  let l := l.checkTariff t
  if (l.tariff t).state ≠ .ready then (l, refuse .faulted)
  else (if mode = .run then retireInRun c i l else retireInCommissioning i l, okDone)

/-- RETIRE_ACCOUNT on a sound account, its checks in their order. -/
theorem retireAccount_of_soundAccount (names : field 0 1 p = i.val) (sound : l.SoundAccount i)
    (notFree : (l.account i).phase ≠ .free) :
    retireAccount p c m l =
      if (l.account i).phase = .final then (l, refuse .wrongState)
      else if (l.account i).settled ≠ none then (l, refuse .settlementPending)
      else retireUnderReady c m i l := by
  rw [retireAccount, addressAccount_of_soundAccount names sound notFree]
  simp only [state_eq_final_iff sound.1, Option.isSome_iff_ne_none, retireUnderReady, bne_iff_ne]

/-- Under a READY tariff the account retires. -/
theorem retireUnderReady_of_ready (ready : l.ReadyTariff (l.account i).tariff) :
    retireUnderReady c m i l = (if m = .run then retireInRun c i l else retireInCommissioning i l, okDone) := by
  simp only [retireUnderReady, checkTariff_of_readyTariff ready, if_neg (not_not_intro ready.1)]

/-- Under any other tariff, once verified, it does not. -/
theorem retireUnderReady_of_unready {l' : Ledger} (checked : l.checkTariff (l.account i).tariff = l')
    (unready : (l'.tariff (l.account i).tariff).state ≠ .ready) :
    retireUnderReady c m i l = (l', refuse .faulted) := by
  simp only [retireUnderReady, checked, if_pos unready]

end

/-! ### The members released (R20, step 3; R167) -/

section

variable {a : Slot} {l : Ledger} {j : IntakeNo}

/-- Rewriting one intake touches nothing but the intake table. -/
theorem records_rewriteIntake (f : Intake → Intake) (i : IntakeNo) (l : Ledger) :
    (rewriteIntake f i l).accounts = l.accounts ∧ (rewriteIntake f i l).tariffs = l.tariffs ∧
      (rewriteIntake f i l).pool = l.pool ∧ (rewriteIntake f i l).closeWork = l.closeWork ∧
      (rewriteIntake f i l).attention = l.attention := by
  rw [rewriteIntake]
  split <;> exact ⟨rfl, rfl, rfl, rfl, rfl⟩

/-- The release touches nothing but the intake table and the attention set. -/
theorem value_releaseMembers {β : Type} (f : Ledger → β)
    (kept : ∀ g i l, f (rewriteIntake g i l) = f l) (a : Slot) (l : Ledger) :
    f (releaseMembers a l) = f l.checkIntakes := by
  refine eachOf_keeps_value f (fun i _ m => ?_) _
  split
  · exact kept _ i m
  · split
    · exact kept _ i m
    · rfl

/-- A sound intake is not changed by the verification that the release begins with. -/
theorem intake_releaseMembers_of_sound (sound : l.SoundIntake j) :
    (releaseMembers a l).intake j =
      if j ∈ (l.account a).members then (l.intake j).released.seal
      else if (l.intake j).joining a then (l.intake j).withoutChange.seal
      else l.intake j := by
  rw [intake_releaseMembers, intake_checkIntakes_of_sound sound, releasedFrom, sound.1]
  rfl

/-- A marked intake is not written. -/
theorem intake_releaseMembers_of_mark (mark : (l.intake j).faultMark = true) :
    (releaseMembers a l).intake j = l.intake j := by
  rw [intake_releaseMembers, Ledger.intake_checkIntakes, mark, Bool.true_or, if_pos rfl, releasedFrom, if_pos mark]

/-- A failing intake is marked and not written otherwise. -/
theorem intake_releaseMembers_of_failing (unmarked : (l.intake j).faultMark = false) (fails : (l.intake j).checks = false) :
    (releaseMembers a l).intake j = { l.intake j with faultMark := true } := by
  rw [intake_releaseMembers, Ledger.intake_checkIntakes, unmarked, fails]
  rfl

/-- What the release of an account's members does, intake by intake. -/
theorem releaseMembers_law (a : Slot) (l : Ledger) (j : IntakeNo) :
    ((l.intake j).faultMark = true → (releaseMembers a l).intake j = l.intake j) ∧
    (l.SoundIntake j → j ∈ (l.account a).members →
      (releaseMembers a l).intake j =
        Intake.seal { l.intake j with phase := .free, owner := none, ownerSince := none, change := none }) ∧
    (l.SoundIntake j → j ∉ (l.account a).members → (∃ tag, (l.intake j).change = some { target := some a, tag := tag }) →
      (releaseMembers a l).intake j = Intake.seal { l.intake j with change := none }) ∧
    (l.SoundIntake j → j ∉ (l.account a).members →
      (∀ tag, (l.intake j).change ≠ some { target := some a, tag := tag }) →
      (releaseMembers a l).intake j = l.intake j) ∧
    ((l.intake j).faultMark = false → (l.intake j).checks = false →
      (releaseMembers a l).intake j = { l.intake j with faultMark := true }) ∧
    (releaseMembers a l).accounts = l.accounts ∧ (releaseMembers a l).tariffs = l.tariffs ∧
    (releaseMembers a l).pool = l.pool ∧ (releaseMembers a l).closeWork = l.closeWork ∧
    (l.IntakesSettled → (releaseMembers a l).attention = l.attention) := by
  refine ⟨intake_releaseMembers_of_mark, fun sound member => ?member, fun sound other joins => ?joins,
    fun sound other unrelated => ?unrelated, intake_releaseMembers_of_failing, ?accounts, ?tariffs, ?pool, ?list,
    fun settled => ?attention⟩
  case member => rw [intake_releaseMembers_of_sound sound, if_pos member]; rfl
  case joins => rw [intake_releaseMembers_of_sound sound, if_neg other, if_pos (joining_iff.mpr joins)]; rfl
  case unrelated =>
    have apart : ¬(l.intake j).joining a = true := by
      rw [joining_iff]
      exact fun ⟨tag, joins⟩ => unrelated tag joins
    rw [intake_releaseMembers_of_sound sound, if_neg other, if_neg apart]
  case accounts =>
    exact (value_releaseMembers (·.accounts) (fun g i l => (records_rewriteIntake g i l).1) a l).trans l.checkIntakes_accounts
  case tariffs => exact tariffs_releaseMembers a l
  case pool =>
    refine (value_releaseMembers (·.pool) (fun g i l => ?_) a l).trans l.checkIntakes_pool
    obtain ⟨_, _, pool, _, _⟩ := records_rewriteIntake g i l
    exact pool
  case list =>
    refine (value_releaseMembers (·.closeWork) (fun g i l => ?_) a l).trans l.checkIntakes_closeWork
    obtain ⟨_, _, _, list, _⟩ := records_rewriteIntake g i l
    exact list
  case attention =>
    have same : l.checkIntakes = l := Ledger.checkIntakes_of_settled settled
    refine (value_releaseMembers (·.attention) (fun g i l => ?_) a l).trans (congrArg (·.attention) same)
    obtain ⟨_, _, _, _, attention⟩ := records_rewriteIntake g i l
    exact attention

end

/-- Settles O15: the retirement by the mode, its refusals in their order, and the release intake by intake. -/
theorem retireSettlesOrFrees : Obligations.RetireSettlesOrFrees := by
  refine ⟨fun s p i granted names sound bills unsettled ready => ?retired,
    fun s p i granted names sound notFree => ?refused, releaseMembers_law⟩
  case retired =>
    obtain ⟨notFree, notFinal⟩ := phase_of_bills bills
    have worked := retireAccount_of_soundAccount (c := s.calendar) (m := s.mode) names sound notFree
    rw [if_neg notFinal, if_neg (not_not_intro unsettled), retireUnderReady_of_ready ready] at worked
    refine ⟨fun commissioning => ?freed, fun run => ?settled⟩
    case freed =>
      rw [commissioning, if_neg (by decide)] at worked
      exact exec_of_work (work := retireAccount) rfl granted (by rw [commissioning]; exact worked) rfl
    case settled =>
      rw [run, if_pos rfl] at worked
      exact exec_of_work (work := retireAccount) rfl granted (by rw [run]; exact worked) rfl
  case refused =>
    have worked := retireAccount_of_soundAccount (c := s.calendar) (m := s.mode) names sound notFree
    have answers {l : Ledger} {a : Answer} :=
      exec_of_work (work := retireAccount) (c := .retireAccount) (l := l) (a := a) rfl granted
    refine ⟨fun final => answers (worked.trans (if_pos final)) rfl,
      fun notFinal settled => answers ?settled rfl, fun notFinal unsettled => ?tariff⟩
    case settled => rw [worked, if_neg notFinal, if_pos settled]
    case tariff =>
      rw [if_neg notFinal, if_neg (not_not_intro unsettled)] at worked
      refine ⟨fun mark => answers (worked.trans ?_) rfl, fun unmarked fails => answers (worked.trans ?_) rfl⟩
      · exact retireUnderReady_of_unready (Ledger.checkTariff_of_sound (.inl mark)) (tariff_ne_ready_of_mark mark)
      · exact retireUnderReady_of_unready (checkTariff_of_failingTariff ⟨unmarked, fails⟩) (withTariffMarked_ne_ready _ _)

end Sys2Proof.Machine.AccountStates
end

section
/-! The layouts of READ_ACCOUNT (Tables 11-4 to 11-6). An answer is a row of parts, one behind the other: each field is
found in its own part, at the sum of the widths before it. -/

namespace Sys2Proof.Machine.AccountLayouts

open Sys2Proof Sys2Proof.Machine
open Sys2Proof.Machine.StatusAndAttention Sys2Proof.Machine.LinkFrames

/-! ### Slices -/

section

variable {b piece : List Byte} {offset n k w value : Nat}

/-- A field inside a slice is that field of the slice. -/
theorem field_of_slice (slice : (b.drop offset).take n = piece) (inside : k + w ≤ n) :
    field (offset + k) w b = field k w piece := by
  subst slice
  rw [field, field, List.drop_take, List.take_take, List.drop_drop, Nat.min_eq_left (by omega)]

theorem at_of_slice (slice : (b.drop offset).take n = piece) (spelt : At k w value piece) (inside : k + w ≤ n) :
    At (offset + k) w value b := (field_of_slice slice inside).trans spelt

/-- The energies of a period stand in 24 bytes and 18 behind them. -/
theorem energiesAt_of_slice {e : Energy} {late : SlotEnergy} (slice : (b.drop offset).take 24 = e.bytes)
    (sliceLate : (b.drop (offset + 24)).take 18 = late.bytes 6) : EnergiesAt offset e late b :=
  ⟨at_of_slice slice (k := 0) (at_of_bytes rfl) (by decide), at_of_slice slice (at_of_bytes rfl) (by decide),
    at_of_slice slice (at_of_bytes rfl) (by decide), at_of_slice slice (at_of_bytes rfl) (by decide),
    at_of_slice sliceLate (k := 0) (at_of_bytes rfl) (by decide),
    at_of_slice sliceLate (k := 6) (at_of_bytes rfl) (by decide),
    at_of_slice sliceLate (k := 12) (at_of_bytes rfl) (by decide)⟩

/-- A band maximum stands in 8 bytes. -/
theorem maximumAt_of_slice {m : Option BandMaximum} (slice : (b.drop offset).take 8 = maximumBytes m) :
    MaximumAt offset m b := by
  cases m with
  | none =>
    exact ⟨at_of_slice slice (k := 0) (at_of_bytes rfl) (by decide), at_of_slice slice (at_of_bytes rfl) (by decide)⟩
  | some x =>
    exact ⟨at_of_slice slice (k := 0) (at_of_bytes rfl) (by decide), at_of_slice slice (at_of_bytes rfl) (by decide)⟩

theorem isEstimated_eq (m : Option BandMaximum) : isEstimated m = maximumEstimated m := by cases m <;> rfl

/-- A window slot stands in 13 bytes. -/
theorem slotAt_of_slice {x : WindowSlot} (slice : (b.drop offset).take 13 = x.bytes) : SlotAt offset (some x) b :=
  ⟨at_of_slice slice (k := 0) (at_of_bytes rfl) (by decide), at_of_slice slice (at_of_bytes rfl) (by decide),
    at_of_slice slice (at_of_bytes rfl) (by decide), at_of_slice slice (at_of_bytes rfl) (by decide)⟩

/-- A place above N is 13 bytes of 0. -/
theorem slotAt_of_zero (slice : (b.drop offset).take 13 = windowPlaces.zeroSlot) : SlotAt offset none b :=
  ⟨at_of_slice slice (k := 0) (at_of_bytes rfl) (by decide), at_of_slice slice (at_of_bytes rfl) (by decide),
    at_of_slice slice (at_of_bytes rfl) (by decide), at_of_slice slice (at_of_bytes rfl) (by decide)⟩

end

/-! ### Rows of parts -/

section

variable {parts : List (List Byte)} {widths : List Nat} {piece : List Byte} {k offset w value : Nat}

/-- A part is the slice of the row behind the parts before it. -/
theorem slice_of_part (sizes : parts.map List.length = widths) (present : parts[k]? = some piece)
    (stands : (widths.take k).sum = offset) : (parts.flatten.drop offset).take piece.length = piece := by
  subst sizes stands
  induction parts generalizing k with
  | nil => exact nomatch present
  | cons first rest ih =>
    cases k with
    | zero =>
      rw [List.getElem?_cons_zero, Option.some.injEq] at present
      subst present
      simp
    | succ k =>
      rw [List.getElem?_cons_succ] at present
      rw [List.map_cons, List.take_succ_cons, List.sum_cons, List.flatten_cons, List.drop_append,
        List.drop_eq_nil_of_le (by omega), List.nil_append, Nat.add_sub_cancel_left]
      exact ih present

/-- A part that is a number spells it. -/
theorem at_of_part (sizes : parts.map List.length = widths) (k : Nat) (present : parts[k]? = some (le w value))
    (stands : (widths.take k).sum = offset) : At offset w value parts.flatten :=
  at_of_bytes (by
    have slice := slice_of_part sizes present stands
    rw [le_length] at slice
    exact slice)

/-- A part that is a byte of flags shows each in its bit, and nothing above them. -/
theorem flags_of_part {flags : List Bool} (sizes : parts.map List.length = widths) (k : Nat)
    (present : parts[k]? = some [byte (bits flags)]) (stands : (widths.take k).sum = offset) (few : flags.length ≤ 8) :
    (∀ bit, FlagAt offset bit (flags.getD bit false) parts.flatten) ∧ field offset 1 parts.flatten = bits flags := by
  have slice := slice_of_part sizes present stands
  have same : field (offset + 0) 1 parts.flatten = field 0 1 [byte (bits flags)] := field_of_slice slice (Nat.le_refl 1)
  have value : field offset 1 parts.flatten = bits flags := same.trans (field_flags rfl few)
  refine ⟨fun bit => ?_, value⟩
  rw [FlagAt, value, testBit_bits]

theorem length_row (sizes : parts.map List.length = widths) : parts.flatten.length = widths.sum := by
  rw [List.length_flatten, sizes]

end

/-- A vector of four, element by element. -/
theorem toList_four {α : Type} (v : Vector α 4) : v.toList = [v[0], v[1], v[2], v[3]] :=
  List.ext_getElem (by simp) fun k inside _ => by
    match k with
    | 0 | 1 | 2 | 3 => rfl

/-- A vector of eleven, element by element. -/
theorem toList_eleven {α : Type} (v : Vector α 11) :
    v.toList = [v[0], v[1], v[2], v[3], v[4], v[5], v[6], v[7], v[8], v[9], v[10]] :=
  List.ext_getElem (by simp) fun k inside _ => by
    match k with
    | 0 | 1 | 2 | 3 | 4 | 5 | 6 | 7 | 8 | 9 | 10 => rfl

/-! ### Lists of up to eight numbers -/

section

variable {numbers : List Byte} {n : Nat}

theorem length_padTo (fill : Byte) : (padTo n fill numbers).length = n := by
  rw [padTo, List.length_append, List.length_take, List.length_replicate]
  omega

/-- The places behind the numbers hold the filling. -/
theorem getElem?_padTo {k : Nat} (fill : Byte) (inside : k < n) :
    (padTo n fill numbers)[k]? = some (numbers.getD k fill) := by
  rw [padTo, List.getElem?_append]
  by_cases present : k < numbers.length
  · have taken : k < (numbers.take n).length := by rw [List.length_take]; omega
    rw [if_pos taken, List.getElem?_take_of_lt inside, List.getD_eq_getElem?_getD, List.getElem?_eq_getElem present]
    rfl
  · have behind : ¬k < (numbers.take n).length := by rw [List.length_take]; omega
    rw [if_neg behind, List.getElem?_replicate, if_pos (by rw [List.length_take]; omega),
      List.getD_eq_getElem?_getD, List.getElem?_eq_none (by omega)]
    rfl

/-- Eight places for numbers, FF hex behind the last (R204). -/
theorem at_places {α : Type} {items : List α} {number : α → Nat} {parts : List (List Byte)} {widths : List Nat}
    {offset k : Nat} (sizes : parts.map List.length = widths) (j : Nat)
    (present : parts[j]? = some (padTo 8 (byte absentNumber) (items.map fun x => byte (number x))))
    (stands : (widths.take j).sum = offset) (inside : k < 8) :
    At (offset + k) 1 (match items[k]? with | none => 255 | some x => number x) parts.flatten := by
  have slice := slice_of_part sizes present stands
  rw [length_padTo] at slice
  refine at_of_slice slice (at_one ?_) (by omega)
  rw [getElem?_padTo _ inside, List.getD_eq_getElem?_getD, List.getElem?_map]
  cases items[k]? <;> rfl

end

/-! ### IDENTITY (Table 11-4) -/

/-- The byte of the cause of a close due. -/
def dueByte (a : Account) : Byte := byte (match a.closeDue with | none => 0 | some d => 128 + d.cause.toCause.code)

def identityParts (state : AccountState) (a : Account) : List (List Byte) :=
  [le 4 a.number, [byte state.code], [byte a.tariff], le 4 a.contractDemand, [byte a.minPercent], [byte a.closeDay],
    [byte a.closeHour], [byte a.members.length], padTo 8 (byte absentNumber) (a.members.map fun i => byte i.val),
    [dueByte a], leTime (a.closeDue.map (·.time)), [byte (bits [a.closeBlocked, a.settled.isSome])]]

theorem identityBytes_eq (state : AccountState) (a : Account) :
    a.identityBytes state = (identityParts state a).flatten := by
  simp only [Account.identityBytes, identityParts, dueByte, List.flatten_cons, List.flatten_nil, List.append_assoc,
    List.append_nil, List.cons_append, List.nil_append] <;> rfl

theorem identityWidths (state : AccountState) (a : Account) :
    (identityParts state a).map List.length = [4, 1, 1, 4, 1, 1, 1, 1, 8, 1, 4, 1] := by
  simp [identityParts, length_padTo]

theorem dueByte_eq (a : Account) :
    dueByte a =
      byte
        (match a.closeDue with
        | none => 0
        | some { cause := .scheduled, time := _ } => 128
        | some { cause := .host, time := _ } => 129) := by
  rw [dueByte]
  cases a.closeDue with
  | none => rfl
  | some due =>
    obtain ⟨cause, time⟩ := due
    cases cause <;> rfl

theorem identityLayout (state : AccountState) (a : Account) : a.IdentityLayout state (a.identityBytes state) := by
  have sizes := identityWidths state a
  obtain ⟨flag, small⟩ := flags_of_part (offset := 27) sizes 11 rfl rfl (by simp)
  have due : At 22 1 _ (identityParts state a).flatten :=
    at_of_part sizes 9 (congrArg (fun b => some [b]) (dueByte_eq a)) rfl
  rw [identityBytes_eq]
  refine ⟨length_row sizes, at_of_part sizes 0 rfl rfl, at_of_part sizes 1 rfl rfl, at_of_part sizes 2 rfl rfl,
    at_of_part sizes 3 rfl rfl, at_of_part sizes 4 rfl rfl, at_of_part sizes 5 rfl rfl, at_of_part sizes 6 rfl rfl,
    at_of_part sizes 7 rfl rfl, fun k inside => ?member, due, at_of_part sizes 10 rfl rfl,
    flag 0, flag 1, ?small⟩
  case member =>
    have spelt := at_places (offset := 14) (items := a.members) (number := Fin.val) sizes 8 rfl rfl inside
    cases present : a.members[k]? <;> (rw [present] at spelt; exact spelt)
  case small =>
    rw [small]
    exact bits_lt _

/-! ### RUNNING (Table 11-5) -/

def runningParts (p : Period) : List (List Byte) :=
  [leTime p.start, p.energy.bytes, p.late.bytes 6, maximumBytes p.maxima[0], maximumBytes p.maxima[1],
    maximumBytes p.maxima[2], maximumBytes p.maxima[3],
    [byte (bits [maximumEstimated p.maxima[0], maximumEstimated p.maxima[1], maximumEstimated p.maxima[2],
      maximumEstimated p.maxima[3], p.exceeded, p.saturated])],
    le 2 p.exceedances, le 2 p.incompleteSlots, le 2 p.outageSlots, le 2 p.subintervals, le 4 p.ratchetCarry]

theorem periodBytes_eq (p : Period) : p.bytes = (runningParts p).flatten := by
  simp only [Period.bytes, toList_four, runningParts, List.map_cons, List.map_nil, List.flatten_cons, List.flatten_nil,
    List.append_assoc, List.append_nil, List.cons_append, List.nil_append]

theorem runningWidths (p : Period) :
    (runningParts p).map List.length = [4, 24, 18, 8, 8, 8, 8, 1, 2, 2, 2, 2, 4] := rfl

theorem runningLayout (p : Period) : p.RunningLayout p.bytes := by
  have sizes := runningWidths p
  obtain ⟨flag, small⟩ := flags_of_part (offset := 78) sizes 7 rfl rfl (by simp)
  have maximum {j offset : Nat} {m : Option BandMaximum} (present : (runningParts p)[j]? = some (maximumBytes m))
      (stands : ([4, 24, 18, 8, 8, 8, 8, 1, 2, 2, 2, 2, 4].take j).sum = offset) :
      MaximumAt offset m (runningParts p).flatten :=
    maximumAt_of_slice (slice_of_part sizes present stands)
  rw [periodBytes_eq]
  refine ⟨length_row sizes, at_of_part sizes 0 rfl rfl,
    energiesAt_of_slice (slice_of_part sizes (k := 1) (piece := p.energy.bytes) rfl rfl)
      (slice_of_part sizes (k := 2) (piece := p.late.bytes 6) rfl rfl), fun x => ?maximum, flag 4, flag 5, ?small,
    at_of_part sizes 8 rfl rfl, at_of_part sizes 9 rfl rfl, at_of_part sizes 10 rfl rfl, at_of_part sizes 11 rfl rfl,
    at_of_part sizes 12 rfl rfl⟩
  case maximum =>
    rw [isEstimated_eq]
    match x with
    | 0 => exact ⟨maximum (j := 3) rfl rfl, flag 0⟩
    | 1 => exact ⟨maximum (j := 4) rfl rfl, flag 1⟩
    | 2 => exact ⟨maximum (j := 5) rfl rfl, flag 2⟩
    | 3 => exact ⟨maximum (j := 6) rfl rfl, flag 3⟩
  case small =>
    rw [small]
    exact bits_lt _

/-! ### RATCHET (Table 11-5) -/

def ratchetParts (a : Account) : List (List Byte) :=
  [le 2 (bits (a.ratchet.toList.map (·.isSome))), le 4 (a.ratchet[0].getD 0), le 4 (a.ratchet[1].getD 0),
    le 4 (a.ratchet[2].getD 0), le 4 (a.ratchet[3].getD 0), le 4 (a.ratchet[4].getD 0), le 4 (a.ratchet[5].getD 0),
    le 4 (a.ratchet[6].getD 0), le 4 (a.ratchet[7].getD 0), le 4 (a.ratchet[8].getD 0), le 4 (a.ratchet[9].getD 0),
    le 4 (a.ratchet[10].getD 0), le 4 a.period.ratchetCarry]

theorem ratchetBytes_eq (a : Account) : a.ratchetBytes = (ratchetParts a).flatten := by
  simp only [Account.ratchetBytes, toList_eleven, ratchetParts, List.map_cons, List.map_nil, List.flatten_cons,
    List.flatten_nil, List.append_assoc, List.append_nil]

theorem ratchetWidths (a : Account) : (ratchetParts a).map List.length = [2, 4, 4, 4, 4, 4, 4, 4, 4, 4, 4, 4, 4] := rfl

/-- The presence of the eleven positions, bit by bit. -/
theorem field_presence (a : Account) :
    field 0 2 (ratchetParts a).flatten = bits (a.ratchet.toList.map (·.isSome)) := by
  have spelt : At 0 2 (bits (a.ratchet.toList.map (·.isSome))) (ratchetParts a).flatten :=
    at_of_part (ratchetWidths a) 0 rfl rfl
  have small : bits (a.ratchet.toList.map (·.isSome)) < 2 ^ 11 := by simpa using bits_lt (a.ratchet.toList.map (·.isSome))
  exact spelt.trans (Nat.mod_eq_of_lt (by omega))

theorem ratchetLayout (a : Account) : a.RatchetLayout a.ratchetBytes := by
  have sizes := ratchetWidths a
  rw [ratchetBytes_eq]
  refine ⟨length_row sizes, fun k => ⟨?present, ?value⟩, ?small, at_of_part sizes 12 rfl rfl⟩
  case present =>
    rw [field_presence, testBit_bits, List.getD_eq_getElem?_getD, List.getElem?_map]
    simp
  case value =>
    match k with
    | 0 => exact at_of_part sizes 1 rfl rfl
    | 1 => exact at_of_part sizes 2 rfl rfl
    | 2 => exact at_of_part sizes 3 rfl rfl
    | 3 => exact at_of_part sizes 4 rfl rfl
    | 4 => exact at_of_part sizes 5 rfl rfl
    | 5 => exact at_of_part sizes 6 rfl rfl
    | 6 => exact at_of_part sizes 7 rfl rfl
    | 7 => exact at_of_part sizes 8 rfl rfl
    | 8 => exact at_of_part sizes 9 rfl rfl
    | 9 => exact at_of_part sizes 10 rfl rfl
    | 10 => exact at_of_part sizes 11 rfl rfl
  case small =>
    rw [field_presence]
    simpa using bits_lt (a.ratchet.toList.map (·.isSome))

/-! ### SETTLED (Table 11-5) -/

def settledParts (x : Settled) : List (List Byte) :=
  [[byte (x.cause.code + 4 * bits [x.late, x.saturated, x.estimatedMax, x.ratchetReference.isSome])],
    [byte (bits [maximumEstimated x.bands[0].maximum, maximumEstimated x.bands[1].maximum,
      maximumEstimated x.bands[2].maximum, maximumEstimated x.bands[3].maximum] + 16 * x.tariff)],
    le 2 x.tariffId, leTime x.periodStart, le 4 x.periodEnd, leTime x.dueTime,
    maximumBytes x.bands[0].maximum, le 4 x.bands[0].billing, maximumBytes x.bands[1].maximum, le 4 x.bands[1].billing,
    maximumBytes x.bands[2].maximum, le 4 x.bands[2].billing, maximumBytes x.bands[3].maximum, le 4 x.bands[3].billing,
    le 4 (x.ratchetReference.getD 0), x.energy.bytes, x.lateEnergy.bytes 6, le 2 (x.powerFactor.getD 0xFFFF),
    le 6 x.excessReactive, le 2 x.incompleteSlots, le 2 x.outageSlots, le 2 x.exceedances, le 2 x.subintervals]

theorem settledBytes_eq (x : Settled) : x.bytes = (settledParts x).flatten := by
  simp only [Settled.bytes, toList_four, settledParts, List.map_cons, List.map_nil, List.flatten_cons, List.flatten_nil,
    List.append_assoc, List.append_nil, List.cons_append, List.nil_append]

def settledWidths : List Nat := [1, 1, 2, 4, 4, 4, 8, 4, 8, 4, 8, 4, 8, 4, 4, 24, 18, 2, 6, 2, 2, 2, 2]

theorem settledParts_widths (x : Settled) : (settledParts x).map List.length = settledWidths := rfl

/-- A small number packed under flags is read back beside them. -/
theorem packed_under {low high : Nat} (k : Nat) (small : low < 2 ^ k) (bit : Nat) :
    (low + 2 ^ k * high) % 2 ^ k = low ∧ (low + 2 ^ k * high) / 2 ^ k = high ∧
      (low + 2 ^ k * high).testBit (k + bit) = high.testBit bit := by
  have quotient : (low + 2 ^ k * high) / 2 ^ k = high := by
    rw [Nat.add_mul_div_left _ _ (Nat.two_pow_pos k), Nat.div_eq_of_lt small, Nat.zero_add]
  refine ⟨?_, quotient, ?_⟩
  · rw [Nat.add_mul_mod_self_left, Nat.mod_eq_of_lt small]
  · rw [Nat.add_comm k bit, ← Nat.testBit_div_two_pow, quotient]

theorem closeCauseCode_lt (cause : CloseCause) : cause.code < 4 := by cases cause <;> decide

/-- The first byte: the cause, and four flags above it. -/
theorem settled_first (x : Settled) :
    field 0 1 (settledParts x).flatten % 4 = x.cause.code ∧ FlagAt 0 2 x.late (settledParts x).flatten ∧
      FlagAt 0 3 x.saturated (settledParts x).flatten ∧ FlagAt 0 4 x.estimatedMax (settledParts x).flatten ∧
      FlagAt 0 5 x.ratchetReference.isSome (settledParts x).flatten ∧ field 0 1 (settledParts x).flatten < 64 := by
  have spelt : At 0 1 (x.cause.code + 4 * bits [x.late, x.saturated, x.estimatedMax, x.ratchetReference.isSome])
      (settledParts x).flatten := at_of_part (settledParts_widths x) 0 rfl rfl
  have cause := closeCauseCode_lt x.cause
  have flags := bits_lt [x.late, x.saturated, x.estimatedMax, x.ratchetReference.isSome]
  have bit (k : Nat) := testBit_bits [x.late, x.saturated, x.estimatedMax, x.ratchetReference.isSome] k
  generalize bits [x.late, x.saturated, x.estimatedMax, x.ratchetReference.isSome] = packed at spelt flags bit
  have few : packed < 16 := flags
  have value : field 0 1 (settledParts x).flatten = x.cause.code + 2 ^ 2 * packed :=
    spelt.trans (Nat.mod_eq_of_lt (by omega))
  have under (k : Nat) := packed_under (high := packed) 2 cause k
  refine ⟨?_, ?_, ?_, ?_, ?_, by omega⟩
  · rw [value]; exact (under 0).1
  · rw [FlagAt, value, (under 0).2.2, bit 0]; rfl
  · rw [FlagAt, value, (under 1).2.2, bit 1]; rfl
  · rw [FlagAt, value, (under 2).2.2, bit 2]; rfl
  · rw [FlagAt, value, (under 3).2.2, bit 3]; rfl

/-- The second byte: four flags, and the tariff above them. -/
theorem settled_second (x : Settled) :
    field 1 1 (settledParts x).flatten / 16 = x.tariff.val ∧
      ∀ k : Band, FlagAt 1 k.val (isEstimated x.bands[k.val].maximum) (settledParts x).flatten := by
  have spelt : At 1 1 (bits [maximumEstimated x.bands[0].maximum, maximumEstimated x.bands[1].maximum,
      maximumEstimated x.bands[2].maximum, maximumEstimated x.bands[3].maximum] + 16 * x.tariff)
      (settledParts x).flatten := at_of_part (settledParts_widths x) 1 rfl rfl
  have flags := bits_lt [maximumEstimated x.bands[0].maximum, maximumEstimated x.bands[1].maximum,
    maximumEstimated x.bands[2].maximum, maximumEstimated x.bands[3].maximum]
  have bit (k : Nat) := testBit_bits [maximumEstimated x.bands[0].maximum, maximumEstimated x.bands[1].maximum,
    maximumEstimated x.bands[2].maximum, maximumEstimated x.bands[3].maximum] k
  generalize bits [maximumEstimated x.bands[0].maximum, maximumEstimated x.bands[1].maximum,
    maximumEstimated x.bands[2].maximum, maximumEstimated x.bands[3].maximum] = packed at spelt flags bit
  have few : packed < 16 := flags
  have inside := x.tariff.isLt
  have value : field 1 1 (settledParts x).flatten = packed + 16 * x.tariff :=
    spelt.trans (Nat.mod_eq_of_lt (by omega))
  refine ⟨by omega, fun k => ?_⟩
  have low (j : Nat) (small : j < 4) : FlagAt 1 j (packed.testBit j) (settledParts x).flatten := by
    have same : (packed + 16 * x.tariff.val) % 2 ^ 4 = packed := by omega
    rw [FlagAt, value, ← same, Nat.testBit_mod_two_pow, decide_eq_true small, Bool.true_and, same]
  have at_k := low k.val k.isLt
  rw [bit k.val] at at_k
  rw [isEstimated_eq]
  match k with
  | 0 | 1 | 2 | 3 => exact at_k

theorem settledLayout (x : Settled) : x.SettledLayout x.bytes := by
  have sizes := settledParts_widths x
  obtain ⟨cause, late, saturated, estimated, reference, small⟩ := settled_first x
  obtain ⟨tariff, flag⟩ := settled_second x
  have maximum {j offset : Nat} {m : Option BandMaximum} (present : (settledParts x)[j]? = some (maximumBytes m))
      (stands : (settledWidths.take j).sum = offset) : MaximumAt offset m (settledParts x).flatten :=
    maximumAt_of_slice (slice_of_part sizes present stands)
  rw [settledBytes_eq]
  refine ⟨length_row sizes, cause, late, saturated, estimated, reference, small, tariff, at_of_part sizes 2 rfl rfl,
    at_of_part sizes 3 rfl rfl, at_of_part sizes 4 rfl rfl, at_of_part sizes 5 rfl rfl, fun k => ?band,
    at_of_part sizes 14 rfl rfl, energiesAt_of_slice (slice_of_part sizes (k := 15) (piece := x.energy.bytes) rfl rfl)
      (slice_of_part sizes (k := 16) (piece := x.lateEnergy.bytes 6) rfl rfl),
    at_of_part sizes 17 rfl rfl, at_of_part sizes 18 rfl rfl, at_of_part sizes 19 rfl rfl, at_of_part sizes 20 rfl rfl,
    at_of_part sizes 21 rfl rfl, at_of_part sizes 22 rfl rfl⟩
  case band =>
    have estimated := flag k
    match k with
    | 0 => exact ⟨maximum (j := 6) rfl rfl, at_of_part sizes 7 rfl rfl, estimated⟩
    | 1 => exact ⟨maximum (j := 8) rfl rfl, at_of_part sizes 9 rfl rfl, estimated⟩
    | 2 => exact ⟨maximum (j := 10) rfl rfl, at_of_part sizes 11 rfl rfl, estimated⟩
    | 3 => exact ⟨maximum (j := 12) rfl rfl, at_of_part sizes 13 rfl rfl, estimated⟩

end Sys2Proof.Machine.AccountLayouts
end

section
/-! The two parts of READ_ACCOUNT WINDOW (Table 11-6, R209): the ring from its oldest slot in twelve places, and the
pending slot behind the second six. -/

namespace Sys2Proof.Machine.WindowLayouts

open Sys2Proof Sys2Proof.Machine
open Sys2Proof.Machine.StatusAndAttention Sys2Proof.Machine.LinkFrames Sys2Proof.Machine.AccountLayouts

/-! ### The pending slot -/

section

variable {b : List Byte} {offset : Nat}

def pendingParts (p : PendingSlot) : List (List Byte) :=
  [[byte (bits [true, p.doubtful])], [p.tag], le 4 p.energy.imp, le 4 p.energy.lag, le 4 p.energy.lead,
    [byte p.expected.length], padTo 8 (byte absentNumber) (p.expected.map fun m => byte m.intake.val),
    [byte (bits (p.expected.map (·.reported)))]]

theorem pendingSlotBytes_eq (p : PendingSlot) : pendingSlotBytes (some p) = (pendingParts p).flatten := by
  simp only [pendingSlotBytes, pendingParts, SlotEnergy.bytes, List.flatten_cons, List.flatten_nil, List.append_assoc,
    List.append_nil, List.cons_append, List.nil_append]

theorem pendingWidths (p : PendingSlot) : (pendingParts p).map List.length = [1, 1, 4, 4, 4, 1, 8, 1] := by
  simp [pendingParts, AccountLayouts.length_padTo]

theorem length_pendingSlotBytes (slot : Option PendingSlot) : (pendingSlotBytes slot).length = 24 := by
  cases slot with
  | none => rfl
  | some p => rw [pendingSlotBytes_eq]; exact length_row (pendingWidths p)

/-- The fields of a pending slot in its 24 bytes. -/
theorem pendingSlotAt_of_slice {slot : Option PendingSlot} (few : ∀ p, slot = some p → p.expected.length ≤ 8)
    (slice : (b.drop offset).take 24 = pendingSlotBytes slot) : PendingSlotAt offset slot b := by
  cases slot with
  | none =>
    intro k inside
    refine at_of_slice slice (at_one ?_) (by omega)
    rw [pendingSlotBytes, List.getElem?_replicate, if_pos inside]
    rfl
  | some p =>
    rw [pendingSlotBytes_eq] at slice
    have sizes := pendingWidths p
    have number {j o v w : Nat} (present : (pendingParts p)[j]? = some (le w v))
        (stands : (([1, 1, 4, 4, 4, 1, 8, 1] : List Nat).take j).sum = o) (inside : o + w ≤ 24) : At (offset + o) w v b :=
      at_of_slice slice (at_of_part sizes j present stands) inside
    have reported : (p.expected.map (·.reported)).length ≤ 8 := by rw [List.length_map]; exact few p rfl
    obtain ⟨head, headValue⟩ := flags_of_part (offset := 0) sizes 0 rfl rfl (by simp)
    obtain ⟨tail, _⟩ := flags_of_part (offset := 23) sizes 7 rfl rfl reported
    have first : field offset 1 b = field 0 1 (pendingParts p).flatten := field_of_slice (k := 0) slice (by decide)
    have last : field (offset + 23) 1 b = field 23 1 (pendingParts p).flatten := field_of_slice slice (by decide)
    refine ⟨?valid, ?doubtful, ?small, ?tag, number (j := 2) rfl rfl (by decide), number (j := 3) rfl rfl (by decide),
      number (j := 4) rfl rfl (by decide), number (j := 5) rfl rfl (by decide), fun k inside => ?expected,
      fun k inside => ?reported⟩
    case valid =>
      rw [FlagAt, first]
      exact head 0
    case doubtful =>
      rw [FlagAt, first]
      exact head 1
    case small =>
      rw [first, headValue]
      exact bits_lt _
    case tag =>
      exact number (j := 1) (congrArg (fun x => some [x]) (byte_toNat_self p.tag).symm) rfl (by decide)
    case expected =>
      have spelt := at_of_slice slice
        (at_places (offset := 15) (items := p.expected) (number := fun m => m.intake.val) sizes 6 rfl rfl inside) (by omega)
      rw [← Nat.add_assoc] at spelt
      cases present : p.expected[k]? <;> (rw [present] at spelt; exact spelt)
    case reported =>
      have shown := tail k
      rw [FlagAt, last]
      rw [FlagAt, List.getD_eq_getElem?_getD, List.getElem?_map] at shown
      cases present : p.expected[k]? <;> (rw [present] at shown; exact shown)

end

/-! ### The ring in twelve places -/

section

variable {n : Nat} {a : Account}

theorem length_ring (inside : n ≤ 12) : (a.ring n).length = n := by
  rw [Account.ring, List.length_take, Vector.length_toList]
  omega

theorem length_ringOldestFirst (inside : n ≤ 12) : (a.ringOldestFirst n).length = n := by
  have ring : (a.ring n).length = n := length_ring inside
  rw [Account.ringOldestFirst, List.length_append, List.length_drop, List.length_take]
  omega

/-- The slot numbered `k` from the oldest stands `k` positions on in the ring. -/
theorem getElem?_ringOldestFirst (inside : n ≤ 12) (position : a.ringPos < n) {k : Nat} (number : k < n) :
    (a.ringOldestFirst n)[k]? = a.window[(a.ringPos + k) % n]? := by
  have ring : (a.ring n).length = n := length_ring inside
  have held {j : Nat} (below : j < n) : (a.ring n)[j]? = a.window[j]? := by
    rw [Account.ring, List.getElem?_take_of_lt below, Vector.getElem?_toList]
  rw [Account.ringOldestFirst, List.getElem?_append]
  by_cases before : a.ringPos + k < n
  · rw [if_pos (by rw [List.length_drop]; omega), List.getElem?_drop, held before, Nat.mod_eq_of_lt before]
  · have wrapped : (a.ringPos + k) % n = a.ringPos + k - n := by
      rw [Nat.mod_eq_sub_mod (by omega), Nat.mod_eq_of_lt (by omega)]
    rw [if_neg (by rw [List.length_drop]; omega), List.length_drop, ring, List.getElem?_take_of_lt (by omega),
      held (by omega), wrapped]
    congr 1
    omega

theorem length_windowPlaces (n : Nat) (a : Account) : (windowPlaces n a).length = 12 := by
  rw [windowPlaces, List.length_take, List.length_append, List.length_replicate]
  omega

/-- A place holds its slot of the ring, and zeros above N. -/
theorem getElem?_windowPlaces (inside : n ≤ 12) {k : Nat} (place : k < 12) :
    (windowPlaces n a)[k]? =
      if k < n then (a.ringOldestFirst n)[k]?.map WindowSlot.bytes else some windowPlaces.zeroSlot := by
  have length : ((a.ringOldestFirst n).map WindowSlot.bytes).length = n := by
    rw [List.length_map, length_ringOldestFirst inside]
  rw [windowPlaces, List.getElem?_take_of_lt place, List.getElem?_append, length, List.getElem?_map]
  by_cases number : k < n
  · rw [if_pos number, if_pos number]
  · rw [if_neg number, if_neg number, List.getElem?_replicate, if_pos (by omega)]

/-- Every place is 13 bytes wide. -/
theorem length_of_mem_windowPlaces {place : List Byte} (mem : place ∈ windowPlaces n a) : place.length = 13 := by
  rw [windowPlaces] at mem
  rcases List.mem_append.mp (List.mem_of_mem_take mem) with slot | zero
  · obtain ⟨x, _, rfl⟩ := List.mem_map.mp slot
    rfl
  · obtain rfl := List.eq_of_mem_replicate zero
    rfl

/-- A place of 13 bytes shows the slot of its number. -/
theorem slotAt_of_place {b : List Byte} {offset k : Nat} {place : List Byte} (inside : n ≤ 12) (position : a.ringPos < n)
    (number : k < 12) (present : (windowPlaces n a)[k]? = some place) (slice : (b.drop offset).take 13 = place) :
    SlotAt offset (if k < n then a.window[(a.ringPos + k) % n]? else none) b := by
  rw [getElem?_windowPlaces inside number] at present
  by_cases below : k < n
  · rw [if_pos below, getElem?_ringOldestFirst inside position below] at present
    rw [if_pos below]
    cases held : a.window[(a.ringPos + k) % n]? with
    | none => rw [held] at present; cases present
    | some x =>
      rw [held, Option.map_some, Option.some.injEq] at present
      subst present
      exact slotAt_of_slice slice
  · rw [if_neg below, Option.some.injEq] at present
    rw [if_neg below]
    subst present
    exact slotAt_of_zero slice

end

/-! ### The two parts -/

section

variable {n : Nat} {a : Account}

/-- Six places behind the header, and what stands behind them. -/
def windowParts (n : Nat) (a : Account) (places rest : List (List Byte)) : List (List Byte) :=
  [[byte n], [byte a.ringPos], le 2 a.period.subintervals] ++ places ++ rest

theorem windowHeader_append_flatten (n : Nat) (a : Account) (places rest : List (List Byte)) :
    windowHeader n a ++ places.flatten ++ rest.flatten = (windowParts n a places rest).flatten := by
  simp only [windowHeader, windowParts, List.flatten_append, List.flatten_cons, List.append_assoc,
    List.cons_append, List.nil_append]

theorem windowParts_widths {places rest : List (List Byte)} (six : places.length = 6)
    (wide : ∀ place ∈ places, place.length = 13) :
    (windowParts n a places rest).map List.length = [1, 1, 2, 13, 13, 13, 13, 13, 13] ++ rest.map List.length := by
  have sizes : places.map List.length = List.replicate 6 13 := by
    rw [List.eq_replicate_iff, List.length_map, six]
    refine ⟨rfl, fun w mem => ?_⟩
    obtain ⟨place, held, rfl⟩ := List.mem_map.mp mem
    exact wide place held
  rw [windowParts, List.map_append, List.map_append, sizes]
  rfl

/-- The six places start at offset 4, 13 bytes apart. -/
theorem widths_before (rest : List Nat) : ∀ k < 6,
    ((([1, 1, 2, 13, 13, 13, 13, 13, 13] ++ rest).take (3 + k)).sum) = 4 + 13 * k
  | 0, _ | 1, _ | 2, _ | 3, _ | 4, _ | 5, _ => rfl

/-- The header and six places from a place on. -/
theorem header_and_places (inside : n ≤ 12) (position : a.ringPos < n) {places rest : List (List Byte)} {from_ : Nat}
    (six : places.length = 6) (below : from_ ≤ 6) (taken : ∀ k < 6, places[k]? = (windowPlaces n a)[k + from_]?)
    (wide : ∀ place ∈ places, place.length = 13) :
    let b := (windowParts n a places rest).flatten
    At 0 1 n b ∧ At 1 1 a.ringPos b ∧ At 2 2 a.period.subintervals b ∧
      ∀ k < 6, SlotAt (4 + 13 * k) (if k + from_ < n then a.window[(a.ringPos + (k + from_)) % n]? else none) b := by
  intro b
  have sizes := windowParts_widths (n := n) (a := a) (rest := rest) six wide
  refine ⟨at_of_part sizes 0 rfl rfl, at_of_part sizes 1 rfl rfl, at_of_part sizes 2 rfl rfl, fun k small => ?_⟩
  have held : k < places.length := by omega
  have present : (windowParts n a places rest)[3 + k]? = some places[k] := by
    rw [windowParts, List.append_assoc, List.getElem?_append_right (by simp), List.getElem?_append_left (by simp; omega),
      ← List.getElem?_eq_getElem held]
    congr 1
    simp
  have slice := slice_of_part sizes present (widths_before _ k small)
  rw [wide _ (List.getElem_mem held)] at slice
  refine slotAt_of_place inside position (by omega) ?_ slice
  rw [← taken k small, List.getElem?_eq_getElem held]

theorem windowLayout {part : Nat} (inside : n ≤ 12) (position : a.ringPos < n) (parts : part ≤ 1)
    (few : ∀ p, a.storedSlot = some p → p.expected.length ≤ 8) : a.WindowLayout n part (windowPart n part a) := by
  have length := length_windowPlaces n a
  match part with
  | 0 =>
    have six : ((windowPlaces n a).take 6).length = 6 := by rw [List.length_take, length]; rfl
    have wide : ∀ place ∈ (windowPlaces n a).take 6, place.length = 13 := fun place mem =>
      length_of_mem_windowPlaces (List.mem_of_mem_take mem)
    have same : windowPart n 0 a = (windowParts n a ((windowPlaces n a).take 6) []).flatten := by
      rw [← windowHeader_append_flatten, List.flatten_nil, List.append_nil]
      rfl
    obtain ⟨atN, atPosition, atCount, slots⟩ := header_and_places (rest := []) inside position (from_ := 0) six (by omega)
      (fun k small => List.getElem?_take_of_lt small) wide
    rw [same]
    exact ⟨length_row (windowParts_widths six wide), atN, atPosition, atCount, slots, nofun⟩
  | 1 =>
    have six : ((windowPlaces n a).drop 6).length = 6 := by rw [List.length_drop, length]
    have wide : ∀ place ∈ (windowPlaces n a).drop 6, place.length = 13 := fun place mem =>
      length_of_mem_windowPlaces (List.mem_of_mem_drop mem)
    have same : windowPart n 1 a = (windowParts n a ((windowPlaces n a).drop 6) [pendingSlotBytes a.storedSlot]).flatten := by
      rw [← windowHeader_append_flatten, List.flatten_cons, List.flatten_nil, List.append_nil]
      rfl
    have sizes : (windowParts n a ((windowPlaces n a).drop 6) [pendingSlotBytes a.storedSlot]).map List.length =
        [1, 1, 2, 13, 13, 13, 13, 13, 13, 24] := by
      rw [windowParts_widths six wide, List.map_cons, length_pendingSlotBytes]
      rfl
    obtain ⟨atN, atPosition, atCount, slots⟩ := header_and_places (rest := [pendingSlotBytes a.storedSlot]) inside position
      (from_ := 6) six (by omega) (fun k _ => by rw [List.getElem?_drop, Nat.add_comm]) wide
    have present : (windowParts n a ((windowPlaces n a).drop 6) [pendingSlotBytes a.storedSlot])[9]? =
        some (pendingSlotBytes a.storedSlot) := by
      rw [windowParts, List.getElem?_append_right (by simp [six]), List.length_append, six]
      rfl
    have slice := slice_of_part (offset := 82) sizes present rfl
    rw [length_pendingSlotBytes] at slice
    rw [same]
    exact ⟨length_row sizes, atN, atPosition, atCount, slots, fun _ => pendingSlotAt_of_slice few slice⟩

end

end Sys2Proof.Machine.WindowLayouts
end

section
/-! FIND_ACCOUNT and READ_ACCOUNT (R23 to R25): what they answer of a sound, of a marked and of a failing account. -/

namespace Sys2Proof.Machine.AccountLookUps

open Sys2Proof Sys2Proof.Machine
open Sys2Proof.Machine.PeriodSettlement Sys2Proof.Machine.RequestRules Sys2Proof.Machine.AccountTable
open Sys2Proof.Machine.AccountLayouts Sys2Proof.Machine.WindowLayouts

/-! ### FIND_ACCOUNT (R23) -/

section

variable {p : List Byte} {c : Calendar} {m : Mode} {l : Ledger} {i : Slot}

theorem findAccount_of_zero (zero : field 0 4 p = 0) : findAccount p c m l = (l, refuse .outOfRange) := by
  simp [findAccount, zero]

theorem findAccount_of_unheld (number : field 0 4 p ≠ 0)
    (unheld : ∀ j, (l.account j).state ≠ .free → (l.account j).number ≠ field 0 4 p) :
    findAccount p c m l = (l, refuse .noSuchAccount) := by
  simp [findAccount, number, holder_eq_none_iff.mpr unheld]

/-- The first slot that holds the number. -/
theorem holder_eq_some {number : Nat} (notFree : (l.account i).state ≠ .free) (held : (l.account i).number = number)
    (first : ∀ j, j < i → (l.account j).state ≠ .free → (l.account j).number ≠ number) :
    l.holder number none = some i := by
  rw [Ledger.holder, SlotClosure.find_allSlots_eq_some_iff]
  refine ⟨by simp [notFree, held], fun j before => ?_⟩
  have other := first j before
  by_cases free : (l.account j).state = .free
  · simp [free]
  · simp [other free]

/-- FIND_ACCOUNT verifies the account that it found and answers its slot and state. -/
theorem findAccount_of_held (number : field 0 4 p ≠ 0) (notFree : (l.account i).state ≠ .free)
    (held : (l.account i).number = field 0 4 p)
    (first : ∀ j, j < i → (l.account j).state ≠ .free → (l.account j).number ≠ field 0 4 p) :
    findAccount p c m l =
      (l.checkAccount i,
        { code := if ((l.checkAccount i).account i).faultMark then .faulted else .ok,
          payload := [byte i.val, byte ((l.checkAccount i).account i).state.code] }) := by
  simp [findAccount, number, holder_eq_some notFree held first]

/-- A failing account is marked once verified. -/
theorem account_withAccountMarked (i : Slot) (l : Ledger) :
    (l.withAccountMarked i).account i = { l.account i with faultMark := true } := by
  simp [Ledger.withAccountMarked]

end

/-! ### READ_ACCOUNT (R24, R25) -/

section

variable {p : List Byte} {c : Calendar} {m : Mode} {l : Ledger} {i : Slot} {sec : AccountSection}

/-- How many parts above part 0 a section has (R209). -/
def furtherParts (code : Nat) : Nat := if code = 3 then 1 else 0

/-- The codes of the sections, and their parts. -/
theorem section_of_code {code : Nat} (low : 1 ≤ code) (high : code ≤ 5) :
    ∃ sec, AccountSection.ofCode code = some sec ∧ (sec = .identity ↔ code = 1) ∧
      ∀ part, sectionInRange code part = decide (part ≤ furtherParts code) := by
  obtain rfl | rfl | rfl | rfl | rfl : code = 1 ∨ code = 2 ∨ code = 3 ∨ code = 4 ∨ code = 5 := by omega
  · exact ⟨.identity, rfl, by simp, fun part => by simp [sectionInRange, AccountSection.ofCode, furtherParts]⟩
  · exact ⟨.running, rfl, by simp, fun part => by simp [sectionInRange, AccountSection.ofCode, furtherParts]⟩
  · exact ⟨.window, rfl, by simp, fun part => by simp [sectionInRange, AccountSection.ofCode, furtherParts]⟩
  · exact ⟨.ratchet, rfl, by simp, fun part => by simp [sectionInRange, AccountSection.ofCode, furtherParts]⟩
  · exact ⟨.settled, rfl, by simp, fun part => by simp [sectionInRange, AccountSection.ofCode, furtherParts]⟩

theorem section_of_other_code {code : Nat} (other : code = 0 ∨ 5 < code) : AccountSection.ofCode code = none := by
  rw [AccountSection.ofCode] <;> omega

/-- Parameters of READ_ACCOUNT out of range. -/
def ReadOutOfRange (p : List Byte) : Prop :=
  63 < field 0 1 p ∨ field 1 1 p = 0 ∨ 5 < field 1 1 p ∨ furtherParts (field 1 1 p) < field 2 1 p

theorem readAccount_of_range (bad : ReadOutOfRange p) : readAccount p c m l = (l, refuse .outOfRange) := by
  rw [readAccount]
  cases slot : slotOf (field 0 1 p) with
  | none => rfl
  | some i =>
    rcases Nat.lt_or_ge 63 (field 0 1 p) with above | inside
    · rw [slotOf_of_above above] at slot
      cases slot
    · by_cases coded : 1 ≤ field 1 1 p ∧ field 1 1 p ≤ 5
      · obtain ⟨sec, code, _, range⟩ := section_of_code coded.1 coded.2
        have outside : ¬field 2 1 p ≤ furtherParts (field 1 1 p) := by
          rw [ReadOutOfRange] at bad
          omega
        simp [code, range, outside]
      · rw [section_of_other_code (by omega)]

/-- READ_ACCOUNT of a slot, a section and a part in range. -/
theorem readAccount_of_named (names : field 0 1 p = i.val) (code : AccountSection.ofCode (field 1 1 p) = some sec)
    (part : sectionInRange (field 1 1 p) (field 2 1 p) = true) :
    readAccount p c m l =
      if (l.account i).state = .free then (l, refuse .noSuchAccount)
      else if ((l.checkAccount i).account i).faultMark && sec != .identity then (l.checkAccount i, refuse .faulted)
      else readSection i (field 2 1 p) sec (l.checkAccount i) := by
  simp [readAccount, names, slotOf_val, code, part]

/-- Of a sound account it answers the section. -/
theorem readAccount_of_soundAccount (names : field 0 1 p = i.val) (code : AccountSection.ofCode (field 1 1 p) = some sec)
    (part : sectionInRange (field 1 1 p) (field 2 1 p) = true) (sound : l.SoundAccount i)
    (notFree : (l.account i).phase ≠ .free) : readAccount p c m l = readSection i (field 2 1 p) sec l := by
  rw [readAccount_of_named names code part, if_neg (mt (state_eq_free_iff sound.1).mp notFree),
    checkAccount_of_soundAccount sound, sound.1, Bool.false_and, if_neg Bool.false_ne_true]

/-- Of an account that is marked once verified it answers IDENTITY alone. -/
theorem readAccount_of_marked {l' : Ledger} (names : field 0 1 p = i.val)
    (code : AccountSection.ofCode (field 1 1 p) = some sec)
    (part : sectionInRange (field 1 1 p) (field 2 1 p) = true) (notFree : (l.account i).state ≠ .free)
    (checked : l.checkAccount i = l') (mark : (l'.account i).faultMark = true) :
    readAccount p c m l =
      if sec = .identity then (l', okWith ((l'.account i).identityBytes .faulted)) else (l', refuse .faulted) := by
  rw [readAccount_of_named names code part, if_neg notFree, checked, mark, Bool.true_and]
  by_cases identity : sec = .identity
  · subst identity
    rw [if_pos rfl, if_neg (by decide), readSection, state_of_mark mark]
  · rw [if_neg identity, if_pos (by simpa using identity)]

/-- WINDOW rests on the tariff's N. -/
theorem readSection_window_of_unready {l' : Ledger} {part : Nat} (checked : l.checkTariff (l.account i).tariff = l')
    (unready : (l'.tariff (l.account i).tariff).state ≠ .ready) :
    readSection i part .window l = (l', refuse .faulted) := by
  simp only [readSection, checked, bne_iff_ne, if_pos unready]

theorem readSection_window_of_ready {part : Nat} (ready : l.ReadyTariff (l.account i).tariff) :
    readSection i part .window l =
      (l, okWith (windowPart (l.tariff (l.account i).tariff).n part (l.account i))) := by
  simp only [readSection, checkTariff_of_readyTariff ready, bne_iff_ne, if_neg (not_not_intro ready.1)]

end

/-! ### The answers -/

section

variable {s : State} {p : List Byte} {i : Slot}

/-- The answers of FIND_ACCOUNT that are no look-up of a sound account. -/
theorem findAccount_refusals (issues : s.Issues .findAccount p) :
    (field 0 4 p = 0 → exec .findAccount s = .next (s.respond (refuse .outOfRange))) ∧
      (s.requestTurn = true → field 0 4 p ≠ 0 →
        (∀ j, (s.ledger.account j).state ≠ .free → (s.ledger.account j).number ≠ field 0 4 p) →
        exec .findAccount s = .next (s.answered s.ledger (refuse .noSuchAccount))) ∧
      ∀ i : Slot, s.requestTurn = true → field 0 4 p ≠ 0 → s.ledger.FailingAccount i →
        (s.ledger.account i).number = field 0 4 p →
        (∀ j, j < i → (s.ledger.account j).state ≠ .free → (s.ledger.account j).number ≠ field 0 4 p) →
        exec .findAccount s =
          .next (s.answered (s.ledger.withAccountMarked i) { code := .faulted, payload := [byte i.val, 4] }) := by
  refine ⟨fun zero => exec_of_refusal (work := findAccount) rfl issues (findAccount_of_zero zero) rfl,
    fun turn number unheld => exec_of_work (work := findAccount) rfl ⟨issues, turn⟩ (findAccount_of_unheld number unheld) rfl,
    fun i turn number failing held first => exec_of_work (work := findAccount) rfl ⟨issues, turn⟩ ?_ rfl⟩
  have notFree := mt (state_eq_free_iff failing.1).mp failing.2.1
  rw [findAccount_of_held number notFree held first, checkAccount_of_failingAccount failing, account_withAccountMarked]
  rfl

/-- FIND_ACCOUNT of a sound account and of a marked one. -/
theorem findAccount_answers (granted : s.Granted .findAccount p) (notFree : (s.ledger.account i).state ≠ .free)
    (held : (s.ledger.account i).number = field 0 4 p) (number : field 0 4 p ≠ 0)
    (first : ∀ j, j < i → (s.ledger.account j).state ≠ .free → (s.ledger.account j).number ≠ field 0 4 p) :
    (s.ledger.SoundAccount i →
        exec .findAccount s =
          .next (s.answered s.ledger (okWith [byte i.val, byte (s.ledger.account i).state.code]))) ∧
      ((s.ledger.account i).faultMark = true →
        exec .findAccount s = .next (s.answered s.ledger { code := .faulted, payload := [byte i.val, 4] })) := by
  refine ⟨fun sound => exec_of_work (work := findAccount) rfl granted ?_ rfl,
    fun mark => exec_of_work (work := findAccount) rfl granted ?_ rfl⟩
  · rw [findAccount_of_held number notFree held first, checkAccount_of_soundAccount sound, sound.1]
    rfl
  · rw [findAccount_of_held number notFree held first, Ledger.checkAccount_of_sound (.inl mark), mark, state_of_mark mark]
    rfl

/-- The answers of READ_ACCOUNT that give no section of a sound account. -/
theorem readAccount_refusals (issues : s.Issues .readAccount p) :
    (ReadOutOfRange p → exec .readAccount s = .next (s.respond (refuse .outOfRange))) ∧
      ∀ i : Slot, s.requestTurn = true → ¬ReadOutOfRange p → field 0 1 p = i.val →
        ((s.ledger.account i).state = .free →
          exec .readAccount s = .next (s.answered s.ledger (refuse .noSuchAccount))) ∧
        (s.ledger.FailingAccount i →
          (field 1 1 p = 1 →
            exec .readAccount s =
              .next (s.answered (s.ledger.withAccountMarked i) (okWith ((s.ledger.account i).identityBytes .faulted)))) ∧
          (field 1 1 p ≠ 1 →
            exec .readAccount s = .next (s.answered (s.ledger.withAccountMarked i) (refuse .faulted)))) ∧
        (s.ledger.SoundAccount i → (s.ledger.account i).phase ≠ .free → field 1 1 p = 3 →
          ((s.ledger.tariff (s.ledger.account i).tariff).faultMark = true →
            exec .readAccount s = .next (s.answered s.ledger (refuse .faulted))) ∧
          (s.ledger.FailingTariff (s.ledger.account i).tariff →
            exec .readAccount s =
              .next (s.answered (s.ledger.withTariffMarked (s.ledger.account i).tariff) (refuse .faulted)))) := by
  refine ⟨fun bad => exec_of_refusal (work := readAccount) rfl issues (readAccount_of_range bad) rfl,
    fun i turn inside names => ?_⟩
  simp only [ReadOutOfRange, not_or, Nat.not_lt] at inside
  obtain ⟨_, nonzero, high, few⟩ := inside
  obtain ⟨sec, code, identity, range⟩ := section_of_code (Nat.pos_of_ne_zero nonzero) high
  have part : sectionInRange (field 1 1 p) (field 2 1 p) = true := by rw [range]; exact decide_eq_true few
  have granted : s.Granted .readAccount p := ⟨issues, turn⟩
  have answers {l : Ledger} {a : Answer} :=
    exec_of_work (work := readAccount) (c := .readAccount) (l := l) (a := a) rfl granted
  refine ⟨fun free => answers ((readAccount_of_named names code part).trans (if_pos free)) rfl, fun failing => ?failing,
    fun sound notFree window => ?window⟩
  case failing =>
    have notFree := mt (state_eq_free_iff failing.1).mp failing.2.1
    have worked := readAccount_of_marked (c := s.calendar) (m := s.mode) names code part notFree
      (checkAccount_of_failingAccount failing) (by rw [account_withAccountMarked])
    refine ⟨fun one => answers (worked.trans ?_) rfl,
      fun other => answers (worked.trans (if_neg (mt identity.mp other))) rfl⟩
    rw [if_pos (identity.mpr one), account_withAccountMarked]
    rfl
  case window =>
    have sec_eq : sec = .window := by
      rw [window] at code
      exact (Option.some.inj code).symm
    subst sec_eq
    have worked := readAccount_of_soundAccount (c := s.calendar) (m := s.mode) names code part sound notFree
    refine ⟨fun mark => answers (worked.trans ?_) rfl, fun failing => answers (worked.trans ?_) rfl⟩
    · exact readSection_window_of_unready (Ledger.checkTariff_of_sound (.inl mark)) (tariff_ne_ready_of_mark mark)
    · exact readSection_window_of_unready (checkTariff_of_failingTariff failing) (withTariffMarked_ne_ready _ _)

/-- A section, by its code, of a sound account. -/
theorem exec_readAccount_of_section {sec : AccountSection} {code : Nat} {a : Answer} (granted : s.Granted .readAccount p)
    (names : field 0 1 p = i.val) (sound : s.ledger.SoundAccount i) (notFree : (s.ledger.account i).phase ≠ .free)
    (coded : field 1 1 p = code) (named : AccountSection.ofCode code = some sec)
    (part : sectionInRange code (field 2 1 p) = true)
    (read : readSection i (field 2 1 p) sec s.ledger = (s.ledger, a)) (onRecords : a.code.onParameters = false) :
    exec .readAccount s = .next (s.answered s.ledger a) := by
  subst coded
  exact exec_of_work (work := readAccount) rfl granted
    ((readAccount_of_soundAccount names named part sound notFree).trans read) onRecords

/-- Each section of a sound account (R25). -/
theorem readAccount_sections (granted : s.Granted .readAccount p) (names : field 0 1 p = i.val)
    (sound : s.ledger.SoundAccount i) (notFree : (s.ledger.account i).phase ≠ .free) :
    let a := s.ledger.account i
    (field 1 1 p = 1 → field 2 1 p = 0 →
        exec .readAccount s = .next (s.answered s.ledger (okWith (a.identityBytes a.state)))) ∧
      (field 1 1 p = 2 → field 2 1 p = 0 → exec .readAccount s = .next (s.answered s.ledger (okWith a.period.bytes))) ∧
      (field 1 1 p = 3 → field 2 1 p ≤ 1 → s.ledger.ReadyTariff a.tariff →
        exec .readAccount s =
          .next (s.answered s.ledger (okWith (windowPart (s.ledger.tariff a.tariff).n (field 2 1 p) a)))) ∧
      (field 1 1 p = 4 → field 2 1 p = 0 → exec .readAccount s = .next (s.answered s.ledger (okWith a.ratchetBytes))) ∧
      (field 1 1 p = 5 → field 2 1 p = 0 →
        (∀ x, a.settled = some x → exec .readAccount s = .next (s.answered s.ledger (okWith x.bytes))) ∧
          (a.settled = none → exec .readAccount s = .next (s.answered s.ledger (refuse .nothingSettled)))) := by
  have read {sec : AccountSection} {code : Nat} {a : Answer} :=
    exec_readAccount_of_section (sec := sec) (code := code) (a := a) granted names sound notFree
  refine ⟨fun code part => read code rfl (by rw [part]; rfl) rfl rfl, fun code part => read code rfl (by rw [part]; rfl) rfl rfl,
    fun code part ready => read code rfl (by simpa [sectionInRange, AccountSection.ofCode] using part) (readSection_window_of_ready ready) rfl,
    fun code part => read code rfl (by rw [part]; rfl) rfl rfl,
    fun code part => ⟨fun x settled => read code rfl (by rw [part]; rfl) ?some rfl,
      fun unsettled => read code rfl (by rw [part]; rfl) ?none rfl⟩⟩
  case some => simp only [readSection, settled]
  case none => simp only [readSection, unsettled]

/-- Of a marked account, IDENTITY alone (R24). -/
theorem readAccount_marked (granted : s.Granted .readAccount p) (names : field 0 1 p = i.val)
    (mark : (s.ledger.account i).faultMark = true) :
    (field 1 1 p = 1 → field 2 1 p = 0 →
        exec .readAccount s = .next (s.answered s.ledger (okWith ((s.ledger.account i).identityBytes .faulted)))) ∧
      (2 ≤ field 1 1 p → field 1 1 p ≤ 5 → field 2 1 p = 0 →
        exec .readAccount s = .next (s.answered s.ledger (refuse .faulted))) := by
  have notFree : (s.ledger.account i).state ≠ .free := by rw [state_of_mark mark]; decide
  have same : s.ledger.checkAccount i = s.ledger := Ledger.checkAccount_of_sound (.inl mark)
  have answers {sec : AccountSection} {a : Answer} (code : AccountSection.ofCode (field 1 1 p) = some sec)
      (part : sectionInRange (field 1 1 p) (field 2 1 p) = true)
      (given : (if sec = .identity then (s.ledger, okWith ((s.ledger.account i).identityBytes .faulted))
        else (s.ledger, refuse .faulted)) = (s.ledger, a)) (onRecords : a.code.onParameters = false) :
      exec .readAccount s = .next (s.answered s.ledger a) :=
    exec_of_work (work := readAccount) rfl granted
      ((readAccount_of_marked names code part notFree same mark).trans given) onRecords
  refine ⟨fun code part => answers (sec := .identity) (by rw [code]; rfl) (by rw [code, part]; rfl) (if_pos rfl) rfl,
    fun low high part => ?_⟩
  obtain ⟨sec, code, identity, range⟩ := section_of_code (by omega) high
  exact answers code (by rw [range, part]; exact decide_eq_true (Nat.zero_le _)) (if_neg (mt identity.mp (by omega))) rfl

end

/-- Settles O16: the look-ups by the record that they find, and the layouts section by section. -/
theorem lookUpsAnswerAndChangeNothing : Obligations.LookUpsAnswerAndChangeNothing := by
  refine ⟨?refusals, ?answers, ⟨rfl, rfl, rfl⟩, fun state a _ => identityLayout state a, runningLayout, ratchetLayout,
    settledLayout, fun n part a _ inside position parts few => windowLayout inside position parts few⟩
  case refusals =>
    intro s p marked fails
    refine ⟨findAccount_refusals, fun issues => ?_⟩
    obtain ⟨outside, addressed⟩ := readAccount_refusals issues
    refine ⟨outside, fun i turn inside names => ?_⟩
    obtain ⟨free, failing, window⟩ := addressed i turn inside names
    refine ⟨free, failing, fun sound notFree code => ?_⟩
    obtain ⟨mark, failingTariff⟩ := window sound notFree code
    exact ⟨mark, fun unmarked fails => failingTariff ⟨unmarked, fails⟩⟩
  case answers =>
    intro s p i
    exact ⟨fun granted notFree held number first => findAccount_answers granted notFree held number first,
      readAccount_sections, readAccount_marked⟩

end Sys2Proof.Machine.AccountLookUps
end

section
/-! DELETE_TARIFF and READ_TARIFF (R42, R43), and the layouts of the header and of a switch point (Tables 11-3, 11-8). -/

namespace Sys2Proof.Machine.TariffRequests

open Sys2Proof Sys2Proof.Machine
open Sys2Proof.Machine.PeriodSettlement Sys2Proof.Machine.RequestRules Sys2Proof.Machine.AccountTable
open Sys2Proof.Machine.AccountLayouts Sys2Proof.Machine.SwitchPool Sys2Proof.Machine.CheckWords

/-! ### Layouts -/

def headerParts (t : Tariff) : List (List Byte) :=
  [le 2 t.id, [byte t.evaluation.code], [byte t.n], [byte t.quantity.code], [byte t.bandCount], [byte t.ratchetPercent],
    [byte t.ratchetBand], le 2 t.allowance, [byte t.leadPolicy.code], [byte t.incompletePolicy.code],
    [byte t.weekMask.toNat], [byte t.workCount], [byte t.restCount]]

theorem headerBytes_eq (t : Tariff) : t.headerBytes = (headerParts t).flatten := by
  simp only [Tariff.headerBytes, headerParts, List.flatten_cons, List.flatten_nil, List.append_assoc,
    List.cons_append, List.nil_append]

theorem headerLayout (t : Tariff) : t.HeaderLayout t.headerBytes := by
  have sizes : (headerParts t).map List.length = [2, 1, 1, 1, 1, 1, 1, 2, 1, 1, 1, 1, 1] := rfl
  rw [headerBytes_eq]
  exact ⟨length_row sizes, at_of_part sizes 0 rfl rfl, at_of_part sizes 1 rfl rfl, at_of_part sizes 2 rfl rfl,
    at_of_part sizes 3 rfl rfl, at_of_part sizes 4 rfl rfl, at_of_part sizes 5 rfl rfl, at_of_part sizes 6 rfl rfl,
    at_of_part sizes 7 rfl rfl, at_of_part sizes 8 rfl rfl, at_of_part sizes 9 rfl rfl, at_of_part sizes 10 rfl rfl,
    at_of_part sizes 11 rfl rfl, at_of_part sizes 12 rfl rfl⟩

/-- A switch point's three fields stand beside each other in one number. -/
theorem pointLayout (q : SwitchPoint) (inside : q.minute < 2048) : q.PointLayout q.bytes := by
  have band := q.band.isLt
  have notify : q.notify.toNat < 2 := Bool.toNat_lt q.notify
  have small : q.minute + 2048 * q.band + 8192 * q.notify.toNat < 2 ^ 16 := by omega
  have spelt : field 0 2 q.bytes = q.minute + 2048 * q.band + 8192 * q.notify.toNat := by
    have spelt : At 0 2 _ q.bytes := LinkFrames.at_of_bytes rfl
    exact spelt.trans (Nat.mod_eq_of_lt small)
  refine ⟨rfl, by omega, by omega, ?_, by omega⟩
  have bit : (q.minute + 2048 * q.band + 8192 * q.notify.toNat) / 2 ^ 13 % 2 = q.notify.toNat := by omega
  rw [spelt, Nat.testBit_eq_decide_div_mod_eq, bit]
  cases q.notify <;> rfl

/-! ### DELETE_TARIFF (R42) -/

section

variable {p : List Byte} {c : Calendar} {m : Mode} {l : Ledger} {t : TariffNo}

/-- No account names a tariff. -/
theorem naming_isEmpty_iff :
    (l.naming t).isEmpty = true ↔ ∀ i, (l.account i).state ≠ .free → (l.account i).tariff ≠ t := by
  simp [Ledger.naming, Account.names]

theorem deleteTariff_of_range (above : 15 < field 0 1 p) : deleteTariff p c m l = (l, refuse .outOfRange) := by
  simp [deleteTariff, tariffOf_of_above above]

theorem deleteTariff_of_index (names : field 0 1 p = t.val) :
    deleteTariff p c m l =
      if (l.tariff t).state = .empty then (l, refuse .noSuchTariff)
      else if ¬(l.naming t).isEmpty = true then (l, refuse .tariffInUse)
      else if (allSlots.any fun i => (l.account i).faultMark) = true then (l, refuse .faulted)
      else (Ledger.storeTariff t .empty { l with pool := freeOwned t [] l.pool }, okDone) := by
  simp [deleteTariff, names, tariffOf_val]

theorem any_marked_iff :
    (allSlots.any fun i => (l.account i).faultMark) = true ↔ ∃ i, (l.account i).faultMark = true := by
  simp

/-- The ledger that a deletion leaves: the tariff EMPTY, its entries free, the rest as it was. -/
theorem deleted_ledger (l : Ledger) (t : TariffNo) :
    let l' := Ledger.storeTariff t .empty { l with pool := freeOwned t [] l.pool }
    l' = { l with tariffs := l'.tariffs, pool := l'.pool } ∧ l'.tariff t = Tariff.empty ∧ (l'.tariff t).state = .empty ∧
      (∀ j, j ≠ t → l'.tariff j = l.tariff j) ∧
      ∀ k : Fin 128,
        (∀ o, l.pool[k.val].owner = some o → o.tariff = t → l'.pool[k.val] = PoolEntry.free) ∧
        ((∀ o, l.pool[k.val].owner = some o → o.tariff ≠ t) → l'.pool[k.val] = l.pool[k.val]) := by
  intro l'
  have here : l'.tariff t = Tariff.empty := Ledger.tariff_storeTariff_self ..
  refine ⟨rfl, here, by rw [here]; rfl, fun j other => (Ledger.tariff_storeTariff_ne _ _ (Ne.symm other)).trans (tariff_withPool ..), fun k => ⟨?own, ?other⟩⟩
  case own =>
    intro o owned own
    exact freeOwned_of_owned (by rw [owned, Option.map_some, own]) List.not_mem_nil
  case other =>
    intro other
    refine freeOwned_of_other fun same => ?_
    obtain ⟨o, owned, own⟩ := Option.map_eq_some_iff.mp same
    exact other o owned own

/-! ### READ_TARIFF (R43) -/

theorem readTariff_of_range (above : 15 < field 0 1 p) : readTariff p c m l = (l, refuse .outOfRange) := by
  simp [readTariff, tariffOf_of_above above]

theorem readTariff_of_empty (names : field 0 1 p = t.val) (empty : (l.tariff t).state = .empty) :
    readTariff p c m l = (l, refuse .noSuchTariff) := by
  simp [readTariff, names, tariffOf_val, empty]

/-- A tariff that is not READY once verified answers FAULTED. -/
theorem readTariff_of_unready {l' : Ledger} (names : field 0 1 p = t.val) (notEmpty : (l.tariff t).state ≠ .empty)
    (checked : l.checkTariff t = l') (unready : (l'.tariff t).state ≠ .ready) :
    readTariff p c m l = (l', refuse .faulted) := by
  simp only [readTariff, names, tariffOf_val, if_neg notEmpty, checked]
  split
  · next ready _ => exact absurd ready unready
  · rfl

/-- A READY tariff that verifies answers its count, its header and its points. -/
theorem readTariff_of_ready {work rest : List SwitchPoint} (names : field 0 1 p = t.val) (ready : l.ReadyTariff t)
    (reached : (l.tariff t).points l.pool t = some (work, rest)) :
    readTariff p c m l = (l, okWith (byte (l.naming t).length :: (l.tariff t).image work rest)) := by
  simp only [readTariff, names, tariffOf_val, checkTariff_of_readyTariff ready, ready.1, reached]
  exact if_neg nofun

/-- The in-use count. -/
theorem length_naming :
    (l.naming t).length =
      allSlots.countP fun i => (l.account i).state != .free && (l.account i).tariff == t := by
  rw [List.countP_eq_length_filter]
  rfl

end

/-- Settles O20: the two requests check by check, the ledger that a deletion leaves, and the layouts part by part. -/
theorem tariffsAreDeletedAndRead : Obligations.TariffsAreDeletedAndRead := by
  refine ⟨headerLayout, pointLayout, ⟨rfl, rfl, rfl, rfl⟩, fun s p above => ⟨fun issues => ?deleteRange, fun issues => ?readRange⟩,
    fun s p t granted names empty => ?deleteEmpty, fun s p t granted names notEmpty => ?delete, fun s p t granted names => ?read⟩
  case deleteRange => exact exec_of_refusal (work := deleteTariff) rfl issues (deleteTariff_of_range above) rfl
  case readRange => exact exec_of_refusal (work := readTariff) rfl issues (readTariff_of_range above) rfl
  case deleteEmpty =>
    exact exec_of_work (work := deleteTariff) rfl granted ((deleteTariff_of_index names).trans (if_pos empty)) rfl
  case delete =>
    have worked := deleteTariff_of_index (c := s.calendar) (m := s.mode) (l := s.ledger) names
    rw [if_neg notEmpty] at worked
    have answers {l : Ledger} {a : Answer} :=
      exec_of_work (work := deleteTariff) (c := .deleteTariff) (l := l) (a := a) rfl granted
    refine ⟨fun unnamed marked => answers ?faulted rfl, fun unnamed unmarked => ?deleted, fun ⟨i, notFree, same⟩ => answers ?named rfl⟩
    case faulted =>
      rw [worked, if_neg (not_not_intro (naming_isEmpty_iff.mpr unnamed)), if_pos (any_marked_iff.mpr marked)]
    case deleted =>
      have none : ¬(allSlots.any fun i => (s.ledger.account i).faultMark) = true := fun any => by
        obtain ⟨i, mark⟩ := any_marked_iff.mp any
        rw [unmarked i] at mark
        cases mark
      rw [if_neg (not_not_intro (naming_isEmpty_iff.mpr unnamed)), if_neg none] at worked
      exact ⟨_, answers worked rfl, deleted_ledger s.ledger t⟩
    case named =>
      rw [worked, if_pos (mt naming_isEmpty_iff.mp fun unnamed => unnamed i notFree same)]
  case read =>
    have answers {l : Ledger} {a : Answer} :=
      exec_of_work (work := readTariff) (c := .readTariff) (l := l) (a := a) rfl granted
    refine ⟨fun work rest ready reached => answers ?ready rfl, fun empty => answers (readTariff_of_empty names empty) rfl,
      fun mark => answers ?marked rfl, fun failing notEmpty => answers ?failing rfl⟩
    case ready =>
      rw [readTariff_of_ready names ready reached, length_naming]
      rfl
    case marked =>
      have notEmpty : (s.ledger.tariff t).state ≠ .empty := by simp [Tariff.state, mark]
      exact readTariff_of_unready names notEmpty (Ledger.checkTariff_of_sound (.inl mark)) (tariff_ne_ready_of_mark mark)
    case failing =>
      exact readTariff_of_unready names notEmpty (checkTariff_of_failingTariff failing) (withTariffMarked_ne_ready t _)

end Sys2Proof.Machine.TariffRequests
end

section
/-! WRITE_TARIFF (R33, R34, R40, R41): the parameters that it reads, the lists that are valid, its refusals in their order,
and the ledger that a write leaves. -/

namespace Sys2Proof.Machine.TariffWrites

open Sys2Proof Sys2Proof.Machine
open Sys2Proof.Machine.PeriodSettlement Sys2Proof.Machine.RequestRules Sys2Proof.Machine.AccountTable
open Sys2Proof.Machine.SwitchPool Sys2Proof.Machine.CheckWords Sys2Proof.Machine.TariffRequests

/-! ### Codes (Table 11-1) -/

theorem evaluation_of_code {n : Nat} {e : Evaluation} (named : Evaluation.ofCode n = some e) : e.code = n := by
  rw [Evaluation.ofCode.eq_def] at named
  split at named <;> cases named <;> rfl

theorem evaluation_named {n : Nat} (inside : n ≤ 1) : ∃ e, Evaluation.ofCode n = some e := by
  obtain rfl | rfl : n = 0 ∨ n = 1 := by omega
  · exact ⟨_, rfl⟩
  · exact ⟨_, rfl⟩

theorem quantity_of_code {n : Nat} {e : DemandQuantity} (named : DemandQuantity.ofCode n = some e) : e.code = n := by
  rw [DemandQuantity.ofCode.eq_def] at named
  split at named <;> cases named <;> rfl

theorem quantity_named {n : Nat} (inside : n ≤ 1) : ∃ e, DemandQuantity.ofCode n = some e := by
  obtain rfl | rfl : n = 0 ∨ n = 1 := by omega
  · exact ⟨_, rfl⟩
  · exact ⟨_, rfl⟩

theorem leadPolicy_of_code {n : Nat} {e : LeadPolicy} (named : LeadPolicy.ofCode n = some e) : e.code = n := by
  rw [LeadPolicy.ofCode.eq_def] at named
  split at named <;> cases named <;> rfl

theorem leadPolicy_named {n : Nat} (inside : n ≤ 2) : ∃ e, LeadPolicy.ofCode n = some e := by
  obtain rfl | rfl | rfl : n = 0 ∨ n = 1 ∨ n = 2 := by omega
  · exact ⟨_, rfl⟩
  · exact ⟨_, rfl⟩
  · exact ⟨_, rfl⟩

theorem incompletePolicy_of_code {n : Nat} {e : IncompletePolicy} (named : IncompletePolicy.ofCode n = some e) :
    e.code = n := by
  rw [IncompletePolicy.ofCode.eq_def] at named
  split at named <;> cases named <;> rfl

theorem incompletePolicy_named {n : Nat} (inside : n ≤ 1) : ∃ e, IncompletePolicy.ofCode n = some e := by
  obtain rfl | rfl : n = 0 ∨ n = 1 := by omega
  · exact ⟨_, rfl⟩
  · exact ⟨_, rfl⟩

theorem tariffOf_eq_some_iff {n : Nat} {t : TariffNo} : tariffOf n = some t ↔ n = t.val := by
  constructor
  · intro named
    rw [tariffOf] at named
    split at named
    · cases named; rfl
    · cases named
  · intro same
    rw [same, tariffOf_val]

theorem bandOf_eq_some {n : Nat} {b : Band} (named : bandOf n = some b) : b.val = n := by
  rw [bandOf] at named
  split at named
  · cases named; rfl
  · cases named

/-! ### The parameters (R40, step 1) -/

/-- The ranges of a WRITE_TARIFF. -/
def WriteInRange (p : List Byte) : Prop :=
  field 0 1 p ≤ 15 ∧ field 3 1 p ≤ 1 ∧ 1 ≤ field 4 1 p ∧ field 4 1 p ≤ 12 ∧ field 5 1 p ≤ 1 ∧ 1 ≤ field 6 1 p ∧
    field 6 1 p ≤ 4 ∧ field 7 1 p ≤ 100 ∧ field 8 1 p < field 6 1 p ∧ field 9 2 p ≤ 2000 ∧ field 11 1 p ≤ 2 ∧
    field 12 1 p ≤ 1

/-- What the parameters in range give. -/
structure Carries (p : List Byte) (w : TariffWrite) : Prop where
  index : w.index.val = field 0 1 p
  id : w.header.id = field 1 2 p
  evaluation : w.header.evaluation.code = field 3 1 p
  n : w.header.n = field 4 1 p
  quantity : w.header.quantity.code = field 5 1 p
  bandCount : w.header.bandCount = field 6 1 p
  ratchetPercent : w.header.ratchetPercent = field 7 1 p
  ratchetBand : w.header.ratchetBand.val = field 8 1 p
  allowance : w.header.allowance = field 9 2 p
  leadPolicy : w.header.leadPolicy.code = field 11 1 p
  incompletePolicy : w.header.incompletePolicy.code = field 12 1 p
  weekMask : w.header.weekMask.toNat = field 13 1 p % 128
  workCount : w.header.workCount = field 14 1 p
  restCount : w.header.restCount = field 15 1 p
  unmarked : w.header.faultMark = false
  work : w.work = readPoints (field 14 1 p) (p.drop 16)
  rest : w.rest = readPoints (field 15 1 p) (p.drop (16 + 2 * field 14 1 p))

section

variable {p : List Byte} {w : TariffWrite}

theorem evaluationCode_le (e : Evaluation) : e.code ≤ 1 := by cases e <;> decide

theorem quantityCode_le (e : DemandQuantity) : e.code ≤ 1 := by cases e <;> decide

theorem leadPolicyCode_le (e : LeadPolicy) : e.code ≤ 2 := by cases e <;> decide

theorem incompletePolicyCode_le (e : IncompletePolicy) : e.code ≤ 1 := by cases e <;> decide

/-- Parameters that are read are in range, and give this. -/
theorem carries_of_write (written : TariffWrite.ofBytes p = some w) : WriteInRange p ∧ Carries p w := by
  rw [TariffWrite.ofBytes] at written
  split at written
  · next index evaluation quantity band lead incomplete atIndex atEvaluation atQuantity atBand atLead atIncomplete =>
    split at written
    · next ranges =>
      obtain ⟨nLow, nHigh, bandsLow, bandsHigh, percent, ratchet, allowance⟩ := ranges
      obtain rfl := Option.some.inj written
      have indexIs := tariffOf_eq_some_iff.mp atIndex
      have evaluationIs := evaluation_of_code atEvaluation
      have quantityIs := quantity_of_code atQuantity
      have leadIs := leadPolicy_of_code atLead
      have incompleteIs := incompletePolicy_of_code atIncomplete
      have indexLt := index.isLt
      refine ⟨⟨by omega, evaluationIs ▸ evaluationCode_le _, nLow, nHigh, quantityIs ▸ quantityCode_le _, bandsLow, bandsHigh,
        percent, ratchet, allowance, leadIs ▸ leadPolicyCode_le _, incompleteIs ▸ incompletePolicyCode_le _⟩, ?_⟩
      exact
        { index := indexIs.symm, id := rfl, evaluation := evaluationIs, n := rfl, quantity := quantityIs, bandCount := rfl,
          ratchetPercent := rfl, ratchetBand := bandOf_eq_some atBand, allowance := rfl, leadPolicy := leadIs,
          incompletePolicy := incompleteIs, weekMask := BitVec.toNat_ofNat .., workCount := rfl, restCount := rfl,
          unmarked := rfl, work := rfl, rest := rfl }
    · cases written
  · cases written

/-- Parameters in range are read. -/
theorem write_of_inRange (inRange : WriteInRange p) : ∃ w, TariffWrite.ofBytes p = some w := by
  obtain ⟨index, evaluation, nLow, nHigh, quantity, bandsLow, bandsHigh, percent, ratchet, allowance, lead, incomplete⟩ := inRange
  obtain ⟨e, atEvaluation⟩ := evaluation_named evaluation
  obtain ⟨q, atQuantity⟩ := quantity_named quantity
  obtain ⟨d, atLead⟩ := leadPolicy_named lead
  obtain ⟨x, atIncomplete⟩ := incompletePolicy_named incomplete
  have atIndex : tariffOf (field 0 1 p) = some ⟨field 0 1 p, by omega⟩ := dif_pos _
  have atBand : bandOf (field 8 1 p) = some ⟨field 8 1 p, by omega⟩ := dif_pos _
  rw [TariffWrite.ofBytes, atIndex, atEvaluation, atQuantity, atBand, atLead, atIncomplete]
  exact ⟨_, if_pos ⟨nLow, nHigh, bandsLow, bandsHigh, percent, ratchet, allowance⟩⟩

theorem write_eq_none_iff : TariffWrite.ofBytes p = none ↔ ¬WriteInRange p := by
  constructor
  · intro none inRange
    obtain ⟨w, some⟩ := write_of_inRange inRange
    rw [none] at some
    cases some
  · intro outside
    cases written : TariffWrite.ofBytes p with
    | none => rfl
    | some w => exact absurd (carries_of_write written).1 outside

/-- The points of a list, one after the other. -/
theorem getElem?_readPoints {count k : Nat} {bytes : List Byte} {q : SwitchPoint} (present : (readPoints count bytes)[k]? = some q) :
    q = SwitchPoint.ofNat (field (2 * k) 2 bytes) := by
  induction count generalizing k bytes with
  | zero => cases present
  | succ count ih =>
    cases k with
    | zero => exact (Option.some.inj present).symm
    | succ k =>
      have further := ih (k := k) present
      have moved : field (2 * k) 2 (bytes.drop 2) = field (2 * (k + 1)) 2 bytes := by
        rw [field, field, List.drop_drop, Nat.add_comm 2 (2 * k)]
        rfl
      rw [further, moved]

theorem field_drop (start offset width : Nat) (bytes : List Byte) :
    field offset width (bytes.drop start) = field (start + offset) width bytes := by
  rw [field, field, List.drop_drop]

/-- The three fields of a point, from its number (R204). -/
theorem point_ofNat (v : Nat) :
    (SwitchPoint.ofNat v).minute = v % 2048 ∧ (SwitchPoint.ofNat v).band.val = v / 2048 % 4 ∧
      (SwitchPoint.ofNat v).notify = v.testBit 13 := by
  refine ⟨rfl, rfl, ?_⟩
  rw [Nat.testBit_eq_decide_div_mod_eq]
  rfl

end

/-! ### Valid lists (R34) -/

/-- The minutes of a list increase from point to point exactly when each is below every later one. -/
theorem increasing_iff (points : List SwitchPoint) :
    increasing points = true ↔ points.Pairwise fun q r => q.minute < r.minute := by
  induction points with
  | nil => simp [increasing]
  | cons a rest ih =>
    cases rest with
    | nil => simp [increasing]
    | cons b further =>
      rw [increasing, Bool.and_eq_true, decide_eq_true_eq, ih, List.pairwise_cons (a := a)]
      refine and_congr_left fun ascends => ⟨fun below q mem => ?_, fun all => all b List.mem_cons_self⟩
      rcases List.mem_cons.mp mem with rfl | later
      · exact below
      · exact Nat.lt_trans below ((List.pairwise_cons.mp ascends).1 q later)

theorem validList_iff (bandCount : Nat) (points : List SwitchPoint) :
    validList bandCount points = true ↔
      1 ≤ points.length ∧ points.length ≤ 16 ∧ (∀ q, points[0]? = some q → q.minute = 0) ∧
        (∀ q ∈ points, q.minute ≤ 1439 ∧ q.band.val < bandCount) ∧ points.Pairwise fun q r => q.minute < r.minute := by
  cases points with
  | nil => simp [validList]
  | cons a rest => simp [validList, increasing_iff, and_assoc]

end Sys2Proof.Machine.TariffWrites
end

section
/-! WRITE_TARIFF carried out (R33, R41, R139): its refusals in their order, the accounts renewed one by one, the chains in
the pool, and the Settlement Engine's list after a repair. -/

namespace Sys2Proof.Machine.TariffWrites

open Sys2Proof Sys2Proof.Machine
open Sys2Proof.Machine.PeriodSettlement Sys2Proof.Machine.RequestRules Sys2Proof.Machine.AccountTable
open Sys2Proof.Machine.SwitchPool Sys2Proof.Machine.CheckWords Sys2Proof.Machine.TariffRequests
open Sys2Proof.Machine.Ownership

/-! ### The checks in their order (R40) -/

section

variable {p : List Byte} {c : Calendar} {m : Mode} {l : Ledger} {w : TariffWrite}

/-- Both lists of a write are valid. -/
def ValidLists (w : TariffWrite) : Prop :=
  validList w.header.bandCount w.work = true ∧ validList w.header.bandCount w.rest = true

/-- N × S divides 1440 under BLOCK. -/
def Fits (w : TariffWrite) (c : Calendar) : Prop :=
  w.header.evaluation = .block → 1440 % (w.header.n * c.params.subinterval) = 0

/-- A READY tariff that an account names is not written in RUN. -/
def InUse (w : TariffWrite) (mode : Mode) (l : Ledger) : Prop :=
  mode = .run ∧ ((l.checkTariff w.index).tariff w.index).state = .ready ∧
    ∃ i, (l.account i).state ≠ .free ∧ (l.account i).tariff = w.index

theorem writeTariff_of_range (none : TariffWrite.ofBytes p = none) : writeTariff p c m l = (l, refuse .outOfRange) := by
  rw [writeTariff, none]

theorem writeTariff_of_invalid (written : TariffWrite.ofBytes p = some w) (invalid : ¬ValidLists w) :
    writeTariff p c m l = (l, refuse .badSwitchList) := by
  have either : (validList w.header.bandCount w.work && validList w.header.bandCount w.rest) = false := by
    rw [← Bool.not_eq_true, Bool.and_eq_true]
    exact invalid
  simp [writeTariff, written, either]

theorem writeTariff_of_misfit (written : TariffWrite.ofBytes p = some w) (valid : ValidLists w) (misfit : ¬Fits w c) :
    writeTariff p c m l = (l, refuse .outOfRange) := by
  have block : w.header.evaluation = .block := Decidable.byContradiction fun other => misfit fun block => absurd block other
  have left : blockFits w.header.n c.params.subinterval = false := by
    rw [blockFits, decide_eq_false_iff_not]
    exact fun divides => misfit fun _ => divides
  simp [writeTariff, written, valid.1, valid.2, block, left]

/-- With its parameters good, the tariff is verified, and its use and the room in the pool decide. -/
theorem writeTariff_of_good (written : TariffWrite.ofBytes p = some w) (valid : ValidLists w) (fits : Fits w c) :
    writeTariff p c m l =
      let l := l.checkTariff w.index
      if (l.tariff w.index).state = .ready ∧ m = .run ∧ ¬(l.naming w.index).isEmpty = true then (l, refuse .tariffInUse)
      else if (freeEntries l.pool).length < w.work.length + w.rest.length then (l, refuse .poolExhausted)
      else (carryOutWrite w ((l.tariff w.index).state == .faulted) l, okDone) := by
  have fine : (decide (w.header.evaluation = .block) && !blockFits w.header.n c.params.subinterval) = false := by
    by_cases block : w.header.evaluation = .block
    · simp [block, blockFits, fits block]
    · simp [block]
  simp [writeTariff, written, valid.1, valid.2, fine, and_assoc]

/-- The accounts are named before and after the verification of the tariff alike. -/
theorem inUse_iff :
    InUse w m l ↔ ((l.checkTariff w.index).tariff w.index).state = .ready ∧ m = .run ∧
      ¬((l.checkTariff w.index).naming w.index).isEmpty = true := by
  have account (i : Slot) : (l.checkTariff w.index).account i = l.account i := by
    rw [Ledger.account, Ledger.checkTariff_accounts]
    rfl
  rw [InUse, naming_isEmpty_iff]
  simp only [account, Classical.not_forall, Decidable.not_not, exists_prop]
  exact ⟨fun ⟨run, ready, named⟩ => ⟨ready, run, named⟩, fun ⟨ready, run, named⟩ => ⟨run, ready, named⟩⟩

theorem writeTariff_of_inUse (written : TariffWrite.ofBytes p = some w) (valid : ValidLists w) (fits : Fits w c)
    (inUse : InUse w m l) : writeTariff p c m l = (l.checkTariff w.index, refuse .tariffInUse) :=
  (writeTariff_of_good written valid fits).trans (if_pos (inUse_iff.mp inUse))

theorem writeTariff_of_exhausted (written : TariffWrite.ofBytes p = some w) (valid : ValidLists w) (fits : Fits w c)
    (unused : ¬InUse w m l) (full : (freeEntries l.pool).length < w.work.length + w.rest.length) :
    writeTariff p c m l = (l.checkTariff w.index, refuse .poolExhausted) := by
  rw [writeTariff_of_good written valid fits]
  dsimp only
  rw [if_neg (mt inUse_iff.mpr unused), Ledger.checkTariff_pool, if_pos full]

/-- A tariff needs repair when it is marked, or fails here. -/
def needsRepair (t : TariffNo) (l : Ledger) : Bool := (l.tariff t).faultMark || !(l.tariff t).checks l.pool t

theorem state_checkTariff_faulted (t : TariffNo) (l : Ledger) :
    (((l.checkTariff t).tariff t).state == .faulted) = needsRepair t l := by
  rw [needsRepair]
  cases mark : (l.tariff t).faultMark with
  | true =>
    rw [Ledger.checkTariff_of_sound (.inl mark)]
    simp [Tariff.state, mark]
  | false =>
    cases checks : (l.tariff t).checks l.pool t with
    | true =>
      rw [Ledger.checkTariff_of_sound (.inr checks), Tariff.state, mark]
      simp only [Bool.false_eq_true, if_false]
      split <;> rfl
    | false =>
      rw [checkTariff_of_failingTariff ⟨mark, checks⟩]
      simp [Ledger.withTariffMarked, Tariff.state]

theorem writeTariff_of_passed (written : TariffWrite.ofBytes p = some w) (valid : ValidLists w) (fits : Fits w c)
    (unused : ¬InUse w m l) (room : w.work.length + w.rest.length ≤ (freeEntries l.pool).length) :
    writeTariff p c m l = (carryOutWrite w (needsRepair w.index l) (l.checkTariff w.index), okDone) := by
  rw [writeTariff_of_good written valid fits]
  dsimp only
  rw [if_neg (mt inUse_iff.mpr unused), Ledger.checkTariff_pool, if_neg (Nat.not_lt.mpr room), state_checkTariff_faulted]

end

/-! ### The accounts renewed (R41, step 4) -/

section

variable {t : TariffNo} {bandCount : Nat} {repair : Bool} {i j : Slot} {l : Ledger}

/-- What the renewal makes of an account. -/
def renewed (t : TariffNo) (bandCount : Nat) (a : Account) : Account :=
  if a.faultMark || !a.names t then a
  else if a.checks then (a.underNewTariff bandCount).seal
  else { a with faultMark := true }

/-- An unmarked account that names a tariff is not FREE. -/
theorem phase_of_names {a : Account} (unmarked : a.faultMark = false) (names : a.names t = true) :
    a.phase ≠ .free ∧ a.tariff = t := by
  rw [Account.names, Bool.and_eq_true, bne_iff_ne, beq_iff_eq] at names
  exact ⟨mt (state_eq_free_iff unmarked).mpr names.1, names.2⟩

theorem names_of_phase {a : Account} (unmarked : a.faultMark = false) (notFree : a.phase ≠ .free) (own : a.tariff = t) :
    a.names t = true := by
  rw [Account.names, Bool.and_eq_true, bne_iff_ne, beq_iff_eq]
  exact ⟨mt (state_eq_free_iff unmarked).mp notFree, own⟩

/-- An account that is marked or names another tariff is left. -/
theorem renewAccount_of_other (other : ((l.account i).faultMark || !(l.account i).names t) = true) :
    renewAccount t bandCount repair i l = l := by
  rw [renewAccount]
  exact if_pos other

/-- One that fails is marked. -/
theorem renewAccount_of_failing (unmarked : (l.account i).faultMark = false) (names : (l.account i).names t = true)
    (fails : (l.account i).checks = false) : renewAccount t bandCount repair i l = l.withAccountMarked i := by
  have failing : l.FailingAccount i := ⟨unmarked, (phase_of_names unmarked names).1, fails⟩
  have marked : ((l.withAccountMarked i).account i).faultMark = true := by simp [Ledger.withAccountMarked]
  simp [renewAccount, unmarked, names, checkAccount_of_failingAccount failing, marked]

/-- A sound one is written, and handed over after a repair when it bills and has a due. -/
theorem renewAccount_of_sound (sound : l.SoundAccount i) (names : (l.account i).names t = true) :
    renewAccount t bandCount repair i l =
      let l' := l.putAccount i ((l.account i).underNewTariff bandCount)
      if repair && (l'.account i).bills then l'.handIfDue i else l' := by
  simp [renewAccount, sound.1, names, checkAccount_of_soundAccount sound]

theorem account_renewAccount (i j : Slot) (l : Ledger) :
    (renewAccount t bandCount repair i l).account j = if i = j then renewed t bandCount (l.account i) else l.account j := by
  rw [renewed]
  by_cases other : ((l.account i).faultMark || !(l.account i).names t) = true
  · rw [renewAccount_of_other other, if_pos other]
    split
    · next same => rw [same]
    · rfl
  · rw [if_neg other]
    rw [Bool.or_eq_true, not_or, Bool.not_eq_true, Bool.not_eq_true, Bool.not_eq_false'] at other
    obtain ⟨unmarked, names⟩ := other
    cases checks : (l.account i).checks with
    | true =>
      rw [renewAccount_of_sound ⟨unmarked, checks⟩ names]
      dsimp only
      split
      · rw [account_handIfDue, Ledger.putAccount, Ledger.account_storeAccount, if_pos rfl]
      · rw [Ledger.putAccount, Ledger.account_storeAccount, if_pos rfl]
    | false =>
      rw [renewAccount_of_failing unmarked names checks, Ledger.withAccountMarked, Ledger.account_raise,
        Ledger.account_storeAccount]
      rfl

/-- All accounts renewed, each once. -/
theorem account_renewAccounts (j : Slot) (l : Ledger) :
    (eachOf allSlots (renewAccount t bandCount repair) l).account j = renewed t bandCount (l.account j) := by
  have pointwise := eachOf_pointwise (fun i (l : Ledger) => l.account i) (act := renewAccount t bandCount repair)
    (fun i j l different => by rw [account_renewAccount, if_neg different])
    (fun i l l' same => by rw [account_renewAccount, account_renewAccount, if_pos rfl, if_pos rfl, same]) allSlots_nodup j l
  rw [pointwise, if_pos (mem_allSlots j), account_renewAccount, if_pos rfl]

/-- The renewal touches no intake. -/
theorem intakes_renewAccount (i : Slot) (l : Ledger) : (renewAccount t bandCount repair i l).intakes = l.intakes := by
  have handed (m : Ledger) : (m.handIfDue i).intakes = m.intakes := by
    rw [Ledger.handIfDue]
    split
    · rcases m.handToSettlement_cases i with same | handed
      · rw [same]
      · rw [handed]
    · rfl
  simp only [renewAccount]
  split
  · rfl
  · split
    · exact l.checkAccount_intakes i
    · split
      · rw [handed]
        exact l.checkAccount_intakes i
      · exact l.checkAccount_intakes i

/-- An account neither marked nor failing stays so. -/
theorem renewed_settled {a : Account} (settled : a.faultMark = true ∨ a.checks = true) :
    (renewed t bandCount a).faultMark = true ∨ (renewed t bandCount a).checks = true := by
  rw [renewed]
  split
  · exact settled
  · split
    · exact .inr (Account.checks_seal _)
    · exact .inl rfl

/-- Without a failing account the renewal raises nothing. -/
theorem attention_renewAccount (settled : (l.account i).faultMark = true ∨ (l.account i).checks = true) :
    (renewAccount t bandCount repair i l).attention = l.attention := by
  by_cases other : ((l.account i).faultMark || !(l.account i).names t) = true
  · rw [renewAccount_of_other other]
  · rw [Bool.or_eq_true, not_or, Bool.not_eq_true, Bool.not_eq_true, Bool.not_eq_false'] at other
    obtain ⟨unmarked, names⟩ := other
    have checks : (l.account i).checks = true := settled.resolve_left (by rw [unmarked]; nofun)
    rw [renewAccount_of_sound ⟨unmarked, checks⟩ names]
    dsimp only
    split
    · rw [Ledger.handIfDue]
      split
      · rcases (l.putAccount i ((l.account i).underNewTariff bandCount)).handToSettlement_cases i with same | handed
        · rw [same]; rfl
        · rw [handed]; rfl
      · rfl
    · rfl

theorem attention_renewAccounts (settled : l.AccountsSettled) :
    (eachOf allSlots (renewAccount t bandCount repair) l).attention = l.attention := by
  refine (eachOf_keeps (fun m => m.attention = l.attention ∧ m.AccountsSettled) (fun i _ m kept => ?_)
    ⟨rfl, settled⟩).1
  obtain ⟨same, settled⟩ := kept
  refine ⟨(attention_renewAccount (settled i)).trans same, fun j => ?_⟩
  rw [account_renewAccount]
  split
  · exact renewed_settled (settled i)
  · exact settled j

/-- The accounts that a repair hands over (R139). -/
def handedOver (t : TariffNo) (closeWork : List Slot) (a : Account) (i : Slot) : Bool :=
  a.bills && a.tariff == t && a.checks && a.closeDue.isSome && !closeWork.contains i

theorem handedOver_of_listed {listed closeWork : List Slot} {a : Account} (same : listed.contains i = closeWork.contains i) :
    handedOver t listed a i = handedOver t closeWork a i := by
  rw [handedOver, handedOver, same]

/-- An account under its new tariff bills, and has its due, as before. -/
theorem bills_underNewTariff (a : Account) : (a.underNewTariff bandCount).bills = a.bills := by
  rw [Account.underNewTariff]
  cases bills : a.bills <;> exact bills

theorem closeDue_underNewTariff (a : Account) : (a.underNewTariff bandCount).closeDue = a.closeDue := by
  rw [Account.underNewTariff]
  cases a.bills <;> rfl

theorem closeWork_handIfDue (i : Slot) (l : Ledger) :
    (l.handIfDue i).closeWork =
      l.closeWork ++ (if (l.account i).closeDue.isSome && !l.closeWork.contains i then [i] else []) := by
  rw [Ledger.handIfDue]
  cases (l.account i).closeDue.isSome with
  | false => simp
  | true =>
    rw [if_pos rfl, Ledger.handToSettlement]
    by_cases mem : i ∈ l.closeWork
    · simp [mem]
    · simp [mem]

/-- A billing account is unmarked, and names its tariff. -/
theorem unmarked_of_bills {a : Account} (bills : a.bills = true) : a.faultMark = false :=
  (Bool.not_eq_true _).mp fun mark => by rw [bills_of_mark mark] at bills; cases bills

theorem closeWork_renewAccount (i : Slot) (l : Ledger) :
    (renewAccount t bandCount repair i l).closeWork =
      l.closeWork ++ (if repair && handedOver t l.closeWork (l.account i) i then [i] else []) := by
  by_cases other : ((l.account i).faultMark || !(l.account i).names t) = true
  · have not : handedOver t l.closeWork (l.account i) i = false := by
      rw [handedOver]
      cases bills : (l.account i).bills with
      | false => rfl
      | true =>
        have unmarked := unmarked_of_bills bills
        have notFree := (phase_of_bills bills).1
        rw [unmarked, Bool.false_or, Bool.not_eq_true'] at other
        have apart : ((l.account i).tariff == t) = false := by
          rw [beq_eq_false_iff_ne]
          intro own
          rw [names_of_phase unmarked notFree own] at other
          cases other
        rw [apart]
        rfl
    rw [renewAccount_of_other other, not, Bool.and_false]
    simp
  · rw [Bool.or_eq_true, not_or, Bool.not_eq_true, Bool.not_eq_true, Bool.not_eq_false'] at other
    obtain ⟨unmarked, names⟩ := other
    have own := (phase_of_names unmarked names).2
    cases checks : (l.account i).checks with
    | false =>
      rw [renewAccount_of_failing unmarked names checks]
      simp [handedOver, checks, Ledger.withAccountMarked]
    | true =>
      have bills : ((l.putAccount i ((l.account i).underNewTariff bandCount)).account i).bills = (l.account i).bills := by
        rw [Ledger.account_putAccount_self, RecordEdits.bills_seal, bills_underNewTariff]
      have due : ((l.account i).underNewTariff bandCount).seal.closeDue = (l.account i).closeDue := closeDue_underNewTariff _
      rw [renewAccount_of_sound ⟨unmarked, checks⟩ names]
      dsimp only
      rw [bills, handedOver, own, checks]
      cases repair with
      | false => simp
      | true =>
        cases (l.account i).bills with
        | false => simp
        | true => simp [closeWork_handIfDue, due]

/-- The accounts that a repair hands over stand behind the list, in ascending order (log 17). -/
theorem closeWork_eachOf_renewAccount {numbers : List Slot} (once : numbers.Nodup) (l : Ledger) :
    (eachOf numbers (renewAccount t bandCount repair) l).closeWork =
      l.closeWork ++
        (if repair then numbers.filter fun i => handedOver t l.closeWork (l.account i) i else []) := by
  induction numbers generalizing l with
  | nil => simp
  | cons i rest ih =>
    obtain ⟨apart, once⟩ := List.nodup_cons.mp once
    rw [eachOf_cons, ih once, closeWork_renewAccount]
    have same : ∀ j ∈ rest,
        handedOver t (l.closeWork ++ if (repair && handedOver t l.closeWork (l.account i) i) = true then [i] else [])
          ((renewAccount t bandCount repair i l).account j) j = handedOver t l.closeWork (l.account j) j := by
      intro j mem
      have different : i ≠ j := fun same => apart (same ▸ mem)
      have unlisted : (l.closeWork ++ if (repair && handedOver t l.closeWork (l.account i) i) = true then [i] else []).contains j =
          l.closeWork.contains j := by
        split <;> simp [Ne.symm different]
      rw [account_renewAccount, if_neg different, handedOver_of_listed unlisted]
    rw [List.filter_congr same, List.append_assoc]
    congr 1
    cases repair with
    | false => simp
    | true =>
      rw [Bool.true_and, if_pos rfl, if_pos rfl, List.filter_cons]
      split <;> rfl

end

end Sys2Proof.Machine.TariffWrites
end

section
/-! The ledger that a WRITE_TARIFF leaves (R33, R41): the tariff, its two chains entry by entry, the rest of the pool, the
accounts that name it and the Settlement Engine's list. -/

namespace Sys2Proof.Machine.TariffWrites

open Sys2Proof Sys2Proof.Machine
open Sys2Proof.Machine.PeriodSettlement Sys2Proof.Machine.RequestRules Sys2Proof.Machine.AccountTable
open Sys2Proof.Machine.SwitchPool Sys2Proof.Machine.CheckWords Sys2Proof.Machine.TariffRequests

/-! ### The entries of a chain -/

section

variable {owner : PoolOwner} {pool : Pool} {chain : List (Fin 128 × SwitchPoint)} {k : Nat} {e : Fin 128} {q : SwitchPoint}

/-- An entry of a chain carries its point and names the next entry. -/
theorem entry_of_chained (chained : Chained owner pool chain) (present : chain[k]? = some (e, q)) :
    pool[e.val] = { point := q, next := chain[k + 1]?.map (·.1.val), owner := some owner } := by
  induction chain generalizing k with
  | nil => cases present
  | cons first rest ih =>
    obtain ⟨entry, point⟩ := first
    obtain ⟨here, further⟩ := chained
    cases k with
    | zero =>
      obtain ⟨rfl, rfl⟩ := Prod.mk.inj (Option.some.inj present)
      rw [here, entryOf, List.head?_eq_getElem?]
      rfl
    | succ k => exact ih further present

/-- The entries of a chain over as many entries as points. -/
theorem entry_of_zip {entries : List (Fin 128)} {points : List SwitchPoint} (same : entries.length = points.length)
    (chained : Chained owner pool (entries.zip points)) (point : points[k]? = some q) (entry : entries[k]? = some e) :
    pool[e.val] =
      { point := q, next := if k + 1 < points.length then entries[k + 1]?.map (·.val) else none, owner := some owner } := by
  have next : (entries.zip points)[k + 1]?.map (·.1.val) = entries[k + 1]?.map (·.val) := by
    have fst : (entries.zip points).map (·.1) = entries := List.map_fst_zip (Nat.le_of_eq same)
    have listed : ((entries.zip points).map (·.1))[k + 1]?.map (·.val) = entries[k + 1]?.map (·.val) := by rw [fst]
    rw [List.getElem?_map, Option.map_map] at listed
    exact listed
  rw [entry_of_chained chained (List.getElem?_zip_eq_some.mpr ⟨entry, point⟩), next]
  split
  · rfl
  · rw [List.getElem?_eq_none (by omega)]
    rfl

end

section

variable {w : TariffWrite} {pool : Pool}

/-- The working-day points stand in the lowest free entries (R33). -/
theorem work_entry (room : w.work.length + w.rest.length ≤ (freeEntries pool).length) {k : Nat} {q : SwitchPoint} {e : Fin 128}
    (point : w.work[k]? = some q) (entry : (freeEntries pool)[k]? = some e) :
    (poolWritten w pool)[e.val] =
      { point := q, next := if k + 1 < w.work.length then (freeEntries pool)[k + 1]?.map (·.val) else none,
        owner := some { tariff := w.index, list := .working } } := by
  have inside : k < w.work.length := (List.getElem?_eq_some_iff.mp point).1
  have taken {j : Nat} (below : j < w.work.length) : (workEntries w pool)[j]? = (freeEntries pool)[j]? :=
    List.getElem?_take_of_lt below
  rw [entry_of_zip (length_workEntries room) (chained_work w pool) point ((taken inside).trans entry)]
  by_cases further : k + 1 < w.work.length
  · rw [if_pos further, if_pos further, taken further]
  · rw [if_neg further, if_neg further]

/-- The rest-day points stand in the next free entries (R33). -/
theorem rest_entry (room : w.work.length + w.rest.length ≤ (freeEntries pool).length) {k : Nat} {q : SwitchPoint} {e : Fin 128}
    (point : w.rest[k]? = some q) (entry : (freeEntries pool)[w.work.length + k]? = some e) :
    (poolWritten w pool)[e.val] =
      { point := q
        next := if k + 1 < w.rest.length then (freeEntries pool)[w.work.length + k + 1]?.map (·.val) else none
        owner := some { tariff := w.index, list := .rest } } := by
  have inside : k < w.rest.length := (List.getElem?_eq_some_iff.mp point).1
  have taken {j : Nat} (below : j < w.rest.length) :
      (restEntries w pool)[j]? = (freeEntries pool)[w.work.length + j]? := by
    rw [restEntries, List.getElem?_take_of_lt below, List.getElem?_drop]
  rw [entry_of_zip (length_restEntries room) (chained_rest w pool) point ((taken inside).trans entry)]
  by_cases further : k + 1 < w.rest.length
  · rw [if_pos further, if_pos further, taken further, Nat.add_assoc]
  · rw [if_neg further, if_neg further]

/-- Every other entry is freed when the tariff owned it, and stays when it did not (R33). -/
theorem other_entry {e : Fin 128} (untaken : e ∉ (freeEntries pool).take (w.work.length + w.rest.length)) :
    (poolWritten w pool)[e.val] =
      if pool[e.val].owner.map (·.tariff) = some w.index then PoolEntry.free else pool[e.val] := by
  rw [← workEntries_append_restEntries] at untaken
  cases owned : pool[e.val].owner with
  | none => exact (poolWritten_of_free owned untaken).trans (if_neg nofun).symm
  | some o =>
    by_cases own : o.tariff = w.index
    · rw [poolWritten_of_owned owned own, Option.map_some, own, if_pos rfl]
    · rw [poolWritten_of_other owned own]
      exact (if_neg fun same => own (Option.some.inj same)).symm

/-- The tariff that a write leaves: the header given, the heads of its chains and its check word. -/
theorem tariffWritten_eq (work : 1 ≤ w.work.length) (rest : 1 ≤ w.rest.length) :
    tariffWritten w pool =
      { w.header with
        workHead := (freeEntries pool)[0]?.map (·.val)
        restHead := (freeEntries pool)[w.work.length]?.map (·.val)
        checkWord := crc ((tariffWritten w pool).image w.work w.rest) } := by
  have workHead : (workEntries w pool).head? = (freeEntries pool)[0]? := by
    rw [workEntries, List.head?_eq_getElem?, List.getElem?_take_of_lt work]
  have restHead : (restEntries w pool).head? = (freeEntries pool)[w.work.length]? := by
    rw [restEntries, List.head?_eq_getElem?, List.getElem?_take_of_lt rest, List.getElem?_drop]
    rfl
  rw [← workHead, ← restHead]
  rfl

end

/-! ### The ledger -/

section

variable {w : TariffWrite} {repair : Bool} {l : Ledger} {p : List Byte}

theorem account_withPool (l : Ledger) (pool : Pool) (i : Slot) : ({ l with pool := pool } : Ledger).account i = l.account i := by
  simp only [Ledger.account]

/-- The ledger over whose accounts the renewal runs. -/
def placed (w : TariffWrite) (l : Ledger) : Ledger := { l with pool := poolWritten w l.pool }

theorem account_placed (i : Slot) : (placed w l).account i = l.account i := account_withPool l _ i

theorem carryOutWrite_placed (w : TariffWrite) (repair : Bool) (l : Ledger) :
    carryOutWrite w repair l =
      (eachOf allSlots (renewAccount w.index w.header.bandCount repair) (placed w l)).storeTariff w.index
        (tariffWritten w l.pool) := carryOutWrite_eq w repair l

theorem intakes_placed : (placed w l).intakes = l.intakes := by simp only [placed]

theorem closeWork_placed : (placed w l).closeWork = l.closeWork := by simp only [placed]

theorem attention_placed : (placed w l).attention = l.attention := by simp only [placed]

theorem intakes_renewAccounts {t : TariffNo} {bandCount : Nat} (l : Ledger) :
    (eachOf allSlots (renewAccount t bandCount repair) l).intakes = l.intakes :=
  eachOf_keeps_value (·.intakes) (fun i _ m => intakes_renewAccount i m) l

theorem intakes_carryOutWrite (w : TariffWrite) (repair : Bool) (l : Ledger) : (carryOutWrite w repair l).intakes = l.intakes := by
  rw [carryOutWrite_placed, Ledger.storeTariff_intakes, intakes_renewAccounts, intakes_placed]

theorem account_carryOutWrite (w : TariffWrite) (repair : Bool) (l : Ledger) (i : Slot) :
    (carryOutWrite w repair l).account i = renewed w.index w.header.bandCount (l.account i) := by
  rw [carryOutWrite_placed, Ledger.account, Ledger.storeTariff_accounts, ← Ledger.account, account_renewAccounts,
    account_placed]

theorem closeWork_carryOutWrite (w : TariffWrite) (repair : Bool) (l : Ledger) :
    (carryOutWrite w repair l).closeWork =
      l.closeWork ++
        (if repair then allSlots.filter fun i => handedOver w.index l.closeWork (l.account i) i else []) := by
  rw [carryOutWrite_placed, Ledger.storeTariff_closeWork, closeWork_eachOf_renewAccount allSlots_nodup,
    closeWork_placed]
  simp only [account_placed]

theorem attention_carryOutWrite (settled : l.AccountsSettled) : (carryOutWrite w repair l).attention = l.attention := by
  have settled' : (placed w l).AccountsSettled := fun i => by rw [account_placed]; exact settled i
  rw [carryOutWrite_placed, Ledger.storeTariff_attention, attention_renewAccounts settled', attention_placed]

/-- Without an account that names the tariff, none is renewed. -/
theorem renewAccounts_of_unnamed {t : TariffNo} {bandCount : Nat}
    (unnamed : ∀ i, (l.account i).state ≠ .free → (l.account i).tariff ≠ t) :
    eachOf allSlots (renewAccount t bandCount repair) l = l := by
  refine eachOf_keeps (fun m => m = l) (fun i _ m same => ?_) rfl
  have other : ((l.account i).faultMark || !(l.account i).names t) = true := by
    rw [Account.names]
    by_cases free : (l.account i).state = .free
    · simp [free]
    · simp [unnamed i free]
  rw [same, renewAccount_of_other other]

/-- While no account names the tariff, the pool and the tariff alone are written. -/
theorem carryOutWrite_of_unnamed (unnamed : ∀ i, (l.account i).state ≠ .free → (l.account i).tariff ≠ w.index) :
    carryOutWrite w repair l = (placed w l).storeTariff w.index (tariffWritten w l.pool) := by
  rw [carryOutWrite_placed, renewAccounts_of_unnamed]
  intro i
  rw [account_placed]
  exact unnamed i

/-- The tariff written is READY, verifies, and its walks reach the points given. -/
theorem ready_carryOutWrite (written : TariffWrite.ofBytes p = some w) (valid : ValidLists w)
    (room : w.work.length + w.rest.length ≤ (freeEntries l.pool).length) :
    (carryOutWrite w repair l).ReadyTariff w.index ∧
      ((carryOutWrite w repair l).tariff w.index).points (carryOutWrite w repair l).pool w.index = some (w.work, w.rest) := by
  rw [Ledger.ReadyTariff, tariff_carryOutWrite, if_pos rfl, pool_carryOutWrite]
  exact ⟨⟨state_written written valid.1, checks_written written valid.1 room⟩, points_written written room⟩

/-- A billing state is neither FREE nor FINAL. -/
theorem bills_of_unmarked_iff {a : Account} (unmarked : a.faultMark = false) (notFree : a.phase ≠ .free) :
    a.bills = true ↔ a.phase ≠ .final := by
  rw [Account.bills, state_of_unmarked unmarked]
  cases phase : a.phase <;> simp_all [AccountPhase.state]

/-- The account of a tariff just written (R41, step 4). -/
theorem underNewTariff_eq {a : Account} {bandCount : Nat} (unmarked : a.faultMark = false) (notFree : a.phase ≠ .free) :
    a.underNewTariff bandCount =
      { a with
        window := Vector.replicate 12 { energy := { imp := 0, lag := 0, lead := 0 }, state := .empty }
        ringPos := 0
        period :=
          if a.phase = .final then a.period
          else
            { a.period with
              maxima := Vector.ofFn fun b => if b.val < bandCount then a.period.maxima[b.val] else none } } := by
  rw [Account.underNewTariff]
  by_cases final : a.phase = .final
  · rw [if_pos final, if_neg (mt (bills_of_unmarked_iff unmarked notFree).mp (not_not_intro final))]
    rfl
  · rw [if_neg final, if_pos ((bills_of_unmarked_iff unmarked notFree).mpr final)]
    rfl

end

/-! ### WRITE_TARIFF settled -/

section

variable {s : State} {p : List Byte} {w : TariffWrite}

/-- The refusals in their order (R40). -/
theorem writeTariff_refusals (issues : s.Issues .writeTariff p) (written : TariffWrite.ofBytes p = some w) :
    (¬ValidLists w → exec .writeTariff s = .next (s.respond (refuse .badSwitchList))) ∧
      (ValidLists w → ¬Fits w s.calendar → exec .writeTariff s = .next (s.respond (refuse .outOfRange))) ∧
      (s.requestTurn = true → ValidLists w → Fits w s.calendar → InUse w s.mode s.ledger →
        exec .writeTariff s = .next (s.answered (s.ledger.checkTariff w.index) (refuse .tariffInUse))) ∧
      (s.requestTurn = true → ValidLists w → Fits w s.calendar → ¬InUse w s.mode s.ledger →
        (freeEntries s.ledger.pool).length < w.work.length + w.rest.length →
        exec .writeTariff s = .next (s.answered (s.ledger.checkTariff w.index) (refuse .poolExhausted))) :=
  ⟨fun invalid => exec_of_refusal (work := writeTariff) rfl issues (writeTariff_of_invalid written invalid) rfl,
    fun valid misfit => exec_of_refusal (work := writeTariff) rfl issues (writeTariff_of_misfit written valid misfit) rfl,
    fun turn valid fits inUse =>
      exec_of_work (work := writeTariff) rfl ⟨issues, turn⟩ (writeTariff_of_inUse written valid fits inUse) rfl,
    fun turn valid fits unused full =>
      exec_of_work (work := writeTariff) rfl ⟨issues, turn⟩ (writeTariff_of_exhausted written valid fits unused full) rfl⟩

/-- A write that passes answers OK and leaves the ledger carried out. -/
theorem exec_writeTariff_of_passed (granted : s.Granted .writeTariff p) (written : TariffWrite.ofBytes p = some w)
    (valid : ValidLists w) (fits : Fits w s.calendar) (unused : ¬InUse w s.mode s.ledger)
    (room : w.work.length + w.rest.length ≤ (freeEntries s.ledger.pool).length) :
    exec .writeTariff s =
      .next (s.answered (carryOutWrite w (needsRepair w.index s.ledger) (s.ledger.checkTariff w.index)) okDone) :=
  exec_of_work (work := writeTariff) rfl granted (writeTariff_of_passed written valid fits unused room) rfl

/-- The verification of a tariff leaves the other tariffs. -/
theorem tariff_checkTariff_ne {t j : TariffNo} (other : j ≠ t) (l : Ledger) : (l.checkTariff t).tariff j = l.tariff j := by
  rcases l.checkTariff_cases t with same | marked
  · rw [same]
  · rw [marked, Ledger.tariff_raise, Ledger.tariff_storeTariff_ne _ _ (Ne.symm other)]

theorem account_checkTariff (t : TariffNo) (l : Ledger) (i : Slot) : (l.checkTariff t).account i = l.account i := by
  rw [Ledger.account, Ledger.checkTariff_accounts]
  rfl

end

end Sys2Proof.Machine.TariffWrites
end

section
/-! WRITE_TARIFF settled: the write on a tariff that no account names, and the write that passes whatever accounts
name it. -/

namespace Sys2Proof.Machine.TariffWrites

open Sys2Proof Sys2Proof.Machine
open Sys2Proof.Machine.PeriodSettlement Sys2Proof.Machine.RequestRules Sys2Proof.Machine.AccountTable
open Sys2Proof.Machine.SwitchPool Sys2Proof.Machine.CheckWords Sys2Proof.Machine.TariffRequests

section

variable {s : State} {p : List Byte} {w : TariffWrite}

/-- On a tariff that no account names the accounts, the intakes, the list and the attention set stay. -/
theorem write_unnamed (granted : s.Granted .writeTariff p) (written : TariffWrite.ofBytes p = some w)
    (valid : ValidLists w) (fits : Fits w s.calendar)
    (unnamed : ∀ i, (s.ledger.account i).state ≠ .free → (s.ledger.account i).tariff ≠ w.index)
    (stands : (s.ledger.tariff w.index).faultMark = true ∨ (s.ledger.tariff w.index).checks s.ledger.pool w.index = true)
    (room : w.work.length + w.rest.length ≤ (freeEntries s.ledger.pool).length) :
    ∃ l : Ledger, exec .writeTariff s = .next (s.answered l okDone) ∧
      l.accounts = s.ledger.accounts ∧ l.intakes = s.ledger.intakes ∧ l.attention = s.ledger.attention ∧
      l.closeWork = s.ledger.closeWork ∧
      (∀ j, j ≠ w.index → l.tariff j = s.ledger.tariff j) ∧
      (∀ k : Fin 128, ∀ o, s.ledger.pool[k.val].owner = some o → o.tariff ≠ w.index →
        l.pool[k.val] = s.ledger.pool[k.val]) ∧
      l.ReadyTariff w.index ∧
      (l.tariff w.index).points l.pool w.index = some (w.work, w.rest) ∧
      l.tariff w.index =
        { w.header with
          workHead := (l.tariff w.index).workHead
          restHead := (l.tariff w.index).restHead
          checkWord := (l.tariff w.index).checkWord } := by
  have unused : ¬InUse w s.mode s.ledger := fun ⟨_, _, i, notFree, own⟩ => unnamed i notFree own
  have ran := exec_writeTariff_of_passed granted written valid fits unused room
  rw [Ledger.checkTariff_of_sound stands] at ran
  obtain ⟨ready, reached⟩ := ready_carryOutWrite (repair := needsRepair w.index s.ledger) written valid room
  have result := carryOutWrite_of_unnamed (repair := needsRepair w.index s.ledger) unnamed
  refine ⟨_, ran, ?accounts, intakes_carryOutWrite .., ?attention, ?list, fun j other => ?others, fun k o owned other => ?entries,
    ready, reached, ?header⟩
  case accounts => rw [result, Ledger.storeTariff_accounts]; simp only [placed]
  case attention => rw [result, Ledger.storeTariff_attention, attention_placed]
  case list => rw [result, Ledger.storeTariff_closeWork, closeWork_placed]
  case others => rw [tariff_carryOutWrite, if_neg (Ne.symm other)]
  case entries =>
    rw [pool_carryOutWrite]
    exact poolWritten_of_other owned other
  case header =>
    rw [tariff_carryOutWrite, if_pos rfl, tariffWritten]

/-- A write that no rule refuses installs its lists, whatever accounts name the tariff. -/
theorem write_passed (granted : s.Granted .writeTariff p) (written : TariffWrite.ofBytes p = some w)
    (valid : ValidLists w) (fits : Fits w s.calendar)
    (unused : s.mode ≠ .run ∨ ¬s.ledger.ReadyTariff w.index ∨
      ∀ i, (s.ledger.account i).state ≠ .free → (s.ledger.account i).tariff ≠ w.index)
    (room : w.work.length + w.rest.length ≤ (freeEntries s.ledger.pool).length) :
    let l := carryOutWrite w (needsRepair w.index s.ledger) (s.ledger.checkTariff w.index)
    exec .writeTariff s = .next (s.answered l okDone) ∧ l.intakes = s.ledger.intakes ∧
      (∀ j, j ≠ w.index → l.tariff j = s.ledger.tariff j) ∧ l.ReadyTariff w.index ∧
      (l.tariff w.index).points l.pool w.index = some (w.work, w.rest) ∧
      l.tariff w.index = tariffWritten w s.ledger.pool ∧ l.pool = poolWritten w s.ledger.pool ∧
      (∀ i, l.account i = renewed w.index w.header.bandCount (s.ledger.account i)) ∧
      (s.ledger.AccountsSettled →
        (s.ledger.tariff w.index).faultMark = true ∨ (s.ledger.tariff w.index).checks s.ledger.pool w.index = true →
          l.attention = s.ledger.attention) ∧
      l.closeWork =
        s.ledger.closeWork ++
          (if needsRepair w.index s.ledger then
            allSlots.filter fun i => handedOver w.index s.ledger.closeWork (s.ledger.account i) i
          else []) := by
  have notInUse : ¬InUse w s.mode s.ledger := by
    rintro ⟨run, ready, i, notFree, own⟩
    rcases unused with otherMode | unready | unnamed
    · exact otherMode run
    · exact checkTariff_ne_ready unready ready
    · exact unnamed i notFree own
  have pool : (s.ledger.checkTariff w.index).pool = s.ledger.pool := s.ledger.checkTariff_pool w.index
  have room' : w.work.length + w.rest.length ≤ (freeEntries (s.ledger.checkTariff w.index).pool).length := by rw [pool]; exact room
  obtain ⟨ready, reached⟩ := ready_carryOutWrite (repair := needsRepair w.index s.ledger) written valid room'
  refine ⟨exec_writeTariff_of_passed granted written valid fits notInUse room, ?intakes, fun j other => ?others, ready, reached,
    ?tariff, ?pool, fun i => ?account, fun settled stands => ?attention, ?list⟩
  case intakes => rw [intakes_carryOutWrite, Ledger.checkTariff_intakes]
  case others => rw [tariff_carryOutWrite, if_neg (Ne.symm other), tariff_checkTariff_ne other]
  case tariff => rw [tariff_carryOutWrite, if_pos rfl, pool]
  case pool => rw [pool_carryOutWrite, pool]
  case account => rw [account_carryOutWrite, account_checkTariff]
  case attention => rw [Ledger.checkTariff_of_sound stands, attention_carryOutWrite settled]
  case list =>
    rw [closeWork_carryOutWrite, Ledger.checkTariff_closeWork]
    simp only [account_checkTariff]

/-- What the renewal makes of an account, by what it names and whether it verifies. -/
theorem renewed_law (t : TariffNo) (bandCount : Nat) (a : Account) :
    (a.faultMark = true ∨ ¬(a.phase ≠ .free ∧ a.tariff = t) → renewed t bandCount a = a) ∧
      (a.faultMark = false ∧ a.checks = true → a.phase ≠ .free ∧ a.tariff = t →
        renewed t bandCount a =
          Account.seal
            { a with
              window := Vector.replicate 12 { energy := { imp := 0, lag := 0, lead := 0 }, state := .empty }
              ringPos := 0
              period :=
                if a.phase = .final then a.period
                else
                  { a.period with
                    maxima := Vector.ofFn fun b => if b.val < bandCount then a.period.maxima[b.val] else none } }) ∧
      (a.faultMark = false → a.phase ≠ .free ∧ a.tariff = t → a.checks = false →
        renewed t bandCount a = { a with faultMark := true }) := by
  refine ⟨fun other => ?other, fun sound named => ?sound, fun unmarked named fails => ?failing⟩
  case other =>
    refine if_pos ?_
    cases mark : a.faultMark with
    | true => rfl
    | false =>
      have apart : a.names t = false := (Bool.not_eq_true _).mp fun names =>
        other.resolve_left (by rw [mark]; nofun) (phase_of_names mark names)
      rw [apart]
      rfl
  case sound =>
    obtain ⟨unmarked, checks⟩ := sound
    obtain ⟨notFree, own⟩ := named
    have named : (a.faultMark || !a.names t) = false := by rw [unmarked, names_of_phase unmarked notFree own]; rfl
    rw [renewed, named, checks, if_neg Bool.false_ne_true, if_pos rfl, underNewTariff_eq unmarked notFree]
  case failing =>
    obtain ⟨notFree, own⟩ := named
    rw [renewed, unmarked, names_of_phase unmarked notFree own, fails]
    rfl

end

/-- The points that a write carries, each from its two bytes. -/
theorem points_of_write {p : List Byte} {w : TariffWrite} (carries : Carries p w) :
    let point (v : Nat) (q : SwitchPoint) : Prop :=
      q.minute = v % 2048 ∧ q.band.val = v / 2048 % 4 ∧ q.notify = v.testBit 13
    w.work.length = field 14 1 p ∧ w.rest.length = field 15 1 p ∧
      (∀ k q, w.work[k]? = some q → point (field (16 + 2 * k) 2 p) q) ∧
      ∀ k q, w.rest[k]? = some q → point (field (16 + 2 * w.work.length + 2 * k) 2 p) q := by
  intro point
  have work : w.work.length = field 14 1 p := by rw [carries.work, length_readPoints]
  have rest : w.rest.length = field 15 1 p := by rw [carries.rest, length_readPoints]
  refine ⟨work, rest, fun k q present => ?_, fun k q present => ?_⟩
  · rw [carries.work] at present
    rw [getElem?_readPoints present, field_drop]
    exact point_ofNat _
  · rw [carries.rest] at present
    rw [work, getElem?_readPoints present, field_drop]
    exact point_ofNat _

/-- Settles O19: what the parameters carry, the refusals in their order, and the ledger part by part. -/
theorem writeTariffInstallsTheLists : Obligations.WriteTariffInstallsTheLists := by
  refine ⟨fun s p w granted written work rest fits unnamed stands room =>
      write_unnamed granted written ⟨work, rest⟩ fits unnamed stands room,
    fun p => ⟨?ranges, fun w written => ?carried⟩, validList_iff, fun s p issues => ⟨fun none => ?unread, fun w written => ?refused⟩, ?passed⟩
  case ranges =>
    rw [write_eq_none_iff, WriteInRange]
    omega
  case carried =>
    have carries := (carries_of_write written).2
    obtain ⟨work, rest, workPoints, restPoints⟩ := points_of_write carries
    exact ⟨carries.index, carries.id, carries.evaluation, carries.n, carries.quantity, carries.bandCount,
      carries.ratchetPercent, carries.ratchetBand, carries.allowance, carries.leadPolicy, carries.incompletePolicy,
      carries.weekMask, carries.workCount, carries.restCount, carries.unmarked, work, rest, workPoints, restPoints⟩
  case unread => exact exec_of_refusal (work := writeTariff) rfl issues (writeTariff_of_range none) rfl
  case refused => exact writeTariff_refusals issues written
  case passed =>
    intro s p w granted written work rest fits unused free room repair names
    obtain ⟨ran, intakes, others, ready, reached, tariff, pool, account, attention, list⟩ :=
      write_passed granted written ⟨work, rest⟩ fits unused room
    refine ⟨_, ran, intakes, others, ready, reached, ?tariff, fun k q e point entry => ?work, fun k q e point entry => ?rest,
      fun e untaken => ?other, fun i => ?account, attention, list⟩
    case tariff =>
      rw [tariff]
      exact tariffWritten_eq (length_pos_of_validList work) (length_pos_of_validList rest)
    case work => rw [pool]; exact work_entry room point entry
    case rest => rw [pool]; exact rest_entry room point entry
    case other => rw [pool]; exact other_entry untaken
    case account =>
      intro a
      rw [account i]
      exact renewed_law w.index w.header.bandCount a

end Sys2Proof.Machine.TariffWrites
end

section
/-! The band in force (R35 to R37), and the dates of the calendar's seconds (R46, R47): the year of a day number, the
month and day within it, and back. -/

namespace Sys2Proof.Machine.CalendarDates

open Sys2Proof Sys2Proof.Machine
open Sys2Proof.Machine.TariffWrites

/-! ### The band in force (R36) -/

/-- The last point of an ascending list has the largest minute. -/
theorem minute_le_getLast {points : List SwitchPoint} {q : SwitchPoint} (ascends : points.Pairwise fun q r => q.minute < r.minute)
    (last : points.getLast? = some q) : ∀ r ∈ points, r.minute ≤ q.minute := by
  intro r mem
  obtain ⟨front, rfl⟩ := List.getLast?_eq_some_iff.mp last
  rcases List.mem_append.mp mem with before | here
  · exact Nat.le_of_lt ((List.pairwise_append.mp ascends).2.2 r before q (List.mem_singleton.mpr rfl))
  · exact Nat.le_of_eq (congrArg _ (List.mem_singleton.mp here))

/-- The points at or below a minute, on a list that starts at minute 0, have a last one. -/
theorem exists_last_reached {points : List SwitchPoint} (minute : Nat) (first : points.head?.map (·.minute) = some 0) :
    ∃ q, (points.filter fun p => decide (p.minute ≤ minute)).getLast? = some q := by
  obtain ⟨a, head, zero⟩ := Option.map_eq_some_iff.mp first
  cases last : (points.filter fun p => decide (p.minute ≤ minute)).getLast? with
  | some q => exact ⟨q, rfl⟩
  | none =>
    have reached : a ∈ points.filter fun p => decide (p.minute ≤ minute) :=
      List.mem_filter.mpr ⟨List.mem_of_mem_head? head, decide_eq_true (by rw [zero]; exact Nat.zero_le _)⟩
    rw [List.getLast?_eq_none_iff.mp last] at reached
    cases reached

theorem bandInForce_of_increasing {points : List SwitchPoint} (minute : Nat) (first : points.head?.map (·.minute) = some 0)
    (ascends : increasing points = true) :
    ∃ q ∈ points, q.minute ≤ minute ∧ (∀ r ∈ points, r.minute ≤ minute → r.minute ≤ q.minute) ∧
      bandInForce points minute = q.band := by
  obtain ⟨q, last⟩ := exists_last_reached minute first
  obtain ⟨mem, reached⟩ := List.mem_filter.mp (List.mem_of_getLast? last)
  have sorted := ((increasing_iff points).mp ascends).filter fun p => decide (p.minute ≤ minute)
  refine ⟨q, mem, of_decide_eq_true reached, fun r held below => ?_, ?_⟩
  · exact minute_le_getLast sorted last r (List.mem_filter.mpr ⟨held, decide_eq_true below⟩)
  · rw [bandInForce, last]

/-- The minute that ends at a boundary, and its day. -/
theorem minute_before (b : Nat) (later : 60 ≤ b) (whole : b % 60 = 0) :
    (b % 86400 / 60 = 0 → (b - 60) / 86400 = b / 86400 - 1 ∧ (b - 60) % 86400 / 60 = 1439) ∧
      (b % 86400 / 60 ≠ 0 → (b - 60) / 86400 = b / 86400 ∧ (b - 60) % 86400 / 60 = b % 86400 / 60 - 1) := by
  omega

/-- Settles O21: the last point reached, the day's list, and the minute that ends at a boundary. -/
theorem bandInForceIsTheLastPointReached : Obligations.BandInForceIsTheLastPointReached := by
  refine ⟨fun points minute first ascends => bandInForce_of_increasing minute first ascends, fun t day p => ?day,
    fun t p time => rfl, fun t p boundary later whole => ?window⟩
  case day => rw [Schedule.listOn, Tariff.workingDay, weekdayOf, Nat.add_comm]
  case window =>
    intro minute
    have ends : bandOfWindow t p boundary =
        bandInForce (p.listOn t ((boundary - 60) / 86400)) ((boundary - 60) % 86400 / 60) := rfl
    rw [ends]
    obtain ⟨atMidnight, within⟩ := minute_before boundary later whole
    by_cases midnight : minute = 0
    · obtain ⟨day, last⟩ := atMidnight midnight
      rw [if_pos midnight, day, last]
    · obtain ⟨day, before⟩ := within midnight
      rw [if_neg midnight, day, before]

/-! ### Years -/

/-- The days of a year. -/
def yearLength (year : Nat) : Nat := if year % 4 = 0 then 366 else 365

/-- The year of a day number, and the day within it. -/
theorem year_of_day {day : Nat} (inside : day < 36525) :
    2000 ≤ yearOfDay day ∧ yearOfDay day ≤ 2099 ∧ daysBeforeYear (yearOfDay day) ≤ day ∧
      day < daysBeforeYear (yearOfDay day) + yearLength (yearOfDay day) := by
  rw [yearOfDay, daysBeforeYear, yearLength]
  split
  · rw [if_pos (by omega)]
    omega
  · rw [if_neg (by omega)]
    omega

/-- A day within a year is a day of that year. -/
theorem yearOfDay_of_within {year r : Nat} (low : 2000 ≤ year) (within : r < yearLength year) :
    yearOfDay (daysBeforeYear year + r) = year := by
  rw [yearLength] at within
  rw [yearOfDay, daysBeforeYear]
  split at within
  · split
    · omega
    · omega
  · split
    · omega
    · omega

/-- The days before the end of 2099. -/
theorem daysBeforeYear_add_lt {year r : Nat} (low : 2000 ≤ year) (high : year ≤ 2099) (within : r < yearLength year) :
    daysBeforeYear year + r < 36525 := by
  rw [yearLength] at within
  rw [daysBeforeYear]
  split at within <;> omega

/-! ### Months -/

/-- A day within the months given is found in one of them. -/
theorem monthDay_spec (lengths : List Nat) (m d : Nat) (inside : d < lengths.sum) :
    ∃ j, ∃ held : j < lengths.length, ∃ e, e < lengths[j] ∧ d = (lengths.take j).sum + e ∧ monthDay lengths m d = (m + j, e + 1) := by
  induction lengths generalizing m d with
  | nil => exact absurd inside (Nat.not_lt_zero d)
  | cons len rest ih =>
    rw [monthDay]
    by_cases here : d < len
    · exact ⟨0, Nat.zero_lt_succ _, d, here, (Nat.zero_add d).symm, if_pos here⟩
    · rw [if_neg here]
      rw [List.sum_cons] at inside
      obtain ⟨j, held, e, below, stands, found⟩ := ih (m + 1) (d - len) (by omega)
      refine ⟨j + 1, Nat.succ_lt_succ held, e, below, ?_, ?_⟩
      · rw [List.take_succ_cons, List.sum_cons]
        omega
      · rw [found, Nat.add_assoc, Nat.add_comm 1 j]

/-- A day of a month is found in that month. -/
theorem monthDay_of_month (lengths : List Nat) (m j e : Nat) (held : j < lengths.length) (below : e < lengths[j]) :
    monthDay lengths m ((lengths.take j).sum + e) = (m + j, e + 1) := by
  induction lengths generalizing m j with
  | nil => exact absurd held (Nat.not_lt_zero j)
  | cons len rest ih =>
    cases j with
    | zero =>
      have here : 0 + e < len := by
        rw [Nat.zero_add]
        exact below
      rw [List.take_zero, List.sum_nil, monthDay, if_pos here, Nat.zero_add]
      rfl
    | succ j =>
      have later := ih (m + 1) j (Nat.lt_of_succ_lt_succ held) below
      rw [List.take_succ_cons, List.sum_cons, monthDay, if_neg (by omega), Nat.add_assoc, Nat.add_sub_cancel_left, later,
        Nat.add_assoc, Nat.add_comm 1 j]

/-- The days of the months before, and of a month, are days of the year. -/
theorem take_sum_add_getElem_le (lengths : List Nat) (j : Nat) (held : j < lengths.length) :
    (lengths.take j).sum + lengths[j] ≤ lengths.sum := by
  have parts : (lengths.take (j + 1)).sum + (lengths.drop (j + 1)).sum = lengths.sum := by
    rw [← List.sum_append, List.take_append_drop]
  rw [List.take_succ_eq_append_getElem held, List.sum_append, List.sum_singleton] at parts
  omega

theorem length_monthLengths (year : Nat) : (monthLengths year).length = 12 := rfl

/-- The twelve months make the year. -/
theorem sum_monthLengths (year : Nat) : (monthLengths year).sum = yearLength year := by
  rw [yearLength, monthLengths, isLeap]
  by_cases leap : year % 4 = 0
  · simp [leap]
  · simp [leap]

theorem monthLength_eq {year month : Nat} (held : month - 1 < (monthLengths year).length) :
    monthLength year month = (monthLengths year)[month - 1] := by
  rw [monthLength, List.getD_eq_getElem?_getD, List.getElem?_eq_getElem held, Option.getD_some]

/-! ### Dates -/

theorem inRange_iff (d : DateTime) :
    d.inRange = true ↔
      2000 ≤ d.year ∧ d.year ≤ 2099 ∧ 1 ≤ d.month ∧ d.month ≤ 12 ∧ 1 ≤ d.day ∧ d.day ≤ monthLength d.year d.month ∧
        d.hour ≤ 23 ∧ d.minute ≤ 59 ∧ d.second ≤ 59 := by
  simp [DateTime.inRange, and_assoc]

/-- The date of a day number, and the day number of that date. -/
theorem date_of_day {day year : Nat} (inside : day < 36525) (yearIs : yearOfDay day = year) {md : Nat × Nat}
    (date : monthDay (monthLengths year) 1 (day - daysBeforeYear year) = md) :
    dayNumber year md.1 md.2 = day ∧ 1 ≤ md.1 ∧ md.1 ≤ 12 ∧ 1 ≤ md.2 ∧ md.2 ≤ monthLength year md.1 := by
  obtain ⟨_, _, starts, ends⟩ := year_of_day inside
  rw [yearIs] at starts ends
  have within : day - daysBeforeYear year < (monthLengths year).sum := by
    rw [sum_monthLengths]
    omega
  obtain ⟨j, held, e, below, stands, found⟩ := monthDay_spec (monthLengths year) 1 (day - daysBeforeYear year) within
  have few : j < 12 := held
  have month : 1 + j - 1 = j := Nat.add_sub_cancel_left ..
  rw [← date, found]
  refine ⟨?number, Nat.le_add_right 1 j, by omega, Nat.le_add_left 1 e, ?length⟩
  case number =>
    rw [dayNumber, month, Nat.add_sub_cancel]
    omega
  case length =>
    have monthHeld : 1 + j - 1 < (monthLengths year).length := by rw [month]; exact held
    rw [monthLength_eq monthHeld]
    simp only [month]
    exact below

/-- A number of seconds by its day and its time of day. -/
theorem seconds_by_parts (t : Nat) :
    t / 86400 * 86400 + t % 86400 / 3600 * 3600 + t % 3600 / 60 * 60 + t % 60 = t ∧ t % 86400 / 3600 ≤ 23 ∧
      t % 3600 / 60 ≤ 59 ∧ t % 60 ≤ 59 ∧ (t ≤ 3155759999 → t / 86400 < 36525) := by
  omega

/-- The day and the time of day of a number of seconds made of them. -/
theorem parts_of_seconds {n hour minute second : Nat} (hourHigh : hour ≤ 23) (minuteHigh : minute ≤ 59)
    (secondHigh : second ≤ 59) {t : Nat} (made : t = n * 86400 + hour * 3600 + minute * 60 + second) :
    t / 86400 = n ∧ t % 86400 / 3600 = hour ∧ t % 3600 / 60 = minute ∧ t % 60 = second ∧
      (n < 36525 → t ≤ 3155759999) := by
  omega

/-- A second's date is in range and has that second. -/
theorem dateTimeOf_toSeconds {t : Seconds} (inside : t ≤ 3155759999) :
    (dateTimeOf t).toSeconds = t ∧ (dateTimeOf t).inRange = true := by
  obtain ⟨whole, hour, minute, second, days⟩ := seconds_by_parts t
  obtain ⟨low, high, _, _⟩ := year_of_day (days inside)
  obtain ⟨number, monthLow, monthHigh, dayLow, dayHigh⟩ := date_of_day (days inside) rfl rfl
  constructor
  · have parts : (dateTimeOf t).toSeconds =
        t / 86400 * 86400 + t % 86400 / 3600 * 3600 + t % 3600 / 60 * 60 + t % 60 :=
      congrArg (fun n => n * 86400 + t % 86400 / 3600 * 3600 + t % 3600 / 60 * 60 + t % 60) number
    exact parts.trans whole
  · exact (inRange_iff _).mpr ⟨low, high, monthLow, monthHigh, dayLow, dayHigh, hour, minute, second⟩

/-- A date in range is that of its second. -/
theorem toSeconds_dateTimeOf {d : DateTime} (range : d.inRange = true) :
    dateTimeOf d.toSeconds = d ∧ d.toSeconds ≤ 3155759999 := by
  obtain ⟨year, month, day, hour, minute, second⟩ := d
  obtain ⟨low, high, monthLow, monthHigh, dayLow, dayHigh, hourHigh, minuteHigh, secondHigh⟩ := (inRange_iff _).mp range
  simp only at low high monthLow monthHigh dayLow dayHigh hourHigh minuteHigh secondHigh
  have held : month - 1 < (monthLengths year).length := by rw [length_monthLengths]; omega
  rw [monthLength_eq held] at dayHigh
  have fits := take_sum_add_getElem_le (monthLengths year) (month - 1) held
  rw [sum_monthLengths] at fits
  have within : ((monthLengths year).take (month - 1)).sum + (day - 1) < yearLength year := by omega
  have number : dayNumber year month day = daysBeforeYear year + (((monthLengths year).take (month - 1)).sum + (day - 1)) := by
    rw [dayNumber, Nat.add_assoc]
  have inside := daysBeforeYear_add_lt low high within
  have found := monthDay_of_month (monthLengths year) 1 (month - 1) (day - 1) held (by omega)
  rw [← number] at inside
  obtain ⟨days, hours, minutes, rest, bound⟩ := parts_of_seconds (n := dayNumber year month day) hourHigh minuteHigh secondHigh
    (t := (DateTime.mk year month day hour minute second).toSeconds) rfl
  refine ⟨?_, bound inside⟩
  generalize (DateTime.mk year month day hour minute second).toSeconds = t at days hours minutes rest
  generalize dayNumber year month day = n at days number
  have yearIs : yearOfDay n = year := by
    rw [number]
    exact yearOfDay_of_within low within
  have monthDayIs : monthDay (monthLengths year) 1 (n - daysBeforeYear year) = (month, day) := by
    rw [number, Nat.add_sub_cancel_left, found, Nat.sub_add_cancel dayLow, Nat.add_comm, Nat.sub_add_cancel monthLow]
  simp only [dateTimeOf, days, hours, minutes, rest, yearIs, monthDayIs]

/-- Settles O26: dates and seconds to and fro, the bounds of the root, and the check over nine bytes by evaluation. -/
theorem datesRootsAndChecks : Obligations.DatesRootsAndChecks :=
  ⟨fun _ inside => dateTimeOf_toSeconds inside, fun _ range => toSeconds_dateTimeOf range, by decide,
    PeriodSettlement.isqrt_bounds, by decide⟩

end Sys2Proof.Machine.CalendarDates
end

section
/-! The passage of a second, the events of the calendar and its requests (R46 to R60): SET_TIME, TRIM_TIME, READ_TIME, the
minute event, the boundary event and the grace expiry. -/

namespace Sys2Proof.Machine.CalendarEvents

open Sys2Proof Sys2Proof.Machine
open Sys2Proof.Machine.AccountLayouts Sys2Proof.Machine.CalendarDates Sys2Proof.Machine.LinkLaw

/-! ### Requests on no record -/

section

variable {s : State} {k : RequestCode} {c : Instr} {p : List Byte} {own : List Byte → State → State × Answer}

/-- A request that is no record operation answers with its own work. -/
theorem exec_of_request (runs : exec c s = .next (runRequest k own s)) (issues : s.Issues k p) {t : State} {a : Answer}
    (worked : own p s = (t, a)) : exec c s = .next (t.respond a) := by
  rw [runs, Arbitration.runRequest_of_admitted issues.admitted, worked]

/-- A request in execution is admitted by the mode. -/
theorem modeRefusal_of_issues (issues : s.Issues k p) : k.modeRefusal s.mode = none := by
  obtain ⟨_, _, _, _, _, admitted⟩ := issues
  exact admitted

end

/-! ### SET_TIME (R49) -/

/-- The lengths of the twelve months. -/
theorem monthLength_of_month {year month : Nat} (low : 1 ≤ month) (high : month ≤ 12) :
    monthLength year month =
      if month = 2 then if year % 4 = 0 then 29 else 28
      else if month ∈ [4, 6, 9, 11] then 30
      else 31 := by
  obtain rfl | rfl | rfl | rfl | rfl | rfl | rfl | rfl | rfl | rfl | rfl | rfl :
      month = 1 ∨ month = 2 ∨ month = 3 ∨ month = 4 ∨ month = 5 ∨ month = 6 ∨ month = 7 ∨ month = 8 ∨ month = 9 ∨
        month = 10 ∨ month = 11 ∨ month = 12 := by omega
  case inr.inl => simp [monthLength, monthLengths, isLeap]
  all_goals rfl

/-- The ranges of SET_TIME (R49). -/
theorem inRange_iff_ranges (d : DateTime) :
    d.inRange = true ↔
      2000 ≤ d.year ∧ d.year ≤ 2099 ∧ 1 ≤ d.month ∧ d.month ≤ 12 ∧ 1 ≤ d.day ∧
        d.day ≤
          (if d.month = 2 then if d.year % 4 = 0 then 29 else 28
          else if d.month ∈ [4, 6, 9, 11] then 30
          else 31) ∧
        d.hour ≤ 23 ∧ d.minute ≤ 59 ∧ d.second ≤ 59 := by
  rw [inRange_iff]
  refine and_congr_right fun _ => and_congr_right fun _ => and_congr_right fun low => and_congr_right fun high => ?_
  rw [monthLength_of_month low high]

/-- Settles O22: the ranges, and the request by whether they hold. -/
theorem setTimeSetsTheCalendar : Obligations.SetTimeSetsTheCalendar := by
  refine ⟨inRange_iff_ranges, ?_⟩
  intro s p issues d
  have same : DateTime.ofBytes p = d := rfl
  refine ⟨fun inside => exec_of_request (own := setTime) rfl issues ?_, fun outside => exec_of_request (own := setTime) rfl issues ?_⟩
  · simp only [setTime, same, inside]
    rfl
  · simp only [setTime, same, outside]
    rfl

/-! ### The events (R50 to R56) -/

section

variable {s : State} {t : Seconds}

/-- The calendar produces events while it is SET, below its last second and not RESTARTING (R47, R48, R62). -/
theorem calendarProduces_of (set : s.calendar.isSet = true) (below : s.calendar.time < 3155759999)
    (mode : s.mode ≠ .restarting) : s.calendarProduces = true := by
  simp [State.calendarProduces, set, Config.lastSecond, below, mode]

/-- Whether a boundary event is the one that reaches P (R54). -/
abbrev Counted (c : Calendar) : Prop := c.params.countPeriod ≠ 0 ∧ c.boundaryCount + 1 = c.params.countPeriod

theorem countBoundary_eq (c : Calendar) :
    c.countBoundary =
      (if c.params.countPeriod = 0 ∨ Counted c then 0 else c.boundaryCount + 1, decide (Counted c)) := by
  rw [Calendar.countBoundary]
  by_cases none : c.params.countPeriod = 0
  · simp [Counted, none]
  · by_cases reached : c.boundaryCount + 1 = c.params.countPeriod
    · simp [Counted, none, reached]
    · simp [Counted, none, reached]

/-- The ledger after a boundary event. -/
theorem raiseIf_counted (c : Calendar) (l : Ledger) :
    l.raiseIf (decide (Counted c)) .boundaryCount = if Counted c then l.raise .boundaryCount else l := by
  rw [Ledger.raiseIf]
  by_cases counted : Counted c
  · rw [if_pos counted, if_pos (decide_eq_true counted)]
  · rw [if_neg counted, if_neg (by rw [decide_eq_false counted]; nofun)]

/-- A boundary event with no timer armed (R52). -/
theorem produceBoundary_of_idle (idle : s.calendar.grace = none) :
    s.produceBoundary t =
      { s with
        ledger := if Counted s.calendar then s.ledger.raise .boundaryCount else s.ledger
        calendar :=
          { s.calendar with
            currentTag := s.calendar.currentTag + 1
            lastBoundary := some t
            grace := some { tag := s.calendar.currentTag, expiry := t + s.calendar.params.grace }
            boundaryCount :=
              if s.calendar.params.countPeriod = 0 ∨ Counted s.calendar then 0 else s.calendar.boundaryCount + 1 }
        laneBoundaries := s.laneBoundaries ++ [(s.calendar.currentTag, t)]
        work := s.work ++ [.boundary s.calendar.currentTag t .ageing] } := by
  have same : s.produceGrace = s := by rw [State.produceGrace, idle]
  simp only [State.produceBoundary, same, Calendar.atBoundary, countBoundary_eq, raiseIf_counted]

/-- A boundary event with a timer armed produces its expiry first (R56). -/
theorem produceBoundary_of_armed {g : GraceTimer} (armed : s.calendar.grace = some g) :
    s.produceBoundary t =
      { s with
        ledger := if Counted s.calendar then s.ledger.raise .boundaryCount else s.ledger
        calendar :=
          { s.calendar with
            currentTag := s.calendar.currentTag + 1
            lastBoundary := some t
            grace := some { tag := s.calendar.currentTag, expiry := t + s.calendar.params.grace }
            boundaryCount :=
              if s.calendar.params.countPeriod = 0 ∨ Counted s.calendar then 0 else s.calendar.boundaryCount + 1 }
        laneBoundaries := s.laneBoundaries ++ [(s.calendar.currentTag, t)]
        work := s.work ++ [.grace g.tag 0, .boundary s.calendar.currentTag t .ageing] } := by
  have expired : s.produceGrace =
      { s with calendar := { s.calendar with grace := none }, work := s.work ++ [.grace g.tag 0] } := by
    rw [State.produceGrace, armed]
  simp only [State.produceBoundary, expired, Calendar.atBoundary, countBoundary_eq, raiseIf_counted, List.append_assoc,
    List.cons_append, List.nil_append]

/-- The boundary event takes the next boundary when the calendar has reached it (R51). -/
theorem exec_boundaryEvent_of_due (awake : s.atRest = false) (produces : s.calendarProduces = true)
    (next : s.nextBoundary = some t) (reached : t ≤ s.calendar.time) :
    exec .boundaryEvent s = .next (s.produceBoundary t) := by
  have due : s.boundaryDue = true := by simp [State.boundaryDue, produces, next, reached]
  have taken : s.takeBoundary = s.produceBoundary t := by rw [State.takeBoundary, if_pos due, next]
  have awake' : ¬s.atRest = true := by rw [awake]; nofun
  exact congrArg Host.Outcome.next ((if_neg awake').trans taken)

/-- The next boundary in RUN (R51). -/
theorem nextBoundary_of_run {last : Seconds} (run : s.mode = .run) (held : s.calendar.lastBoundary = some last) :
    s.nextBoundary =
      some (last / (s.calendar.params.subinterval * 60) * (s.calendar.params.subinterval * 60) +
        s.calendar.params.subinterval * 60) := by
  rw [State.nextBoundary, if_pos run, held]
  rfl

end

/-- Settles O25: with no timer armed the boundary event is that of R52. -/
theorem boundaryEventAdvancesTheTag : Obligations.BoundaryEventAdvancesTheTag := by
  intro s last awake run set below held idle c step t reached counted
  have produces := calendarProduces_of set below (by rw [run]; decide)
  rw [exec_boundaryEvent_of_due awake produces (nextBoundary_of_run run held) reached, produceBoundary_of_idle idle]

/-- Settles O24: the passage when nothing is owed, and each event when it is due. -/
theorem secondsGraceAndMinuteEvents : Obligations.SecondsGraceAndMinuteEvents := by
  refine ⟨fun s awake unowed => ⟨fun set below => ?advances, fun stands => ?stands⟩,
    fun s awake set below mode => ⟨fun g armed reached => ?grace, ?boundary, fun unreached => ?noMinute,
      fun passed second fresh => ?minute⟩⟩
  case advances =>
    have ran : exec .passageOfASecond s = .next (s.takeOwed.tick true) :=
      congrArg Host.Outcome.next (if_neg (by rw [awake]; nofun))
    rw [ran, unowed, State.tick, Calendar.tick_advances true set below]
  case stands =>
    have ran : exec .passageOfASecond s = .next (s.takeOwed.tick true) :=
      congrArg Host.Outcome.next (if_neg (by rw [awake]; nofun))
    have still : ¬(s.calendar.isSet = true ∧ s.calendar.time < Config.lastSecond) := by
      rintro ⟨set, below⟩
      rcases stands with unset | ended
      · rw [unset] at set
        cases set
      · exact Nat.lt_irrefl _ (Nat.lt_of_lt_of_le below ended)
    rw [ran, unowed, State.tick, Calendar.tick, if_neg still]
  case grace =>
    have due : s.graceDue = true := by simp [State.graceDue, calendarProduces_of set below mode, armed, reached]
    have taken : s.takeGrace =
        { s with calendar := { s.calendar with grace := none }, work := s.work ++ [.grace g.tag 0] } := by
      rw [State.takeGrace, if_pos due, State.produceGrace, armed]
    exact congrArg Host.Outcome.next ((if_neg (by rw [awake]; nofun)).trans taken)
  case boundary =>
    intro g last run armed held c step t counted reached
    rw [exec_boundaryEvent_of_due awake (calendarProduces_of set below mode) (nextBoundary_of_run run held) reached,
      produceBoundary_of_armed armed]
  case noMinute =>
    have taken : s.takeMinute = s := by
      rw [State.takeMinute, State.minuteDue_of_not_reached unreached]
      rfl
    exact congrArg Host.Outcome.next ((if_neg (by rw [awake]; nofun)).trans taken)
  case minute =>
    have isNew : s.calendar.minuteIsNew s.calendar.time = true := by
      rw [Calendar.minuteIsNew]
      cases held : s.calendar.lastMinute with
      | none => rfl
      | some last => simp [fresh last held]
    have due : s.minuteDue = true := by
      simp [State.minuteDue, calendarProduces_of set below mode, passed, second, isNew]
    have taken : s.takeMinute = s.produceMinute s.calendar.time := by rw [State.takeMinute, if_pos due]
    exact congrArg Host.Outcome.next ((if_neg (by rw [awake]; nofun)).trans taken)

/-! ### READ_TIME (R60) -/

/-- The tag of the armed timer, 0 without one. -/
def graceTag (c : Calendar) : Byte := (c.grace.map (·.tag)).getD 0

def timeParts (c : Calendar) : List (List Byte) :=
  let d := dateTimeOf c.time
  [[byte (bits [c.isSet, c.grace.isSome])], le 2 d.year, [byte d.month], [byte d.day], [byte d.hour], [byte d.minute],
    [byte d.second], [byte (weekdayOf (c.time / 86400) + 1)], [c.currentTag], leTime c.lastBoundary, [graceTag c],
    leTime (c.grace.map (·.expiry))]

theorem timeBytes_eq (c : Calendar) : c.bytes = (timeParts c).flatten := by
  simp only [Calendar.bytes, DateTime.bytes, timeParts, graceTag, List.flatten_cons, List.flatten_nil, List.append_assoc,
    List.append_nil, List.cons_append, List.nil_append]

theorem timeLayout (c : Calendar) : c.TimeLayout c.bytes := by
  have sizes : (timeParts c).map List.length = [1, 2, 1, 1, 1, 1, 1, 1, 1, 4, 1, 4] := rfl
  obtain ⟨flag, small⟩ := flags_of_part (offset := 0) sizes 0 rfl rfl (by simp)
  have tag : At 14 1 (graceTag c).toNat (timeParts c).flatten :=
    at_of_part sizes 10 (congrArg (fun b => some [b]) (LinkFrames.byte_toNat_self _).symm) rfl
  rw [timeBytes_eq]
  refine ⟨length_row sizes, flag 0, flag 1, ?small, at_of_part sizes 1 rfl rfl, at_of_part sizes 2 rfl rfl,
    at_of_part sizes 3 rfl rfl, at_of_part sizes 4 rfl rfl, at_of_part sizes 5 rfl rfl, at_of_part sizes 6 rfl rfl,
    at_of_part sizes 7 rfl rfl,
    at_of_part sizes 8 (congrArg (fun b => some [b]) (LinkFrames.byte_toNat_self _).symm) rfl,
    at_of_part sizes 9 rfl rfl, ?tag, at_of_part sizes 11 rfl rfl⟩
  case small =>
    rw [small]
    exact bits_lt _
  case tag =>
    rw [graceTag] at tag
    cases held : c.grace <;> (rw [held] at tag; exact tag)

/-! ### TRIM_TIME (R57 to R59) -/

section

variable {s : State} {p : List Byte} {amount : Int} {t : Seconds}

/-- When nothing is owed no grace expiry is due. -/
theorem graceDue_of_unowed (unowed : s.takeOwed = s) : s.graceDue = false := by
  cases due : s.graceDue with
  | false => rfl
  | true =>
    obtain ⟨items, later, _⟩ := ((ticks_takeMinute s.takeGrace).trans (ticks_takeBoundary _)).work
    have armed : s.calendar.grace ≠ none := fun none => by simp [State.graceDue, none] at due
    obtain ⟨g, held⟩ := Option.ne_none_iff_exists'.mp armed
    have taken : s.takeGrace.work = s.work ++ [.grace g.tag 0] := by
      rw [State.takeGrace, if_pos due, State.produceGrace, held]
    have same : s.takeOwed.work = s.takeGrace.work ++ items := later
    rw [unowed, taken] at same
    have length := congrArg List.length same
    simp at length

/-- When nothing is owed no boundary event is due. -/
theorem boundaryDue_of_unowed (unowed : s.takeOwed = s) : s.boundaryDue = false := by
  cases due : s.boundaryDue with
  | false => rfl
  | true =>
    have grace : s.takeGrace = s := by rw [State.takeGrace, graceDue_of_unowed unowed]; rfl
    have next : s.takeMinute.nextBoundary = s.nextBoundary := by
      rw [State.takeMinute]
      split <;> rfl
    have still : s.takeMinute.boundaryDue = true := by
      rw [← due, State.boundaryDue, State.boundaryDue, next, State.takeMinute]
      split <;> rfl
    have lanes : s.takeMinute.laneBoundaries = s.laneBoundaries := by
      rw [State.takeMinute]
      split <;> rfl
    have held : s.nextBoundary ≠ none := fun none => by simp [State.boundaryDue, none] at due
    obtain ⟨t, boundary⟩ := Option.ne_none_iff_exists'.mp held
    have taken : s.takeOwed = s.takeMinute.produceBoundary t := by
      rw [State.takeOwed, grace, State.takeBoundary, if_pos still, next, boundary]
    have grown : s.takeOwed.laneBoundaries.length = s.laneBoundaries.length + 1 := by
      have produced : (s.takeMinute.produceBoundary t).laneBoundaries.length =
          s.takeMinute.produceGrace.laneBoundaries.length + 1 := by simp [State.produceBoundary]
      have kept : s.takeMinute.produceGrace.laneBoundaries = s.takeMinute.laneBoundaries := by
        rw [State.produceGrace]
        split <;> rfl
      rw [taken, produced, kept, lanes]
    rw [unowed] at grown
    omega

/-- The state whose calendar a trim has moved. -/
def movedBy (amount : Int) (s : State) : State := { s with calendar := s.calendar.moved amount }

/-- A minute's start is new when it is later than the last minute event. -/
theorem minuteIsNew_iff {start : Seconds} {c : Calendar} :
    c.minuteIsNew start = true ↔ ∀ last, c.lastMinute = some last → last < start := by
  rw [Calendar.minuteIsNew]
  cases c.lastMinute <;> simp

/-- The minute event that a forward trim reaches (R58). -/
theorem reachMinute_eq (before : Seconds) (s : State) :
    s.reachMinute before =
      if before < s.calendar.time / 60 * 60 ∧
          (∀ last, s.calendar.lastMinute = some last → last < s.calendar.time / 60 * 60) then
        s.produceMinute (s.calendar.time / 60 * 60)
      else s := by
  have start : minuteStart s.calendar.time = s.calendar.time / 60 * 60 := rfl
  simp only [State.reachMinute, start, Bool.and_eq_true, decide_eq_true_eq, minuteIsNew_iff]

/-- A minute event leaves everything but the last minute event and the list. -/
theorem calendar_reachMinute (before : Seconds) (s : State) :
    (s.reachMinute before).calendar.time = s.calendar.time ∧ (s.reachMinute before).calendar.grace = s.calendar.grace ∧
      (s.reachMinute before).calendar.params = s.calendar.params ∧
      (s.reachMinute before).nextBoundary = s.nextBoundary := by
  rw [reachMinute_eq]
  split <;> exact ⟨rfl, rfl, rfl, rfl⟩

/-- The next boundary does not move with the calendar. -/
theorem nextBoundary_movedBy : (movedBy amount s).nextBoundary = s.nextBoundary := rfl

/-- A forward trim keeps the order of two times. -/
theorem moveBy_lt {x y : Nat} (forward : 0 < amount) (order : x < y) : moveBy amount x < moveBy amount y := by
  have moved : ((x : Int) + amount).toNat < ((y : Int) + amount).toNat := by omega
  exact moved

/-- A timer that is not due before a forward trim moves with it, and is not due after it (R57). -/
theorem reachGrace_of_moved {m : State} (unowed : s.graceDue = false) (produces : s.calendarProduces = true)
    (forward : 0 < amount) (time : m.calendar.time = (movedBy amount s).calendar.time)
    (grace : m.calendar.grace = (movedBy amount s).calendar.grace) : m.reachGrace = m := by
  refine if_neg ?_
  rw [grace, time]
  simp only [movedBy, Calendar.moved]
  cases held : s.calendar.grace with
  | none => simp
  | some g =>
    have later : s.calendar.time < g.expiry := by
      simpa [State.graceDue, produces, held] using unowed
    rw [Option.map_some, Option.any_some, Bool.and_eq_true]
    rintro ⟨reached, _⟩
    exact absurd (of_decide_eq_true reached) (Nat.not_le.mpr (moveBy_lt forward later))

/-- Without a boundary in its span a forward trim produces at most the minute event. -/
theorem trim_of_no_boundary (unowed : s.takeOwed = s) (produces : s.calendarProduces = true) (forward : 0 < amount)
    (none : ∀ t, s.nextBoundary = some t → (movedBy amount s).calendar.time < t) :
    s.trim amount = (movedBy amount s).reachMinute s.calendar.time := by
  obtain ⟨time, grace, _, next⟩ := calendar_reachMinute s.calendar.time (movedBy amount s)
  have trimmed : s.trim amount =
      (((movedBy amount s).reachMinute s.calendar.time).reachBoundary s.calendar.time).reachGrace := by
    rw [State.trim, unowed]
    exact if_pos forward
  have passed : ((movedBy amount s).reachMinute s.calendar.time).reachBoundary s.calendar.time =
      (movedBy amount s).reachMinute s.calendar.time := by
    rw [State.reachBoundary, next, nextBoundary_movedBy, time]
    cases held : s.nextBoundary with
    | none => rfl
    | some t =>
      have later := none t held
      exact if_neg (by
        rw [Bool.and_eq_true, decide_eq_true_eq, decide_eq_true_eq]
        exact fun reached => absurd (Nat.lt_of_lt_of_le later reached.2) (Nat.lt_irrefl _))
  rw [trimmed, passed]
  exact reachGrace_of_moved (graceDue_of_unowed unowed) produces forward time grace

/-- With a boundary in its span it produces that as well, and the expiry of the timer that this arms when the span holds
it too (R55, R58; log 41). -/
theorem trim_of_boundary (unowed : s.takeOwed = s) (produces : s.calendarProduces = true) (forward : 0 < amount)
    (next : s.nextBoundary = some t) (reached : t ≤ (movedBy amount s).calendar.time) :
    s.trim amount =
      let m := (movedBy amount s).reachMinute s.calendar.time
      let expiry := t + s.calendar.params.grace
      if expiry ≤ (movedBy amount s).calendar.time ∧ expiry < 3155759999 then (m.produceBoundary t).produceGrace
      else m.produceBoundary t := by
  obtain ⟨time, grace, params, next'⟩ := calendar_reachMinute s.calendar.time (movedBy amount s)
  have trimmed : s.trim amount =
      (((movedBy amount s).reachMinute s.calendar.time).reachBoundary s.calendar.time).reachGrace := by
    rw [State.trim, unowed]
    exact if_pos forward
  have ahead : s.calendar.time < t := by
    simpa [State.boundaryDue, produces, next] using boundaryDue_of_unowed unowed
  have passed : ((movedBy amount s).reachMinute s.calendar.time).reachBoundary s.calendar.time =
      ((movedBy amount s).reachMinute s.calendar.time).produceBoundary t := by
    rw [State.reachBoundary, next', nextBoundary_movedBy, time, next]
    exact if_pos (by rw [decide_eq_true ahead, decide_eq_true reached]; rfl)
  rw [trimmed, passed]
  generalize (movedBy amount s).reachMinute s.calendar.time = m at time params
  have armed : (m.produceBoundary t).calendar.grace =
      some { tag := m.produceGrace.calendar.currentTag, expiry := t + m.produceGrace.calendar.params.grace } := rfl
  have kept : m.produceGrace.calendar.params = m.calendar.params ∧ m.produceGrace.calendar.time = m.calendar.time := by
    rw [State.produceGrace]
    split <;> exact ⟨rfl, rfl⟩
  have moved : (movedBy amount s).calendar.params = s.calendar.params := rfl
  have stands : (m.produceBoundary t).calendar.time = m.produceGrace.calendar.time := rfl
  rw [State.reachGrace, armed, stands, kept.1, kept.2, params, moved, time]
  simp only [Option.any_some, Bool.and_eq_true, decide_eq_true_eq]
  rfl

/-- The checks of TRIM_TIME in their order. -/
theorem trimTime_eq (p : List Byte) (s : State) :
    trimTime p s =
      if signedByte p < -59 ∨ 59 < signedByte p then (s, refuse .outOfRange)
      else if s.calendar.isSet = false then (s, refuse .timeUnset)
      else if Int.ofNat s.calendar.time + signedByte p < 0 ∨ 3155759999 < Int.ofNat s.calendar.time + signedByte p then
        (s, refuse .outOfRange)
      else (if signedByte p = 0 then s else s.trim (signedByte p), okDone) := by
  rw [trimTime]
  cases s.calendar.isSet <;> rfl

end

/-- Settles O23: the checks in their order, the backward trim, and the forward trim by what lies in its span. -/
theorem trimTimeMovesTheCalendar : Obligations.TrimTimeMovesTheCalendar := by
  refine ⟨timeLayout, fun s p => ⟨fun issues => exec_of_request (own := readTime) rfl issues rfl, ?_⟩⟩
  intro issues a moved minute
  have answers {t : State} {x : Answer} (worked : trimTime p s = (t, x)) : exec .trimTime s = .next (t.respond x) :=
    exec_of_request (own := trimTime) rfl issues worked
  have eq := trimTime_eq p s
  have amount : signedByte p = a := rfl
  rw [amount] at eq
  refine ⟨fun outside => answers (eq.trans (if_pos outside)), fun low high => ?_⟩
  rw [if_neg (by omega)] at eq
  refine ⟨fun unset => answers (eq.trans (if_pos unset)), fun set => ?_⟩
  rw [if_neg (by rw [set]; nofun)] at eq
  refine ⟨fun outside => answers (eq.trans (if_pos outside)), fun above below => ?_⟩
  rw [if_neg (by omega)] at eq
  refine ⟨fun zero => answers (by rw [eq, if_pos zero]), fun unowed backward => answers ?back, ?forth⟩
  case back =>
    have trimmed : s.trim a = movedBy a s := by
      rw [State.trim, unowed]
      exact if_neg (by omega)
    rw [eq, if_neg (by omega), trimmed]
    rfl
  case forth =>
    intro unowed forward m
    rw [if_neg (by omega)] at eq
    have mode : s.mode ≠ .restarting := fun restarting => by
      have admitted := modeRefusal_of_issues issues
      rw [restarting] at admitted
      cases admitted
    have inside : s.calendar.time < 3155759999 := by
      have order : Int.ofNat s.calendar.time < 3155759999 := by omega
      exact Int.ofNat_lt.mp order
    have produces := calendarProduces_of set inside mode
    have minutes : (movedBy a s).reachMinute s.calendar.time = m := reachMinute_eq s.calendar.time (movedBy a s)
    refine ⟨fun none => answers ?_, fun t next reached => ?_⟩
    · rw [eq, trim_of_no_boundary unowed produces forward none, minutes]
    · intro expiry
      exact answers (by rw [eq, trim_of_boundary unowed produces forward next reached, minutes]; rfl)

end Sys2Proof.Machine.CalendarEvents
end

section
/-! The lanes (R64 to R78): what each frame, each event of the carrier and of the timer, and each boundary makes of a
lane. -/

namespace Sys2Proof.Machine.LaneEvents

open Sys2Proof Sys2Proof.Machine

/-! ### Operations on one lane -/

section

variable {n : Lane} {mode : Mode} {seq : Byte}

/-- A session opened in RUN announces the boundary and grants the allotment less the queued entries (R67, R68). -/
theorem openSession_of_run (tag : Tag) (time : Option Seconds) (n : Lane) :
    Lane.openSession .run tag time n =
      { n with
        outstanding := n.allotment - n.queued
        toSend := n.allotment - n.queued
        waiting := n.waiting ++ [.boundary tag time] ++ (if n.allotment - n.queued = 0 then [] else [.credit]) } := by
  rw [Lane.openSession, if_pos rfl]
  by_cases none : n.allotment - n.queued = 0
  · simp [Lane.grant, Lane.announce, Lane.send, none]
  · simp [Lane.grant, Lane.announce, Lane.send, none]

/-- In the other modes no credit is outstanding. -/
theorem openSession_of_other {mode : Mode} (other : mode ≠ .run) (tag : Tag) (time : Option Seconds) (n : Lane) :
    Lane.openSession mode tag time n = { n with outstanding := 0, toSend := 0 } := by
  rw [Lane.openSession, if_neg other]

/-- An error below the limit is counted (R70). -/
theorem countError_of_below (below : n.errorCount + 1 < n.errorLimit) (room : n.errorCount < 255) :
    n.countError = ({ n with errorCount := n.errorCount + 1 }, false) := by
  have counted : satAdd 255 n.errorCount 1 = n.errorCount + 1 := Nat.min_eq_left room
  simp only [Lane.countError, counted, if_neg (Nat.not_le.mpr below)]

/-- An error that reaches the limit isolates the lane (R69, R70). -/
theorem countError_of_limit (reached : n.errorLimit ≤ n.errorCount + 1) (room : n.errorCount < 255) :
    n.countError =
      ({ n with
        errorCount := n.errorCount + 1, state := .isolated, timer := false, waiting := [], outstanding := 0,
        toSend := 0 }, true) := by
  have counted : satAdd 255 n.errorCount 1 = n.errorCount + 1 := Nat.min_eq_left room
  simp only [Lane.countError, counted, if_pos reached, Lane.isolate, Lane.quiet]

/-- A frame discarded with no credit outstanding changes nothing (R74). -/
theorem discardFrame_of_none (none : n.outstanding = 0) : n.discardFrame mode = n := by
  simp [Lane.discardFrame, none]

/-- In RUN below the allotment the credit spent is granted back (R75, R78). -/
theorem discardFrame_of_granted (active : n.state = .active) (spent : 0 < n.outstanding) (run : mode = .run)
    (room : n.outstanding - 1 + n.queued < n.allotment) :
    n.discardFrame mode =
      { n with
        toSend := n.toSend + 1
        waiting := if n.toSend = 0 then n.waiting ++ [.credit] else n.waiting } := by
  have back : n.outstanding - 1 + 1 = n.outstanding := Nat.sub_add_cancel spent
  simp [Lane.discardFrame, Lane.returnCredit, Lane.grant, active, spent, run, room, back]

/-- Otherwise it is absorbed (R75). -/
theorem discardFrame_of_absorbed (spent : 0 < n.outstanding)
    (full : ¬(mode = .run ∧ n.outstanding - 1 + n.queued < n.allotment)) :
    n.discardFrame mode = { n with outstanding := n.outstanding - 1 } := by
  rw [Lane.discardFrame, if_pos spent, Lane.returnCredit]
  exact if_neg fun held => full held.2

/-- A frame discarded on an ACTIVE lane, by what its credit becomes (R74, R75). -/
theorem discardFrame_of_active (active : n.state = .active) :
    n.discardFrame mode =
      if 0 < n.outstanding then
        if mode = .run ∧ n.outstanding - 1 + n.queued < n.allotment then
          { n with
            toSend := n.toSend + 1
            waiting := if n.toSend = 0 then n.waiting ++ [.credit] else n.waiting }
        else { n with outstanding := n.outstanding - 1 }
      else n := by
  by_cases spent : 0 < n.outstanding
  · rw [if_pos spent]
    by_cases room : mode = .run ∧ n.outstanding - 1 + n.queued < n.allotment
    · rw [if_pos room, discardFrame_of_granted active spent room.1 room.2]
    · rw [if_neg room, discardFrame_of_absorbed spent room]
  · rw [if_neg spent, discardFrame_of_none (by omega)]

/-- A frame with a credit outstanding spends it and is queued (R73, R76). -/
theorem checkCredit_of_credit (credit : 0 < n.outstanding) :
    n.checkCredit = ({ n with outstanding := n.outstanding - 1, queued := n.queued + 1 }, .queued) := by
  rw [Lane.checkCredit, if_pos credit]

/-- A credit violation in the counters (R73). -/
def countViolation (n : Lane) : Lane :=
  { n with counters := { n.counters with creditViolations := min (n.counters.creditViolations + 1) 65535 } }

/-- A frame without one is a credit violation, and one error (R70, R73). -/
theorem checkCredit_of_none (none : n.outstanding = 0) :
    n.checkCredit =
      ((countViolation n).countError.1, if (countViolation n).countError.2 then .isolated else .discarded) := by
  rw [Lane.checkCredit, if_neg (by omega)]
  rfl

/-- A sequence gap in the counters (R72). -/
def countGap (n : Lane) : Lane :=
  { n with counters := { n.counters with sequenceGaps := min (n.counters.sequenceGaps + 1) 65535 } }

/-- A duplicate is discarded (R72). -/
theorem takeIncrement_of_duplicate (duplicate : n.lastSeq = some seq) :
    n.takeIncrement mode seq =
      (Lane.discardFrame mode
        { n with counters := { n.counters with duplicates := min (n.counters.duplicates + 1) 65535 } }, .discarded) :=
  if_pos duplicate

/-- A frame in sequence advances the sequence and comes to the credit check (R72). -/
theorem takeIncrement_of_expected (fresh : n.lastSeq ≠ some seq) (expected : n.expectedSeq = some seq) :
    n.takeIncrement mode seq = (n.advance seq).checkCredit :=
  (if_neg fresh).trans (if_pos expected)

/-- A gap below the error limit is counted, and the frame comes to the credit check (R72). -/
theorem takeIncrement_of_gap (fresh : n.lastSeq ≠ some seq) (gap : n.expectedSeq ≠ some seq)
    (below : n.errorCount + 1 < n.errorLimit) (room : n.errorCount < 255) :
    n.takeIncrement mode seq = (Lane.advance seq { countGap n with errorCount := n.errorCount + 1 }).checkCredit := by
  have counted : (countGap n).countError = ({ countGap n with errorCount := n.errorCount + 1 }, false) :=
    countError_of_below below room
  refine ((if_neg fresh).trans (if_neg gap)).trans ?_
  exact (congrArg (fun c : Lane × Bool => if c.2 = true then (c.1, Reception.isolated) else (c.1.advance seq).checkCredit)
    counted).trans rfl

/-- A gap that reaches the limit isolates the lane (R69, R72). -/
theorem takeIncrement_of_limit (fresh : n.lastSeq ≠ some seq) (gap : n.expectedSeq ≠ some seq)
    (reached : n.errorLimit ≤ n.errorCount + 1) (room : n.errorCount < 255) :
    n.takeIncrement mode seq =
      ({ countGap n with
        errorCount := n.errorCount + 1, state := .isolated, timer := false, waiting := [], outstanding := 0,
        toSend := 0 }, .isolated) := by
  have counted : (countGap n).countError = _ := countError_of_limit reached room
  refine ((if_neg fresh).trans (if_neg gap)).trans ?_
  exact (congrArg (fun c : Lane × Bool => if c.2 = true then (c.1, Reception.isolated) else (c.1.advance seq).checkCredit)
    counted).trans rfl

end

/-! ### The state with one lane changed -/

section

variable {s : State} {k : LaneNo} {n : Lane}

/-- A lane put back as it is changes nothing. -/
theorem putLane_self (s : State) (k : LaneNo) : s.putLane k (s.lane k) = s := by
  have same : s.lanes.set k.val s.lanes[k.val] = s.lanes := Vector.set_getElem_self _
  rw [State.putLane, State.lane, same]

theorem laneOutcome_of_discarded : s.laneOutcome k (n, .discarded) = s.putLane k n := by
  simp [State.laneOutcome]

theorem laneOutcome_of_isolated : s.laneOutcome k (n, .isolated) = State.raise .laneIsolated (s.putLane k n) := by
  simp [State.laneOutcome]

/-- An INCREMENT that is not queued leaves the Arrival Queue. -/
theorem receiveIncrement_of_outcome {f : IncrementFrame} {r : Reception} (taken : (s.lane k).takeIncrement s.mode f.seq = (n, r))
    (unqueued : r ≠ .queued) : s.receiveIncrement k f = s.laneOutcome k (n, r) := by
  rw [State.receiveIncrement, taken]
  exact if_neg unqueued

/-- One that is queued stands at the tail of it (R76). -/
theorem receiveIncrement_of_queued {f : IncrementFrame} (taken : (s.lane k).takeIncrement s.mode f.seq = (n, .queued)) :
    s.receiveIncrement k f = { s.putLane k n with arrivals := s.arrivals ++ [arrivalOf k f] } := by
  rw [State.receiveIncrement, taken]
  rfl

theorem exec_increment_of_active {f : IncrementFrame} (awake : s.atRest = false) (active : (s.lane k).state = .active) :
    exec (.increment k f) s = .next (s.receiveIncrement k f) :=
  congrArg Host.Outcome.next (if_neg (by rw [awake, active]; nofun))

end

/-! ### HELLO (R67, R68) -/

/-- Settles O27: by the state of the lane, and by the mode. -/
theorem helloOpensTheSession : Obligations.HelloOpensTheSession := by
  intro s k frontEnd firstSeq awake n base granted
  have ran : exec (.hello k frontEnd firstSeq) s =
      .next (s.putLane k (n.takeHello s.mode s.calendar.endedTag s.calendar.lastBoundary frontEnd firstSeq)) :=
    congrArg Host.Outcome.next (if_neg (by rw [awake]; nofun))
  have opened (live : n.state = .syncing ∨ n.state = .active) :
      n.takeHello s.mode s.calendar.endedTag s.calendar.lastBoundary frontEnd firstSeq =
        Lane.openSession s.mode s.calendar.endedTag s.calendar.lastBoundary base := by
    rcases live with syncing | active
    · simp only [Lane.takeHello, syncing, base, if_true]
    · simp only [Lane.takeHello, active, base, reduceCtorEq, if_false]
  constructor
  · intro live
    rw [ran, opened live]
    by_cases run : s.mode = .run
    · rw [if_pos run, run, openSession_of_run]
      rfl
    · rw [if_neg run, openSession_of_other run]
  · intro closed
    have kept : n.takeHello s.mode s.calendar.endedTag s.calendar.lastBoundary frontEnd firstSeq = n := by
      rcases closed with down | isolated
      · simp only [Lane.takeHello, down]
      · simp only [Lane.takeHello, isolated]
    rw [ran, kept, putLane_self]

end Sys2Proof.Machine.LaneEvents
end

section
/-! INCREMENT and malformed frames, the carrier and the timer, and the frames sent (R64 to R78). -/

namespace Sys2Proof.Machine.LaneEvents

open Sys2Proof Sys2Proof.Machine

/-! ### INCREMENT (R71 to R76) -/

section

variable {s : State} {k : LaneNo} {f : IncrementFrame}

/-- An INCREMENT in sequence, or a gap below the limit, with a credit outstanding is queued. -/
theorem increment_queued (awake : s.atRest = false) (active : (s.lane k).state = .active)
    (credit : 0 < (s.lane k).outstanding) (fresh : (s.lane k).lastSeq ≠ some f.seq)
    (kept : (s.lane k).expectedSeq = some f.seq ∨
      (s.lane k).errorCount + 1 < (s.lane k).errorLimit ∧ (s.lane k).errorLimit ≤ 255) :
    let n := s.lane k
    let inOrder := decide (n.expectedSeq = some f.seq)
    exec (.increment k f) s =
      .next
        { s.putLane k
            { n with
              lastSeq := some f.seq
              expectedSeq := some (f.seq + 1)
              outstanding := n.outstanding - 1
              queued := n.queued + 1
              errorCount := if inOrder then n.errorCount else n.errorCount + 1
              counters :=
                if inOrder then n.counters
                else { n.counters with sequenceGaps := min (n.counters.sequenceGaps + 1) 65535 } } with
          arrivals := s.arrivals ++ [arrivalOf k f] } := by
  intro n inOrder
  rw [exec_increment_of_active awake active]
  by_cases expected : n.expectedSeq = some f.seq
  · have spent : (n.advance f.seq).checkCredit = _ := checkCredit_of_credit credit
    have order : inOrder = true := decide_eq_true expected
    rw [receiveIncrement_of_queued ((takeIncrement_of_expected fresh expected).trans spent), order]
    rfl
  · obtain ⟨below, limit⟩ := kept.resolve_left expected
    have spent : (Lane.advance f.seq { countGap n with errorCount := n.errorCount + 1 }).checkCredit = _ :=
      checkCredit_of_credit credit
    have order : inOrder = false := decide_eq_false expected
    rw [receiveIncrement_of_queued ((takeIncrement_of_gap fresh expected below (by omega)).trans spent), order]
    rfl

/-- A duplicate is counted, and its credit handled as that of a discarded frame (R72, R74). -/
theorem increment_duplicate (awake : s.atRest = false) (active : (s.lane k).state = .active)
    (duplicate : (s.lane k).lastSeq = some f.seq) :
    exec (.increment k f) s =
      .next
        (s.putLane k
          (Lane.discardFrame s.mode
            { s.lane k with
              counters :=
                { (s.lane k).counters with duplicates := min ((s.lane k).counters.duplicates + 1) 65535 } })) := by
  rw [exec_increment_of_active awake active, receiveIncrement_of_outcome (takeIncrement_of_duplicate duplicate) nofun,
    laneOutcome_of_discarded]

/-- A credit violation that the limit allows leaves the lane as it is counted (R73). -/
theorem violation_of_below {n : Lane} (none : n.outstanding = 0) (below : n.errorCount + 1 < n.errorLimit)
    (room : n.errorCount < 255) :
    n.checkCredit = ({ countViolation n with errorCount := n.errorCount + 1 }, .discarded) := by
  have counted : (countViolation n).countError = ({ countViolation n with errorCount := n.errorCount + 1 }, false) :=
    countError_of_below below room
  rw [checkCredit_of_none none, counted]
  rfl

/-- One that reaches the limit isolates it (R69, R73). -/
theorem violation_of_limit {n : Lane} (none : n.outstanding = 0) (reached : n.errorLimit ≤ n.errorCount + 1)
    (room : n.errorCount < 255) :
    n.checkCredit =
      ({ countViolation n with
        errorCount := n.errorCount + 1, state := .isolated, timer := false, waiting := [], outstanding := 0,
        toSend := 0 }, .isolated) := by
  have counted : (countViolation n).countError = _ := countError_of_limit reached room
  rw [checkCredit_of_none none, counted]
  rfl

/-- An INCREMENT whose check leaves it discarded. -/
theorem increment_discarded {n : Lane} (awake : s.atRest = false) (active : (s.lane k).state = .active)
    (taken : (s.lane k).takeIncrement s.mode f.seq = (n, .discarded)) :
    exec (.increment k f) s = .next (s.putLane k n) := by
  rw [exec_increment_of_active awake active, receiveIncrement_of_outcome taken nofun, laneOutcome_of_discarded]

/-- An INCREMENT whose check isolates the lane. -/
theorem increment_isolated {n : Lane} (awake : s.atRest = false) (active : (s.lane k).state = .active)
    (taken : (s.lane k).takeIncrement s.mode f.seq = (n, .isolated)) :
    exec (.increment k f) s = .next (State.raise .laneIsolated (s.putLane k n)) := by
  rw [exec_increment_of_active awake active, receiveIncrement_of_outcome taken nofun, laneOutcome_of_isolated]

end

/-- Settles O28: the frames that are queued, and the others by their sequence, their credit and the error limit. -/
theorem incrementsAreQueuedOrDiscarded : Obligations.IncrementsAreQueuedOrDiscarded := by
  refine ⟨?queued, ?_⟩
  case queued =>
    intro s k f awake n active credit fresh kept
    exact increment_queued awake active credit fresh kept
  intro s k f awake n
  refine ⟨fun other => ?other, fun active duplicate => ?duplicate, fun active fresh expected none room => ?violation,
    fun active fresh gap limit room => ?gap⟩
  case other =>
    exact congrArg Host.Outcome.next (if_pos (by simpa [awake] using other))
  case duplicate =>
    have active' : ({ n with counters :=
        { n.counters with duplicates := min (n.counters.duplicates + 1) 65535 } } : Lane).state = .active := active
    have discarded := discardFrame_of_active (mode := s.mode) active'
    intro counted
    rw [increment_duplicate awake active duplicate, discarded]
  case violation =>
    intro counted
    have advanced := takeIncrement_of_expected (mode := s.mode) fresh expected
    exact ⟨fun below => increment_discarded awake active (advanced.trans (violation_of_below none below room)),
      fun reached => increment_isolated awake active (advanced.trans (violation_of_limit none reached room))⟩
  case gap =>
    intro gaps both
    refine ⟨fun reached => increment_isolated awake active (takeIncrement_of_limit fresh gap reached room),
      fun below none => ?below, fun reached none => ?reached⟩
    case below =>
      have advanced := takeIncrement_of_gap (mode := s.mode) fresh gap (by omega) room
      exact increment_discarded awake active (advanced.trans (violation_of_below none below (by
        have limited : n.errorCount + 1 < 255 := by omega
        exact limited)))
    case reached =>
      have advanced := takeIncrement_of_gap (mode := s.mode) fresh gap (by omega) room
      exact increment_isolated awake active (advanced.trans (violation_of_limit none (Nat.le_of_eq reached) (by
        have limited : n.errorCount + 1 < 255 := by omega
        exact limited)))

/-! ### Malformed frames (R64, R71) -/

section

variable {s : State} {k : LaneNo} {content : List Byte}

theorem exec_malformedFrame_of_malformed (awake : s.atRest = false) (malformed : receive content = .malformed) :
    exec (.malformedFrame k content) s = .next (s.laneOutcome k (Lane.takeMalformed s.mode (s.lane k))) :=
  congrArg Host.Outcome.next (if_neg (by rw [awake, malformed]; nofun))

/-- On an ACTIVE lane below the limit the frame is counted and its credit handled (R71, R74). -/
theorem takeMalformed_of_below {n : Lane} {mode : Mode} (active : n.state = .active)
    (below : n.errorCount + 1 < n.errorLimit) (room : n.errorCount < 255) :
    n.takeMalformed mode = (Lane.discardFrame mode { n.countCrc with errorCount := n.errorCount + 1 }, .discarded) := by
  have counted : n.countCrc.countError = ({ n.countCrc with errorCount := n.errorCount + 1 }, false) :=
    countError_of_below below room
  simp only [Lane.takeMalformed, active, counted, Bool.false_eq_true, if_false]

/-- At the limit it isolates the lane (R69, R70). -/
theorem takeMalformed_of_limit {n : Lane} {mode : Mode} (active : n.state = .active)
    (reached : n.errorLimit ≤ n.errorCount + 1) (room : n.errorCount < 255) :
    n.takeMalformed mode =
      ({ n.countCrc with
        errorCount := n.errorCount + 1, state := .isolated, timer := false, waiting := [], outstanding := 0,
        toSend := 0 }, .isolated) := by
  have counted : n.countCrc.countError = _ := countError_of_limit reached room
  simp only [Lane.takeMalformed, active, counted, if_true]
  rfl

end

/-- Settles O29: by the state of the lane, and on an ACTIVE one by the error limit and the credit. -/
theorem malformedFramesAreErrors : Obligations.MalformedFramesAreErrors := by
  intro s k content awake malformed n counters
  have ran := exec_malformedFrame_of_malformed (k := k) awake malformed
  refine ⟨fun closed => ?closed, fun syncing => ?syncing, fun active room => ?active⟩
  case closed =>
    have kept : n.takeMalformed s.mode = (n, .discarded) := by
      rcases closed with down | isolated
      · simp only [Lane.takeMalformed, down]
      · simp only [Lane.takeMalformed, isolated]
    rw [ran, kept, laneOutcome_of_discarded, putLane_self]
  case syncing =>
    have counted : n.takeMalformed s.mode = (n.countCrc, .discarded) := by simp only [Lane.takeMalformed, syncing]
    rw [ran, counted, laneOutcome_of_discarded]
    rfl
  case active =>
    intro counted
    have discarded {m : Lane} (below : n.errorCount + 1 < n.errorLimit)
        (handled : Lane.discardFrame s.mode { n.countCrc with errorCount := n.errorCount + 1 } = m) :
        exec (.malformedFrame k content) s = .next (s.putLane k m) := by
      rw [ran, takeMalformed_of_below active below room, handled, laneOutcome_of_discarded]
    refine ⟨fun below none => discarded below (discardFrame_of_none none),
      fun below spent run free => discarded below (discardFrame_of_granted active spent run free),
      fun below spent full => discarded below (discardFrame_of_absorbed spent full), fun reached => ?limit⟩
    case limit =>
      rw [ran, takeMalformed_of_limit active reached room, laneOutcome_of_isolated]
      rfl

/-! ### Carrier and timer (R65, R66, R69) -/

/-- Settles O30: each event by the state of the lane. -/
theorem carrierAndTimerEvents : Obligations.CarrierAndTimerEvents := by
  intro s k awake n lost
  have awake' : ¬s.atRest = true := by rw [awake]; nofun
  have timer : exec (.resyncTimerExpiry k) s = .next (s.laneOutcome k n.timerExpires) :=
    congrArg Host.Outcome.next (if_neg awake')
  refine ⟨congrArg Host.Outcome.next (if_neg awake'), fun down => ?appears, fun other => ?recorded, fun idle => ?idle,
    fun syncing armed => ⟨fun few => ?again, fun spent => ?isolated⟩⟩
  case appears =>
    have enters : (!s.atRest && (s.lane k).state == .down) = true := by rw [awake]; simpa using down
    have appeared : exec (.carrierAppear k) s = .next (s.putLane k { n with carrier := true }.enterSyncing) :=
      congrArg (fun m => Host.Outcome.next (s.putLane k m)) (if_pos enters)
    exact appeared
  case recorded =>
    have stays : ¬(!s.atRest && (s.lane k).state == .down) = true := by rw [awake]; simpa using other
    exact congrArg (fun m => Host.Outcome.next (s.putLane k m)) (if_neg stays)
  case idle =>
    have kept : n.timerExpires = (n, .discarded) := by
      refine if_neg fun ⟨syncing, armed⟩ => ?_
      rcases idle with other | off
      · exact other syncing
      · rw [off] at armed
        cases armed
    rw [timer, kept, laneOutcome_of_discarded, putLane_self]
  case again =>
    have sent : n.timerExpires = ({ n.send .resync with attempts := n.attempts + 1 }, .discarded) :=
      (if_pos ⟨syncing, armed⟩).trans (if_pos few)
    rw [timer, sent, laneOutcome_of_discarded]
    rfl
  case isolated =>
    have gone : n.timerExpires = (n.isolate, .isolated) :=
      (if_pos ⟨syncing, armed⟩).trans (if_neg (Nat.not_lt.mpr spent))
    rw [timer, gone, laneOutcome_of_isolated]
    rfl

/-! ### Frames sent (R77, R78) -/

/-- The head of the waiting frames is sent (R78). -/
theorem transmit_of_waiting {n : Lane} {f : WaitingFrame} {rest : List WaitingFrame} (waiting : n.waiting = f :: rest) :
    n.transmit =
      { n with
        waiting := rest
        toSend := if f = .credit then 0 else n.toSend
        lineOut := (f.frame n.toSend).wire } := by
  rw [Lane.transmit, waiting]

/-- A boundary on a lane (R70, R77). -/
theorem atBoundary_eq (tag : Tag) (time : Seconds) (n : Lane) :
    n.atBoundary tag time =
      { n with
        errorCount := 0
        waiting := if n.state = .active then n.waiting ++ [.boundary tag (some time)] else n.waiting } := by
  by_cases active : n.state = .active
  · rw [if_pos active, Lane.atBoundary]
    exact if_pos active
  · rw [if_neg active, Lane.atBoundary]
    exact if_neg active

/-- Settles O31: the transmitter by whether a frame waits, and the boundary by the mode. -/
theorem lanesSendFrames : Obligations.LanesSendFrames := by
  intro s k awake
  have awake' : ¬s.atRest = true := by rw [awake]; nofun
  have sends : exec (.transmitFrame k) s = .next (s.putLane k (s.lane k).transmit) :=
    congrArg Host.Outcome.next (if_neg awake')
  have takes : exec .laneBoundary s = .next s.takeLaneBoundary := congrArg Host.Outcome.next (if_neg awake')
  refine ⟨fun f rest waiting => ?sent, fun none => ?unsent, fun tag time rest run handed => ?told,
    fun b rest other handed => ?dropped⟩
  case sent =>
    rw [sends, transmit_of_waiting waiting]
    cases f <;> rfl
  case unsent =>
    have kept : (s.lane k).transmit = s.lane k := by rw [Lane.transmit, none]
    rw [sends, kept, putLane_self]
  case told =>
    have each : Lane.atBoundary tag time = fun n : Lane =>
        { n with
          errorCount := 0
          waiting := if n.state = .active then n.waiting ++ [.boundary tag (some time)] else n.waiting } :=
      funext (atBoundary_eq tag time)
    have taken : s.takeLaneBoundary =
        State.mapLanes (Lane.atBoundary tag time) { s with laneBoundaries := rest } := by
      rw [State.takeLaneBoundary, handed]
      exact if_pos run
    rw [takes, taken, each]
    rfl
  case dropped =>
    have taken : s.takeLaneBoundary = { s with laneBoundaries := rest } := by
      rw [State.takeLaneBoundary, handed]
      exact if_neg other
    rw [takes, taken]

end Sys2Proof.Machine.LaneEvents
end

section
/-! RESTORE_LANE, SET_LANE and READ_LANE (R80 to R82). -/

namespace Sys2Proof.Machine.LaneRequestRules

open Sys2Proof Sys2Proof.Machine
open Sys2Proof.Machine.AccountLayouts Sys2Proof.Machine.CalendarEvents

/-! ### READ_LANE's answer (Table 11-3) -/

def laneParts (n : Lane) : List (List Byte) :=
  [[byte n.state.code], [byte (bits [n.frontEnd.isSome, n.lastSeq.isSome, n.expectedSeq.isSome, n.carrier])],
    le 2 (n.frontEnd.getD 0).toNat, [n.lastSeq.getD 0], [n.expectedSeq.getD 0], [byte n.outstanding], [byte n.toSend],
    [byte n.queued], [byte n.allotment], [byte n.errorLimit], [byte n.errorCount], [byte n.attempts],
    le 2 n.counters.crcErrors, le 2 n.counters.sequenceGaps, le 2 n.counters.duplicates,
    le 2 n.counters.creditViolations, le 2 n.counters.refusals]

theorem laneBytes_eq (n : Lane) : n.bytes = (laneParts n).flatten := by
  simp only [Lane.bytes, LaneCounters.bytes, laneParts, List.flatten_cons, List.flatten_nil, List.append_assoc,
    List.append_nil, List.cons_append, List.nil_append]

/-- A byte of a row is its own number. -/
theorem at_byte_of_part {parts : List (List Byte)} {widths : List Nat} {b : Byte} {offset : Nat}
    (sizes : parts.map List.length = widths) (k : Nat) (present : parts[k]? = some [b])
    (stands : (widths.take k).sum = offset) : At offset 1 b.toNat parts.flatten :=
  at_of_part sizes k (present.trans (congrArg (fun b => some [b]) (LinkFrames.byte_toNat_self b).symm)) stands

theorem laneLayout (n : Lane) : n.LaneLayout n.bytes := by
  have sizes : (laneParts n).map List.length = [1, 1, 2, 1, 1, 1, 1, 1, 1, 1, 1, 1, 2, 2, 2, 2, 2] := rfl
  obtain ⟨flag, small⟩ := flags_of_part (offset := 1) sizes 1 rfl rfl (by simp)
  rw [laneBytes_eq]
  refine ⟨length_row sizes, at_of_part sizes 0 rfl rfl, flag 0, flag 1, flag 2, flag 3, ?small, at_of_part sizes 2 rfl rfl,
    at_byte_of_part sizes 3 rfl rfl, at_byte_of_part sizes 4 rfl rfl, at_of_part sizes 5 rfl rfl,
    at_of_part sizes 6 rfl rfl, at_of_part sizes 7 rfl rfl, at_of_part sizes 8 rfl rfl, at_of_part sizes 9 rfl rfl,
    at_of_part sizes 10 rfl rfl, at_of_part sizes 11 rfl rfl, at_of_part sizes 12 rfl rfl, at_of_part sizes 13 rfl rfl,
    at_of_part sizes 14 rfl rfl, at_of_part sizes 15 rfl rfl, at_of_part sizes 16 rfl rfl⟩
  case small =>
    rw [small]
    exact bits_lt _

/-! ### The requests -/

section

variable {s : State} {p : List Byte} {k : LaneNo}

theorem laneOf_of_above {n : Nat} (above : 3 < n) : laneOf n = none := dif_neg (by omega)

theorem laneOf_val (k : LaneNo) : laneOf k.val = some k := dif_pos k.isLt

theorem restoreLane_of_lane (names : field 0 1 p = k.val) :
    restoreLane p s =
      if (s.lane k).state = .isolated ∨ ((s.lane k).state = .down ∧ (s.lane k).carrier = true) then
        (s.putLane k (s.lane k).enterSyncing, okDone)
      else (s, refuse .wrongState) := by
  simp only [restoreLane, names, laneOf_val]

theorem setLane_of_lane (names : field 0 1 p = k.val) :
    setLane p s =
      if 1 ≤ field 1 1 p ∧ field 1 1 p ≤ Config.maxAllotment ∧ 1 ≤ field 2 1 p ∧ field 2 1 p ≤ 255 then
        (s.putLane k (Lane.set s.mode (field 1 1 p) (field 2 1 p) (s.lane k)), okDone)
      else (s, refuse .outOfRange) := by
  simp only [setLane, names, laneOf_val]

theorem readLane_of_lane (names : field 0 1 p = k.val) :
    readLane p s = (s.putLane k { s.lane k with counters := .zero }, okWith (s.lane k).bytes) := by
  simp only [readLane, names, laneOf_val]

/-- A field of one byte is below 256. -/
theorem field_byte_le (offset : Nat) (p : List Byte) : field offset 1 p ≤ 255 := by
  rw [field]
  cases p.drop offset with
  | nil => exact Nat.zero_le _
  | cons b rest =>
    have bound := b.isLt
    simp only [List.take_succ_cons, List.take_zero, leValue]
    omega

/-- A lane with its new allotment: what it has been raised by is granted on an ACTIVE lane in RUN (R81). -/
theorem set_eq (mode : Mode) (allotment errorLimit : Nat) (n : Lane) :
    n.set mode allotment errorLimit =
      if n.state = .active ∧ mode = .run ∧ 0 < allotment - (n.outstanding + n.queued) then
        { n with
          allotment := allotment
          errorLimit := errorLimit
          outstanding := n.outstanding + (allotment - (n.outstanding + n.queued))
          toSend := n.toSend + (allotment - (n.outstanding + n.queued))
          waiting := if n.toSend = 0 then n.waiting ++ [.credit] else n.waiting }
      else { n with allotment := allotment, errorLimit := errorLimit } := by
  generalize more : allotment - (n.outstanding + n.queued) = m
  by_cases live : n.state = .active ∧ mode = .run
  · rw [Lane.set]
    refine (if_pos live).trans ?_
    by_cases none : m = 0
    · rw [if_neg (by omega)]
      exact if_pos (more.trans none)
    · rw [if_pos ⟨live.1, live.2, by omega⟩, ← more]
      exact if_neg (by rw [more]; exact none)
  · rw [if_neg fun h => live ⟨h.1, h.2.1⟩, Lane.set]
    exact if_neg live

/-- A lane number above 3 refuses each of the three requests. -/
theorem laneRequests_of_above {c : RequestCode} (named : c ∈ [RequestCode.restoreLane, .setLane, .readLane])
    (issues : s.Issues c p) (above : 3 < field 0 1 p) : exec c.command s = .next (s.respond (refuse .outOfRange)) := by
  have none := laneOf_of_above above
  simp only [List.mem_cons, List.not_mem_nil, or_false] at named
  rcases named with rfl | rfl | rfl
  · exact exec_of_request (own := restoreLane) rfl issues (by rw [restoreLane, none])
  · exact exec_of_request (own := setLane) rfl issues (by rw [setLane, none])
  · exact exec_of_request (own := readLane) rfl issues (by rw [readLane, none])

end

/-- Settles O32: the layout part by part, and each request by the state of the lane or by its ranges. -/
theorem laneRequests : Obligations.LaneRequests := by
  refine ⟨rfl, laneLayout, fun s p c named issues above => laneRequests_of_above named issues above, ?_⟩
  intro s p k names n
  refine ⟨fun issues => ⟨fun stopped => ?restored, fun live => ?unrestored⟩,
    fun issues => ⟨fun low high limit => ?set, fun outside => ?unset⟩, fun issues => ?read⟩
  case restored =>
    exact exec_of_request (own := restoreLane) rfl issues ((restoreLane_of_lane names).trans (if_pos stopped))
  case unrestored =>
    refine exec_of_request (own := restoreLane) rfl issues ((restoreLane_of_lane names).trans (if_neg fun stopped => ?_))
    rcases live with syncing | active | ⟨down, dark⟩
    · rw [syncing] at stopped
      simp at stopped
    · rw [active] at stopped
      simp at stopped
    · rw [down, dark] at stopped
      simp at stopped
  case set =>
    intro more
    have ranges := setLane_of_lane (s := s) names
    rw [if_pos ⟨low, high, limit, field_byte_le 2 p⟩, set_eq] at ranges
    exact exec_of_request (own := setLane) rfl issues ranges
  case unset =>
    refine exec_of_request (own := setLane) rfl issues ((setLane_of_lane names).trans (if_neg fun inside => ?_))
    have most : Config.maxAllotment = 8 := rfl
    omega
  case read => exact exec_of_request (own := readLane) rfl issues (readLane_of_lane names)

end Sys2Proof.Machine.LaneRequestRules
end

section
/-! The requests on intakes (R90 to R97): the addressing checks of R90 said once for all of them, READ_INTAKE's answer part
by part, and what each request writes on a sound intake. -/

namespace Sys2Proof.Machine.IntakeRequestRules

open Sys2Proof Sys2Proof.Machine
open Sys2Proof.Machine.AccountLayouts Sys2Proof.Machine.LaneRequestRules Sys2Proof.Machine.Ownership
open Sys2Proof.Machine.PeriodSettlement Sys2Proof.Machine.RequestRules

/-! ### The addressing checks of R90 -/

theorem intakeOf_val (i : IntakeNo) : intakeOf i.val = some i := dif_pos i.isLt

/-- A number above 95 names no intake. -/
theorem intakeOf_of_above {n : Nat} (above : 95 < n) : intakeOf n = none := dif_neg (by omega)

section

variable {x : Intake}

theorem state_of_unmarked (unmarked : x.faultMark = false) : x.state = x.phase.state := by
  rw [Intake.state, unmarked]
  rfl

theorem state_of_marked (mark : x.faultMark = true) : x.state = .faulted := if_pos mark

theorem state_ne_undefined (unmarked : x.faultMark = false) (defined : x.phase ≠ .undefined) : x.state ≠ .undefined := by
  rw [state_of_unmarked unmarked]
  cases phase : x.phase with
  | undefined => exact absurd phase defined
  | free | member => decide

end

section

variable {l : Ledger} {i : IntakeNo} {n : Nat} {admits : Bool} {own : IntakeNo → Intake → Ledger → Ledger × Answer}

theorem checkIntake_of_failingIntake (failing : l.FailingIntake i) : l.checkIntake i = l.withIntakeMarked i :=
  Ledger.checkIntake_of_failing failing.1 failing.2

theorem addressIntake_of_above (above : 95 < n) : addressIntake n true admits l own = (l, refuse .outOfRange) := by
  rw [addressIntake, intakeOf_of_above above]

theorem addressIntake_of_undefined (names : n = i.val) (unmarked : (l.intake i).faultMark = false)
    (undefined : (l.intake i).phase = .undefined) : addressIntake n true false l own = (l, refuse .noSuchIntake) := by
  have state : (l.intake i).state = .undefined := by rw [state_of_unmarked unmarked, undefined]; rfl
  simp [addressIntake, names, intakeOf_val, state]

theorem addressIntake_of_mark (names : n = i.val) (mark : (l.intake i).faultMark = true) :
    addressIntake n true admits l own = (l, refuse .faulted) := by
  simp [addressIntake, names, intakeOf_val, state_of_marked mark, Ledger.checkIntake_of_sound (.inl mark), mark]

theorem addressIntake_of_failing (names : n = i.val) (failing : l.FailingIntake i)
    (admitted : admits = true ∨ (l.intake i).phase ≠ .undefined) :
    addressIntake n true admits l own = (l.withIntakeMarked i, refuse .faulted) := by
  have passes : ¬((l.intake i).state = .undefined && !admits) = true := by
    rcases admitted with admits | defined
    · simp [admits]
    · simp [state_ne_undefined failing.1 defined]
  have marked : ((l.withIntakeMarked i).intake i).faultMark = true := by simp [Ledger.withIntakeMarked]
  simp only [addressIntake, names, intakeOf_val, Bool.not_true, Bool.false_eq_true, if_false, if_neg passes,
    checkIntake_of_failingIntake failing, marked, if_true]

/-- On a sound intake that the request admits, its own work is what remains. -/
theorem addressIntake_of_soundIntake (names : n = i.val) (sound : l.SoundIntake i)
    (admitted : admits = true ∨ (l.intake i).phase ≠ .undefined) :
    addressIntake n true admits l own = own i (l.intake i) l :=
  addressIntake_sound (by rw [names, intakeOf_val])
    (admitted.symm.imp_left (state_ne_undefined sound.1)) sound.1 sound.2

end

/-- With these parameters the request is the addressing checks, and then work of its own. -/
def AddressesIntake (work : List Byte → Calendar → Mode → Ledger → Ledger × Answer) (p : List Byte) (admits : Bool) : Prop :=
  ∀ c mode l, ∃ own, work p c mode l = addressIntake (field 0 1 p) true admits l own

section

variable {s : State} {k : RequestCode} {c : Instr} {p : List Byte} {admits : Bool}
  {work : List Byte → Calendar → Mode → Ledger → Ledger × Answer}

theorem exec_of_above (runs : exec c s = .next (runRecordRequest k work s)) (issues : s.Issues k p)
    (addresses : AddressesIntake work p admits) (above : 95 < field 0 1 p) :
    exec c s = .next (s.respond (refuse .outOfRange)) := by
  obtain ⟨own, worked⟩ := addresses s.calendar s.mode s.ledger
  exact exec_of_refusal runs issues (worked.trans (addressIntake_of_above above)) rfl

/-- On an UNDEFINED intake that is not admitted, on a marked intake and on a failing one, such a request is refused. -/
theorem exec_of_unsoundIntake {i : IntakeNo} (runs : exec c s = .next (runRecordRequest k work s)) (granted : s.Granted k p)
    (addresses : AddressesIntake work p admits) (names : field 0 1 p = i.val) :
    (admits = false → (s.ledger.intake i).faultMark = false → (s.ledger.intake i).phase = .undefined →
        exec c s = .next (s.answered s.ledger (refuse .noSuchIntake))) ∧
      ((s.ledger.intake i).faultMark = true → exec c s = .next (s.answered s.ledger (refuse .faulted))) ∧
      (s.ledger.FailingIntake i → admits = true ∨ (s.ledger.intake i).phase ≠ .undefined →
        exec c s = .next (s.answered (s.ledger.withIntakeMarked i) (refuse .faulted))) := by
  obtain ⟨own, worked⟩ := addresses s.calendar s.mode s.ledger
  refine ⟨fun strict unmarked undefined => ?_, fun mark => ?_, fun failing admitted => ?_⟩
  · subst strict
    exact exec_of_work runs granted (worked.trans (addressIntake_of_undefined names unmarked undefined)) rfl
  · exact exec_of_work runs granted (worked.trans (addressIntake_of_mark names mark)) rfl
  · exact exec_of_work runs granted (worked.trans (addressIntake_of_failing names failing admitted)) rfl

end

/-! ### The ranges of DEFINE_INTAKE (R91) -/

section

variable {p : List Byte}

theorem laneAndScale_of_inside {k : LaneNo} (lane : field 1 1 p = k.val) (least : 1 ≤ field 2 4 p)
    (most : field 2 4 p ≤ 1000000) : laneAndScale p = some (k, field 2 4 p) := by
  rw [laneAndScale, lane, laneOf_val]
  exact if_pos ⟨least, most⟩

theorem laneAndScale_of_outside (outside : 3 < field 1 1 p ∨ field 2 4 p < 1 ∨ 1000000 < field 2 4 p) :
    laneAndScale p = none := by
  rw [laneAndScale]
  rcases Nat.lt_or_ge 3 (field 1 1 p) with above | inside
  · rw [laneOf_of_above above]
  · have named : laneOf (field 1 1 p) = some ⟨field 1 1 p, by omega⟩ := dif_pos (by omega)
    rw [named]
    refine if_neg fun held => ?_
    have limit : Config.maxScale = 1000000 := rfl
    omega

/-- Within its ranges DEFINE_INTAKE addresses an intake, an UNDEFINED one too. -/
theorem addresses_defineIntake (lane : ¬3 < field 1 1 p) (least : ¬field 2 4 p < 1) (most : ¬1000000 < field 2 4 p) :
    AddressesIntake defineIntake p true := by
  intro c mode l
  have ranges := laneAndScale_of_inside (p := p) (k := ⟨field 1 1 p, by omega⟩) rfl (by omega) (by omega)
  exact ⟨_, by rw [defineIntake, ranges]⟩

end

/-- What R90 says of one request on an intake but ASSIGN_INTAKE. -/
def AddressingRules (s : State) (k : RequestCode) (p : List Byte) : Prop :=
  let bad :=
    95 < field 0 1 p ∨ (k = .defineIntake ∧ (3 < field 1 1 p ∨ field 2 4 p < 1 ∨ 1000000 < field 2 4 p))
  (bad → exec k.command s = .next (s.respond (refuse .outOfRange))) ∧
  ∀ i : IntakeNo, s.requestTurn = true → ¬bad → field 0 1 p = i.val →
    let x := s.ledger.intake i
    (k ≠ .defineIntake → x.faultMark = false → x.phase = .undefined →
      exec k.command s = .next (s.answered s.ledger (refuse .noSuchIntake))) ∧
    (x.faultMark = true → exec k.command s = .next (s.answered s.ledger (refuse .faulted))) ∧
    (s.ledger.FailingIntake i → k = .defineIntake ∨ x.phase ≠ .undefined →
      exec k.command s = .next (s.answered (s.ledger.withIntakeMarked i) (refuse .faulted)))

/-- R90 for a request that has no ranges but the intake number and admits no UNDEFINED intake. -/
theorem addressing_of_strict {s : State} {p : List Byte} {k : RequestCode}
    {work : List Byte → Calendar → Mode → Ledger → Ledger × Answer}
    (runs : exec k.command s = .next (runRecordRequest k work s)) (issues : s.Issues k p)
    (addresses : AddressesIntake work p false) (other : k ≠ .defineIntake) : AddressingRules s k p := by
  unfold AddressingRules
  intro bad
  refine ⟨fun outside => exec_of_above runs issues addresses (outside.resolve_right fun h => other h.1),
    fun i turn _ names => ?_⟩
  obtain ⟨undefined, mark, failing⟩ := exec_of_unsoundIntake runs ⟨issues, turn⟩ addresses names
  exact ⟨fun _ => undefined rfl, mark, fun fails admitted => failing fails (.inr (admitted.resolve_left other))⟩

/-- R90 for DEFINE_INTAKE. -/
theorem addressing_of_define {s : State} {p : List Byte} (issues : s.Issues .defineIntake p) :
    AddressingRules s .defineIntake p := by
  unfold AddressingRules
  intro bad
  by_cases ranges : 3 < field 1 1 p ∨ field 2 4 p < 1 ∨ 1000000 < field 2 4 p
  · refine ⟨fun _ => exec_of_refusal (work := defineIntake) rfl issues (by rw [defineIntake, laneAndScale_of_outside ranges]) rfl,
      fun i turn inside => absurd (.inr ⟨rfl, ranges⟩) inside⟩
  · rw [not_or, not_or] at ranges
    obtain ⟨lane, least, most⟩ := ranges
    have addresses := addresses_defineIntake lane least most
    refine ⟨fun outside => exec_of_above (work := defineIntake) rfl issues addresses (outside.resolve_right fun h => ?_),
      fun i turn _ names => ?_⟩
    · omega
    · obtain ⟨_, mark, failing⟩ := exec_of_unsoundIntake (c := .defineIntake) (work := defineIntake) rfl ⟨issues, turn⟩ addresses names
      exact ⟨fun other => absurd rfl other, mark, fun fails _ => failing fails (.inl rfl)⟩

/-! ### READ_INTAKE's answer (Table 11-7) -/

def intakeParts (state : IntakeState) (x : Intake) : List (List Byte) :=
  [[byte state.code], [byte x.lane], le 4 x.scale, [byte (x.owner.elim absentNumber (·.val))],
    [byte (bits [x.ownerSince.isSome, x.change.isSome, x.change.elim false (·.target.isNone), x.lastReported.isSome,
      x.silent])],
    [x.ownerSince.getD 0], [byte ((x.change.bind (·.target)).elim absentNumber (·.val))], [x.change.elim 0 (·.tag)],
    [x.lastReported.getD 0], [byte x.silentCount], le 6 x.held.imp, le 6 x.held.exp, le 6 x.held.lag, le 6 x.held.lead]

theorem intakeBytes_eq (state : IntakeState) (x : Intake) : x.bytes state = (intakeParts state x).flatten := by
  simp only [Intake.bytes, Energy.bytes, intakeParts, List.flatten_cons, List.flatten_nil, List.append_assoc,
    List.append_nil, List.cons_append, List.nil_append]

theorem intakeLayout (state : IntakeState) (x : Intake) : x.IntakeLayout state (x.bytes state) := by
  have sizes : (intakeParts state x).map List.length = [1, 1, 4, 1, 1, 1, 1, 1, 1, 1, 6, 6, 6, 6] := rfl
  obtain ⟨flag, small⟩ := flags_of_part (offset := 7) sizes 4 rfl rfl (by simp)
  rw [intakeBytes_eq]
  refine ⟨length_row sizes, at_of_part sizes 0 rfl rfl, at_of_part sizes 1 rfl rfl, at_of_part sizes 2 rfl rfl, ?owner,
    flag 0, flag 1, ?leave, flag 3, flag 4, ?small, at_byte_of_part sizes 5 rfl rfl, ?target, ?tag,
    at_byte_of_part sizes 8 rfl rfl, at_of_part sizes 9 rfl rfl, at_of_part sizes 10 rfl rfl, at_of_part sizes 11 rfl rfl,
    at_of_part sizes 12 rfl rfl, at_of_part sizes 13 rfl rfl⟩
  case owner =>
    have spelt := at_of_part (offset := 6) (w := 1) sizes 3 rfl rfl
    cases owner : x.owner <;> (rw [owner] at spelt; exact spelt)
  case leave =>
    have spelt := flag 2
    cases change : x.change <;> (simp only [change] at spelt ⊢; exact spelt)
  case small =>
    rw [small]
    exact bits_lt _
  case target =>
    have spelt := at_of_part (offset := 9) (w := 1) sizes 6 rfl rfl
    rcases change : x.change with _ | ⟨_ | a, tag⟩ <;> (rw [change] at spelt; exact spelt)
  case tag =>
    have spelt := at_byte_of_part (offset := 10) sizes 7 rfl rfl
    cases change : x.change <;> (rw [change] at spelt; exact spelt)

/-! ### The work on a sound intake -/

section

variable {p : List Byte} {c : Calendar} {mode : Mode} {l : Ledger} {i : IntakeNo}

theorem state_eq_member_iff {x : Intake} (unmarked : x.faultMark = false) : x.state = .member ↔ x.phase = .member := by
  rw [state_of_unmarked unmarked]
  cases x.phase <;> simp [IntakePhase.state]

theorem defineIntake_of_soundIntake {k : LaneNo} (names : field 0 1 p = i.val) (sound : l.SoundIntake i)
    (lane : field 1 1 p = k.val) (least : 1 ≤ field 2 4 p) (most : field 2 4 p ≤ 1000000) :
    defineIntake p c mode l =
      if (l.intake i).phase = .member then (l, refuse .intakeOwned)
      else if (l.intake i).change.isSome then (l, refuse .changePending)
      else (l.putIntake i ((l.intake i).defined k (field 2 4 p)), okDone) := by
  rw [defineIntake, laneAndScale_of_inside lane least most]
  refine (addressIntake_of_soundIntake names sound (.inl rfl)).trans ?_
  simp only [state_eq_member_iff sound.1]

theorem readIntake_of_soundIntake (names : field 0 1 p = i.val) (sound : l.SoundIntake i)
    (defined : (l.intake i).phase ≠ .undefined) :
    readIntake p c mode l = (l, okWith ((l.intake i).bytes (l.intake i).state)) :=
  addressIntake_of_soundIntake names sound (.inr defined)

theorem collectHeld_of_soundIntake (names : field 0 1 p = i.val) (sound : l.SoundIntake i)
    (defined : (l.intake i).phase ≠ .undefined) :
    collectHeld p c mode l =
      (l.putIntake i { l.intake i with held := .zero }, okWith (l.intake i).held.bytes) :=
  addressIntake_of_soundIntake names sound (.inr defined)

theorem unassignIntake_of_soundIntake (names : field 0 1 p = i.val) (sound : l.SoundIntake i)
    (defined : (l.intake i).phase ≠ .undefined) :
    unassignIntake p c mode l =
      if (l.intake i).phase = .member then
        if (l.intake i).change.isSome then (l, refuse .changePending)
        else
          match (l.intake i).owner with
          | some a => unassignMember c mode i a l
          | none => (l, refuse .wrongState)
      else if (l.intake i).change.isSome then (l.putIntake i (l.intake i).withoutChange, okDone)
      else (l, refuse .wrongState) := by
  refine (addressIntake_of_soundIntake names sound (.inr defined)).trans ?_
  simp only [state_eq_member_iff sound.1] <;> rfl

/-- A member of a sound account leaves by its pending change in RUN, and at once in COMMISSIONING. -/
theorem unassignMember_of_soundAccount {a : Slot} (sound : l.SoundAccount a) :
    unassignMember c mode i a l =
      if mode = .run then
        (l.putIntake i { l.intake i with change := some { target := none, tag := c.currentTag } }, okDone)
      else ((l.putAccount a ((l.account a).leave i)).putIntake i (l.intake i).released, okDone) := by
  have same : l.checkAccount a = l := Ledger.checkAccount_of_sound (.inr sound.2)
  simp only [unassignMember, same, sound.1, Bool.false_eq_true, if_false]

theorem unassignMember_of_mark {a : Slot} (mark : (l.account a).faultMark = true) :
    unassignMember c mode i a l = (l, refuse .faulted) := by
  have same : l.checkAccount a = l := Ledger.checkAccount_of_sound (.inl mark)
  simp only [unassignMember, same, mark, if_true]

theorem unassignMember_of_failing {a : Slot} (failing : l.FailingAccount a) :
    unassignMember c mode i a l = (l.withAccountMarked a, refuse .faulted) := by
  have marked : ((l.withAccountMarked a).account a).faultMark = true := by simp [Ledger.withAccountMarked]
  simp only [unassignMember, checkAccount_of_failingAccount failing, marked, if_true]

end

theorem isSome_of_ne_none {α : Type} {o : Option α} (some : o ≠ none) : o.isSome = true :=
  Option.isSome_iff_ne_none.mpr some

/-- An intake without a pending change has none to remove as it is released. -/
theorem released_of_unchanged {x : Intake} (unchanged : x.change = none) :
    x.released = { x with phase := .free, owner := none, ownerSince := none } := by
  cases x
  cases unchanged
  rfl

/-- Settles O35: the addressing checks once for all requests, the layout part by part, and each request's own work. -/
theorem intakeRequests : Obligations.IntakeRequests := by
  refine ⟨fun s p k named issues => ?addressed, rfl, intakeLayout, fun s p i names sound => ?_⟩
  case addressed =>
    simp only [List.mem_cons, List.not_mem_nil, or_false] at named
    rcases named with rfl | rfl | rfl | rfl
    · exact addressing_of_define issues
    · exact addressing_of_strict (work := unassignIntake) rfl issues (fun _ _ _ => ⟨_, rfl⟩) (by decide)
    · exact addressing_of_strict (work := readIntake) rfl issues (fun _ _ _ => ⟨_, rfl⟩) (by decide)
    · exact addressing_of_strict (work := collectHeld) rfl issues (fun _ _ _ => ⟨_, rfl⟩) (by decide)
  intro x
  refine ⟨fun granted k lane least most => ?define, fun defined => ⟨fun granted => ?read, fun granted => ?collect⟩,
    fun undefined => ⟨fun granted => ?unread, fun granted => ?uncollected⟩⟩
  case define =>
    have worked := defineIntake_of_soundIntake (c := s.calendar) (mode := s.mode) names sound lane least most
    refine ⟨fun other unchanged => ?_, fun member => ?_, fun other changed => ?_⟩
    · have idle : ¬(s.ledger.intake i).change.isSome = true := by rw [unchanged]; decide
      rw [if_neg other, if_neg idle] at worked
      exact exec_of_work (work := defineIntake) rfl granted worked rfl
    · rw [if_pos member] at worked
      exact exec_of_work (work := defineIntake) rfl granted worked rfl
    · rw [if_neg other, if_pos (isSome_of_ne_none changed)] at worked
      exact exec_of_work (work := defineIntake) rfl granted worked rfl
  case read =>
    exact exec_of_work (work := readIntake) rfl granted (readIntake_of_soundIntake names sound defined) rfl
  case collect =>
    exact exec_of_work (work := collectHeld) rfl granted (collectHeld_of_soundIntake names sound defined) rfl
  case unread =>
    exact exec_of_work (work := readIntake) rfl granted (addressIntake_of_undefined names sound.1 undefined) rfl
  case uncollected =>
    exact exec_of_work (work := collectHeld) rfl granted (addressIntake_of_undefined names sound.1 undefined) rfl

/-- Settles O37: by the intake's phase, its pending change, the account that owns it and the mode. -/
theorem unassignIntakeLeaves : Obligations.UnassignIntakeLeaves := by
  intro s p i granted names sound x
  have worked (defined : x.phase ≠ .undefined) :=
    unassignIntake_of_soundIntake (c := s.calendar) (mode := s.mode) names sound defined
  refine ⟨fun free changed => ?joining, fun free unchanged => ?idle, fun member changed => ?pending,
    fun a member unchanged owner => ?member⟩
  case joining =>
    have worked := worked (by rw [free]; decide)
    rw [if_neg (by rw [free]; decide), if_pos (isSome_of_ne_none changed)] at worked
    exact exec_of_work (work := unassignIntake) rfl granted worked rfl
  case idle =>
    have idle : ¬(s.ledger.intake i).change.isSome = true := by rw [unchanged]; decide
    have worked := worked (by rw [free]; decide)
    rw [if_neg (by rw [free]; decide), if_neg idle] at worked
    exact exec_of_work (work := unassignIntake) rfl granted worked rfl
  case pending =>
    have worked := worked (by rw [member]; decide)
    rw [if_pos member, if_pos (isSome_of_ne_none changed)] at worked
    exact exec_of_work (work := unassignIntake) rfl granted worked rfl
  case member =>
    have idle : ¬(s.ledger.intake i).change.isSome = true := by rw [unchanged]; decide
    have leaves : unassignIntake p s.calendar s.mode s.ledger = unassignMember s.calendar s.mode i a s.ledger := by
      have worked := worked (by rw [member]; decide)
      rw [if_pos member, if_neg idle] at worked
      rw [worked]
      rw [owner]
    refine ⟨fun mark => ?_, fun failing => ?_, fun soundOwner => ⟨fun run => ?_, fun commissioning => ?_⟩⟩
    · exact exec_of_work (work := unassignIntake) rfl granted (leaves.trans (unassignMember_of_mark mark)) rfl
    · exact exec_of_work (work := unassignIntake) rfl granted (leaves.trans (unassignMember_of_failing failing)) rfl
    · exact exec_of_work (work := unassignIntake) rfl granted
        (leaves.trans ((unassignMember_of_soundAccount soundOwner).trans (if_pos run))) rfl
    · have notRun : s.mode ≠ .run := by rw [commissioning]; decide
      have left := leaves.trans ((unassignMember_of_soundAccount soundOwner).trans (if_neg notRun))
      rw [released_of_unchanged unchanged] at left
      exact exec_of_work (work := unassignIntake) rfl granted left rfl

end Sys2Proof.Machine.IntakeRequestRules
end

section
/-! ASSIGN_INTAKE (R92, R93): its refusals in their order, and the join of a sound FREE intake to a sound account in a
billing state. -/

namespace Sys2Proof.Machine.IntakeJoins

open Sys2Proof Sys2Proof.Machine
open Sys2Proof.Machine.IntakeRequestRules Sys2Proof.Machine.Ownership Sys2Proof.Machine.PeriodSettlement
open Sys2Proof.Machine.RequestRules

section

variable {p : List Byte} {c : Calendar} {mode : Mode} {l : Ledger} {i : IntakeNo} {a : Slot}

/-! ### The verification of all 96 intakes -/

/-- A ledger that keeps everything but its intakes and its attention. -/
theorem eq_with_intakes {m : Ledger} (accounts : m.accounts = l.accounts) (tariffs : m.tariffs = l.tariffs)
    (pool : m.pool = l.pool) (work : m.closeWork = l.closeWork) :
    m = { l with intakes := m.intakes, attention := m.attention } := by
  cases l
  cases m
  cases accounts
  cases tariffs
  cases pool
  cases work
  rfl

theorem checkIntakes_eq_with (l : Ledger) :
    l.checkIntakes = { l with intakes := l.checkIntakes.intakes, attention := l.checkIntakes.attention } :=
  eq_with_intakes l.checkIntakes_accounts l.checkIntakes_tariffs l.checkIntakes_pool l.checkIntakes_closeWork

theorem intake_checkIntakes_of_failing (failing : l.FailingIntake i) :
    l.checkIntakes.intake i = { l.intake i with faultMark := true } := by
  rw [Ledger.intake_checkIntakes, failing.1, failing.2]
  rfl

theorem intake_checkIntakes_of_not_failing (stands : ¬l.FailingIntake i) : l.checkIntakes.intake i = l.intake i := by
  rw [Ledger.intake_checkIntakes]
  refine if_pos ?_
  cases mark : (l.intake i).faultMark with
  | true => rfl
  | false =>
    rw [Bool.false_or]
    exact (Bool.not_eq_false _).mp fun fails => stands ⟨mark, fails⟩

/-- The verification leaves every pending change. -/
theorem change_checkIntakes (j : IntakeNo) : (l.checkIntakes.intake j).change = (l.intake j).change := by
  rw [Ledger.intake_checkIntakes]
  split <;> rfl

theorem account_checkIntakes (a : Slot) : l.checkIntakes.account a = l.account a := by
  simp only [Ledger.account, Ledger.checkIntakes_accounts]

/-- An intake joins an account when its pending change has it as the target. -/
theorem joining_eq (a : Slot) (x : Intake) : x.joining a = ((x.change.map (·.target)) == some (some a)) := by
  rcases change : x.change with _ | ⟨_ | b, tag⟩
  · simp [Intake.joining, change]
  · simp [Intake.joining, change]
  · simp [Intake.joining, change, Bool.beq_comm]

/-- The joins counted after the verification are those before it. -/
theorem length_joiners_checkIntakes (a : Slot) :
    (l.checkIntakes.joiners a).length =
      allIntakes.countP fun j => ((l.intake j).change.map (·.target)) == some (some a) := by
  rw [Ledger.joiners, ← List.countP_eq_length_filter]
  refine List.countP_congr fun j _ => ?_
  rw [joining_eq, change_checkIntakes]

/-! ### The refusals -/

theorem addresses_assignIntake (inside : ¬63 < field 1 1 p) : AddressesIntake assignIntake p false := by
  intro c mode l
  have named : slotOf (field 1 1 p) = some ⟨field 1 1 p, by omega⟩ := dif_pos (by omega)
  exact ⟨_, by rw [assignIntake, named]⟩

/-- ASSIGN_INTAKE after the checks of the intake: the account, the intake's phase and change, the billing state. -/
theorem assignIntake_of_soundIntake (names : field 0 1 p = i.val) (target : field 1 1 p = a.val)
    (sound : l.SoundIntake i) (defined : (l.intake i).phase ≠ .undefined) :
    assignIntake p c mode l =
      if (l.account a).state = .free then (l, refuse .noSuchAccount)
      else if ((l.checkAccount a).account a).faultMark then (l.checkAccount a, refuse .faulted)
      else if (l.intake i).phase = .member then (l.checkAccount a, refuse .intakeOwned)
      else if (l.intake i).change.isSome then (l.checkAccount a, refuse .changePending)
      else if !((l.checkAccount a).account a).bills then (l.checkAccount a, refuse .wrongState)
      else
        let l := (l.checkAccount a).checkIntakes
        if Config.memberLimit ≤ (l.account a).members.length + (l.joiners a).length then (l, refuse .membersFull)
        else (assign c mode i a l, okDone) := by
  rw [assignIntake, target, slotOf_val]
  refine (addressIntake_of_soundIntake names sound (.inr defined)).trans ?_
  simp only [state_eq_member_iff sound.1]

theorem assignIntake_of_free (names : field 0 1 p = i.val) (target : field 1 1 p = a.val) (sound : l.SoundIntake i)
    (defined : (l.intake i).phase ≠ .undefined) (free : (l.account a).state = .free) :
    assignIntake p c mode l = (l, refuse .noSuchAccount) :=
  (assignIntake_of_soundIntake names target sound defined).trans (if_pos free)

theorem assignIntake_of_mark (names : field 0 1 p = i.val) (target : field 1 1 p = a.val) (sound : l.SoundIntake i)
    (defined : (l.intake i).phase ≠ .undefined) (mark : (l.account a).faultMark = true) :
    assignIntake p c mode l = (l, refuse .faulted) := by
  have same : l.checkAccount a = l := Ledger.checkAccount_of_sound (.inl mark)
  rw [assignIntake_of_soundIntake names target sound defined, if_neg (by rw [state_of_mark mark]; decide), same,
    if_pos mark]

theorem assignIntake_of_failing (names : field 0 1 p = i.val) (target : field 1 1 p = a.val) (sound : l.SoundIntake i)
    (defined : (l.intake i).phase ≠ .undefined) (failing : l.FailingAccount a) :
    assignIntake p c mode l = (l.withAccountMarked a, refuse .faulted) := by
  have marked : ((l.withAccountMarked a).account a).faultMark = true := by simp [Ledger.withAccountMarked]
  rw [assignIntake_of_soundIntake names target sound defined,
    if_neg (mt (state_eq_free_iff failing.1).mp failing.2.1), checkAccount_of_failingAccount failing, if_pos marked]

/-- With a sound account the intake's phase, its change and the billing state remain, and then the room. -/
theorem assignIntake_of_sound (names : field 0 1 p = i.val) (target : field 1 1 p = a.val) (sound : l.SoundIntake i)
    (defined : (l.intake i).phase ≠ .undefined) (soundTarget : l.SoundAccount a)
    (notFree : (l.account a).phase ≠ .free) :
    assignIntake p c mode l =
      if (l.intake i).phase = .member then (l, refuse .intakeOwned)
      else if (l.intake i).change.isSome then (l, refuse .changePending)
      else if !(l.account a).bills then (l, refuse .wrongState)
      else if 8 ≤ (l.account a).members.length + (l.checkIntakes.joiners a).length then
        (l.checkIntakes, refuse .membersFull)
      else (assign c mode i a l.checkIntakes, okDone) := by
  have same : l.checkAccount a = l := Ledger.checkAccount_of_sound (.inr soundTarget.2)
  rw [assignIntake_of_soundIntake names target sound defined,
    if_neg (mt (state_eq_free_iff soundTarget.1).mp notFree), same, if_neg (ne_true_of_eq_false soundTarget.1)]
  dsimp only
  rw [account_checkIntakes]
  rfl

end

/-- The refusals of ASSIGN_INTAKE by its ranges and by the intake. -/
theorem assignIntake_refuses_intake {s : State} {p : List Byte} (issues : s.Issues .assignIntake p) :
    (95 < field 0 1 p ∨ 63 < field 1 1 p → exec .assignIntake s = .next (s.respond (refuse .outOfRange))) ∧
      ∀ (i : IntakeNo) (a : Slot), s.requestTurn = true → field 0 1 p = i.val → field 1 1 p = a.val →
        ((s.ledger.intake i).faultMark = false → (s.ledger.intake i).phase = .undefined →
          exec .assignIntake s = .next (s.answered s.ledger (refuse .noSuchIntake))) ∧
        ((s.ledger.intake i).faultMark = true → exec .assignIntake s = .next (s.answered s.ledger (refuse .faulted))) ∧
        (s.ledger.FailingIntake i → (s.ledger.intake i).phase ≠ .undefined →
          exec .assignIntake s = .next (s.answered (s.ledger.withIntakeMarked i) (refuse .faulted))) := by
  refine ⟨fun outside => ?_, fun i a turn names target => ?_⟩
  · by_cases above : 63 < field 1 1 p
    · exact exec_of_refusal (work := assignIntake) rfl issues (by rw [assignIntake, slotOf_of_above above]) rfl
    · exact exec_of_above (work := assignIntake) rfl issues (addresses_assignIntake above) (outside.resolve_right above)
  · obtain ⟨undefined, mark, failing⟩ := exec_of_unsoundIntake (c := .assignIntake) (work := assignIntake) rfl ⟨issues, turn⟩
      (addresses_assignIntake (by omega)) names
    exact ⟨undefined rfl, mark, fun fails defined => failing fails (.inr defined)⟩

/-- Settles O36: the refusals in their order, and the join by the room, after the verification of all intakes. -/
theorem assignIntakeJoins : Obligations.AssignIntakeJoins := by
  refine ⟨fun s p issues => ?refusals, ?joins⟩
  case refusals =>
    obtain ⟨outside, addressed⟩ := assignIntake_refuses_intake issues
    refine ⟨outside, fun i a turn names target => ?_⟩
    obtain ⟨undefined, mark, failing⟩ := addressed i a turn names target
    refine ⟨undefined, mark, fun unmarked defined fails => failing ⟨unmarked, fails⟩ defined,
      fun sound defined => ⟨fun unmarked free => ?_, fun marked => ?_, fun unmarked notFree fails => ?_,
        fun soundTarget notFree => ?sound⟩⟩
    · exact exec_of_work (work := assignIntake) rfl ⟨issues, turn⟩
        (assignIntake_of_free names target sound defined ((state_eq_free_iff unmarked).mpr free)) rfl
    · exact exec_of_work (work := assignIntake) rfl ⟨issues, turn⟩
        (assignIntake_of_mark names target sound defined marked) rfl
    · exact exec_of_work (work := assignIntake) rfl ⟨issues, turn⟩
        (assignIntake_of_failing names target sound defined ⟨unmarked, notFree, fails⟩) rfl
    case sound =>
      have worked :=
        assignIntake_of_sound (c := s.calendar) (mode := s.mode) names target sound defined soundTarget notFree
      refine ⟨fun member => ?_, fun free changed => ?_, fun free unchanged final => ?_⟩
      · rw [if_pos member] at worked
        exact exec_of_work (work := assignIntake) rfl ⟨issues, turn⟩ worked rfl
      · rw [if_neg (by rw [free]; decide), if_pos (isSome_of_ne_none changed)] at worked
        exact exec_of_work (work := assignIntake) rfl ⟨issues, turn⟩ worked rfl
      · have idle : ¬(s.ledger.intake i).change.isSome = true := by rw [unchanged]; decide
        have billsNot : (!(s.ledger.account a).bills) = true := by
          rw [Account.bills, (state_eq_final_iff soundTarget.1).mpr final]
          rfl
        rw [if_neg (by rw [free]; decide), if_neg idle, if_pos billsNot] at worked
        exact exec_of_work (work := assignIntake) rfl ⟨issues, turn⟩ worked rfl
  case joins =>
    intro s p i a granted names target sound free unchanged soundTarget bills x acc count
    have idle : ¬(s.ledger.intake i).change.isSome = true := by rw [unchanged]; decide
    have billsNot : ¬(!(s.ledger.account a).bills) = true := by rw [bills]; decide
    have notFree : (s.ledger.account a).phase ≠ .free := fun isFree => by
      rw [Account.bills, (state_eq_free_iff soundTarget.1).mpr isFree] at bills
      exact nomatch bills
    have worked := assignIntake_of_sound (c := s.calendar) (mode := s.mode) names target sound (by rw [free]; decide)
      soundTarget notFree
    rw [if_neg (by rw [free]; decide), if_neg idle, if_neg billsNot, length_joiners_checkIntakes] at worked
    have sameIntake : s.ledger.checkIntakes.intake i = x := intake_checkIntakes_of_sound sound
    have sameAccount : s.ledger.checkIntakes.account a = acc := account_checkIntakes a
    refine ⟨s.ledger.checkIntakes, checkIntakes_eq_with _,
      fun j => ⟨intake_checkIntakes_of_failing, intake_checkIntakes_of_not_failing⟩,
      fun ⟨j, failing⟩ => Ledger.attention_checkIntakes j failing.1 failing.2, Ledger.checkIntakes_of_settled,
      fun full => ?full, fun room => ⟨fun run => ?run, fun commissioning => ?commissioning⟩⟩
    case full =>
      exact exec_of_work (work := assignIntake) rfl granted (worked.trans (if_pos full)) rfl
    case run =>
      rw [if_neg (Nat.not_le.mpr room), assign, if_pos run, sameIntake] at worked
      exact exec_of_work (work := assignIntake) rfl granted worked rfl
    case commissioning =>
      have notRun : s.mode ≠ .run := by rw [commissioning]; decide
      rw [if_neg (Nat.not_le.mpr room), assign, if_neg notRun, sameIntake, sameAccount] at worked
      exact exec_of_work (work := assignIntake) rfl granted worked rfl

end Sys2Proof.Machine.IntakeJoins
end

section
/-! Placement (R98 to R103): when the Accumulation Engine takes an entry and what leaves the queue with it, which entries are
refused, and where the energy of an accepted one goes. -/

namespace Sys2Proof.Machine.Placement

open Sys2Proof Sys2Proof.Machine
open Sys2Proof.Machine.Arbitration Sys2Proof.Machine.IntakeRequestRules Sys2Proof.Machine.PeriodSettlement

/-! ### The turn of the Accumulation Engine -/

/-- A HELD engine, and one that waits for a boundary's work, has no turn. -/
theorem no_turn_of_held {s : State} (waits : s.engine = .held ∨ s.boundaryOpen = true) :
    s.turn .accumulationEngine ≠ true := by
  intro turn
  obtain ⟨-, notHeld, closed, -⟩ := placementWaits_iff.mp (State.placementWaits_of_turn turn)
  rcases waits with held | open'
  · exact notHeld held
  · rw [open'] at closed
    exact nomatch closed

theorem afterPlacement_eq (engine : EngineState) :
    engine.afterPlacement = if engine = .stopping then .held else engine := by
  cases engine <;> rfl

/-- An account whose slot the entry completed has at most one item in the list (R111). -/
theorem addCompleteness_eq (tag : Tag) (a : Slot) (work : List WorkItem) :
    addCompleteness tag a work =
      if work.any fun w => match w with | .completeness b _ => b == a | _ => false then work
      else work ++ [.completeness a tag] := by
  refine ite_congr (congrArg (work.any · = true) ?_) (fun _ => rfl) fun _ => rfl
  funext w
  cases w with
  | completeness b _ => exact Bool.beq_comm
  | boundary _ _ _ | grace _ _ | minute _ => rfl

/-- The entry at the head leaves the queue with what its placement left. -/
theorem takeEntry_of_queued {s : State} {e : QueueEntry} {rest : List QueueEntry} (queued : s.arrivals = e :: rest) :
    s.takeEntry = s.finishPlacement e rest (placeEntry s.calendar s.mode e s.ledger) := by
  rw [State.takeEntry, queued]

/-! ### Refused entries (R99) -/

section

variable {c : Calendar} {mode : Mode} {e : QueueEntry} {l : Ledger} {i : IntakeNo}

/-- What the placement of a refused entry leaves. -/
def refusedEntry (l : Ledger) : Placed := { ledger := l, refused := true, completed := none }

theorem placeEntry_of_above (above : 95 < e.intake.toNat) : placeEntry c mode e l = refusedEntry l := by
  rw [placeEntry, intakeOf_of_above above]
  rfl

theorem placeEntry_of_refused (names : e.intake.toNat = i.val)
    (refuses : refusesEntry c e ((l.checkIntake i).intake i) = true) :
    placeEntry c mode e l = refusedEntry (l.checkIntake i) := by
  rw [placeEntry, names, intakeOf_val]
  exact if_pos refuses

theorem refusesEntry_of_mark {x : Intake} (mark : x.faultMark = true) : refusesEntry c e x = true := by
  rw [refusesEntry, state_of_marked mark]
  rfl

theorem placeEntry_of_mark (names : e.intake.toNat = i.val) (mark : (l.intake i).faultMark = true) :
    placeEntry c mode e l = refusedEntry l := by
  have same : l.checkIntake i = l := Ledger.checkIntake_of_sound (.inl mark)
  rw [placeEntry_of_refused names (refusesEntry_of_mark (by rw [same]; exact mark)), same]

theorem placeEntry_of_failing (names : e.intake.toNat = i.val) (failing : l.FailingIntake i) :
    placeEntry c mode e l = refusedEntry (l.withIntakeMarked i) := by
  have marked : ((l.withIntakeMarked i).intake i).faultMark = true := by simp [Ledger.withIntakeMarked]
  rw [placeEntry_of_refused names, checkIntake_of_failingIntake failing]
  rw [checkIntake_of_failingIntake failing]
  exact refusesEntry_of_mark marked

/-- On an unmarked intake an entry is refused exactly by the intake's phase, its lane and the tag distance. -/
theorem refusesEntry_iff {x : Intake} (unmarked : x.faultMark = false) :
    refusesEntry c e x = true ↔
      x.phase = .undefined ∨ x.lane ≠ e.lane ∨ 15 < (c.currentTag - 1 - e.tag).toNat := by
  have limit : Config.lateDistance < c.distance e.tag ↔ 15 < (c.currentTag - 1 - e.tag).toNat := Iff.rfl
  rw [refusesEntry, state_of_unmarked unmarked, Bool.or_eq_true, Bool.or_eq_true, Bool.or_eq_true, bne_iff_ne,
    decide_eq_true_eq, limit, ne_comm, or_assoc]
  refine or_congr ?_ Iff.rfl
  cases x.phase <;> decide

theorem placeEntry_of_unfit (names : e.intake.toNat = i.val) (sound : l.SoundIntake i)
    (unfit : (l.intake i).phase = .undefined ∨ (l.intake i).lane ≠ e.lane ∨ 15 < (c.currentTag - 1 - e.tag).toNat) :
    placeEntry c mode e l = refusedEntry l := by
  have same : l.checkIntake i = l := Ledger.checkIntake_of_sound (.inr sound.2)
  rw [placeEntry_of_refused names (by rw [same]; exact (refusesEntry_iff sound.1).mpr unfit), same]

/-- An entry that fits its sound intake has its energy placed. -/
theorem placeEntry_of_fit (names : e.intake.toNat = i.val) (sound : l.SoundIntake i)
    (defined : (l.intake i).phase ≠ .undefined) (lane : (l.intake i).lane = e.lane)
    (near : (c.currentTag - 1 - e.tag).toNat ≤ 15) : placeEntry c mode e l = placeEnergy c mode e i l := by
  refine placeEntry_of_accepted (by rw [names, intakeOf_val]) sound.2 ((Bool.not_eq_true _).mp fun refuses => ?_)
  rcases (refusesEntry_iff sound.1).mp refuses with undefined | other | far
  · exact defined undefined
  · exact other lane
  · exact absurd near (Nat.not_le.mpr far)

end

/-- Settles O38: the turn, what leaves the queue with the entry, and the refusals of R99. -/
theorem placementTakesTheHeadEntry : Obligations.PlacementTakesTheHeadEntry := by
  refine ⟨fun s waits => congrArg Host.Outcome.next (if_neg (no_turn_of_held waits)), fun s e rest turn queued => ?_⟩
  intro placed n
  refine ⟨?taken, placeEntry_of_above, fun i names => ⟨placeEntry_of_mark names, placeEntry_of_failing names,
    placeEntry_of_unfit names⟩⟩
  case taken =>
    have taken : exec .placeEntry s = .next (s.finishPlacement e rest placed) :=
      (congrArg Host.Outcome.next (if_pos turn)).trans (congrArg _ (takeEntry_of_queued queued))
    rw [taken, State.finishPlacement, afterPlacement_eq]
    cases placed.completed with
    | none => rfl
    | some a =>
      dsimp only
      rw [addCompleteness_eq]
      rfl

/-! ### The effective owner (R100) -/

/-- The account whose energy an entry's tag names. -/
def effectiveOwner (c : Calendar) (tag : Tag) (x : Intake) : Option Slot :=
  match x.change with
  | none => x.owner
  | some change =>
    if (c.currentTag - tag).toNat ≤ (c.currentTag - change.tag).toNat then change.target else x.owner

theorem effectiveOwner_eq (c : Calendar) (tag : Tag) (x : Intake) :
    x.effectiveOwner c tag = (effectiveOwner c tag x, decide (effectiveOwner c tag x = x.owner)) :=
  Intake.effectiveOwner_eq c tag x

/-- The ledger once the effective owner has been verified. -/
def verifyOwner (owner : Option Slot) (l : Ledger) : Ledger :=
  match owner with
  | none => l
  | some a => l.checkAccount a

theorem intake_verifyOwner (owner : Option Slot) (l : Ledger) (i : IntakeNo) :
    (verifyOwner owner l).intake i = l.intake i := by
  cases owner with
  | none => rfl
  | some a => simp only [verifyOwner, Ledger.intake, Ledger.checkAccount_intakes]

/-! ### Held energy (R101) -/

theorem isZero_iff (e : Energy) : e.isZero = true ↔ e = .zero := by
  cases e
  simp [Energy.isZero, Energy.zero, and_assoc]

/-- HELD_ENERGY is raised when the held energy leaves zero. -/
theorem holdEnergy_eq (i : IntakeNo) (e : Energy) (l : Ledger) :
    holdEnergy i e l =
      if (l.intake i).held = .zero ∧ (l.intake i).held.add e ≠ .zero then
        (l.putIntake i { l.intake i with held := (l.intake i).held.add e }).raise .heldEnergy
      else l.putIntake i { l.intake i with held := (l.intake i).held.add e } := by
  have leaves : ((l.intake i).held.isZero && !((l.intake i).held.add e).isZero) = true ↔
      (l.intake i).held = .zero ∧ (l.intake i).held.add e ≠ .zero := by
    rw [Bool.and_eq_true, isZero_iff, Bool.not_eq_true', ← Bool.not_eq_true, isZero_iff]
  rw [holdEnergy]
  simp only [Ledger.raiseIf, leaves]

section

variable {c : Calendar} {mode : Mode} {e : QueueEntry} {l : Ledger} {i : IntakeNo}

/-- The tag is earlier than the present owner's owner-since tag. -/
theorem beforeOwner_iff {x : Intake} {tag : Tag} :
    x.beforeOwner c tag = true ↔
      ∃ since, x.ownerSince = some since ∧ (c.currentTag - since).toNat < (c.currentTag - tag).toNat := by
  rw [Intake.beforeOwner]
  cases x.ownerSince with
  | none => simp
  | some since =>
    refine ⟨fun earlier => ⟨since, rfl, of_decide_eq_true earlier⟩, fun ⟨_, present, earlier⟩ => ?_⟩
    cases present
    exact decide_eq_true earlier

/-- Without an effective owner, and with one that R101 does not let take it, the energy is held. -/
theorem placeEnergy_of_held
    (holds : effectiveOwner c e.tag (l.intake i) = none ∨
      (∃ a, effectiveOwner c e.tag (l.intake i) = some a ∧
        ((verifyOwner (effectiveOwner c e.tag (l.intake i)) l).account a).state ≠ .active) ∨
      (effectiveOwner c e.tag (l.intake i) = (l.intake i).owner ∧ (l.intake i).beforeOwner c e.tag = true) ∨
      mode = .commissioning) :
    placeEnergy c mode e i l =
      { ledger := holdEnergy i (e.energy (l.intake i).scale) (verifyOwner (effectiveOwner c e.tag (l.intake i)) l)
        refused := false
        completed := none } := by
  rw [placeEnergy, effectiveOwner_eq]
  generalize effectiveOwner c e.tag (l.intake i) = owner at holds ⊢
  cases owner with
  | none => rfl
  | some a =>
    refine if_pos ?_
    rw [Bool.or_eq_true, Bool.or_eq_true, Bool.and_eq_true, decide_eq_true_eq, bne_iff_ne, beq_iff_eq]
    rcases holds with none | ⟨b, owner, inactive⟩ | before | commissioning
    · exact nomatch none
    · cases owner
      exact .inl (.inl inactive)
    · exact .inl (.inr before)
    · exact .inr commissioning

/-- In RUN a sound ACTIVE effective owner, from its owner-since tag on, takes the energy. -/
theorem placeEnergy_of_billed {a : Slot} (owner : effectiveOwner c e.tag (l.intake i) = some a)
    (since : ¬(effectiveOwner c e.tag (l.intake i) = (l.intake i).owner ∧ (l.intake i).beforeOwner c e.tag = true))
    (sound : l.SoundAccount a) (active : (l.account a).state = .active) :
    placeEnergy c .run e i l = placeInAccount c e i a l := by
  have same : l.checkAccount a = l := Ledger.checkAccount_of_sound (.inr sound.2)
  rw [owner] at since
  rw [placeEnergy, effectiveOwner_eq, owner]
  dsimp only
  rw [same]
  refine if_neg ?_
  rw [Bool.or_eq_true, Bool.or_eq_true, Bool.and_eq_true, decide_eq_true_eq, bne_iff_ne, beq_iff_eq]
  rintro ((inactive | before) | commissioning)
  · exact inactive active
  · exact since before
  · exact nomatch commissioning

end

/-- Settles O39: the accepted entry's energy is placed, and each of R101's four grounds holds it. -/
theorem placementHoldsEnergy : Obligations.PlacementHoldsEnergy := by
  intro c mode e l i names sound defined lane near x effective verified holds held zero
  have before (since : ∃ since, x.ownerSince = some since ∧
      (c.currentTag - since).toNat < (c.currentTag - e.tag).toNat) : x.beforeOwner c e.tag = true :=
    beforeOwner_iff.mpr since
  have placed := (placeEntry_of_fit (mode := mode) names sound defined lane near).trans
    (placeEnergy_of_held (holds.imp_right fun h => h.imp_right fun h => h.imp_left fun h => ⟨h.1, before h.2⟩))
  rw [placed, holdEnergy_eq, intake_verifyOwner]
  rfl

/-! ### Billed energy (R102, R103) -/

theorem atLimit_eq (p : Period) :
    p.atLimit =
      (decide (p.energy.imp = Config.max48 ∨ p.energy.exp = Config.max48 ∨ p.energy.lag = Config.max48 ∨
          p.energy.lead = Config.max48) ||
        decide (p.late.imp = Config.max48 ∨ p.late.lag = Config.max48 ∨ p.late.lead = Config.max48)) := by
  rw [Bool.eq_iff_iff]
  simp [Period.atLimit, or_assoc]

theorem flagSaturation_eq (p : Period) :
    p.flagSaturation =
      { p with
        saturated := p.saturated ||
          decide (p.energy.imp = Config.max48 ∨ p.energy.exp = Config.max48 ∨ p.energy.lag = Config.max48 ∨
            p.energy.lead = Config.max48) ||
          decide (p.late.imp = Config.max48 ∨ p.late.lag = Config.max48 ∨ p.late.lead = Config.max48) } := by
  rw [Period.flagSaturation, atLimit_eq, Bool.or_assoc]

/-- LAST marks the intake reported where it is expected. -/
theorem expected_take (i : IntakeNo) (last : Bool) (expected : List ExpectedMember) :
    (if last then markReported i expected else expected) =
      expected.map fun m => if last = true ∧ m.intake = i then { m with reported := true } else m := by
  cases last with
  | true => simp [markReported]
  | false => simp

/-- The tag distance is 0 exactly at the tag that ended last. -/
theorem distance_eq_zero_iff (c : Calendar) (tag : Tag) : c.distance tag = 0 ↔ tag = c.currentTag - 1 := by
  rw [Calendar.distance, Calendar.endedTag]
  bv_omega

section

variable {c : Calendar} {e : QueueEntry} {i : IntakeNo} {a : Slot} {l : Ledger}

theorem placeInAccount_of_onTime {p : PendingSlot} (slot : (l.account a).storedSlot = some p)
    (onTime : e.tag = c.currentTag - 1) (tags : p.tag = e.tag) :
    placeInAccount c e i a l =
      { ledger :=
          (l.putIntake i ((l.intake i).reportPlaced e.tag)).putAccount a
            { l.account a with
              period := (l.account a).period.addOnTime (e.energy (l.intake i).scale)
              storedSlot := some (p.take i (e.energy (l.intake i).scale) e.last e.doubtful) }
        refused := false
        completed := if (p.take i (e.energy (l.intake i).scale) e.last e.doubtful).complete then some a else none } := by
  rw [placeInAccount]
  simp only [slot]
  exact if_pos ⟨(distance_eq_zero_iff c e.tag).mpr onTime, tags⟩

theorem placeInAccount_of_late
    (late : ∀ p, (l.account a).storedSlot = some p → e.tag ≠ c.currentTag - 1 ∨ p.tag ≠ e.tag) :
    placeInAccount c e i a l =
      { ledger :=
          (l.putIntake i ((l.intake i).reportPlaced e.tag)).putAccount a
            { l.account a with period := (l.account a).period.addLate (e.energy (l.intake i).scale) }
        refused := false
        completed := none } := by
  rw [placeInAccount]
  split
  next p slot =>
    refine if_neg fun onTime => ?_
    rcases late p slot with distant | other
    · exact distant ((distance_eq_zero_iff c e.tag).mp onTime.1)
    · exact other onTime.2
  next => rfl

end

/-- Settles O40: the accumulators with their saturation, and the placement on time and late. -/
theorem placementBillsEnergy : Obligations.PlacementBillsEnergy := by
  refine ⟨fun e p => ?accumulators, ?placement⟩
  case accumulators =>
    intro limit energy late full
    exact ⟨flagSaturation_eq _, flagSaturation_eq _⟩
  case placement =>
    intro c e l i a names sound defined lane near x effective owner since soundOwner active acc energy reported
    have state : acc.state = .active := (AccountStates.state_eq_active_iff soundOwner.1).mpr active
    have placed : placeEntry c .run e l = placeInAccount c e i a l := by
      refine (placeEntry_of_fit names sound defined lane near).trans
        (placeEnergy_of_billed owner (fun h => ?_) soundOwner state)
      obtain ⟨tag, present, earlier⟩ := beforeOwner_iff.mp h.2
      exact absurd (since h.1 tag present) (Nat.not_le.mpr earlier)
    refine ⟨fun p slot onTime tags => ?onTime, fun late => placed.trans (placeInAccount_of_late late)⟩
    case onTime =>
      intro expected slot'
      rw [placed, placeInAccount_of_onTime slot onTime tags]
      have same : p.take i (e.energy (l.intake i).scale) e.last e.doubtful = slot' := by
        rw [PendingSlot.take, expected_take]
        rfl
      rw [same]
      rfl

end Sys2Proof.Machine.Placement
end

section
/-! The boundary's ageing and folds (R88, R95, R112): which owner-since tags ageing clears, which intake's change is folded,
and what each fold writes. -/

namespace Sys2Proof.Machine.AgeingFolds

open Sys2Proof Sys2Proof.Machine
open Sys2Proof.Machine.IntakeJoins Sys2Proof.Machine.IntakeRequestRules Sys2Proof.Machine.Ownership
open Sys2Proof.Machine.PeriodSettlement Sys2Proof.Machine.SlotClosure

/-! ### Ageing (R88) -/

/-- Ageing of one intake. -/
def ageOwner (c : Calendar) (missed : Nat) (i : IntakeNo) (l : Ledger) : Ledger :=
  match (l.intake i).ownerSince with
  | none => l
  | some since =>
    if Config.ageLimit ≤ c.age since + missed then rewriteIntake (fun x => { x with ownerSince := none }) i l else l

theorem ageOwners_eq (c : Calendar) (missed : Nat) (l : Ledger) :
    ageOwners c missed l = eachOf allIntakes (ageOwner c missed) l.checkIntakes := rfl

/-- What ageing leaves of an intake that has been verified. -/
def agedIntake (c : Calendar) (missed : Nat) (x : Intake) : Intake :=
  match x.ownerSince with
  | none => x
  | some since =>
    if 16 ≤ (c.currentTag - since).toNat + missed then Intake.seal { x with ownerSince := none } else x

section

variable {c : Calendar} {missed : Nat} {l : Ledger} {i j : IntakeNo}

/-- Ageing writes intakes and nothing else. -/
theorem value_ageOwner {α : Type} (f : Ledger → α) (keeps : ∀ i x m, f (m.putIntake i x) = f m) (i : IntakeNo)
    (l : Ledger) : f (ageOwner c missed i l) = f l := by
  rw [ageOwner]
  split
  · rfl
  · split
    · rw [rewriteIntake]
      split
      · rfl
      · exact keeps _ _ _
    · rfl

theorem value_ageOwners {α : Type} (f : Ledger → α) (keeps : ∀ i x m, f (m.putIntake i x) = f m) (l : Ledger) :
    f (ageOwners c missed l) = f l.checkIntakes :=
  eachOf_keeps_value f (fun i _ m => value_ageOwner f keeps i m) _

theorem intake_ageOwner (i j : IntakeNo) (l : Ledger) :
    (ageOwner c missed i l).intake j =
      if i = j ∧ (l.intake i).faultMark = false then agedIntake c missed (l.intake i) else l.intake j := by
  have left : l.intake j = if i = j ∧ (l.intake i).faultMark = false then l.intake i else l.intake j := by
    split
    · next here => rw [here.1]
    · rfl
  rw [ageOwner, agedIntake]
  split
  next => exact left
  next since _ =>
    by_cases old : 16 ≤ (c.currentTag - since).toNat + missed
    · rw [if_pos old]
      exact (congrArg (fun m : Ledger => m.intake j) (if_pos old)).trans (intake_rewriteIntake _ i j l)
    · rw [if_neg old]
      exact (congrArg (fun m : Ledger => m.intake j) (if_neg old)).trans left

theorem intake_ageOwners (j : IntakeNo) :
    (ageOwners c missed l).intake j =
      if (l.checkIntakes.intake j).faultMark = false then agedIntake c missed (l.checkIntakes.intake j)
      else l.checkIntakes.intake j := by
  have pointwise := eachOf_pointwise (fun i (m : Ledger) => m.intake i) (act := ageOwner c missed)
    (fun i j m different => by rw [intake_ageOwner, if_neg fun h => different h.1])
    (fun i m m' same => by rw [intake_ageOwner, intake_ageOwner, same]) allIntakes_nodup j l.checkIntakes
  rw [ageOwners_eq, pointwise, if_pos (mem_allIntakes j), intake_ageOwner]
  simp

/-- The attention that the verification of all intakes raises. -/
theorem attention_checkIntakes_of_unsettled (unsettled : ¬l.IntakesSettled) :
    l.checkIntakes.attention = (l.raise .integrityFault).attention := by
  obtain ⟨i, fails⟩ := Classical.not_forall.mp unsettled
  rw [not_or, Bool.not_eq_true, Bool.not_eq_true] at fails
  exact Ledger.attention_checkIntakes i fails.1 fails.2

/-- What ageing leaves: every intake verified, and on the sound ones the old owner-since tags cleared. -/
theorem ageOwners_law (c : Calendar) (missed : Nat) (l : Ledger) :
    (ageOwners c missed l).accounts = l.accounts ∧ (ageOwners c missed l).tariffs = l.tariffs ∧
      (ageOwners c missed l).pool = l.pool ∧ (ageOwners c missed l).closeWork = l.closeWork ∧
      (l.IntakesSettled → (ageOwners c missed l).attention = l.attention) ∧
      (¬l.IntakesSettled → (ageOwners c missed l).attention = (l.raise .integrityFault).attention) ∧
      ∀ j,
        ((l.intake j).faultMark = true → (ageOwners c missed l).intake j = l.intake j) ∧
        (l.FailingIntake j → (ageOwners c missed l).intake j = { l.intake j with faultMark := true }) ∧
        (l.SoundIntake j → (ageOwners c missed l).intake j = agedIntake c missed (l.intake j)) := by
  refine ⟨(value_ageOwners (·.accounts) (fun _ _ _ => rfl) l).trans l.checkIntakes_accounts,
    (value_ageOwners (·.tariffs) (fun _ _ _ => rfl) l).trans l.checkIntakes_tariffs,
    (value_ageOwners (·.pool) (fun _ _ _ => rfl) l).trans l.checkIntakes_pool,
    (value_ageOwners (·.closeWork) (fun _ _ _ => rfl) l).trans l.checkIntakes_closeWork, fun settled => ?settled,
    fun unsettled => ?unsettled, fun j => ⟨fun mark => ?marked, fun failing => ?failing, fun sound => ?sound⟩⟩
  case settled =>
    rw [value_ageOwners (·.attention) (fun _ _ _ => rfl), Ledger.checkIntakes_of_settled settled]
  case unsettled =>
    exact (value_ageOwners (·.attention) (fun _ _ _ => rfl) l).trans (attention_checkIntakes_of_unsettled unsettled)
  case marked =>
    have same : l.checkIntakes.intake j = l.intake j :=
      intake_checkIntakes_of_not_failing fun failing => ne_true_of_eq_false failing.1 mark
    rw [intake_ageOwners, same, if_neg (by rw [mark]; decide)]
  case failing =>
    rw [intake_ageOwners, intake_checkIntakes_of_failing failing]
    exact if_neg Bool.true_eq_false.mp
  case sound =>
    rw [intake_ageOwners, intake_checkIntakes_of_sound sound, if_pos sound.1]

end

/-! ### The fold that is taken (R95, R112) -/

theorem find_allIntakes_eq_some_iff {p : IntakeNo → Bool} {i : IntakeNo} :
    allIntakes.find? p = some i ↔ p i = true ∧ ∀ j : IntakeNo, j < i → ¬p j = true := by
  rw [List.find?_eq_some_iff_getElem]
  simp only [allIntakes, List.getElem_finRange, List.length_finRange, Bool.not_eq_true', ← Bool.not_eq_true]
  constructor
  · rintro ⟨passes, n, bound, rfl, earlier⟩
    exact ⟨passes, fun j below => earlier j.val below⟩
  · rintro ⟨passes, earlier⟩
    exact ⟨passes, i.val, i.isLt, rfl, fun n below => earlier ⟨n, Nat.lt_trans below i.isLt⟩ below⟩

section

variable {c : Calendar} {tag : Tag} {l : Ledger} {i : IntakeNo} {change : PendingChange}

/-- An intake's change is due when it is not FAULTED and the effective tag is the boundary's or an earlier one. -/
theorem due_iff (x : Intake) :
    (!x.faultMark && x.change.any (PendingChange.dueAt c tag)) = true ↔
      x.faultMark = false ∧
        ∃ change, x.change = some change ∧ (c.currentTag - tag).toNat ≤ (c.currentTag - change.tag).toNat := by
  rw [Bool.and_eq_true, Bool.not_eq_true', Option.any_eq_true]
  refine and_congr Iff.rfl (exists_congr fun change => and_congr Iff.rfl ?_)
  exact ⟨of_decide_eq_true, decide_eq_true⟩

theorem dueFold_of_lowest (unmarked : (l.intake i).faultMark = false) (holds : (l.intake i).change = some change)
    (due : (c.currentTag - tag).toNat ≤ (c.currentTag - change.tag).toNat)
    (lowest : ∀ j, j < i → (l.intake j).faultMark = true ∨ ∀ other, (l.intake j).change = some other →
      (c.currentTag - other.tag).toNat < (c.currentTag - tag).toNat) : l.dueFold c tag = some i := by
  rw [Ledger.dueFold, find_allIntakes_eq_some_iff]
  refine ⟨(due_iff _).mpr ⟨unmarked, change, holds, due⟩, fun j below passes => ?_⟩
  obtain ⟨clear, other, present, reached⟩ := (due_iff _).mp passes
  rcases lowest j below with mark | later
  · exact ne_true_of_eq_false clear mark
  · exact absurd reached (Nat.not_le.mpr (later other present))

end

/-! ### What a fold writes -/

section

variable {l : Ledger} {i : IntakeNo} {a : Slot} {tag : Tag}

theorem foldChange_of_failing (failing : l.FailingIntake i) : foldChange i l = l.withIntakeMarked i := by
  have marked : ((l.withIntakeMarked i).intake i).faultMark = true := by simp [Ledger.withIntakeMarked]
  simp only [foldChange, checkIntake_of_failingIntake failing, marked, if_true]

theorem foldChange_of_join (sound : l.SoundIntake i) (holds : (l.intake i).change = some { target := some a, tag := tag }) :
    foldChange i l = foldJoin i a tag l := by
  have same : l.checkIntake i = l := Ledger.checkIntake_of_sound (.inr sound.2)
  simp only [foldChange, same, sound.1, Bool.false_eq_true, if_false, holds]

theorem foldChange_of_leave (sound : l.SoundIntake i) (holds : (l.intake i).change = some { target := none, tag := tag }) :
    foldChange i l = foldLeave i l := by
  have same : l.checkIntake i = l := Ledger.checkIntake_of_sound (.inr sound.2)
  simp only [foldChange, same, sound.1, Bool.false_eq_true, if_false, holds]

theorem foldJoin_of_billing (sound : l.SoundAccount a) (bills : (l.account a).bills = true) :
    foldJoin i a tag l = (l.putIntake i ((l.intake i).ownedBy a tag)).putAccount a ((l.account a).join i) := by
  rw [foldJoin, checkAccount_of_soundAccount sound]
  exact if_pos bills

theorem foldJoin_of_mark (mark : (l.account a).faultMark = true) :
    foldJoin i a tag l = l.putIntake i (l.intake i).withoutChange := by
  rw [foldJoin, Ledger.checkAccount_of_sound (.inl mark)]
  exact if_neg (by rw [bills_of_mark mark]; decide)

theorem foldJoin_of_failing (failing : l.FailingAccount a) :
    foldJoin i a tag l = (l.withAccountMarked a).putIntake i (l.intake i).withoutChange := by
  have marked : ((l.withAccountMarked a).account a).faultMark = true := by simp [Ledger.withAccountMarked]
  rw [foldJoin, checkAccount_of_failingAccount failing]
  exact if_neg (by rw [bills_of_mark marked]; decide)

theorem dropMember_of_sound (sound : l.SoundAccount a) :
    dropMember i (some a) l = l.putAccount a ((l.account a).leave i) := by
  rw [dropMember]
  rw [checkAccount_of_soundAccount sound, if_neg (ne_true_of_eq_false sound.1)]

theorem dropMember_of_mark (mark : (l.account a).faultMark = true) : dropMember i (some a) l = l := by
  rw [dropMember]
  rw [Ledger.checkAccount_of_sound (.inl mark), if_pos mark]

theorem dropMember_of_failing (failing : l.FailingAccount a) : dropMember i (some a) l = l.withAccountMarked a := by
  have marked : ((l.withAccountMarked a).account a).faultMark = true := by simp [Ledger.withAccountMarked]
  rw [dropMember]
  rw [checkAccount_of_failingAccount failing, if_pos marked]

/-- The intake leaves as it stood, whatever became of its owner. -/
theorem foldLeave_of_owner (owner : (l.intake i).owner = some a) {m : Ledger} (dropped : dropMember i (some a) l = m)
    (same : m.intake i = l.intake i) : foldLeave i l = m.putIntake i (l.intake i).released := by
  rw [foldLeave, owner, dropped, same]

end

/-- In the Interval Engine's turn a command takes the step it asks for. -/
theorem exec_of_intervalTurn {s step : State} {command : Instr} {l : Ledger} {work : List WorkItem}
    (runs : exec command s = .next (if s.memberTurn .intervalEngine then step else s))
    (turn : s.memberTurn .intervalEngine = true) (stepped : step = s.intervalTurn l work) :
    exec command s = .next (s.afterIntervalWork l (openWork s.calendar l work)) := by
  rw [runs, if_pos turn, stepped, intervalTurn_eq]

/-- Settles O41: ageing intake by intake, the lowest due change, and each fold by the state of the account. -/
theorem ageingAndFolds : Obligations.AgeingAndFolds := by
  refine ⟨fun s tag t rest turn head => ?ages, fun s tag t rest i change turn head unmarked holds due lowest => ?folds,
    fun l i a tag sound holds => ?joins, fun l i failing => foldChange_of_failing failing,
    fun l i a tag sound holds owner => ?leaves⟩
  case ages =>
    have current : s.currentWork = .boundary tag t .ageing :: rest := currentWork_of_head head rfl
    have aged : s.ageStep = s.intervalTurn (ageOwners s.calendar 0 s.ledger) (.boundary tag t .folds :: rest) := by
      rw [State.ageStep, current]
    obtain ⟨accounts, tariffs, pool, work, settled, unsettled, intakes⟩ := ageOwners_law s.calendar 0 s.ledger
    refine ⟨ageOwners s.calendar 0 s.ledger, exec_of_intervalTurn rfl turn aged, accounts, tariffs, pool,
      work, settled, unsettled, fun j => ?_⟩
    obtain ⟨marked, failing, sound⟩ := intakes j
    exact ⟨marked, fun unmarked fails => failing ⟨unmarked, fails⟩, sound⟩
  case folds =>
    have found := dueFold_of_lowest unmarked holds due lowest
    have current : s.currentWork = .boundary tag t .folds :: rest :=
      currentWork_of_head head (by rw [workDone, found]; rfl)
    have folded : s.foldStep = s.intervalTurn (foldChange i s.ledger) (.boundary tag t .folds :: rest) := by
      simp only [State.foldStep, current, found]
    exact exec_of_intervalTurn rfl turn folded
  case joins =>
    rw [foldChange_of_join sound holds]
    exact ⟨foldJoin_of_billing, foldJoin_of_mark, foldJoin_of_failing⟩
  case leaves =>
    intro free
    rw [foldChange_of_leave sound holds]
    exact ⟨fun soundOwner => foldLeave_of_owner owner (dropMember_of_sound soundOwner) rfl,
      fun mark => foldLeave_of_owner owner (dropMember_of_mark mark) rfl,
      fun failing => foldLeave_of_owner owner (dropMember_of_failing failing) rfl⟩

end Sys2Proof.Machine.AgeingFolds
end

section
/-! The visit of an account at a boundary (R53, R112 to R114): which account is visited, the scheduled close that it
detects, and the pending slot that it opens. -/

namespace Sys2Proof.Machine.AccountVisits

open Sys2Proof Sys2Proof.Machine
open Sys2Proof.Machine.AccountStates Sys2Proof.Machine.AgeingFolds Sys2Proof.Machine.PeriodSettlement
open Sys2Proof.Machine.SlotClosure

/-! ### The account visited (R112) -/

theorem nextVisit_of_lowest {l : Ledger} {k : Nat} {i : Slot} (onward : k ≤ i.val) (bills : (l.account i).bills = true)
    (lowest : ∀ j : Slot, k ≤ j.val → j < i → (l.account j).bills = false) : l.nextVisit k = some i := by
  rw [Ledger.nextVisit, find_allSlots_eq_some_iff]
  refine ⟨Bool.and_eq_true_iff.mpr ⟨decide_eq_true onward, bills⟩, fun j below passes => ?_⟩
  obtain ⟨reached, visits⟩ := Bool.and_eq_true_iff.mp passes
  exact ne_true_of_eq_false (lowest j (of_decide_eq_true reached) below) visits

/-- The first visit follows the last fold; the others go on from the slot reached. -/
theorem visitStep_of_next {s : State} {tag : Tag} {t : Seconds} {phase : BoundaryPhase} {rest : List WorkItem} {k : Nat}
    {i : Slot} (head : s.work = .boundary tag t phase :: rest)
    (start : phase = .visits k ∨ phase = .folds ∧ k = 0 ∧ s.ledger.dueFold s.calendar tag = none)
    (next : s.ledger.nextVisit k = some i) :
    s.visitStep =
      s.intervalTurn (visitAccount s.calendar tag t i s.ledger) (.boundary tag t (.visits (i.val + 1)) :: rest) := by
  have starts : phase.visitStart s.calendar s.ledger tag = some k := by
    rcases start with rfl | ⟨rfl, rfl, folded⟩
    · rfl
    · rw [BoundaryPhase.visitStart, folded]
      rfl
  have needs : workDone s.calendar s.ledger (.boundary tag t phase) = false := by
    rcases start with rfl | ⟨rfl, rfl, _⟩
    · rw [workDone, next]
      rfl
    · rw [workDone, next]
      exact Bool.and_false _
  simp only [State.visitStep, currentWork_of_head head needs, starts, Option.bind_some, next]

/-! ### What a visit writes -/

/-- A boundary time is the account's close instant, and no due stands (R53, R137). -/
def Closes (t : Seconds) (a : Account) : Prop :=
  (dateTimeOf t).day = a.closeDay ∧ (dateTimeOf t).hour = a.closeHour ∧ (dateTimeOf t).minute = 0 ∧ a.closeDue = none

section

variable {c : Calendar} {tag : Tag} {t : Seconds} {l : Ledger} {i : Slot}

theorem closes_iff (a : Account) : (a.closesAt t && a.closeDue.isNone) = true ↔ Closes t a := by
  simp [Closes, Account.closesAt, and_assoc]

/-- The account with the due that its close instant places. -/
def Account.dueAt (t : Seconds) (a : Account) : Account := { a with closeDue := some { cause := .scheduled, time := t } }

theorem detectClose_of_closes (closes : Closes t (l.account i)) :
    detectClose t i l =
      { l with
        accounts := l.accounts.set i.val (Account.dueAt t (l.account i)).seal
        closeWork := if i ∉ l.closeWork then l.closeWork ++ [i] else l.closeWork } := by
  have placed : (l.account i).placeDue { cause := .scheduled, time := t } = Account.dueAt t (l.account i) := by
    rw [Account.placeDue, closes.2.2.2]
    rfl
  rw [detectClose]
  refine (if_pos ((closes_iff _).mpr closes)).trans ?_
  rw [placed, Ledger.handToSettlement]
  by_cases listed : i ∈ l.closeWork
  · rw [if_neg (not_not_intro listed)]
    exact if_pos listed
  · rw [if_pos listed]
    exact if_neg listed

theorem detectClose_of_not_closes (stays : ¬Closes t (l.account i)) : detectClose t i l = l :=
  if_neg (mt (closes_iff _).mp stays)

/-- The account visited once its close instant has been looked at. -/
theorem account_detectClose_of_closes (closes : Closes t (l.account i)) :
    (detectClose t i l).account i = (Account.dueAt t (l.account i)).seal := by
  rw [detectClose_of_closes closes, Ledger.account]
  exact Vector.getElem_set_self i.isLt

/-- The pending slot that a visit opens on the account as its detection left it. -/
def openedSlot (tag : Tag) (i : Slot) (l : Ledger) : Ledger :=
  l.putAccount i { l.account i with storedSlot := some ((l.account i).newSlot tag) }

theorem openedSlot_of_closes (closes : Closes t (l.account i)) :
    openedSlot tag i (detectClose t i l) =
      { l with
        accounts :=
          l.accounts.set i.val
            (Account.seal { Account.dueAt t (l.account i) with storedSlot := some ((l.account i).newSlot tag) })
        closeWork := if i ∉ l.closeWork then l.closeWork ++ [i] else l.closeWork } := by
  rw [openedSlot, account_detectClose_of_closes closes, detectClose_of_closes closes, Ledger.putAccount,
    Ledger.storeAccount]
  dsimp only
  rw [Vector.set_set]
  rfl

theorem visitAccount_of_failing (failing : l.FailingAccount i) :
    visitAccount c tag t i l = l.withAccountMarked i := by
  have marked : ((l.withAccountMarked i).account i).faultMark = true := by simp [Ledger.withAccountMarked]
  rw [visitAccount, checkAccount_of_failingAccount failing]
  exact if_pos marked

/-- Detection leaves the account's state and its members. -/
theorem detectClose_keeps :
    ((detectClose t i l).account i).state = (l.account i).state ∧
      ((detectClose t i l).account i).members = (l.account i).members := by
  by_cases closes : Closes t (l.account i)
  · rw [account_detectClose_of_closes closes]
    exact ⟨rfl, rfl⟩
  · rw [detectClose_of_not_closes closes]
    exact ⟨rfl, rfl⟩

/-- The visit of a sound account: an ACTIVE one gets its slot, closed at once when it has no members. -/
theorem visitAccount_of_sound (sound : l.SoundAccount i) :
    visitAccount c tag t i l =
      if (l.account i).state = .active then
        if (l.account i).members.isEmpty then closeSlot .ordinary c i (openedSlot tag i (detectClose t i l))
        else openedSlot tag i (detectClose t i l)
      else detectClose t i l := by
  obtain ⟨state, members⟩ := detectClose_keeps (t := t) (l := l) (i := i)
  rw [visitAccount, checkAccount_of_soundAccount sound]
  refine (if_neg (ne_true_of_eq_false sound.1)).trans ?_
  refine ite_congr (congrArg (· = AccountState.active) state) (fun _ => ?_) fun _ => rfl
  exact ite_congr (congrArg (·.isEmpty = true) members) (fun _ => rfl) fun _ => rfl

end

/-- Settles O42: the lowest account to visit, then its visit by the account's soundness, its close instant and its state. -/
theorem accountVisitOpensTheSlot : Obligations.AccountVisitOpensTheSlot := by
  intro s tag t phase rest k i turn head start onward bills lowest visited
  have step (m : Ledger) (visits : visitAccount s.calendar tag t i s.ledger = m) :
      exec .accountVisit s = visited m := by
    have stepped := visitStep_of_next head start (nextVisit_of_lowest onward bills lowest)
    rw [visits] at stepped
    exact exec_of_intervalTurn rfl turn stepped
  refine ⟨fun failing => step _ (visitAccount_of_failing failing), fun sound => ?_⟩
  intro a closes detected list slot opened
  have visits := visitAccount_of_sound (c := s.calendar) (tag := tag) (t := t) sound
  have opens : openedSlot tag i (detectClose t i s.ledger) = opened := by
    by_cases due : closes
    · rw [openedSlot_of_closes due]
      simp only [opened, detected, if_pos due, due, true_and]
      rfl
    · rw [detectClose_of_not_closes due]
      simp only [opened, detected, if_neg due, due, false_and, if_false]
      rfl
  refine ⟨fun active members => step _ ?_, fun active memberless => step _ ?_, fun suspended => step _ ?_⟩
  · rw [visits, if_pos ((state_eq_active_iff sound.1).mpr active), if_neg (by simpa using members), opens]
  · rw [visits, if_pos ((state_eq_active_iff sound.1).mpr active), if_pos (by rw [List.isEmpty_iff]; exact memberless),
      opens]
  · have notActive : (s.ledger.account i).state ≠ .active := by
      rw [(state_eq_suspended_iff sound.1).mpr suspended]
      decide
    rw [visits, if_neg notActive]
    by_cases due : closes
    · rw [detectClose_of_closes due]
      simp only [detected, if_pos due, due, true_and]
      rfl
    · rw [detectClose_of_not_closes due]
      simp only [due, false_and, if_false]
      rfl

end Sys2Proof.Machine.AccountVisits
end

section
/-! The evaluation of a window (R123 to R127): its demand, the maximum it replaces, and the exceedance it counts. -/

namespace Sys2Proof.Machine.WindowEvaluation

open Sys2Proof Sys2Proof.Machine
open Sys2Proof.Machine.PeriodSettlement

section

variable {t : Tariff} {p : Schedule} {s : Nat} {boundary : Seconds} {a : Account}

/-- The quantity under KVA is the one root that the bounds leave. -/
theorem windowQuantity_eq {ring : List WindowSlot} {quantity q : Nat}
    (reactive : t.leadPolicy.reactive (ringSum (·.lag) ring) (ringSum (·.lead) ring) = q)
    (active : t.quantity = .kw → quantity = ringSum (·.imp) ring)
    (apparent : t.quantity = .kva →
      quantity * quantity ≤ ringSum (·.imp) ring * ringSum (·.imp) ring + q * q ∧
        ringSum (·.imp) ring * ringSum (·.imp) ring + q * q < (quantity + 1) * (quantity + 1)) :
    windowQuantity t ring = quantity := by
  rw [windowQuantity]
  split
  next kw => exact (active kw).symm
  next kva =>
    dsimp only
    rw [reactive]
    exact isqrt_eq_of_bounds (apparent kva).1 (apparent kva).2

theorem ringEstimated_eq (ring : List WindowSlot) :
    ringEstimated ring = decide (∃ w ∈ ring, w.state = .incomplete ∨ w.state = .outage) := by
  rw [Bool.eq_iff_iff]
  simp [ringEstimated]

/-- The maxima after the evaluation of a window. -/
def raisedMaxima (t : Tariff) (p : Schedule) (s : Nat) (boundary : Seconds) (a : Account) : Vector (Option BandMaximum) 4 :=
  if t.eligible (ringEstimated (a.ring t.n)) then
    a.period.maxima.set (bandOfWindow t p boundary).val
      (raiseMaximum
        { value := windowDemand t s (a.ring t.n), time := boundary, estimated := ringEstimated (a.ring t.n) }
        a.period.maxima[(bandOfWindow t p boundary).val])
  else a.period.maxima

/-- A demand above the contract demand counts as an exceedance (R127). -/
def Exceeds (t : Tariff) (s : Nat) (a : Account) : Prop :=
  a.contractDemand ≠ 0 ∧ a.contractDemand < windowDemand t s (a.ring t.n)

theorem exceeds_iff :
    (a.contractDemand != 0 && a.contractDemand < windowDemand t s (a.ring t.n)) = true ↔ Exceeds t s a := by
  rw [Bool.and_eq_true, bne_iff_ne, decide_eq_true_eq]
  rfl

theorem evaluateWindow_of_exceeds (exceeds : Exceeds t s a) :
    evaluateWindow t p s boundary a =
      ({ a with
          period :=
            { a.period with
              maxima := raisedMaxima t p s boundary a
              exceedances := satSucc Config.max16 a.period.exceedances
              exceeded := true } },
        !a.period.exceeded) :=
  if_pos (exceeds_iff.mpr exceeds)

theorem evaluateWindow_of_within (within : ¬Exceeds t s a) :
    evaluateWindow t p s boundary a =
      ({ a with period := { a.period with maxima := raisedMaxima t p s boundary a } }, false) :=
  if_neg (mt exceeds_iff.mp within)

theorem maxima_evaluateWindow : (evaluateWindow t p s boundary a).1.period.maxima = raisedMaxima t p s boundary a := by
  by_cases exceeds : Exceeds t s a
  · rw [evaluateWindow_of_exceeds exceeds]
  · rw [evaluateWindow_of_within exceeds]

/-- The other bands keep their maxima. -/
theorem raisedMaxima_other {b : Band} (other : b ≠ bandOfWindow t p boundary) :
    (raisedMaxima t p s boundary a)[b.val] = a.period.maxima[b.val] := by
  rw [raisedMaxima]
  split
  · exact Vector.getElem_set_ne _ _ fun same => other (Fin.ext same.symm)
  · rfl

/-- An eligible demand replaces the maximum of its band when that is absent or strictly below it (R126). -/
theorem raisedMaxima_own :
    (raisedMaxima t p s boundary a)[(bandOfWindow t p boundary).val] =
      if t.eligible (ringEstimated (a.ring t.n)) then
        raiseMaximum
          { value := windowDemand t s (a.ring t.n), time := boundary, estimated := ringEstimated (a.ring t.n) }
          a.period.maxima[(bandOfWindow t p boundary).val]
      else a.period.maxima[(bandOfWindow t p boundary).val] := by
  rw [raisedMaxima]
  split
  · exact Vector.getElem_set_self _
  · rfl

theorem eligible_iff (estimated : Bool) :
    t.eligible estimated = true ↔ estimated = false ∨ t.incompletePolicy = .incl := by
  simp [Tariff.eligible]

end

/-- Settles O45: the quantity by its bounds, then the exceedance and the maximum of the window's band. -/
theorem evaluationFollowsTheTariff : Obligations.EvaluationFollowsTheTariff := by
  intro t p s boundary a ring total q quantity active apparent demand estimated band done
  have quantityOf : windowQuantity t ring = quantity :=
    windowQuantity_eq (reactive_eq t.leadPolicy (total (·.lag)) (total (·.lead))) active apparent
  have demandOf : windowDemand t s ring = demand := by rw [windowDemand, quantityOf]; rfl
  have estimates : ringEstimated (a.ring t.n) = estimated := ringEstimated_eq ring
  refine ⟨demandOf, ?_⟩
  intro exceeds
  have exceedsOf : Exceeds t s a ↔ exceeds := by
    rw [Exceeds]
    exact and_congr Iff.rfl (by rw [← demandOf]; rfl)
  refine ⟨evaluateWindow_keeps t p s boundary a, ?period, ?raises, fun b other => ?others, ?own⟩
  case period =>
    by_cases exceeding : exceeds
    · have evaluated : done = _ := evaluateWindow_of_exceeds (exceedsOf.mpr exceeding)
      rw [evaluated, if_pos exceeding, decide_eq_true (.inl exceeding)]
      rfl
    · have evaluated : done = _ := evaluateWindow_of_within (mt exceedsOf.mp exceeding)
      have kept : decide (exceeds ∨ a.period.exceeded = true) = a.period.exceeded := by
        rw [Bool.eq_iff_iff, decide_eq_true_eq]
        exact or_iff_right exceeding
      rw [evaluated, if_neg exceeding, kept]
  case raises =>
    by_cases exceeding : exceeds
    · have evaluated : done = _ := evaluateWindow_of_exceeds (exceedsOf.mpr exceeding)
      rw [evaluated, Bool.not_eq_true', and_iff_right exceeding]
    · have evaluated : done = _ := evaluateWindow_of_within (mt exceedsOf.mp exceeding)
      rw [evaluated]
      exact ⟨nofun, fun h => absurd h.1 exceeding⟩
  case others =>
    have maxima : done.1.period.maxima = raisedMaxima t p s boundary a := maxima_evaluateWindow
    rw [maxima]
    exact raisedMaxima_other other
  case own =>
    have maxima : done.1.period.maxima = raisedMaxima t p s boundary a := maxima_evaluateWindow
    have demandOf' : windowDemand t s (a.ring t.n) = demand := demandOf
    rw [maxima]
    refine raisedMaxima_own.trans ?_
    rw [estimates, demandOf']
    refine ite_congr (propext (eligible_iff estimated)) (fun _ => ?_) fun _ => rfl
    cases a.period.maxima[band.val] <;> rfl

end Sys2Proof.Machine.WindowEvaluation
end

section
/-! The closure of a pending slot (R114, R116 to R122, R128, R132): what enters the window, when the window is evaluated
and reloaded, when the account is handed over, and the silence counted (R105). -/

namespace Sys2Proof.Machine.SlotClosures

open Sys2Proof Sys2Proof.Machine
open Sys2Proof.Machine.AccountStates Sys2Proof.Machine.IntakeRequestRules Sys2Proof.Machine.Ownership
open Sys2Proof.Machine.PeriodSettlement Sys2Proof.Machine.RecordEdits

/-! ### Silence (R105) -/

section

variable {limit : Nat} {m : ExpectedMember} {l : Ledger}

theorem countSilence_of_mark (mark : (l.intake m.intake).faultMark = true) : countSilence limit m l = l := by
  rw [countSilence, Ledger.checkIntake_of_sound (.inl mark)]
  exact if_pos mark

theorem countSilence_of_failing (failing : l.FailingIntake m.intake) :
    countSilence limit m l = l.withIntakeMarked m.intake := by
  have marked : ((l.withIntakeMarked m.intake).intake m.intake).faultMark = true := by simp [Ledger.withIntakeMarked]
  rw [countSilence, checkIntake_of_failingIntake failing]
  exact if_pos marked

theorem countSilence_of_sound (sound : l.SoundIntake m.intake) :
    countSilence limit m l =
      if m.reported then l.putIntake m.intake { l.intake m.intake with silentCount := 0 }
      else
        (l.putIntake m.intake ((l.intake m.intake).unreported limit)).raiseIf
          (!(l.intake m.intake).silent && ((l.intake m.intake).unreported limit).silent) .intakeSilent := by
  rw [countSilence, Ledger.checkIntake_of_sound (.inr sound.2)]
  exact if_neg (ne_true_of_eq_false sound.1)

/-- An unreported intake's flag rises at the limit. -/
theorem unreported_of_limit {x : Intake} (reached : limit ≤ min (x.silentCount + 1) 255) :
    x.unreported limit = { x with silentCount := min (x.silentCount + 1) 255, silent := true } := by
  have flag : (x.silent || decide (limit ≤ satAdd 255 x.silentCount 1)) = true :=
    Bool.or_eq_true_iff.mpr (.inr (decide_eq_true reached))
  rw [Intake.unreported, flag]
  rfl

theorem unreported_of_below {x : Intake} (below : ¬limit ≤ min (x.silentCount + 1) 255) :
    x.unreported limit = { x with silentCount := min (x.silentCount + 1) 255 } := by
  have flag : (x.silent || decide (limit ≤ satAdd 255 x.silentCount 1)) = x.silent :=
    (congrArg (x.silent || ·) (decide_eq_false below)).trans (Bool.or_false _)
  rw [Intake.unreported, flag]
  rfl

theorem countSilence_of_unreported (sound : l.SoundIntake m.intake) (silent : m.reported = false) :
    countSilence limit m l =
      if limit ≤ min ((l.intake m.intake).silentCount + 1) 255 ∧ (l.intake m.intake).silent = false then
        (l.putIntake m.intake
          { l.intake m.intake with silentCount := min ((l.intake m.intake).silentCount + 1) 255, silent := true }).raise
          .intakeSilent
      else
        l.putIntake m.intake
          { l.intake m.intake with silentCount := min ((l.intake m.intake).silentCount + 1) 255 } := by
  rw [countSilence_of_sound sound, if_neg (ne_true_of_eq_false silent)]
  by_cases reached : limit ≤ min ((l.intake m.intake).silentCount + 1) 255
  · rw [unreported_of_limit reached]
    cases flag : (l.intake m.intake).silent with
    | false => rw [if_pos ⟨reached, rfl⟩]; rfl
    | true =>
      rw [if_neg fun h => Bool.true_eq_false.mp h.2, ← flag]
      simp [flag]
  · rw [unreported_of_below reached, if_neg fun h => reached h.1]
    exact congrArg (Ledger.raiseIf · .intakeSilent _) (Bool.not_and_self _)

end

/-! ### The account's part of a closure -/

section

variable {kind : ClosureKind} {c : Calendar} {t : Tariff} {schedule : Schedule} {p : PendingSlot} {a : Account}

/-- The account with its pending slot in the window, COMPLETE or INCOMPLETE (R119). -/
def entered (kind : ClosureKind) (t : Tariff) (p : PendingSlot) (a : Account) : Account :=
  { a with
    window :=
      a.window.setIfInBounds a.ringPos
        { energy := p.energy,
          state :=
            if kind ≠ .stale ∧ (∀ m ∈ p.expected, m.reported = true) ∧ p.doubtful = false then .complete
            else .incomplete }
    ringPos := (a.ringPos + 1) % (if t.state = .ready then t.n else 12)
    storedSlot := none
    period :=
      { a.period with
        subintervals := min (a.period.subintervals + 1) 65535
        incompleteSlots :=
          if kind ≠ .stale ∧ (∀ m ∈ p.expected, m.reported = true) ∧ p.doubtful = false then a.period.incompleteSlots
          else min (a.period.incompleteSlots + 1) 65535 } }

theorem complete_iff :
    (kind != .stale && p.expected.all (·.reported) && !p.doubtful) = true ↔
      kind ≠ .stale ∧ (∀ m ∈ p.expected, m.reported = true) ∧ p.doubtful = false := by
  rw [Bool.and_eq_true, Bool.and_eq_true, bne_iff_ne, List.all_eq_true, Bool.not_eq_true', and_assoc]

theorem closeInto_eq : a.closeInto t.ringLength (p.closed kind) = entered kind t p a := by
  rw [Account.closeInto, PendingSlot.closed, entered]
  by_cases complete : kind ≠ .stale ∧ (∀ m ∈ p.expected, m.reported = true) ∧ p.doubtful = false
  · simp only [if_pos (complete_iff.mpr complete), if_pos complete]
    rfl
  · simp only [if_neg (mt complete_iff.mp complete), if_neg complete]
    rfl

/-- A time ends a whole group of N subintervals. -/
theorem aligned_iff {n s : Nat} {boundary : Seconds} :
    aligned n s boundary = true ↔ boundary % 86400 / 60 % (n * s) = 0 :=
  ⟨of_decide_eq_true, decide_eq_true⟩

/-- A closure that is not stale evaluates a whole window under a READY tariff, under BLOCK at an aligned time (R122). -/
theorem evaluates_iff {s : Nat} {boundary : Seconds} :
    (kind != .stale && t.evaluates s boundary a) = true ↔
      kind ≠ .stale ∧ t.state = .ready ∧ (t.evaluation = .rolling ∨ boundary % 86400 / 60 % (t.n * s) = 0) ∧
        ∀ w ∈ a.window.toList.take t.n, w.state ≠ .empty := by
  rw [Tariff.evaluates, Bool.and_eq_true, bne_iff_ne, Bool.and_eq_true, Bool.and_eq_true, Bool.or_eq_true,
    decide_eq_true_eq, decide_eq_true_eq, aligned_iff, ringWhole, List.all_eq_true, and_assoc]
  simp only [bne_iff_ne]
  rfl

/-- An aligned closure under BLOCK reloads the window (R121, R128). -/
theorem endsBlock_iff {s : Nat} {boundary : Seconds} :
    t.endsBlock s boundary = true ↔
      t.state = .ready ∧ t.evaluation = .block ∧ boundary % 86400 / 60 % (t.n * s) = 0 := by
  rw [Tariff.endsBlock, Bool.and_eq_true, Bool.and_eq_true, decide_eq_true_eq, decide_eq_true_eq, aligned_iff, and_assoc]

end

/-! ### The closure in the ledger -/

section

variable {kind : ClosureKind} {c : Calendar} {l : Ledger} {i : Slot} {p : PendingSlot}

/-- The ledger once the tariff of the account is verified and the silence of its expected members counted. -/
def counted (c : Calendar) (l : Ledger) (i : Slot) (p : PendingSlot) : Ledger :=
  eachOf p.expected (countSilence c.params.silenceLimit) (l.checkTariff (l.account i).tariff)

theorem account_counted (j : Slot) : (counted c l i p).account j = l.account j := by
  have accounts : (counted c l i p).accounts = l.accounts :=
    (eachOf_keeps_value (·.accounts) (fun _ _ _ => countSilence_accounts ..) _).trans (Ledger.checkTariff_accounts _ _)
  rw [Ledger.account, Ledger.account, accounts]

theorem closeWork_countSilence (limit : Nat) (m : ExpectedMember) (l : Ledger) :
    (countSilence limit m l).closeWork = l.closeWork := by
  rw [countSilence]
  split
  · exact Ledger.checkIntake_closeWork _ _
  · split
    · exact Ledger.checkIntake_closeWork _ _
    · rw [Ledger.raiseIf_closeWork]
      exact Ledger.checkIntake_closeWork _ _

theorem closeWork_counted : (counted c l i p).closeWork = l.closeWork :=
  (eachOf_keeps_value (·.closeWork) (fun _ _ _ => closeWork_countSilence ..) _).trans (Ledger.checkTariff_closeWork _ _)

/-- The ledger with the account as its closure left it. -/
def stored (i : Slot) (closed : Account × Bool) (l : Ledger) : Ledger :=
  (l.putAccount i closed.1).raiseIf closed.2 .demandOver

theorem closeSlot_of_slot (sound : l.SoundAccount i) (slot : (l.account i).storedSlot = some p) :
    closeSlot kind c i l =
      if kind = .ordinary then
        (stored i
          ((l.account i).close kind ((counted c l i p).tariff (l.account i).tariff)
            ((counted c l i p).schedule (l.account i).tariff) c p) (counted c l i p)).handIfDue i
      else
        stored i
          ((l.account i).close kind ((counted c l i p).tariff (l.account i).tariff)
            ((counted c l i p).schedule (l.account i).tariff) c p) (counted c l i p) := by
  have same : l.checkAccount i = l := checkAccount_of_soundAccount sound
  have pending : (l.account i).pendingSlot = some p := (pendingSlot_of_unmarked sound.1).trans slot
  have kept : (counted c l i p).account i = l.account i := account_counted i
  rw [closeSlot, same]
  simp only [pending]
  rw [← counted, kept]
  rfl

theorem closeSlot_of_mark (mark : (l.account i).faultMark = true) : closeSlot kind c i l = l := by
  have same : l.checkAccount i = l := Ledger.checkAccount_of_sound (.inl mark)
  rw [closeSlot_none, same]
  rw [same]
  exact Account.pendingSlot_of_mark mark

theorem closeSlot_of_failing (failing : l.FailingAccount i) : closeSlot kind c i l = l.withAccountMarked i := by
  have marked : ((l.withAccountMarked i).account i).faultMark = true := by simp [Ledger.withAccountMarked]
  rw [closeSlot_none, checkAccount_of_failingAccount failing]
  rw [checkAccount_of_failingAccount failing]
  exact Account.pendingSlot_of_mark marked

theorem with_closeWork {m : Ledger} {work : List Slot} (same : m.closeWork = work) : { m with closeWork := work } = m := by
  cases same
  rfl

/-- An account that holds a due is handed over, unless it is on the list already (R139). -/
theorem handIfDue_eq (m : Ledger) :
    m.handIfDue i =
      { m with
        closeWork :=
          if (m.account i).closeDue ≠ none ∧ i ∉ m.closeWork then m.closeWork ++ [i] else m.closeWork } := by
  rw [Ledger.handIfDue]
  by_cases due : (m.account i).closeDue = none
  · rw [due, if_neg (by decide), if_neg fun h => h.1 rfl]
  · rw [if_pos (Option.isSome_iff_ne_none.mpr due), Ledger.handToSettlement]
    by_cases listed : i ∈ m.closeWork
    · rw [if_pos listed, if_neg fun h => h.2 listed]
    · rw [if_neg listed, if_pos ⟨due, listed⟩]

theorem account_stored (closed : Account × Bool) (m : Ledger) : (stored i closed m).account i = closed.1.seal := by
  rw [stored, account_raiseIf, Ledger.account_putAccount_self]

theorem closeWork_stored (closed : Account × Bool) (m : Ledger) : (stored i closed m).closeWork = m.closeWork :=
  Ledger.raiseIf_closeWork _ _ _

/-- The closure in the ledger, with the hand-over of an ordinary one. -/
theorem closeSlot_eq (sound : l.SoundAccount i) (slot : (l.account i).storedSlot = some p) {closed : Account × Bool}
    (closes :
      (l.account i).close kind ((counted c l i p).tariff (l.account i).tariff)
        ((counted c l i p).schedule (l.account i).tariff) c p = closed) :
    closeSlot kind c i l =
      { stored i closed (counted c l i p) with
        closeWork :=
          if kind = .ordinary ∧ (l.account i).closeDue ≠ none ∧ i ∉ l.closeWork then l.closeWork ++ [i]
          else l.closeWork } := by
  have work : (stored i closed (counted c l i p)).closeWork = l.closeWork :=
    (closeWork_stored _ _).trans closeWork_counted
  have due : ((stored i closed (counted c l i p)).account i).closeDue = (l.account i).closeDue := by
    have sealed (b : Account) : b.seal.closeDue = b.closeDue := rfl
    rw [account_stored, sealed, ← closes]
    exact (congrArg Account.closeDue (close_keeps kind _ _ c p (l.account i))).trans rfl
  rw [closeSlot_of_slot sound slot, closes]
  by_cases ordinary : kind = .ordinary
  · rw [if_pos ordinary, handIfDue_eq, work, due]
    simp only [ordinary, true_and]
  · rw [if_neg ordinary, if_neg fun h => ordinary h.1, with_closeWork work]

end

/-- Settles O44: the account's part of the closure, its place in the ledger, and the silence of each member. -/
theorem closureEntersTheWindowAndCountsSilence : Obligations.ClosureEntersTheWindowAndCountsSilence := by
  refine ⟨fun kind c l i p sound slot => ?closure,
    fun kind c l i => ⟨closeSlot_of_no_slot, closeSlot_of_mark,
      fun unmarked notFree fails => closeSlot_of_failing ⟨unmarked, notFree, fails⟩⟩,
    fun limit m l => ⟨countSilence_of_mark, fun unmarked fails => countSilence_of_failing ⟨unmarked, fails⟩,
      fun sound => ⟨fun reported => ?reported, fun silent => countSilence_of_unreported sound silent⟩⟩⟩
  case reported => exact (countSilence_of_sound sound).trans (if_pos reported)
  case closure =>
    intro a counted' t s boundary aligned' complete entered' evaluates done closed stored'
    have enters : a.closeInto t.ringLength (p.closed kind) = entered' := closeInto_eq
    have evaluated :
        (if kind != .stale && t.evaluates s boundary entered' then
          evaluateWindow t (counted'.schedule a.tariff) s boundary entered' else (entered', false)) = done := by
      refine ite_congr (propext evaluates_iff) (fun _ => rfl) fun _ => rfl
    have closes : a.close kind t (counted'.schedule a.tariff) c p = (closed, done.2) := by
      rw [Account.close, enters]
      refine congr (congrArg Prod.mk ?_) (congrArg (fun d : Account × Bool => d.2) evaluated)
      exact ite_congr (propext endsBlock_iff) (fun _ => congrArg (·.1.clearWindow) evaluated)
        fun _ => congrArg Prod.fst evaluated
    exact closeSlot_eq sound slot closes

end Sys2Proof.Machine.SlotClosures
end

section
/-! BAND_NOTIFY_CHECK (R44): which tariffs are verified and marked, and when BAND_NOTIFY is raised; and the spot demand that
READ_DEMAND answers (R129, R130). -/

namespace Sys2Proof.Machine.BandNotify

open Sys2Proof Sys2Proof.Machine
open Sys2Proof.Machine.AccountLayouts Sys2Proof.Machine.AgeingFolds Sys2Proof.Machine.PeriodSettlement
open Sys2Proof.Machine.RequestRules Sys2Proof.Machine.SlotClosure Sys2Proof.Machine.TariffRequests
open Sys2Proof.Machine.TariffWrites Sys2Proof.Machine.WindowEvaluation

/-! ### The tariffs that are looked at -/

/-- A READY tariff that an account names. -/
def Used (t : TariffNo) (l : Ledger) : Prop :=
  (l.tariff t).state = .ready ∧ ∃ a, (l.account a).state ≠ .free ∧ (l.account a).tariff = t

/-- A tariff in use that fails its verification. -/
def Fails (t : TariffNo) (l : Ledger) : Prop := Used t l ∧ l.FailingTariff t

/-- The verification of a tariff in use. -/
def verifyUsed (t : TariffNo) (l : Ledger) : Ledger :=
  if (l.tariff t).state = .ready && !(l.naming t).isEmpty then l.checkTariff t else l

/-- What a tariff's verification and its points depend on is the same in two ledgers. -/
def SameTariff (t : TariffNo) (m l : Ledger) : Prop :=
  m.tariff t = l.tariff t ∧ m.pool = l.pool ∧ m.accounts = l.accounts

section

variable {t i : TariffNo} {l m : Ledger} {time : Seconds}

theorem used_iff : ((l.tariff t).state = .ready && !(l.naming t).isEmpty) = true ↔ Used t l := by
  have named : (!(l.naming t).isEmpty) = true ↔ ∃ a, (l.account a).state ≠ .free ∧ (l.account a).tariff = t := by
    rw [Bool.not_eq_true', ← Bool.not_eq_true, naming_isEmpty_iff]
    simp only [Classical.not_forall, Classical.not_not, exists_prop]
  rw [Bool.and_eq_true, decide_eq_true_eq, named]
  rfl

theorem verifyUsed_of_fails (fails : Fails t l) : verifyUsed t l = l.withTariffMarked t :=
  (if_pos (used_iff.mpr fails.1)).trans (checkTariff_of_failingTariff fails.2)

theorem verifyUsed_of_not_fails (stands : ¬Fails t l) : verifyUsed t l = l := by
  rw [verifyUsed]
  split
  · next used => exact checkTariff_of_not_failing fun failing => stands ⟨used_iff.mp used, failing⟩
  · rfl

theorem verifyUsed_cases (t : TariffNo) (l : Ledger) : verifyUsed t l = l ∨ verifyUsed t l = l.withTariffMarked t := by
  by_cases fails : Fails t l
  · exact .inr (verifyUsed_of_fails fails)
  · exact .inl (verifyUsed_of_not_fails fails)

/-- The verification of a tariff in use writes tariffs and the attention alone. -/
theorem value_verifyUsed {α : Type} (f : Ledger → α) (keeps : ∀ m, f (m.withTariffMarked t) = f m) (l : Ledger) :
    f (verifyUsed t l) = f l := by
  rcases verifyUsed_cases t l with same | marked
  · rw [same]
  · rw [marked, keeps]

theorem SameTariff.account (same : SameTariff t m l) (a : Slot) : m.account a = l.account a := by
  rw [Ledger.account, Ledger.account, same.2.2]

theorem SameTariff.used (same : SameTariff t m l) : Used t m ↔ Used t l := by
  simp only [Used, same.1, same.account]

theorem SameTariff.fails (same : SameTariff t m l) : Fails t m ↔ Fails t l := by
  rw [Fails, Fails, same.used, Ledger.FailingTariff, Ledger.FailingTariff, same.1, same.2.1]

theorem SameTariff.schedule (same : SameTariff t m l) : m.schedule t = l.schedule t := by
  rw [Ledger.schedule, Ledger.schedule, same.1, same.2.1]

/-- The verification of another tariff. -/
theorem sameTariff_verifyUsed (other : i ≠ t) (l : Ledger) : SameTariff i (verifyUsed t l) l := by
  refine ⟨?_, value_verifyUsed (·.pool) (fun _ => rfl) l, value_verifyUsed (·.accounts) (fun _ => rfl) l⟩
  rcases verifyUsed_cases t l with same | marked
  · rw [same]
  · rw [marked, Ledger.withTariffMarked, Ledger.tariff_raise, Ledger.tariff_storeTariff_ne _ _ (Ne.symm other)]

theorem SameTariff.trans {n : Ledger} (first : SameTariff t n m) (second : SameTariff t m l) : SameTariff t n l :=
  ⟨first.1.trans second.1, first.2.1.trans second.2.1, first.2.2.trans second.2.2⟩

/-- Verified, a tariff in use is marked when it fails, and is as it was when it does not. -/
theorem tariff_verifyUsed_self :
    (Fails t l → (verifyUsed t l).tariff t = { l.tariff t with faultMark := true }) ∧
      (¬Fails t l → (verifyUsed t l).tariff t = l.tariff t) := by
  refine ⟨fun fails => ?_, fun stands => by rw [verifyUsed_of_not_fails stands]⟩
  rw [verifyUsed_of_fails fails, Ledger.withTariffMarked, Ledger.tariff_raise, Ledger.tariff_storeTariff_self]

/-! ### The whole check -/

/-- A tariff in use, verified, has a notify point at the minute. -/
def notified (time : Seconds) (t : TariffNo) (l : Ledger) : Bool :=
  ((l.tariff t).state = .ready && !(l.naming t).isEmpty) &&
    (((verifyUsed t l).tariff t).state = .ready &&
      notifies ((verifyUsed t l).tariff t) ((verifyUsed t l).schedule t) time)

theorem notified_iff :
    notified time t l = true ↔ Used t l ∧ ¬Fails t l ∧ notifies (l.tariff t) (l.schedule t) time = true := by
  rw [notified, Bool.and_eq_true, used_iff, Bool.and_eq_true, decide_eq_true_eq]
  by_cases fails : Fails t l
  · have mark : ((verifyUsed t l).tariff t).faultMark = true := by rw [tariff_verifyUsed_self.1 fails]
    exact ⟨fun h => absurd h.2.1 (tariff_ne_ready_of_mark mark), fun h => absurd fails h.2.1⟩
  · rw [verifyUsed_of_not_fails fails]
    exact ⟨fun h => ⟨h.1, fails, h.2.2⟩, fun h => ⟨h.1, h.1.1, h.2.2⟩⟩

theorem SameTariff.notified (same : SameTariff t m l) : notified time t m = notified time t l := by
  rw [Bool.eq_iff_iff, notified_iff, notified_iff, same.used, same.fails, same.1, same.schedule]

theorem notifyCheck_eq (found : Bool) :
    notifyCheck time t (m, found) = (verifyUsed t m, found || notified time t m) := by
  rw [notifyCheck, notified, verifyUsed]
  split
  · next used => rw [used, Bool.true_and]
  · next unused =>
    rw [Bool.not_eq_true] at unused
    rw [unused, Bool.false_and, Bool.or_false]

/-- The check of a list of tariffs, each once: each is verified, and one that notifies is enough. -/
theorem foldl_notifyCheck {numbers : List TariffNo} (once : numbers.Nodup) (found : Bool)
    (same : ∀ t ∈ numbers, SameTariff t m l) :
    numbers.foldl (fun found t => notifyCheck time t found) (m, found) =
      (eachOf numbers verifyUsed m, found || numbers.any (notified time · l)) := by
  induction numbers generalizing m found with
  | nil => rw [List.any_nil, Bool.or_false]; rfl
  | cons t rest ih =>
    obtain ⟨fresh, once⟩ := List.nodup_cons.mp once
    have later : ∀ i ∈ rest, SameTariff i (verifyUsed t m) l := fun i mem =>
      (sameTariff_verifyUsed (ne_of_mem_of_not_mem mem fresh) m).trans (same i (List.mem_cons_of_mem t mem))
    rw [List.foldl_cons, notifyCheck_eq, ih once _ later, eachOf_cons, List.any_cons,
      (same t List.mem_cons_self).notified, Bool.or_assoc]

theorem mem_allTariffs (t : TariffNo) : t ∈ allTariffs := List.mem_finRange t

theorem allTariffs_nodup : allTariffs.Nodup := List.nodup_finRange 16

theorem bandNotify_eq (time : Seconds) (l : Ledger) :
    bandNotify time l =
      (eachOf allTariffs verifyUsed l).raiseIf (allTariffs.any (notified time · l)) .bandNotify := by
  rw [bandNotify, foldl_notifyCheck allTariffs_nodup false fun t _ => ⟨rfl, rfl, rfl⟩, Bool.false_or]

/-! ### What the verification of the tariffs in use leaves -/

theorem tariff_verifyEach (i : TariffNo) (l : Ledger) :
    (eachOf allTariffs verifyUsed l).tariff i = (verifyUsed i l).tariff i := by
  have own (i : TariffNo) (m l : Ledger) (same : SameTariff i m l) : (verifyUsed i m).tariff i = (verifyUsed i l).tariff i := by
    by_cases fails : Fails i l
    · rw [tariff_verifyUsed_self.1 fails, tariff_verifyUsed_self.1 (same.fails.mpr fails), same.1]
    · rw [tariff_verifyUsed_self.2 fails, tariff_verifyUsed_self.2 (mt same.fails.mp fails), same.1]
  have alike {i : TariffNo} {m l : Ledger} :
      (m.tariff i, m.pool, m.accounts) = (l.tariff i, l.pool, l.accounts) ↔ SameTariff i m l := by
    rw [Prod.mk.injEq, Prod.mk.injEq]
    rfl
  have pool (t : TariffNo) (m : Ledger) : (verifyUsed t m).pool = m.pool := value_verifyUsed (·.pool) (fun _ => rfl) m
  have accounts (t : TariffNo) (m : Ledger) : (verifyUsed t m).accounts = m.accounts :=
    value_verifyUsed (·.accounts) (fun _ => rfl) m
  have pointwise := eachOf_pointwise (fun i (m : Ledger) => (m.tariff i, m.pool, m.accounts)) (act := verifyUsed)
    (fun t i m other => alike.mpr (sameTariff_verifyUsed (Ne.symm other) m))
    (fun t m m' same => alike.mpr ⟨own t m m' (alike.mp same), (pool t m).trans ((alike.mp same).2.1.trans (pool t m').symm),
      (accounts t m).trans ((alike.mp same).2.2.trans (accounts t m').symm)⟩) allTariffs_nodup i l
  rw [if_pos (mem_allTariffs i)] at pointwise
  exact (alike.mp pointwise).1

theorem value_verifyEach {α : Type} (f : Ledger → α) (keeps : ∀ t m, f (m.withTariffMarked t) = f m) (l : Ledger) :
    f (eachOf allTariffs verifyUsed l) = f l :=
  eachOf_keeps_value f (fun t _ m => value_verifyUsed f (keeps t) m) l

theorem verifyEach_of_none (none : ∀ t, ¬Fails t l) (numbers : List TariffNo) : eachOf numbers verifyUsed l = l := by
  induction numbers with
  | nil => rfl
  | cons t rest ih => rw [eachOf_cons, verifyUsed_of_not_fails (none t), ih]

theorem attention_verifyEach {numbers : List TariffNo} (some : ∃ t ∈ numbers, Fails t l) :
    (eachOf numbers verifyUsed l).attention = (l.raise .integrityFault).attention := by
  induction numbers with
  | nil =>
    obtain ⟨t, mem, _⟩ := some
    exact nomatch mem
  | cons t rest ih =>
    rw [eachOf_cons]
    by_cases fails : Fails t l
    · have kept (i : TariffNo) (m : Ledger) (raised : m.attention = (l.raise .integrityFault).attention) :
          (verifyUsed i m).attention = (l.raise .integrityFault).attention := by
        rcases verifyUsed_cases i m with same | marked
        · rw [same, raised]
        · simp only [marked, Ledger.withTariffMarked, Ledger.raise, Ledger.storeTariff] at raised ⊢
          rw [raised, BitVec.or_assoc, BitVec.or_self]
      exact eachOf_keeps (fun m => m.attention = (l.raise .integrityFault).attention) (fun i _ m => kept i m)
        (by rw [verifyUsed_of_fails fails]; rfl)
    · rw [verifyUsed_of_not_fails fails]
      obtain ⟨i, mem, fails'⟩ := some
      exact ih ⟨i, (List.mem_cons.mp mem).resolve_left (fun here => fails (here ▸ fails')), fails'⟩

/-- A ledger that keeps everything but its tariffs and its attention. -/
theorem eq_with_tariffs (accounts : m.accounts = l.accounts) (intakes : m.intakes = l.intakes)
    (pool : m.pool = l.pool) (work : m.closeWork = l.closeWork) :
    m = { l with tariffs := m.tariffs, attention := m.attention } := by
  cases l
  cases m
  cases accounts
  cases intakes
  cases pool
  cases work
  rfl

theorem value_raiseIf {α : Type} (f : Ledger → α) (b : Bool) (x : AttentionSource) (keeps : ∀ m, f (m.raise x) = f m)
    (l : Ledger) : f (l.raiseIf b x) = f l := by
  cases b with
  | false => rfl
  | true => exact keeps l

theorem value_bandNotify {α : Type} (f : Ledger → α) (keeps : ∀ t m, f (m.withTariffMarked t) = f m)
    (raises : ∀ m, f (m.raise .bandNotify) = f m) (l : Ledger) : f (bandNotify time l) = f l := by
  rw [bandNotify_eq, value_raiseIf f _ _ raises, value_verifyEach f keeps]

/-- A tariff in use notifies at a minute. -/
theorem notifies_iff (t : Tariff) (p : Schedule) :
    notifies t p time = true ↔
      ∃ q ∈ p.listOn t (time / 86400), q.minute = time % 86400 / 60 ∧ q.notify = true := by
  rw [notifies, List.any_eq_true]
  refine exists_congr fun q => and_congr Iff.rfl ?_
  rw [Bool.and_eq_true, beq_iff_eq]
  rfl

theorem any_notified_iff :
    allTariffs.any (notified time · l) = true ↔
      ∃ i : TariffNo, Used i l ∧ ¬Fails i l ∧
        ∃ q ∈ (l.schedule i).listOn (l.tariff i) (time / 86400), q.minute = time % 86400 / 60 ∧ q.notify = true := by
  rw [List.any_eq_true]
  refine exists_congr fun i => ?_
  rw [notified_iff, notifies_iff]
  exact and_iff_right (mem_allTariffs i)

end

/-- What the check of a minute leaves in the ledger (R44). -/
theorem bandNotify_law (time : Seconds) (l : Ledger) :
    bandNotify time l =
        { l with tariffs := (bandNotify time l).tariffs, attention := (bandNotify time l).attention } ∧
      (∀ i,
        (Fails i l → (bandNotify time l).tariff i = { l.tariff i with faultMark := true }) ∧
        (¬Fails i l → (bandNotify time l).tariff i = l.tariff i)) ∧
      ∃ marked : Ledger, ((∃ i, Fails i l) → marked = l.raise .integrityFault) ∧ ((∀ i, ¬Fails i l) → marked = l) ∧
        (allTariffs.any (notified time · l) = true → (bandNotify time l).attention = (marked.raise .bandNotify).attention) ∧
        (¬allTariffs.any (notified time · l) = true → (bandNotify time l).attention = marked.attention) := by
  have tariff (i : TariffNo) : (bandNotify time l).tariff i = (verifyUsed i l).tariff i := by
    rw [bandNotify_eq, value_raiseIf (·.tariff i) _ _ (fun _ => rfl), tariff_verifyEach]
  have raises {marked : Ledger} (same : (eachOf allTariffs verifyUsed l).attention = marked.attention) :
      (allTariffs.any (notified time · l) = true → (bandNotify time l).attention = (marked.raise .bandNotify).attention) ∧
      (¬allTariffs.any (notified time · l) = true → (bandNotify time l).attention = marked.attention) := by
    refine ⟨fun some => ?_, fun none => ?_⟩
    · rw [bandNotify_eq, some, Ledger.raiseIf_true, Ledger.raise, Ledger.raise, same]
    · rw [bandNotify_eq, (Bool.not_eq_true _).mp none, Ledger.raiseIf_false, same]
  refine ⟨eq_with_tariffs (value_bandNotify (·.accounts) (fun _ _ => rfl) (fun _ => rfl) l)
    (value_bandNotify (·.intakes) (fun _ _ => rfl) (fun _ => rfl) l)
    (value_bandNotify (·.pool) (fun _ _ => rfl) (fun _ => rfl) l)
    (value_bandNotify (·.closeWork) (fun _ _ => rfl) (fun _ => rfl) l),
    fun i => ⟨fun fails => (tariff i).trans (tariff_verifyUsed_self.1 fails),
      fun stands => (tariff i).trans (tariff_verifyUsed_self.2 stands)⟩, ?_⟩
  by_cases some : ∃ i, Fails i l
  · refine ⟨l.raise .integrityFault, fun _ => rfl, fun none => absurd some (not_exists.mpr none), raises ?_⟩
    obtain ⟨i, fails⟩ := some
    exact attention_verifyEach ⟨i, mem_allTariffs i, fails⟩
  · exact ⟨l, fun failing => absurd failing some, fun _ => rfl,
      raises (congrArg _ (verifyEach_of_none (not_exists.mp some) allTariffs))⟩

/-! ### READ_DEMAND (R129, R130) -/

def demandParts (c : Calendar) (t : Tariff) (p : Schedule) (a : Account) : List (List Byte) :=
  [[byte t.quantity.code], [byte t.n],
    [byte (bits [ringWhole (a.ring t.n), ringWhole (a.ring t.n) && ringEstimated (a.ring t.n),
      ringWhole (a.ring t.n) && t.eligible (ringEstimated (a.ring t.n)), c.isSet])],
    le 4 (if ringWhole (a.ring t.n) then windowDemand t c.params.subinterval (a.ring t.n) else 0),
    [byte (if c.isSet then (bandAt t p c.time).val else 0)]]

theorem demandBytes_eq (c : Calendar) (t : Tariff) (p : Schedule) (a : Account) :
    demandBytes c t p a = (demandParts c t p a).flatten := by
  simp only [demandBytes, demandParts, List.flatten_cons, List.flatten_nil, List.append_nil, List.cons_append,
    List.nil_append]

theorem demandLayout (c : Calendar) (t : Tariff) (p : Schedule) (a : Account) :
    DemandLayout t.quantity.code t.n
      (if ringWhole (a.ring t.n) then some (windowDemand t c.params.subinterval (a.ring t.n)) else none)
      (ringWhole (a.ring t.n) && ringEstimated (a.ring t.n))
      (ringWhole (a.ring t.n) && t.eligible (ringEstimated (a.ring t.n)))
      (if c.isSet then some (bandAt t p c.time) else none) (demandBytes c t p a) := by
  have sizes : (demandParts c t p a).map List.length = [1, 1, 1, 4, 1] := rfl
  obtain ⟨flag, small⟩ := flags_of_part (offset := 2) sizes 2 rfl rfl (by simp)
  have value := at_of_part (offset := 3) sizes 3 rfl rfl
  have band := at_of_part (offset := 7) (w := 1) sizes 4 rfl rfl
  have whole := flag 0
  have set := flag 3
  rw [demandBytes_eq]
  refine ⟨length_row sizes, at_of_part sizes 0 rfl rfl, at_of_part sizes 1 rfl rfl, ?whole, flag 1, flag 2, ?set, ?small,
    ?value, ?band⟩
  case whole => cases present : ringWhole (a.ring t.n) <;> (simp only [present] at whole ⊢; exact whole)
  case set => cases isSet : c.isSet <;> (simp only [isSet] at set ⊢; exact set)
  case small =>
    rw [small]
    exact bits_lt _
  case value => cases present : ringWhole (a.ring t.n) <;> (simp only [present] at value ⊢; exact value)
  case band => cases isSet : c.isSet <;> (simp only [isSet] at band ⊢; exact band)

theorem ringWhole_eq (ring : List WindowSlot) : ringWhole ring = decide (∀ w ∈ ring, w.state ≠ .empty) := by
  rw [Bool.eq_iff_iff]
  simp [ringWhole]

section

variable {p : List Byte} {c : Calendar} {mode : Mode} {l : Ledger} {i : Slot}

theorem readDemand_of_soundAccount (names : field 0 1 p = i.val) (sound : l.SoundAccount i)
    (notFree : (l.account i).phase ≠ .free) {m : Ledger} (verified : l.checkTariff (l.account i).tariff = m) :
    readDemand p c mode l =
      if (m.tariff (l.account i).tariff).state != .ready then (m, refuse .faulted)
      else (m, okWith (demandBytes c (m.tariff (l.account i).tariff) (m.schedule (l.account i).tariff) (l.account i))) := by
  rw [readDemand, addressAccount_of_soundAccount names sound notFree, verified]

/-- Under a tariff that is marked once verified READ_DEMAND is refused. -/
theorem readDemand_of_marked (names : field 0 1 p = i.val) (sound : l.SoundAccount i)
    (notFree : (l.account i).phase ≠ .free) {m : Ledger} (verified : l.checkTariff (l.account i).tariff = m)
    (mark : (m.tariff (l.account i).tariff).faultMark = true) : readDemand p c mode l = (m, refuse .faulted) :=
  (readDemand_of_soundAccount names sound notFree verified).trans
    (if_pos (bne_iff_ne.mpr (tariff_ne_ready_of_mark mark)))

end

/-- Settles O46: the check of the minute tariff by tariff, the answer part by part, and the request by the tariff. -/
theorem bandNotifyAndSpotDemand : Obligations.BandNotifyAndSpotDemand := by
  refine ⟨fun s t rest turn run head => ?check, fun c t p a => ?layout, fun s p i granted names sound notFree => ?request⟩
  case check =>
    intro used fails notified'
    have stepped : s.notifyStep = s.intervalTurn (bandNotify t s.ledger) rest := by
      rw [State.notifyStep, currentWork_of_head head rfl]
      dsimp only
      rw [if_pos run]
    obtain ⟨keeps, tariffs, marked, failing, standing, raised, unraised⟩ := bandNotify_law t s.ledger
    exact ⟨bandNotify t s.ledger, exec_of_intervalTurn rfl turn stepped, keeps, tariffs, marked, failing, standing,
      fun some => raised (any_notified_iff.mpr some), fun none => unraised (mt any_notified_iff.mp none)⟩
  case layout =>
    intro ring present estimated
    have whole : ringWhole (a.ring t.n) = present := ringWhole_eq ring
    have estimates : ringEstimated (a.ring t.n) = estimated := ringEstimated_eq ring
    have layout := demandLayout c t p a
    rw [whole, estimates] at layout
    exact layout
  case request =>
    intro t
    refine ⟨fun mark => ?_, fun failing => ?_, fun ready => ?_⟩
    · have same : s.ledger.checkTariff t = s.ledger := Ledger.checkTariff_of_sound (.inl mark)
      exact exec_of_work (work := readDemand) rfl granted (readDemand_of_marked names sound notFree same mark) rfl
    · have marked : ((s.ledger.withTariffMarked t).tariff t).faultMark = true := by simp [Ledger.withTariffMarked]
      exact exec_of_work (work := readDemand) rfl granted
        (readDemand_of_marked names sound notFree (checkTariff_of_failingTariff failing) marked) rfl
    · have notFaulted : ¬((s.ledger.tariff t).state != .ready) = true := by rw [ready.1]; decide
      exact exec_of_work (work := readDemand) rfl granted
        ((readDemand_of_soundAccount names sound notFree (checkTariff_of_readyTariff ready)).trans (if_neg notFaulted)) rfl

end Sys2Proof.Machine.BandNotify
end

section
/-! REPAIR_ACCOUNT and DISCARD_ACCOUNT (R168 to R170): the addressing of a FAULTED slot, the intakes that either of them
frees, and the account that a repair writes. -/

namespace Sys2Proof.Machine.AccountRepairs

open Sys2Proof Sys2Proof.Machine
open Sys2Proof.Machine.AccountTable Sys2Proof.Machine.IntakeJoins Sys2Proof.Machine.Ownership
open Sys2Proof.Machine.PeriodSettlement Sys2Proof.Machine.RecordEdits Sys2Proof.Machine.RequestRules

/-! ### The addressing of a FAULTED slot (R168, R170) -/

section

variable {l : Ledger} {i : Slot} {n : Nat} {rangesHold : Bool} {own : Slot → Account → Ledger × Answer}

theorem addressFaulted_of_range (bad : 63 < n ∨ rangesHold = false) :
    addressFaulted n rangesHold l own = (l, refuse .outOfRange) := by
  rw [addressFaulted]
  rcases bad with above | outside
  · rw [slotOf_of_above above]
  · cases slotOf n with
    | none => rfl
    | some i => simp [outside]

theorem addressFaulted_of_free (names : n = i.val) (free : (l.account i).state = .free) :
    addressFaulted n true l own = (l, refuse .noSuchAccount) := by
  simp [addressFaulted, names, slotOf_val, free]

theorem addressFaulted_of_unmarked (names : n = i.val) (notFree : (l.account i).state ≠ .free)
    (unmarked : (l.account i).faultMark = false) : addressFaulted n true l own = (l, refuse .wrongState) := by
  simp [addressFaulted, names, slotOf_val, notFree, unmarked]

theorem addressFaulted_of_mark (names : n = i.val) (mark : (l.account i).faultMark = true) :
    addressFaulted n true l own = own i (l.account i) := by
  simp [addressFaulted, names, slotOf_val, state_of_mark mark, mark]

end

/-! ### The intakes freed -/

section

variable {l : Ledger} {i : Slot} {released joiners : List IntakeNo}

/-- The rewriting of intakes writes intakes alone. -/
theorem value_rewriteEach {α : Type} (f : Ledger → α) (keeps : ∀ i x m, f (m.putIntake i x) = f m) (g : Intake → Intake)
    (numbers : List IntakeNo) (l : Ledger) : f (rewriteEach g numbers l) = f l :=
  eachOf_keeps_value (act := fun i l => l.putIntake i (g (l.intake i))) f (fun _ _ _ => keeps _ _ _) l

theorem value_intakesFreed {α : Type} (f : Ledger → α) (keeps : ∀ i x m, f (m.putIntake i x) = f m)
    (released joiners : List IntakeNo) (l : Ledger) : f (intakesFreed released joiners l) = f l := by
  rw [intakesFreed, value_rewriteEach f keeps, value_rewriteEach f keeps]

/-- An intake released joins nothing. -/
theorem joining_released (x : Intake) : x.released.seal.joining i = false :=
  joining_of_none ((seal_intakeFields x.released).2.2.2.trans rfl)

/-- The joins that remain once some intakes are released. -/
theorem soundJoiners_rewriteEach_released (once : released.Nodup) :
    (rewriteEach Intake.released released l).soundJoiners i =
      allIntakes.filter fun j =>
        !(l.intake j).faultMark && (l.intake j).joining i && !released.contains j := by
  rw [Ledger.soundJoiners]
  refine List.filter_congr fun j _ => ?_
  rw [intake_rewriteEach once]
  by_cases mem : j ∈ released
  · rw [if_pos mem, joining_released, List.contains_iff_mem.mpr mem]
    simp
  · rw [if_neg mem, (Bool.not_eq_true _).mp (mt List.contains_iff_mem.mp mem)]
    simp

/-- Released and withdrawn intakes are different ones. -/
theorem intake_intakesFreed_of_apart (once : released.Nodup) (once' : joiners.Nodup)
    (apart : ∀ j ∈ joiners, j ∉ released) (j : IntakeNo) :
    (intakesFreed released joiners l).intake j =
      if j ∈ released then (l.intake j).released.seal
      else if j ∈ joiners then (l.intake j).withoutChange.seal else l.intake j := by
  rw [intake_intakesFreed once once']
  by_cases joins : j ∈ joiners
  · rw [if_pos joins, if_neg (apart j joins), if_neg (apart j joins), if_pos joins]
  · rw [if_neg joins, if_neg joins]

/-- What stands once intakes are freed and an account is stored. -/
theorem storeAccount_intakesFreed (released joiners : List IntakeNo) (i : Slot) (a : Account) {v m : Ledger}
    (stored : (intakesFreed released joiners v).storeAccount i a = m) :
    m.account i = a ∧ (∀ j, j ≠ i → m.account j = v.account j) ∧ m.tariffs = v.tariffs ∧ m.pool = v.pool ∧
      m.attention = v.attention ∧ m.closeWork = v.closeWork ∧
      ∀ j, m.intake j = (intakesFreed released joiners v).intake j := by
  subst stored
  refine ⟨Ledger.account_storeAccount_self _ _ _, fun j other => ?_,
    value_intakesFreed (·.tariffs) (fun _ _ _ => rfl) _ _ v, value_intakesFreed (·.pool) (fun _ _ _ => rfl) _ _ v,
    value_intakesFreed (·.attention) (fun _ _ _ => rfl) _ _ v,
    value_intakesFreed (·.closeWork) (fun _ _ _ => rfl) _ _ v, fun j => rfl⟩
  rw [Ledger.account_storeAccount_ne _ _ (Ne.symm other), value_intakesFreed (·.account j) (fun _ _ _ => rfl)]

/-- A pending join that names a slot. -/
theorem joining_iff_change {x : Intake} :
    x.joining i = true ↔ ∃ tag, x.change = some { target := some i, tag := tag } := by
  rcases change : x.change with _ | ⟨_ | b, tag⟩
  · simp [Intake.joining, change]
  · simp [Intake.joining, change]
  · simp only [Intake.joining, change, beq_iff_eq, Option.some.injEq, PendingChange.mk.injEq, exists_and_left,
      exists_eq', and_true]
    exact eq_comm

end

/-! ### DISCARD_ACCOUNT (R170) -/

section

variable {p : List Byte} {c : Calendar} {mode : Mode} {l : Ledger} {i : Slot}

/-- A discard frees what the slot owns and what would join it, and then the slot. -/
theorem discardAccount_of_mark (names : field 0 1 p = i.val) (mark : (l.account i).faultMark = true) :
    discardAccount p c mode l =
      ((intakesFreed (l.checkIntakes.owned i)
          (allIntakes.filter fun j =>
            !(l.checkIntakes.intake j).faultMark && (l.checkIntakes.intake j).joining i &&
              !(l.checkIntakes.owned i).contains j) l.checkIntakes).storeAccount i .free, okDone) := by
  rw [← soundJoiners_rewriteEach_released (owned_nodup _ i)]
  exact addressFaulted_of_mark names mark

/-- The intakes that a discard leaves. -/
theorem intake_discarded (v : Ledger) (j : IntakeNo) :
    (intakesFreed (v.owned i)
        (allIntakes.filter fun j =>
          !(v.intake j).faultMark && (v.intake j).joining i && !(v.owned i).contains j) v).intake j =
      if (v.intake j).state = .member ∧ (v.intake j).owner = some i then (v.intake j).released.seal
      else if (v.intake j).faultMark = false ∧
          (∃ tag, (v.intake j).change = some { target := some i, tag := tag }) then (v.intake j).withoutChange.seal
      else v.intake j := by
  have owned : j ∈ v.owned i ↔ (v.intake j).state = .member ∧ (v.intake j).owner = some i := by
    rw [Ledger.owned, List.mem_filter, Bool.and_eq_true, beq_iff_eq, beq_iff_eq, and_iff_right (mem_allIntakes j)]
  have joins (k : IntakeNo) :
      (k ∈ allIntakes.filter fun j =>
        !(v.intake j).faultMark && (v.intake j).joining i && !(v.owned i).contains j) ↔
      ((v.intake k).faultMark = false ∧ ∃ tag, (v.intake k).change = some { target := some i, tag := tag }) ∧
        k ∉ v.owned i := by
    have outside : (v.owned i).contains k = false ↔ k ∉ v.owned i := by
      rw [← Bool.not_eq_true, List.contains_iff_mem]
    rw [List.mem_filter, and_iff_right (mem_allIntakes k), Bool.and_eq_true, Bool.and_eq_true, joining_iff_change,
      Bool.not_eq_true', Bool.not_eq_true', outside]
  rw [intake_intakesFreed_of_apart (owned_nodup v i) (allIntakes_nodup.filter _) fun k mem => ((joins k).mp mem).2]
  by_cases mine : j ∈ v.owned i
  · rw [if_pos mine, if_pos (owned.mp mine)]
  · rw [if_neg mine, if_neg (mt owned.mpr mine)]
    exact ite_congr (propext ((joins j).trans (and_iff_left mine))) (fun _ => rfl) fun _ => rfl

end

/-- The requests that repair or discard an account issue their refusals in order: what DISCARD_ACCOUNT answers. -/
theorem discardAccount_law {s : State} {p : List Byte} (issues : s.Issues .discardAccount p) :
    (63 < field 0 1 p → exec .discardAccount s = .next (s.respond (refuse .outOfRange))) ∧
    ∀ i : Slot, s.requestTurn = true → field 0 1 p = i.val →
      ((s.ledger.account i).state = .free →
        exec .discardAccount s = .next (s.answered s.ledger (refuse .noSuchAccount))) ∧
      ((s.ledger.account i).state ≠ .free → (s.ledger.account i).faultMark = false →
        exec .discardAccount s = .next (s.answered s.ledger (refuse .wrongState))) ∧
      ((s.ledger.account i).faultMark = true →
        let v := s.ledger.checkIntakes
        ∃ l : Ledger, exec .discardAccount s = .next (s.answered l okDone) ∧ l.account i = Account.free ∧
          (∀ j, j ≠ i → l.account j = s.ledger.account j) ∧ l.tariffs = s.ledger.tariffs ∧
          l.pool = s.ledger.pool ∧ l.attention = v.attention ∧ l.closeWork = s.ledger.closeWork ∧
          ∀ j, l.intake j =
            if (v.intake j).state = .member ∧ (v.intake j).owner = some i then (v.intake j).released.seal
            else if (v.intake j).faultMark = false ∧
                (∃ tag, (v.intake j).change = some { target := some i, tag := tag }) then
              (v.intake j).withoutChange.seal
            else v.intake j) := by
  refine ⟨fun above => exec_of_refusal (work := discardAccount) rfl issues (addressFaulted_of_range (.inl above)) rfl,
    fun i turn names => ⟨fun free => ?_, fun notFree unmarked => ?_, fun mark => ?discarded⟩⟩
  · exact exec_of_work (work := discardAccount) rfl ⟨issues, turn⟩ (addressFaulted_of_free names free) rfl
  · exact exec_of_work (work := discardAccount) rfl ⟨issues, turn⟩
      (addressFaulted_of_unmarked names notFree unmarked) rfl
  case discarded =>
    intro v
    have worked := discardAccount_of_mark (c := s.calendar) (mode := s.mode) names mark
    generalize stored : Ledger.storeAccount i .free _ = m at worked
    obtain ⟨own, others, tariffs, pool, attention, work, intakes⟩ := storeAccount_intakesFreed _ _ i .free stored
    exact ⟨m, exec_of_work (work := discardAccount) rfl ⟨issues, turn⟩ worked rfl, own,
      fun j other => (others j other).trans (account_checkIntakes j), tariffs.trans s.ledger.checkIntakes_tariffs,
      pool.trans s.ledger.checkIntakes_pool, attention, work.trans s.ledger.checkIntakes_closeWork,
      fun j => (intakes j).trans (intake_discarded v j)⟩

/-! ### REPAIR_ACCOUNT (R168, R169) -/

/-- A field behind the first bytes of a parameter list. -/
theorem field_drop (offset width n : Nat) (p : List Byte) : field offset width (p.drop n) = field (n + offset) width p := by
  rw [field, field, List.drop_drop]

section

variable {p : List Byte} {c : Calendar} {mode : Mode} {l : Ledger} {i : Slot} {t : TariffNo}

/-- The ranges of a repair (R168). -/
theorem repair_inRange_iff :
    (IdentityRequest.ofBytes (p.drop 1)).inRange = true ↔
      field 1 4 p ≠ 0 ∧ field 10 1 p ≤ 100 ∧ 1 ≤ field 11 1 p ∧ field 11 1 p ≤ 28 ∧ field 12 1 p ≤ 23 := by
  rw [identity_inRange_iff]
  simp only [field_drop]

theorem repairAccount_of_range
    (bad : 63 < field 0 1 p ∨ 15 < field 5 1 p ∨ (IdentityRequest.ofBytes (p.drop 1)).inRange = false) :
    repairAccount p c mode l = (l, refuse .outOfRange) := by
  have index : (IdentityRequest.ofBytes (p.drop 1)).tariff = field 5 1 p := field_drop 4 1 1 p
  rw [repairAccount, index]
  rcases Nat.lt_or_ge 15 (field 5 1 p) with above | inside
  · rw [tariffOf_of_above above]
  · have named : tariffOf (field 5 1 p) = some ⟨field 5 1 p, by omega⟩ := dif_pos (by omega)
    rw [named]
    exact addressFaulted_of_range (bad.imp_right fun h => h.resolve_left (by omega))

/-- Within its ranges the request addresses a FAULTED slot. -/
theorem repairAccount_of_inRange (tariff : field 5 1 p = t.val)
    (inRange : (IdentityRequest.ofBytes (p.drop 1)).inRange = true) :
    ∃ own : Slot → Account → Ledger × Answer,
      repairAccount p c mode l = addressFaulted (field 0 1 p) true l own ∧
      ∀ i a, own i a =
        if ((l.checkTariff t).tariff t).state != .ready then (l.checkTariff t, refuse .noSuchTariff)
        else if ((l.checkTariff t).checkAccounts.holder (field 1 4 p) (some i)).isSome then
          ((l.checkTariff t).checkAccounts, refuse .duplicateAccount)
        else
          (carryOutRepair (.ofBytes (p.drop 1)) t (ratchetOfBytes (p.drop 13)) (periodStartIn mode c) i
            (l.checkTariff t).checkAccounts, okDone) := by
  have index : (IdentityRequest.ofBytes (p.drop 1)).tariff = t.val := (field_drop 4 1 1 p).trans tariff
  have number : (IdentityRequest.ofBytes (p.drop 1)).number = field 1 4 p := field_drop 0 4 1 p
  refine ⟨_, by rw [repairAccount, index, tariffOf_val, inRange], fun i a => ?_⟩
  dsimp only
  rw [number]

/-- No other slot that is not FREE holds the number. -/
theorem holder_except_eq_none_iff {number : Nat} :
    l.holder number (some i) = none ↔
      ∀ j, j ≠ i → (l.account j).state ≠ .free → (l.account j).number ≠ number := by
  simp [Ledger.holder]

/-- The parts of the repair: what is released, and what is withdrawn. -/
theorem carryOutRepair_eq (r : IdentityRequest) (t : TariffNo) (ratchet : Vector (Option Nat) 11)
    (start : Option Seconds) (i : Slot) (l : Ledger) :
    carryOutRepair r t ratchet start i l =
      (intakesFreed ((l.checkIntakes.owned i).drop 8)
        ((allIntakes.filter fun j =>
          !(l.checkIntakes.intake j).faultMark && (l.checkIntakes.intake j).joining i &&
            !((l.checkIntakes.owned i).drop 8).contains j).drop (8 - ((l.checkIntakes.owned i).take 8).length))
        l.checkIntakes).putAccount i (.repaired r t ratchet ((l.checkIntakes.owned i).take 8) start) := by
  rw [← soundJoiners_rewriteEach_released ((owned_nodup _ i).sublist (List.drop_sublist 8 _))]
  rfl

/-- The intakes that a repair leaves. -/
theorem intake_repairFreed (v : Ledger) (k : Nat) (j : IntakeNo) :
    (intakesFreed ((v.owned i).drop 8)
        ((allIntakes.filter fun j =>
          !(v.intake j).faultMark && (v.intake j).joining i && !((v.owned i).drop 8).contains j).drop k) v).intake j =
      if j ∈ (v.owned i).drop 8 then (v.intake j).released.seal
      else if j ∈ (allIntakes.filter fun j =>
          !(v.intake j).faultMark && (v.intake j).joining i && !((v.owned i).drop 8).contains j).drop k then
        (v.intake j).withoutChange.seal
      else v.intake j := by
  refine intake_intakesFreed_of_apart ((owned_nodup v i).sublist (List.drop_sublist 8 _))
    ((allIntakes_nodup.filter _).sublist (List.drop_sublist k _)) (fun j mem => ?_) j
  have kept := (Bool.and_eq_true_iff.mp (List.mem_filter.mp (List.mem_of_mem_drop mem)).2).2
  rw [Bool.not_eq_true', ← Bool.not_eq_true, List.contains_iff_mem] at kept
  exact kept

/-- The check word of a FREE account is no part of the repaired record. -/
theorem seal_repaired (r : IdentityRequest) (t : TariffNo) (ratchet : Vector (Option Nat) 11)
    (members : List IntakeNo) (start : Option Seconds) :
    (Account.repaired r t ratchet members start).seal =
      Account.seal
        { Account.free with
          number := r.number
          phase := .active
          tariff := t
          contractDemand := r.contractDemand
          minPercent := r.minPercent
          closeDay := r.closeDay
          closeHour := r.closeHour
          members := members
          period := { Period.cold with start := start }
          ratchet := ratchet } := by
  rw [Account.free, seal_eq_withCheckWord Account.coldContent]
  generalize Account.coldContent.seal.checkWord = w
  rfl

theorem ratchetOfBytes_eq (p : List Byte) :
    ratchetOfBytes (p.drop 13) =
      Vector.ofFn fun k => if (field 13 2 p).testBit k.val then some (field (15 + 4 * k.val) 4 p) else none := by
  rw [ratchetOfBytes]
  simp only [field_drop, ← Nat.add_assoc]

theorem seal_repaired_ofBytes (members : List IntakeNo) (start : Option Seconds) :
    (Account.repaired (.ofBytes (p.drop 1)) t (ratchetOfBytes (p.drop 13)) members start).seal =
      Account.seal
        { Account.free with
          number := field 1 4 p
          phase := .active
          tariff := t
          contractDemand := field 6 4 p
          minPercent := field 10 1 p
          closeDay := field 11 1 p
          closeHour := field 12 1 p
          members := members
          period := { Period.cold with start := start }
          ratchet :=
            Vector.ofFn fun k => if (field 13 2 p).testBit k.val then some (field (15 + 4 * k.val) 4 p) else none } := by
  rw [seal_repaired, ratchetOfBytes_eq, IdentityRequest.ofBytes]
  simp only [field_drop]

end

/-- When no intake fails, none is written by the verification of them all. -/
theorem intakesSettled_of_none_failing {l : Ledger} (none : ∀ j, ¬l.FailingIntake j) : l.IntakesSettled := by
  intro j
  cases mark : (l.intake j).faultMark with
  | true => exact .inl rfl
  | false => exact .inr ((Bool.not_eq_false _).mp fun fails => none j ⟨mark, fails⟩)

/-- Settles O50: the verification of all intakes, the refusals in their order, and the repair by its parts. -/
theorem repairAccountRebuilds : Obligations.RepairAccountRebuilds := by
  refine ⟨fun l => ⟨l.checkIntakes_accounts, l.checkIntakes_tariffs, l.checkIntakes_pool, l.checkIntakes_closeWork,
    fun ⟨j, failing⟩ => Ledger.attention_checkIntakes j failing.1 failing.2,
    fun none => congrArg _ (Ledger.checkIntakes_of_settled (intakesSettled_of_none_failing none)),
    fun j => ⟨intake_checkIntakes_of_failing, intake_checkIntakes_of_not_failing⟩⟩, fun s p issues => ?requests⟩
  intro bad
  have ranges : bad ↔
      63 < field 0 1 p ∨ 15 < field 5 1 p ∨ (IdentityRequest.ofBytes (p.drop 1)).inRange = false := by
    rw [← Bool.not_eq_true, repair_inRange_iff]
    simp only [bad]
    omega
  refine ⟨fun outside =>
    exec_of_refusal (work := repairAccount) rfl issues (repairAccount_of_range (ranges.mp outside)) rfl,
    fun i t turn inside names tariff => ?addressed⟩
  have inRange : (IdentityRequest.ofBytes (p.drop 1)).inRange = true :=
    (Bool.not_eq_false _).mp fun outside => inside (ranges.mpr (.inr (.inr outside)))
  obtain ⟨own, addresses, works⟩ :=
    repairAccount_of_inRange (c := s.calendar) (mode := s.mode) (l := s.ledger) tariff inRange
  refine ⟨fun free => ?_, fun notFree unmarked => ?_, fun mark => ?marked⟩
  · exact exec_of_work (work := repairAccount) rfl ⟨issues, turn⟩
      (addresses.trans (addressFaulted_of_free names free)) rfl
  · exact exec_of_work (work := repairAccount) rfl ⟨issues, turn⟩
      (addresses.trans (addressFaulted_of_unmarked names notFree unmarked)) rfl
  have worked := (addresses.trans (addressFaulted_of_mark names mark)).trans (works i _)
  have unready (notReady : ¬s.ledger.ReadyTariff t) :
      exec .repairAccount s = .next (s.answered (s.ledger.checkTariff t) (refuse .noSuchTariff)) := by
    rw [if_pos (bne_iff_ne.mpr (checkTariff_ne_ready notReady))] at worked
    exact exec_of_work (work := repairAccount) rfl ⟨issues, turn⟩ worked rfl
  refine ⟨fun stands notReady => ?_, fun failing => ?_, fun ready => ?ready⟩
  · have refused := unready fun ready => notReady ready.1
    rw [checkTariff_of_not_failing stands] at refused
    exact refused
  · have refused := unready fun ready => ne_true_of_eq_false failing.2 ready.2
    rw [checkTariff_of_failingTariff failing] at refused
    exact refused
  have notFaulted : ¬((s.ledger.tariff t).state != .ready) = true := by rw [ready.1]; decide
  rw [checkTariff_of_readyTariff ready, if_neg notFaulted, Ledger.holder_checkAccounts] at worked
  refine ⟨fun ⟨j, other, notFree, number⟩ => ?held, fun unheld => ?repaired⟩
  case held =>
    have held : (s.ledger.holder (field 1 4 p) (some i)).isSome = true := by
      rw [Option.isSome_iff_ne_none, Ne, holder_except_eq_none_iff]
      exact fun none => none j other notFree number
    rw [if_pos held] at worked
    exact exec_of_work (work := repairAccount) rfl ⟨issues, turn⟩ worked rfl
  case repaired =>
    intro v owned joins
    have free : ¬(s.ledger.holder (field 1 4 p) (some i)).isSome = true := by
      rw [holder_except_eq_none_iff.mpr unheld]
      decide
    rw [if_neg free, carryOutRepair_eq] at worked
    rw [Ledger.putAccount] at worked
    generalize stored : Ledger.storeAccount i _ _ = m at worked
    obtain ⟨own, others, tariffs, pool, attention, work, intakes⟩ := storeAccount_intakesFreed _ _ i _ stored
    exact ⟨m, exec_of_work (work := repairAccount) rfl ⟨issues, turn⟩ worked rfl, others,
      tariffs.trans ((Ledger.checkIntakes_tariffs _).trans s.ledger.checkAccounts_tariffs),
      pool.trans ((Ledger.checkIntakes_pool _).trans s.ledger.checkAccounts_pool), attention,
      work.trans ((Ledger.checkIntakes_closeWork _).trans s.ledger.checkAccounts_closeWork),
      fun j => (intakes j).trans (intake_repairFreed v (8 - (owned.take 8).length) j),
      own.trans (seal_repaired_ofBytes _ _)⟩

end Sys2Proof.Machine.AccountRepairs
end

section
/-! REPAIR_INTAKE (R171): the account that the repaired intake belongs to, and the accounts that lose it. -/

namespace Sys2Proof.Machine.IntakeRepairs

open Sys2Proof Sys2Proof.Machine
open Sys2Proof.Machine.AccountRepairs Sys2Proof.Machine.IntakeRequestRules Sys2Proof.Machine.Ownership
open Sys2Proof.Machine.RequestRules Sys2Proof.Machine.SlotClosure

/-! ### The accounts that list an intake -/

section

variable {v : Ledger} {i : IntakeNo} {a b : Slot}

/-- The billing account lists the intake. -/
def Lists (v : Ledger) (i : IntakeNo) (a : Slot) : Prop := (v.account a).bills = true ∧ i ∈ (v.account a).members

theorem mem_listing_iff : a ∈ v.listing i ↔ Lists v i a := mem_listing

theorem listing_nodup (v : Ledger) (i : IntakeNo) : (v.listing i).Nodup := allSlots_nodup.filter _

theorem head_listing_eq_some_iff :
    (v.listing i).head? = some a ↔ Lists v i a ∧ ∀ b, b < a → ¬Lists v i b := by
  have lists (a : Slot) : ((v.account a).bills && (v.account a).members.contains i) = true ↔ Lists v i a := by
    rw [Bool.and_eq_true, List.contains_iff_mem]
    rfl
  rw [Ledger.listing, List.head?_filter, find_allSlots_eq_some_iff, lists]
  simp only [lists]

theorem head_listing_of_none (unlisted : ∀ a, ¬Lists v i a) : (v.listing i).head? = none := by
  rw [List.head?_eq_none_iff, List.eq_nil_iff_forall_not_mem]
  exact fun a mem => unlisted a (mem_listing_iff.mp mem)

/-- Every account that lists the intake, but for the lowest. -/
theorem mem_tail_listing_iff : b ∈ (v.listing i).tail ↔ Lists v i b ∧ ∃ a, a < b ∧ Lists v i a := by
  have once := listing_nodup v i
  have listed : b ∈ v.listing i ↔ Lists v i b := mem_listing_iff
  cases found : v.listing i with
  | nil =>
    rw [found] at listed
    exact ⟨nofun, fun h => absurd (listed.mpr h.1) List.not_mem_nil⟩
  | cons first rest =>
    obtain ⟨lists, lowest⟩ := head_listing_eq_some_iff.mp (by rw [found]; rfl : (v.listing i).head? = some first)
    rw [found] at listed once
    constructor
    · intro mem
      have lists' := listed.mp (List.mem_cons_of_mem first mem)
      have other : b ≠ first := ne_of_mem_of_not_mem mem (List.nodup_cons.mp once).1
      have notBelow : ¬b < first := fun below => lowest b below lists'
      exact ⟨lists', first, Nat.lt_of_le_of_ne (Nat.not_lt.mp notBelow) fun same => other (Fin.ext same.symm),
        lists⟩
    · rintro ⟨lists', a, below, listsLower⟩
      refine (List.mem_cons.mp (listed.mpr lists')).resolve_left fun here => ?_
      exact lowest a (here ▸ below) listsLower

end

/-! ### The repair in the ledger -/

section

variable {p : List Byte} {c : Calendar} {mode : Mode} {l m : Ledger} {i : IntakeNo} {k : LaneNo} {scale : Nat}

/-- The check word of an UNDEFINED intake is no part of the repaired record. -/
theorem seal_repairedIntake (owner : Option Slot) :
    (Intake.repaired k scale owner c).seal =
      Intake.seal
        { Intake.undefined with
          phase := if owner = none then .free else .member
          lane := k
          scale := scale
          owner := owner
          ownerSince := owner.map fun _ => c.currentTag } := by
  cases owner <;> rfl

/-- The accounts behind the first that list the intake lose it, and the intake is written. -/
theorem carryOutIntakeRepair_law (v : Ledger)
    (repaired : (eachOf (v.listing i).tail (fun a l => l.putAccount a ((l.account a).leave i)) v).putIntake i
      (.repaired k scale (v.listing i).head? c) = m) :
    m.intake i = (Intake.repaired k scale (v.listing i).head? c).seal ∧ (∀ j, j ≠ i → m.intake j = v.intake j) ∧
      m.tariffs = v.tariffs ∧ m.pool = v.pool ∧ m.attention = v.attention ∧ m.closeWork = v.closeWork ∧
      ∀ b, m.account b = if b ∈ (v.listing i).tail then ((v.account b).leave i).seal else v.account b := by
  have value {α : Type} (f : Ledger → α) (keeps : ∀ b a m, f (m.putAccount b a) = f m) :
      f (eachOf (v.listing i).tail (fun a l => l.putAccount a ((l.account a).leave i)) v) = f v :=
    eachOf_keeps_value (act := fun a l => l.putAccount a ((l.account a).leave i)) f (fun _ _ _ => keeps _ _ _) v
  have written (j : IntakeNo) (x : Intake) (n : Ledger) :
      (n.putIntake i x).intake j = if i = j then x.seal else n.intake j := n.intake_storeIntake i j x.seal
  subst repaired
  refine ⟨(written i _ _).trans (if_pos rfl), fun j other => ?_, value (·.tariffs) fun _ _ _ => rfl,
    value (·.pool) fun _ _ _ => rfl, value (·.attention) fun _ _ _ => rfl, value (·.closeWork) fun _ _ _ => rfl,
    fun b => account_leaveEach ((listing_nodup v i).sublist (List.tail_sublist _)) i b v⟩
  exact ((written j _ _).trans (if_neg (Ne.symm other))).trans (value (·.intake j) fun _ _ _ => rfl)

theorem repairIntake_of_outside
    (bad : 95 < field 0 1 p ∨ 3 < field 1 1 p ∨ field 2 4 p < 1 ∨ 1000000 < field 2 4 p) :
    repairIntake p c mode l = (l, refuse .outOfRange) := by
  rw [repairIntake]
  by_cases outside : 3 < field 1 1 p ∨ field 2 4 p < 1 ∨ 1000000 < field 2 4 p
  · rw [laneAndScale_of_outside outside]
    cases intakeOf (field 0 1 p) <;> rfl
  · rw [intakeOf_of_above (bad.resolve_right outside)]

theorem repairIntake_of_inside (names : field 0 1 p = i.val) (ranges : laneAndScale p = some (k, scale)) :
    repairIntake p c mode l =
      if (l.intake i).faultMark then (carryOutIntakeRepair k scale c i l, okDone) else (l, refuse .wrongState) := by
  rw [repairIntake, names, intakeOf_val, ranges]

end

/-- Settles O51: DISCARD_ACCOUNT by its law, and REPAIR_INTAKE by the accounts that list the intake. -/
theorem discardAndRepairIntake : Obligations.DiscardAndRepairIntake := by
  refine ⟨fun s p issues => discardAccount_law issues, fun s p issues => ?repair⟩
  intro bad
  refine ⟨fun outside => exec_of_refusal (work := repairIntake) rfl issues (repairIntake_of_outside outside) rfl,
    fun i k turn inside names lane => ?addressed⟩
  have ranges : laneAndScale p = some (k, field 2 4 p) := by
    simp only [bad, not_or, Nat.not_lt] at inside
    exact laneAndScale_of_inside lane inside.2.2.1 inside.2.2.2
  have worked := repairIntake_of_inside (c := s.calendar) (mode := s.mode) (l := s.ledger) names ranges
  refine ⟨fun unmarked => ?_, fun mark => ?repaired⟩
  · exact exec_of_work (work := repairIntake) rfl ⟨issues, turn⟩
      (worked.trans (if_neg (ne_true_of_eq_false unmarked))) rfl
  case repaired =>
    intro v lists repaired
    have intakes : v.intakes = s.ledger.intakes := s.ledger.checkAccounts_intakes
    rw [if_pos mark, carryOutIntakeRepair] at worked
    generalize written : Ledger.putIntake i _ _ = m at worked
    obtain ⟨own, others, tariffs, pool, attention, work, accounts⟩ := carryOutIntakeRepair_law v written
    refine ⟨m, exec_of_work (work := repairIntake) rfl ⟨issues, turn⟩ worked rfl,
      fun j other => (others j other).trans (congrArg (·[j.val]) intakes),
      tariffs.trans s.ledger.checkAccounts_tariffs, pool.trans s.ledger.checkAccounts_pool, attention,
      work.trans s.ledger.checkAccounts_closeWork, fun none => ?unlisted, fun a listed lowest => ?listed,
      fun b => ⟨fun behind => ?lost, fun notBehind => ?kept⟩⟩
    case unlisted => rw [own, head_listing_of_none none, seal_repairedIntake]; rfl
    case listed => rw [own, head_listing_eq_some_iff.mpr ⟨listed, lowest⟩, seal_repairedIntake]; rfl
    case lost => exact (accounts b).trans (if_pos (mem_tail_listing_iff.mpr behind))
    case kept => exact (accounts b).trans (if_neg (mt mem_tail_listing_iff.mp notBehind))

end Sys2Proof.Machine.IntakeRepairs
end

section
/-! START_RUN, STOP_RUN, SET_RUN_PARAMETERS and the requests on the Accumulation Engine (R61, R108, R109, R179 to R182),
with what the entry to RUN does on a lane (R83). -/

namespace Sys2Proof.Machine.ModeRequests

open Sys2Proof Sys2Proof.Machine
open Sys2Proof.Machine.AccountTable Sys2Proof.Machine.BandNotify Sys2Proof.Machine.CalendarEvents
open Sys2Proof.Machine.LaneRequestRules Sys2Proof.Machine.PeriodSettlement

/-! ### Requests that ask for an operation -/

section

variable {s : State} {k : RequestCode} {c : Instr} {p : List Byte} {asks : List Byte → State → Bool}
  {own : List Byte → State → State × Answer} {t : State} {a : Answer}

theorem exec_of_granted (runs : exec c s = .next (runOperation k asks own s)) (granted : s.Granted k p)
    (asked : asks p s = true) (worked : own p s.requestGrant = (t, a)) : exec c s = .next (t.respond a) := by
  rw [runs, runOperation_granted_runs granted asked, worked]

theorem exec_of_unasked (runs : exec c s = .next (runOperation k asks own s)) (issues : s.Issues k p)
    (unasked : asks p s = false) (worked : own p s = (t, a)) : exec c s = .next (t.respond a) := by
  rw [runs, runOperation_unasked_runs issues unasked, worked]

end

/-! ### The entry to RUN on a lane (R83) -/

/-- A lane as the run is entered: its errors restart, and an ACTIVE one gets a BOUNDARY and its credits. -/
def enteredLane (tag : Tag) (time : Option Seconds) (n : Lane) : Lane :=
  if n.state = .active then
    { n with
      errorCount := 0
      outstanding := n.outstanding + (n.allotment - n.queued - n.outstanding)
      toSend := n.toSend + (n.allotment - n.queued - n.outstanding)
      waiting :=
        n.waiting ++ [.boundary tag time] ++
          (if n.allotment - n.queued - n.outstanding = 0 ∨ n.toSend ≠ 0 then [] else [.credit]) }
  else { n with errorCount := 0 }

/-- A CREDIT takes its place when there is one to send and there was none. -/
theorem grant_eq (k : Nat) (n : Lane) :
    n.grant k =
      { n with
        outstanding := n.outstanding + k
        toSend := n.toSend + k
        waiting := n.waiting ++ (if k = 0 ∨ n.toSend ≠ 0 then [] else [.credit]) } := by
  rw [Lane.grant]
  by_cases none : k = 0
  · rw [if_pos none, if_pos (.inl none), List.append_nil, none]
    rfl
  · rw [if_neg none]
    by_cases idle : n.toSend = 0
    · rw [if_pos idle, if_neg (not_or.mpr ⟨none, not_not_intro idle⟩)]
    · rw [if_neg idle, if_pos (.inr idle), List.append_nil]

theorem enterRun_eq (tag : Tag) (time : Option Seconds) (n : Lane) : n.enterRun tag time = enteredLane tag time n := by
  rw [Lane.enterRun, enteredLane]
  by_cases active : n.state = .active
  · refine (if_pos active).trans (Eq.trans ?_ (if_pos active).symm)
    rw [grant_eq]
    rfl
  · exact (if_neg active).trans (if_neg active).symm

/-! ### The period starts of START_RUN (R180) -/

/-- An account as the run starts. -/
def startedAccount (t : Seconds) (a : Account) : Account :=
  if a.state = .active then
    if a.checks then Account.seal { a with period := { a.period with start := some t } } else { a with faultMark := true }
  else a

/-- An ACTIVE account fails its check word. -/
def failsStart (a : Account) : Bool := decide (a.state = .active) && !a.checks

section

variable {t : Seconds} {l : Ledger} {i j : Slot}

theorem unmarked_of_active {a : Account} (active : a.state = .active) : a.faultMark = false :=
  (Bool.not_eq_true _).mp fun mark => by rw [RequestRules.state_of_mark mark] at active; cases active

theorem failing_of_active (active : (l.account i).state = .active) (fails : (l.account i).checks = false) :
    l.FailingAccount i := by
  have unmarked := unmarked_of_active active
  refine ⟨unmarked, fun free => ?_, fails⟩
  rw [(state_eq_free_iff unmarked).mpr free] at active
  cases active

theorem failsStart_iff : failsStart (l.account i) = true ↔ (l.account i).state = .active ∧ l.FailingAccount i := by
  rw [failsStart, Bool.and_eq_true, decide_eq_true_eq, Bool.not_eq_true']
  exact ⟨fun h => ⟨h.1, failing_of_active h.1 h.2⟩, fun h => ⟨h.1, h.2.2.2⟩⟩

theorem startAccount_of_failing (active : (l.account i).state = .active) (fails : (l.account i).checks = false) :
    startAccount t i l = l.withAccountMarked i := by
  have marked : ((l.withAccountMarked i).account i).faultMark = true := by simp [Ledger.withAccountMarked]
  rw [startAccount, if_pos active, checkAccount_of_failingAccount (failing_of_active active fails)]
  exact if_pos marked

theorem startAccount_of_sound (active : (l.account i).state = .active) (checks : (l.account i).checks = true) :
    startAccount t i l =
      l.putAccount i { l.account i with period := { (l.account i).period with start := some t } } := by
  rw [startAccount, if_pos active, Ledger.checkAccount_of_sound (.inr checks)]
  exact if_neg (ne_true_of_eq_false (unmarked_of_active active))

theorem startAccount_of_other (other : (l.account i).state ≠ .active) : startAccount t i l = l := if_neg other

/-- What a start of an account's period changes: the account, and the attention when it fails. -/
theorem startAccount_law (t : Seconds) (i : Slot) (l : Ledger) :
    (∀ j, (startAccount t i l).account j = if i = j then startedAccount t (l.account i) else l.account j) ∧
      (startAccount t i l).attention =
        (if failsStart (l.account i) then (l.raise .integrityFault).attention else l.attention) ∧
      (startAccount t i l).intakes = l.intakes ∧ (startAccount t i l).tariffs = l.tariffs ∧
      (startAccount t i l).pool = l.pool ∧ (startAccount t i l).closeWork = l.closeWork := by
  by_cases active : (l.account i).state = .active
  · cases checks : (l.account i).checks with
    | true =>
      have quiet : failsStart (l.account i) = false := by rw [failsStart, checks]; exact Bool.and_false _
      rw [startAccount_of_sound active checks, startedAccount, if_pos active, if_pos checks, quiet]
      exact ⟨fun j => Ledger.account_putAccount _ i j _, rfl, rfl, rfl, rfl, rfl⟩
    | false =>
      have loud : failsStart (l.account i) = true := failsStart_iff.mpr ⟨active, failing_of_active active checks⟩
      have fails : ¬(l.account i).checks = true := ne_true_of_eq_false checks
      rw [startAccount_of_failing active checks, startedAccount, if_pos active, if_neg fails, loud]
      exact ⟨fun j => Ledger.account_storeAccount _ i j _, rfl, rfl, rfl, rfl, rfl⟩
  · have quiet : failsStart (l.account i) = false := by rw [failsStart, decide_eq_false active]; rfl
    rw [startAccount_of_other active, startedAccount, if_neg active, quiet]
    refine ⟨fun j => ?_, rfl, rfl, rfl, rfl, rfl⟩
    split
    · next here => rw [here]
    · rfl

/-- The attention after the starts of a list of accounts, each once. -/
theorem attention_startEach {numbers : List Slot} (once : numbers.Nodup) (l : Ledger) :
    (eachOf numbers (startAccount t) l).attention =
      if numbers.any fun i => failsStart (l.account i) then (l.raise .integrityFault).attention else l.attention := by
  induction numbers generalizing l with
  | nil => rfl
  | cons i rest ih =>
    obtain ⟨fresh, once⟩ := List.nodup_cons.mp once
    obtain ⟨accounts, attention, _⟩ := startAccount_law t i l
    have later : (rest.any fun j => failsStart ((startAccount t i l).account j)) =
        rest.any fun j => failsStart (l.account j) := by
      rw [Bool.eq_iff_iff, List.any_eq_true, List.any_eq_true]
      refine exists_congr fun j => and_congr_right fun mem => ?_
      rw [accounts, if_neg (ne_of_mem_of_not_mem mem fresh).symm]
    have raise (m : Ledger) : (m.raise .integrityFault).attention = m.attention ||| AttentionSource.integrityFault.bit := rfl
    rw [eachOf_cons, ih once, later, List.any_cons, raise, raise, attention, raise]
    cases failsStart (l.account i) with
    | true =>
      cases rest.any fun j => failsStart (l.account j) with
      | true => exact (BitVec.or_assoc _ _ _).trans (congrArg _ BitVec.or_self)
      | false => rfl
    | false => rfl

/-- What the period starts of START_RUN leave. -/
theorem startAccounts_law (t : Seconds) (l : Ledger) {m : Ledger} (started : eachOf allSlots (startAccount t) l = m) :
    m = { l with accounts := m.accounts, attention := m.attention } ∧
      ((∃ i, (l.account i).state = .active ∧ l.FailingAccount i) → m.attention = (l.raise .integrityFault).attention) ∧
      ((∀ i, ¬((l.account i).state = .active ∧ l.FailingAccount i)) → m.attention = l.attention) ∧
      ∀ i, m.account i = startedAccount t (l.account i) := by
  have value {α : Type} (f : Ledger → α) (keeps : ∀ i m, f (startAccount t i m) = f m) : f m = f l := by
    rw [← started]
    exact eachOf_keeps_value f (fun i _ n => keeps i n) l
  have attention : m.attention = _ := started ▸ attention_startEach (t := t) allSlots_nodup l
  have some : (allSlots.any fun i => failsStart (l.account i)) = true ↔
      ∃ i, (l.account i).state = .active ∧ l.FailingAccount i := by
    rw [List.any_eq_true]
    exact exists_congr fun i => (and_iff_right (mem_allSlots i)).trans failsStart_iff
  refine ⟨?kept, fun failing => ?raised, fun quiet => ?unraised, fun i => ?account⟩
  case kept =>
    have intakes : m.intakes = l.intakes := value (·.intakes) fun i n => (startAccount_law t i n).2.2.1
    have tariffs : m.tariffs = l.tariffs := value (·.tariffs) fun i n => (startAccount_law t i n).2.2.2.1
    have pool : m.pool = l.pool := value (·.pool) fun i n => (startAccount_law t i n).2.2.2.2.1
    have work : m.closeWork = l.closeWork := value (·.closeWork) fun i n => (startAccount_law t i n).2.2.2.2.2
    rw [← intakes, ← tariffs, ← pool, ← work]
  case raised => rw [attention, if_pos (some.mpr failing)]
  case unraised => rw [attention, if_neg (mt some.mp (not_exists.mpr quiet))]
  case account =>
    have pointwise := eachOf_pointwise (fun i (m : Ledger) => m.account i) (act := startAccount t)
      (fun i j n different => ((startAccount_law t i n).1 j).trans (if_neg different))
      (fun i n n' same => by rw [(startAccount_law t i n).1, (startAccount_law t i n').1, same]) allSlots_nodup i l
    rw [if_pos (mem_allSlots i), started] at pointwise
    exact pointwise.trans (((startAccount_law t i l).1 i).trans (if_pos rfl))

end

/-- Settles O54: refused without a time, and otherwise the period starts, the anchor and the lanes. -/
theorem startRunEntersRun : Obligations.StartRunEntersRun := by
  intro s p issues
  refine ⟨fun unset => ?unset, fun turn set => ?set⟩
  case unset =>
    exact exec_of_unasked (own := startRun) rfl issues unset (by rw [startRun, unset]; rfl)
  case set =>
    intro step anchor
    have worked : startRun p s.requestGrant =
        (State.enterRun
          { s.requestGrant.withLedger (eachOf allSlots (startAccount s.calendar.time) s.ledger) with
            calendar := s.calendar.anchored }, okDone) :=
      if_neg (by rw [Bool.not_eq_true', State.requestGrant, set]; decide)
    generalize started : eachOf allSlots (startAccount s.calendar.time) s.ledger = l at worked
    obtain ⟨kept, raised, unraised, accounts⟩ := startAccounts_law s.calendar.time s.ledger started
    refine ⟨l, s.lanes.map (Lane.enterRun (s.calendar.currentTag - 1) (some anchor)),
      exec_of_granted (own := startRun) rfl ⟨issues, turn⟩ set worked, kept, raised, unraised, accounts, fun k => ?_⟩
    intro n granted
    rw [Vector.getElem_map, enterRun_eq]
    rfl

/-! ### STOP_RUN and SET_RUN_PARAMETERS (R61, R181, R182) -/

section

variable {s : State} {p : List Byte}

/-- Some slot is not FREE. -/
theorem any_occupied_iff :
    (allSlots.any fun i => (s.ledger.account i).state != .free) = true ↔ ∃ i, (s.ledger.account i).state ≠ .free := by
  rw [List.any_eq_true]
  exact exists_congr fun i => (and_iff_right (mem_allSlots i)).trans bne_iff_ne

theorem stopRun_eq :
    stopRun p s =
      if allSlots.any fun i => (s.ledger.account i).state != .free then (s, refuse .notEmpty)
      else
        ({ s with
            calendar := { s.calendar with grace := none }, mode := .commissioning, work := [], laneBoundaries := [] },
          okDone) := rfl

/-- The ranges of the run parameters (Table 3-2, R61). -/
theorem parameters_inRange_iff :
    (RunParameters.ofBytes p).inRange = true ↔
      field 0 1 p ∈ [1, 2, 3, 5, 10, 15, 30] ∧ 5 ≤ field 1 1 p ∧ field 1 1 p ≤ 120 ∧
        field 1 1 p < field 0 1 p * 60 ∧ 1 ≤ field 2 1 p := by
  have limit := field_byte_le 2 p
  have count := field_byte_le 3 p
  simp only [RunParameters.inRange, RunParameters.ofBytes, subintervals, Bool.and_eq_true,
    List.contains_iff_mem]
  exact ⟨fun ⟨⟨⟨⟨⟨⟨sub, low⟩, high⟩, below⟩, least⟩, _⟩, _⟩ =>
      ⟨sub, of_decide_eq_true low, of_decide_eq_true high, of_decide_eq_true below, of_decide_eq_true least⟩,
    fun ⟨sub, low, high, below, least⟩ =>
      ⟨⟨⟨⟨⟨⟨sub, decide_eq_true low⟩, decide_eq_true high⟩, decide_eq_true below⟩, decide_eq_true least⟩,
        decide_eq_true limit⟩, decide_eq_true count⟩⟩

/-- Every READY BLOCK tariff's window divides the day. -/
theorem all_admit_iff {subinterval : Nat} :
    (allTariffs.all fun t => (s.ledger.tariff t).admitsSubinterval subinterval) = true ↔
      ∀ i, (s.ledger.tariff i).state = .ready → (s.ledger.tariff i).evaluation = .block →
        1440 % ((s.ledger.tariff i).n * subinterval) = 0 := by
  rw [List.all_eq_true]
  refine forall_congr' fun i => (imp_iff_right (mem_allTariffs i)).trans ?_
  rw [Tariff.admitsSubinterval, Bool.or_eq_true, Bool.or_eq_true, bne_iff_ne, bne_iff_ne, blockFits, decide_eq_true_eq]
  by_cases ready : (s.ledger.tariff i).state = .ready
  · by_cases block : (s.ledger.tariff i).evaluation = .block
    · simp [ready, block]
    · simp [block]
  · simp [ready]

theorem setRunParameters_of_outside (outside : (RunParameters.ofBytes p).inRange = false) :
    setRunParameters p s = (s, refuse .outOfRange) := if_pos (by rw [outside]; rfl)

theorem setRunParameters_of_inside (inside : (RunParameters.ofBytes p).inRange = true) :
    setRunParameters p s =
      if !(allTariffs.all fun t => (s.ledger.tariff t).admitsSubinterval (field 0 1 p)) then (s, refuse .outOfRange)
      else ({ s with calendar := { s.calendar with params := .ofBytes p, boundaryCount := 0 } }, okDone) :=
  if_neg (by rw [inside]; decide)

end

/-- A placement is in progress when an entry waits and no boundary's work is open. -/
theorem holdAccumulation_of_running {s : State} {p : List Byte} (running : s.engine = .running) :
    holdAccumulation p s =
      ({ s with engine := if s.arrivals ≠ [] ∧ s.boundaryOpen = false then .stopping else .held }, okDone) := by
  have placing : s.placing = true ↔ s.arrivals ≠ [] ∧ s.boundaryOpen = false := by
    rw [State.placing, Bool.and_eq_true, Bool.not_eq_true', Bool.not_eq_true', List.isEmpty_eq_false_iff]
  rw [holdAccumulation, if_pos running]
  simp only [placing]

/-- Settles O55: each request by its checks in their order. -/
theorem modeAndEngineRequests : Obligations.ModeAndEngineRequests := by
  refine ⟨fun s p granted => ⟨fun free => ?stopped, fun occupied => ?occupied⟩, fun s p issues => ?parameters,
    fun s p => ⟨fun issues => ⟨fun running => ?held, fun other => ?unheld⟩,
      fun issues => ⟨fun other => ?released, fun running => ?unreleased⟩⟩⟩
  case stopped =>
    have none : ¬(allSlots.any fun i => (s.ledger.account i).state != .free) = true := by
      rw [any_occupied_iff]
      exact fun ⟨i, occupied⟩ => occupied (free i)
    exact exec_of_granted (own := stopRun) rfl granted rfl ((stopRun_eq (s := s.requestGrant)).trans (if_neg none))
  case occupied =>
    exact exec_of_granted (own := stopRun) rfl granted rfl
      ((stopRun_eq (s := s.requestGrant)).trans (if_pos (any_occupied_iff.mpr occupied)))
  case parameters =>
    intro inRange aligned
    refine ⟨fun turn inside fits => ?_, fun turn inside unfit => ?_, fun outside => ?_⟩
    · have inside' := parameters_inRange_iff.mpr inside
      have fits' : ¬(!(allTariffs.all fun t =>
          (s.requestGrant.ledger.tariff t).admitsSubinterval (field 0 1 p))) = true := by
        rw [(all_admit_iff (s := s.requestGrant)).mpr fits]
        decide
      exact exec_of_granted (own := setRunParameters) rfl ⟨issues, turn⟩ inside'
        ((setRunParameters_of_inside inside').trans (if_neg fits'))
    · have inside' := parameters_inRange_iff.mpr inside
      have unfit' : (!(allTariffs.all fun t =>
          (s.requestGrant.ledger.tariff t).admitsSubinterval (field 0 1 p))) = true := by
        rw [Bool.not_eq_true', ← Bool.not_eq_true, all_admit_iff (s := s.requestGrant)]
        exact unfit
      exact exec_of_granted (own := setRunParameters) rfl ⟨issues, turn⟩ inside'
        ((setRunParameters_of_inside inside').trans (if_pos unfit'))
    · have outside' := (Bool.not_eq_true _).mp (mt parameters_inRange_iff.mp outside)
      exact exec_of_unasked (own := setRunParameters) rfl issues outside' (setRunParameters_of_outside outside')
  case held => exact exec_of_request (own := holdAccumulation) rfl issues (holdAccumulation_of_running running)
  case unheld => exact exec_of_request (own := holdAccumulation) rfl issues (if_neg other)
  case released => exact exec_of_request (own := releaseAccumulation) rfl issues (if_neg other)
  case unreleased => exact exec_of_request (own := releaseAccumulation) rfl issues (if_pos running)

end Sys2Proof.Machine.ModeRequests
end

section
/-! The close instants of an account (R53, R157): one in each month, the first of them after a time, and the collapsed due
that the restart catch-up places. -/

namespace Sys2Proof.Machine.MissedCloses

open Sys2Proof Sys2Proof.Machine
open Sys2Proof.Machine.CalendarDates Sys2Proof.Machine.CalendarEvents Sys2Proof.Machine.PeriodSettlement

/-! ### Months in their order -/

/-- A month comes before another. -/
def MonthBefore (year month year' month' : Nat) : Prop := year < year' ∨ year = year' ∧ month < month'

section

variable {year month day year' month' day' : Nat}

/-- A year's days end where the next begins. -/
theorem daysBeforeYear_add_yearLength_le (low : 2000 ≤ year) (before : year < year') :
    daysBeforeYear year + yearLength year ≤ daysBeforeYear year' := by
  rw [daysBeforeYear, daysBeforeYear, yearLength]
  split <;> omega

/-- A date lies within the days of its year. -/
theorem within_year (monthLow : 1 ≤ month) (monthHigh : month ≤ 12) (dayLow : 1 ≤ day)
    (dayHigh : day ≤ monthLength year month) :
    ((monthLengths year).take (month - 1)).sum + (day - 1) < yearLength year := by
  have held : month - 1 < (monthLengths year).length := by rw [length_monthLengths]; omega
  have fits := take_sum_add_getElem_le (monthLengths year) (month - 1) held
  rw [sum_monthLengths] at fits
  rw [monthLength_eq held] at dayHigh
  omega

/-- The days of a month end before the next month of the year. -/
theorem within_month (lengths : List Nat) (before : month < month') (held : month - 1 < lengths.length) (low : 1 ≤ month)
    (dayLow : 1 ≤ day) (dayHigh : day ≤ lengths[month - 1]) :
    (lengths.take (month - 1)).sum + (day - 1) < (lengths.take (month' - 1)).sum := by
  have step : (lengths.take month).sum = (lengths.take (month - 1)).sum + lengths[month - 1] := by
    conv => lhs; rw [← Nat.sub_add_cancel low]
    rw [List.take_succ_eq_append_getElem held, List.sum_append, List.sum_singleton]
  have rest : (lengths.take (month' - 1)).sum =
      (lengths.take month).sum + ((lengths.drop month).take (month' - 1 - month)).sum := by
    have split : month + (month' - 1 - month) = month' - 1 := by omega
    rw [← split, List.take_add, List.sum_append, Nat.add_sub_cancel_left]
  omega

/-- A day of an earlier month has the smaller number. -/
theorem dayNumber_lt_of_month (low : 2000 ≤ year) (monthLow : 1 ≤ month) (monthHigh : month ≤ 12) (dayLow : 1 ≤ day)
    (dayHigh : day ≤ monthLength year month) (before : MonthBefore year month year' month') :
    dayNumber year month day < dayNumber year' month' day' := by
  rw [dayNumber, dayNumber]
  rcases before with before | ⟨rfl, before⟩
  · have inYear := within_year monthLow monthHigh dayLow dayHigh
    have years := daysBeforeYear_add_yearLength_le low before
    omega
  · have held : month - 1 < (monthLengths year).length := by rw [length_monthLengths]; omega
    rw [monthLength_eq held] at dayHigh
    have inMonth := within_month (monthLengths year) before held monthLow dayLow dayHigh
    omega

/-- Every month has 28 days and more. -/
theorem le_monthLength (monthLow : 1 ≤ month) (monthHigh : month ≤ 12) (few : day ≤ 28) : day ≤ monthLength year month := by
  rw [monthLength_of_month monthLow monthHigh]
  repeat' split
  all_goals omega

end

/-! ### The first close instant after a time -/

/-- The close instant of a month. -/
def instantIn (year month day hour : Nat) : Seconds := dayNumber year month day * 86400 + hour * 3600

/-- The month behind one. -/
def nextMonth (year month : Nat) : Nat × Nat := if month = 12 then (year + 1, 1) else (year, month + 1)

section

variable {year month year' month' day hour : Nat}

theorem closeInstant_own (low : 1 ≤ month) (high : month ≤ 12) :
    closeInstant year (month - 1) day hour = instantIn year month day hour := by
  have years : (month - 1) / 12 = 0 := by omega
  have months : (month - 1) % 12 + 1 = month := by omega
  rw [closeInstant, years, months]
  rfl

theorem closeInstant_next (high : month ≤ 12) :
    closeInstant year month day hour = instantIn (nextMonth year month).1 (nextMonth year month).2 day hour := by
  rw [closeInstant, nextMonth, instantIn]
  split
  · next last =>
    subst last
    rfl
  · have years : month / 12 = 0 := by omega
    have months : month % 12 = month := by omega
    rw [years, months]
    rfl

theorem before_nextMonth : MonthBefore year month (nextMonth year month).1 (nextMonth year month).2 := by
  rw [nextMonth]
  split
  · exact .inl (Nat.lt_succ_self year)
  · exact .inr ⟨rfl, Nat.lt_succ_self month⟩

theorem nextMonth_inRange (low : 2000 ≤ year) (monthHigh : month ≤ 12) :
    2000 ≤ (nextMonth year month).1 ∧ 1 ≤ (nextMonth year month).2 ∧ (nextMonth year month).2 ≤ 12 := by
  rw [nextMonth]
  split <;> (dsimp only; omega)

/-- Behind a month comes the next, or a later one. -/
theorem nextMonth_or_before (low : 1 ≤ month') (high : month' ≤ 12) (before : MonthBefore year month year' month') :
    (nextMonth year month = (year', month')) ∨ MonthBefore (nextMonth year month).1 (nextMonth year month).2 year' month' := by
  rw [nextMonth, MonthBefore] at *
  split
  · next last =>
    rw [Prod.mk.injEq]
    dsimp only
    omega
  · rw [Prod.mk.injEq]
    dsimp only
    omega

/-- Of two months one comes before the other. -/
theorem month_trichotomy (year month year' month' : Nat) :
    MonthBefore year month year' month' ∨ (year = year' ∧ month = month') ∨ MonthBefore year' month' year month := by
  rw [MonthBefore, MonthBefore]
  omega

end

section

variable {t u : Seconds} {day hour : Nat}

/-- A day has 86400 seconds, so an earlier day's times lie before a later day's hours. -/
theorem seconds_lt_of_day_lt {n n' hour hour' minute second s : Nat} (made : n * 86400 + hour * 3600 + minute * 60 + second = s)
    (earlier : n < n') (hourHigh : hour ≤ 23) (minuteHigh : minute ≤ 59) (secondHigh : second ≤ 59) :
    s < n' * 86400 + hour' * 3600 := by
  omega

theorem hours_lt_of_day_lt {n n' hour hour' : Nat} (earlier : n < n') (hourHigh : hour ≤ 23) :
    n * 86400 + hour * 3600 < n' * 86400 + hour' * 3600 := by
  omega

/-- A time is a close instant of the day and hour. -/
def IsClose (day hour : Nat) (u : Seconds) : Prop :=
  (dateTimeOf u).day = day ∧ (dateTimeOf u).hour = hour ∧ u % 3600 = 0

/-- A time lies in the month of its date, before the instants of later months and behind those of earlier ones. -/
theorem lt_instantIn_of_before {year month : Nat} (inside : t ≤ 3155759999)
    (before : MonthBefore (dateTimeOf t).year (dateTimeOf t).month year month) : t < instantIn year month day hour := by
  obtain ⟨made, range⟩ := dateTimeOf_toSeconds inside
  obtain ⟨low, -, monthLow, monthHigh, dayLow, dayHigh, hourHigh, minuteHigh, secondHigh⟩ := (inRange_iff _).mp range
  have later := dayNumber_lt_of_month (day' := day) low monthLow monthHigh dayLow dayHigh before
  rw [DateTime.toSeconds] at made
  rw [instantIn]
  exact seconds_lt_of_day_lt made later hourHigh minuteHigh secondHigh

/-- A time is no earlier than midnight of its day. -/
theorem instantIn_le (inside : t ≤ 3155759999) :
    instantIn (dateTimeOf t).year (dateTimeOf t).month (dateTimeOf t).day 0 ≤ t := by
  have made := (dateTimeOf_toSeconds inside).1
  rw [DateTime.toSeconds] at made
  rw [instantIn]
  generalize dayNumber (dateTimeOf t).year (dateTimeOf t).month (dateTimeOf t).day = n at made
  exact Nat.le_trans (by omega) (Nat.le_of_eq made)

/-- The instants of two months stand in the order of the months. -/
theorem instantIn_lt {year month year' month' : Nat} (low : 2000 ≤ year) (monthLow : 1 ≤ month) (monthHigh : month ≤ 12)
    (dayLow : 1 ≤ day) (dayHigh : day ≤ 28) (hourHigh : hour ≤ 23) (before : MonthBefore year month year' month') :
    instantIn year month day hour < instantIn year' month' day hour := by
  have later := dayNumber_lt_of_month (day' := day) low monthLow monthHigh dayLow
    (le_monthLength monthLow monthHigh dayHigh) before
  rw [instantIn, instantIn]
  exact hours_lt_of_day_lt later hourHigh

/-- A whole hour is a whole minute. -/
theorem second_of_whole {n : Nat} (whole : n % 3600 = 0) : n % 60 = 0 := by omega

theorem whole_of_hour (n h : Nat) : (n * 86400 + h * 3600) % 3600 = 0 := by omega

/-- The years behind 2099 lie behind the calendar. -/
theorem beyond_of_year {year month day hour : Nat} (beyond : 2100 ≤ year) : 3155759999 < instantIn year month day hour := by
  have days : 36525 ≤ dayNumber year month day := by
    rw [dayNumber, daysBeforeYear]
    omega
  rw [instantIn]
  generalize dayNumber year month day = n at days
  exact Nat.lt_of_lt_of_le (by decide : 3155759999 < 36525 * 86400)
    (Nat.le_trans (Nat.mul_le_mul_right 86400 days) (Nat.le_add_right _ _))

/-- A close instant is that of its own month. -/
theorem eq_instantIn_of_isClose (inside : u ≤ 3155759999) (close : IsClose day hour u) :
    u = instantIn (dateTimeOf u).year (dateTimeOf u).month day hour := by
  obtain ⟨rfl, rfl, whole⟩ := close
  have minute : (dateTimeOf u).minute = 0 := show u % 3600 / 60 = 0 by rw [whole]
  have second : (dateTimeOf u).second = 0 := show u % 60 = 0 from second_of_whole whole
  have made := (dateTimeOf_toSeconds inside).1
  rw [DateTime.toSeconds, minute, second, Nat.zero_mul, Nat.add_zero] at made
  exact made.symm

theorem toSeconds_whole (year month day hour : Nat) :
    (DateTime.mk year month day hour 0 0).toSeconds = instantIn year month day hour := by
  rw [DateTime.toSeconds, instantIn]
  dsimp only
  rw [Nat.zero_mul, Nat.add_zero]

/-- The instant of a month up to 2099 is a close instant. -/
theorem isClose_instantIn {year month : Nat} (low : 2000 ≤ year) (monthLow : 1 ≤ month) (monthHigh : month ≤ 12)
    (dayLow : 1 ≤ day) (dayHigh : day ≤ 28) (hourHigh : hour ≤ 23)
    (inside : instantIn year month day hour ≤ 3155759999) : IsClose day hour (instantIn year month day hour) := by
  have high : year ≤ 2099 := by
    refine Nat.le_of_lt_succ (Nat.lt_of_not_le fun beyond => ?_)
    exact Nat.not_lt.mpr inside (beyond_of_year beyond)
  have range : (DateTime.mk year month day hour 0 0).inRange = true :=
    (inRange_iff _).mpr ⟨low, high, monthLow, monthHigh, dayLow, le_monthLength monthLow monthHigh dayHigh, hourHigh,
      Nat.zero_le _, Nat.zero_le _⟩
  have date : dateTimeOf (instantIn year month day hour) = DateTime.mk year month day hour 0 0 := by
    rw [← toSeconds_whole]
    exact (toSeconds_dateTimeOf range).1
  rw [IsClose, date, instantIn]
  exact ⟨rfl, rfl, whole_of_hour _ _⟩

/-- The first close instant after a time: behind it, a close instant, and none between. -/
theorem closeInstantAfter_law (inside : t ≤ 3155759999) (dayLow : 1 ≤ day) (dayHigh : day ≤ 28) (hourHigh : hour ≤ 23) :
    t < closeInstantAfter t day hour ∧
      (closeInstantAfter t day hour ≤ 3155759999 → IsClose day hour (closeInstantAfter t day hour)) ∧
      ∀ u, t < u → u ≤ 3155759999 → IsClose day hour u → closeInstantAfter t day hour ≤ u := by
  obtain ⟨low, -, monthLow, monthHigh, -⟩ := (inRange_iff _).mp (dateTimeOf_toSeconds inside).2
  obtain ⟨low', monthLow', monthHigh'⟩ := nextMonth_inRange low monthHigh
  have chosen : closeInstantAfter t day hour =
      if t < instantIn (dateTimeOf t).year (dateTimeOf t).month day hour then
        instantIn (dateTimeOf t).year (dateTimeOf t).month day hour
      else
        instantIn (nextMonth (dateTimeOf t).year (dateTimeOf t).month).1
          (nextMonth (dateTimeOf t).year (dateTimeOf t).month).2 day hour := by
    rw [closeInstantAfter, closeInstant_own monthLow monthHigh, closeInstant_next monthHigh]
  have elsewhere {u : Seconds} (after : t < u) (within : u ≤ 3155759999) :
      ¬MonthBefore (dateTimeOf u).year (dateTimeOf u).month (dateTimeOf t).year (dateTimeOf t).month := fun before =>
    absurd (Nat.lt_of_lt_of_le (lt_instantIn_of_before within before) (instantIn_le inside)) (Nat.lt_asymm after)
  rw [chosen]
  by_cases ahead : t < instantIn (dateTimeOf t).year (dateTimeOf t).month day hour
  · rw [if_pos ahead]
    refine ⟨ahead, isClose_instantIn low monthLow monthHigh dayLow dayHigh hourHigh, fun u after within close => ?_⟩
    have own := eq_instantIn_of_isClose within close
    rcases month_trichotomy (dateTimeOf t).year (dateTimeOf t).month (dateTimeOf u).year (dateTimeOf u).month with
      later | ⟨year, month⟩ | earlier
    · rw [own]
      exact Nat.le_of_lt (instantIn_lt low monthLow monthHigh dayLow dayHigh hourHigh later)
    · rw [year, month]
      exact Nat.le_of_eq own.symm
    · exact absurd earlier (elsewhere after within)
  · rw [if_neg ahead]
    refine ⟨lt_instantIn_of_before inside before_nextMonth,
      isClose_instantIn low' monthLow' monthHigh' dayLow dayHigh hourHigh, fun u after within close => ?_⟩
    have own := eq_instantIn_of_isClose within close
    obtain ⟨-, -, monthLowU, monthHighU, -⟩ := (inRange_iff _).mp (dateTimeOf_toSeconds within).2
    rcases month_trichotomy (dateTimeOf t).year (dateTimeOf t).month (dateTimeOf u).year (dateTimeOf u).month with
      later | ⟨year, month⟩ | earlier
    · rcases nextMonth_or_before monthLowU monthHighU later with same | further
      · rw [same]
        exact Nat.le_of_eq own.symm
      · rw [own]
        exact Nat.le_of_lt (instantIn_lt low' monthLow' monthHigh' dayLow dayHigh hourHigh further)
    · rw [own, ← year, ← month] at after
      exact absurd after ahead
    · exact absurd earlier (elsewhere after within)

end

end Sys2Proof.Machine.MissedCloses
end

section
/-! The parts of the restart catch-up that visit one record: the stale slots (R132), the folds (R134), the collapsed close
dues (R157) and their examination (R158). -/

namespace Sys2Proof.Machine.CatchUpDues

open Sys2Proof Sys2Proof.Machine
open Sys2Proof.Machine.MissedCloses Sys2Proof.Machine.PeriodSettlement

section

variable {c : Calendar} {l : Ledger} {i : Slot} {last : Seconds}

/-! ### The slots and changes that survived -/

theorem closeStale_eq (c : Calendar) (i : Slot) (l : Ledger) :
    closeStale c i l = if (l.account i).pendingSlot = none then l else closeSlot .stale c i l := by
  rw [closeStale]
  cases (l.account i).pendingSlot with
  | none => rfl
  | some p => rfl

theorem foldMissed_eq (i : IntakeNo) (l : Ledger) :
    foldMissed i l = if (l.intake i).change = none then l else foldChange i l := by
  rw [foldMissed]
  cases (l.intake i).change with
  | none => rfl
  | some p => rfl

/-! ### The collapsed due (R157) -/

/-- The close instants of an account that the gap has passed. -/
def Missed (c : Calendar) (last : Seconds) (a : Account) (t : Seconds) : Prop :=
  last < t ∧ t ≤ boundaryAtOrBefore c.params.subinterval c.time ∧ IsClose a.closeDay a.closeHour t

/-- A boundary at or before a time is no later than it. -/
theorem boundaryAtOrBefore_le (s : Nat) (t : Seconds) : boundaryAtOrBefore s t ≤ t := Nat.div_mul_le_self t (s * 60)

theorem missedClose_eq {a : Account} (known : c.lastBoundary = some last) :
    a.missedClose c =
      if closeInstantAfter last a.closeDay a.closeHour ≤ boundaryAtOrBefore c.params.subinterval c.time then
        some (closeInstantAfter last a.closeDay a.closeHour)
      else none := by
  rw [Account.missedClose, known]
  rfl

section

variable {a : Account} (known : c.lastBoundary = some last) (lastInside : last ≤ 3155759999) (timeInside : c.time ≤ 3155759999)
  (dayLow : 1 ≤ a.closeDay) (dayHigh : a.closeDay ≤ 28) (hourHigh : a.closeHour ≤ 23)

include known lastInside timeInside dayLow dayHigh hourHigh

/-- The instant found is a missed close, and the earliest. -/
theorem missed_of_missedClose {t : Seconds} (found : a.missedClose c = some t) :
    Missed c last a t ∧ ∀ u, Missed c last a u → t ≤ u := by
  obtain ⟨behind, close, first⟩ := closeInstantAfter_law lastInside dayLow dayHigh hourHigh
  rw [missedClose_eq known] at found
  split at found
  · next reached =>
    obtain rfl := Option.some.inj found
    have inside := Nat.le_trans (Nat.le_trans reached (boundaryAtOrBefore_le _ _)) timeInside
    refine ⟨⟨behind, reached, close inside⟩, fun u missed => ?_⟩
    obtain ⟨after, passed, closes⟩ := missed
    exact first u after (Nat.le_trans (Nat.le_trans passed (boundaryAtOrBefore_le _ _)) timeInside) closes
  · nomatch found

/-- When none is found, none was missed. -/
theorem not_missed_of_missedClose (lost : a.missedClose c = none) (t : Seconds) : ¬Missed c last a t := by
  obtain ⟨-, -, first⟩ := closeInstantAfter_law lastInside dayLow dayHigh hourHigh
  rw [missedClose_eq known] at lost
  rintro ⟨after, passed, closes⟩
  split at lost
  · nomatch lost
  · next beyond =>
    exact beyond (Nat.le_trans
      (first t after (Nat.le_trans (Nat.le_trans passed (boundaryAtOrBefore_le _ _)) timeInside) closes) passed)

end

theorem placeMissedDue_of_none (lost : (l.account i).missedClose c = none) : placeMissedDue c i l = l := by
  rw [placeMissedDue, lost]

/-- An account that does not bill, or holds a due, gets none. -/
theorem placeMissedDue_of_held (held : (l.account i).bills = false ∨ (l.account i).closeDue ≠ none) :
    placeMissedDue c i l = l := by
  have keeps : ((l.account i).bills && (l.account i).closeDue.isNone) = false := by
    rcases held with idle | due
    · rw [idle, Bool.false_and]
    · rw [Option.isNone_eq_false_iff.mpr (Option.isSome_iff_ne_none.mpr due), Bool.and_false]
  cases found : (l.account i).missedClose c with
  | none => exact placeMissedDue_of_none found
  | some t =>
    rw [placeMissedDue, found]
    dsimp only
    rw [keeps, if_neg Bool.false_ne_true]

theorem placeMissedDue_of_missed {t : Seconds} (sound : l.SoundAccount i) (bills : (l.account i).bills = true)
    (free : (l.account i).closeDue = none) (found : (l.account i).missedClose c = some t) :
    placeMissedDue c i l = l.putAccount i { l.account i with closeDue := some { cause := .scheduled, time := t } } := by
  have enters : ((l.account i).bills && (l.account i).closeDue.isNone) = true := by
    rw [bills, free]
    rfl
  rw [placeMissedDue, found]
  dsimp only
  rw [if_pos enters, checkAccount_of_soundAccount sound, if_neg (ne_true_of_eq_false sound.1), Account.placeDue, free]

theorem placeMissedDue_law (known : c.lastBoundary = some last) (lastInside : last ≤ 3155759999)
    (timeInside : c.time ≤ 3155759999) (sound : l.SoundAccount i) (dayLow : 1 ≤ (l.account i).closeDay)
    (dayHigh : (l.account i).closeDay ≤ 28) (hourHigh : (l.account i).closeHour ≤ 23) :
    ((l.account i).bills = false ∨ (l.account i).closeDue ≠ none ∨ (∀ t, ¬Missed c last (l.account i) t) →
        placeMissedDue c i l = l) ∧
      ∀ t, (l.account i).bills = true → (l.account i).closeDue = none → Missed c last (l.account i) t →
        (∀ u, Missed c last (l.account i) u → t ≤ u) →
          placeMissedDue c i l =
            l.putAccount i { l.account i with closeDue := some { cause := .scheduled, time := t } } := by
  refine ⟨fun held => ?_, fun t bills free missed least => ?_⟩
  · rcases held with idle | due | nothing
    · exact placeMissedDue_of_held (.inl idle)
    · exact placeMissedDue_of_held (.inr due)
    · cases found : (l.account i).missedClose c with
      | none => exact placeMissedDue_of_none found
      | some t =>
        exact absurd (missed_of_missedClose known lastInside timeInside dayLow dayHigh hourHigh found).1 (nothing t)
  · cases found : (l.account i).missedClose c with
    | none =>
      exact absurd missed (not_missed_of_missedClose known lastInside timeInside dayLow dayHigh hourHigh found t)
    | some t' =>
      obtain ⟨missed', least'⟩ := missed_of_missedClose known lastInside timeInside dayLow dayHigh hourHigh found
      obtain rfl := Nat.le_antisymm (least' t missed) (least t' missed')
      exact placeMissedDue_of_missed sound bills free found

/-! ### The examination (R158) -/

/-- An account whose close is blocked: the flag is set, and CLOSE_BLOCKED raised when it was clear. -/
theorem blockClose_eq (i : Slot) (l : Ledger) :
    blockClose i l =
      if (l.account i).closeBlocked = true then l
      else (l.putAccount i { l.account i with closeBlocked := true }).raise .closeBlocked := rfl

theorem examineMissed_of_idle {now : Seconds} (sound : l.SoundAccount i)
    (idle : (l.account i).bills = false ∨ (l.account i).closeDue = none ∨ (l.account i).storedSlot ≠ none) :
    examineMissed now i l = l := by
  rw [examineMissed]
  split
  · refine (examine_of_idle ?_).trans (checkAccount_of_soundAccount sound)
    rw [checkAccount_of_soundAccount sound, pendingSlot_of_unmarked sound.1]
    exact idle
  · rfl

section

variable {now : Seconds} {due : CloseDue} (sound : l.SoundAccount i) (bills : (l.account i).bills = true)
  (owed : (l.account i).closeDue = some due) (noSlot : (l.account i).storedSlot = none)

theorem examineMissed_of_due (bills : (l.account i).bills = true) (owed : (l.account i).closeDue = some due) :
    examineMissed now i l = examine true now i l := by
  rw [examineMissed, bills, owed]
  rfl

include sound bills owed noSlot

theorem examineMissed_of_settled (settled : (l.account i).settled ≠ none) : examineMissed now i l = blockClose i l :=
  (examineMissed_of_due bills owed).trans (examine_of_settled sound bills owed noSlot settled)

theorem examineMissed_of_markedTariff (unsettled : (l.account i).settled = none)
    (mark : (l.tariff (l.account i).tariff).faultMark = true) : examineMissed now i l = blockClose i l := by
  rw [examineMissed_of_due bills owed, examine_of_unsettled sound bills owed noSlot unsettled,
    Ledger.checkTariff_of_sound (.inl mark), if_neg (tariff_ne_ready_of_mark mark)]

theorem examineMissed_of_ready (unsettled : (l.account i).settled = none) (ready : l.ReadyTariff (l.account i).tariff) :
    examineMissed now i l =
      (l.putAccount i ((l.account i).closePeriod due.cause.toCause true now (l.tariff (l.account i).tariff))).raise
        .settlementReady := by
  rw [examineMissed_of_due bills owed, examine_of_unsettled sound bills owed noSlot unsettled,
    checkTariff_of_readyTariff ready, if_pos ready.1]
  rfl

end

end

end Sys2Proof.Machine.CatchUpDues
end

section
/-! The slots of the missed boundaries (R133): where a run of them stands in the ring, and which boundary of a run reloads
the window under a BLOCK tariff. -/

namespace Sys2Proof.Machine.OutageSlots

open Sys2Proof Sys2Proof.Machine
open Sys2Proof.Machine.PeriodSettlement Sys2Proof.Machine.SlotClosures

/-! ### A run of OUTAGE slots in the ring -/

/-- The window after a run of `k` OUTAGE slots entered at a ring position. -/
def outageWindow (n position k : Nat) (window : Vector WindowSlot 12) : Vector WindowSlot 12 :=
  Vector.ofFn fun j => if j.val < n ∧ (j.val + n - position) % n < k then .outage else window[j.val]

/-- The account after a run of `k` OUTAGE slots. -/
def withOutages (n k : Nat) (a : Account) : Account :=
  { a with window := outageWindow n a.ringPos k a.window, ringPos := (a.ringPos + k) % n }

theorem getElem_outageWindow {n position k j : Nat} {window : Vector WindowSlot 12} (inside : j < 12) :
    (outageWindow n position k window)[j] =
      if j < n ∧ (j + n - position) % n < k then WindowSlot.outage else window[j] := by
  rw [outageWindow, Vector.getElem_ofFn]

/-- The distance of a position behind another, round the ring. -/
theorem distance_eq {n p j : Nat} (inRing : p < n) (inside : j < n) :
    (j + n - p) % n = if p ≤ j then j - p else j + n - p := by
  split
  · next behind =>
    have wraps : j + n - p = (j - p) + n := by omega
    rw [wraps, Nat.add_mod_right, Nat.mod_eq_of_lt (by omega)]
  · exact Nat.mod_eq_of_lt (by omega)

/-- The next ring position. -/
theorem next_eq {n p : Nat} (inRing : p < n) : (p + 1) % n = if p + 1 = n then 0 else p + 1 := by
  split
  · next last => rw [last, Nat.mod_self]
  · exact Nat.mod_eq_of_lt (by omega)

/-- The positions that `k` slots reach behind the next position, and the first position itself. -/
theorem reached_succ {n p j k : Nat} (inRing : p < n) (fits : k < n) :
    (j < n ∧ (j + n - p) % n < k + 1) ↔ (p = j ∨ j < n ∧ (j + n - (p + 1) % n) % n < k) := by
  have inRing' : (p + 1) % n < n := Nat.mod_lt _ (Nat.zero_lt_of_lt inRing)
  by_cases inside : j < n
  · rw [distance_eq inRing inside, distance_eq inRing' inside, next_eq inRing]
    repeat' split
    all_goals omega
  · omega

section

variable {n k : Nat} {a : Account} (inRing : a.ringPos < n)

include inRing

theorem withOutages_zero : withOutages n 0 a = a := by
  have window : outageWindow n a.ringPos 0 a.window = a.window := by
    ext j inside
    · rw [getElem_outageWindow, if_neg fun reached => absurd reached.2 (Nat.not_lt_zero _)]
  rw [withOutages, window, Nat.add_zero, Nat.mod_eq_of_lt inRing]

/-- A run begins with its first slot. -/
theorem withOutages_enterSlot (fits : k < n) :
    withOutages n k (a.enterSlot n .outage) = withOutages n (k + 1) a := by
  have window :
      outageWindow n ((a.ringPos + 1) % n) k (a.window.setIfInBounds a.ringPos .outage) =
        outageWindow n a.ringPos (k + 1) a.window := by
    apply Vector.ext
    intro j inside
    rw [getElem_outageWindow inside, getElem_outageWindow inside, Vector.getElem_setIfInBounds]
    by_cases first : a.ringPos = j
    · rw [if_pos first, if_pos ((reached_succ inRing fits).mpr (.inl first)), ite_self]
    · rw [if_neg first]
      refine ite_congr (propext ?_) (fun _ => rfl) fun _ => rfl
      rw [reached_succ inRing fits]
      exact ⟨.inr, fun reached => reached.resolve_left first⟩
  have position : ((a.ringPos + 1) % n + k) % n = (a.ringPos + (k + 1)) % n := by
    rw [Nat.mod_add_mod, Nat.add_assoc, Nat.add_comm 1]
  rw [withOutages, withOutages, ← window, ← position]
  rfl

end

/-! ### A run of missed boundaries -/

section

variable {t : Tariff} {s n : Nat} {a : Account} {boundary : Seconds} {boundaries : List Seconds}

theorem enterOutage_of_open (unended : t.endsBlock s boundary = false) :
    a.enterOutage t s boundary = a.enterSlot t.ringLength .outage := by
  rw [Account.enterOutage, unended]
  rfl

theorem enterOutage_of_end (ends : t.endsBlock s boundary = true) : a.enterOutage t s boundary = a.clearWindow := by
  rw [Account.enterOutage, ends]
  rfl

theorem clearWindow_enterOutage : (a.enterOutage t s boundary).clearWindow = a.clearWindow := by
  cases ends : t.endsBlock s boundary with
  | false =>
    rw [enterOutage_of_open ends]
    rfl
  | true =>
    rw [enterOutage_of_end ends]
    rfl

/-- What a run enters is cleared with the rest of the window. -/
theorem clearWindow_foldl (t : Tariff) (s : Nat) (boundaries : List Seconds) (a : Account) :
    (boundaries.foldl (fun a b => a.enterOutage t s b) a).clearWindow = a.clearWindow := by
  induction boundaries generalizing a with
  | nil => rfl
  | cons b rest ih => rw [List.foldl_cons, ih, clearWindow_enterOutage]

/-- A run that ends no block fills the ring from its position on. -/
theorem foldl_of_open (length : t.ringLength = n) (unended : ∀ b ∈ boundaries, t.endsBlock s b = false)
    (inRing : a.ringPos < n) (fits : boundaries.length ≤ n) :
    boundaries.foldl (fun a b => a.enterOutage t s b) a = withOutages n boundaries.length a := by
  induction boundaries generalizing a with
  | nil => exact (withOutages_zero inRing).symm
  | cons b rest ih =>
    have inRing' : (a.enterSlot n .outage).ringPos < n := Nat.mod_lt _ (Nat.zero_lt_of_lt inRing)
    rw [List.foldl_cons, enterOutage_of_open (unended b List.mem_cons_self), length,
      ih (fun b' member => unended b' (List.mem_cons_of_mem _ member)) inRing' (Nat.le_of_succ_le fits),
      withOutages_enterSlot inRing fits, List.length_cons]

/-- A run through the end of a block starts the ring again behind it. -/
theorem foldl_of_end {before after : List Seconds} (ends : t.endsBlock s boundary = true) :
    (before ++ boundary :: after).foldl (fun a b => a.enterOutage t s b) a =
      after.foldl (fun a b => a.enterOutage t s b) a.clearWindow := by
  rw [List.foldl_append, List.foldl_cons, enterOutage_of_end ends, clearWindow_foldl]

end

/-! ### The instants of the run -/

section

variable {s k d r : Nat} {latest boundary : Seconds}

theorem length_lastInstants : (lastInstants s k latest).length = k := by
  rw [lastInstants, List.length_map, List.length_range]

/-- Each instant of the run lies less than `k` boundaries before the latest. -/
theorem exists_of_mem_lastInstants (member : boundary ∈ lastInstants s k latest) :
    ∃ i, i < k ∧ boundary = latest - i * (s * 60) := by
  rw [lastInstants, List.mem_map] at member
  obtain ⟨j, inRange, rfl⟩ := member
  have below := List.mem_range.mp inRange
  exact ⟨k - 1 - j, by omega, rfl⟩

/-- The run, cut at the instant that lies `r` boundaries before the latest. -/
theorem lastInstants_split (s d r : Nat) (latest : Seconds) :
    ∃ before, lastInstants s (d + 1 + r) latest = before ++ (latest - r * (s * 60)) :: lastInstants s r latest := by
  refine ⟨(List.range d).map fun j => latest - (d + 1 + r - 1 - j) * (s * 60), ?_⟩
  have cut : d + 1 + r - 1 - d = r := by omega
  have behind (j : Nat) : d + 1 + r - 1 - (d + 1 + j) = r - 1 - j := by omega
  rw [lastInstants, List.range_add, List.range_succ, List.map_append, List.map_append, List.map_singleton, List.map_map, cut,
    List.append_assoc]
  refine congrArg (_ ++ ·) (congrArg (_ :: ·) (List.map_congr_left fun j _ => ?_))
  rw [Function.comp, behind]

end

/-! ### The alignment of the instants -/

section

variable {s n q i : Nat}

/-- A count `i` back from `q` is a multiple of `n` just when `i` is the remainder of `q`. -/
theorem sub_mod_eq_zero_iff (below : i < n) (within : i ≤ q) : (q - i) % n = 0 ↔ q % n = i := by
  constructor
  · intro whole
    have parts := Nat.div_add_mod (q - i) n
    rw [whole, Nat.add_zero] at parts
    have total : q = i + n * ((q - i) / n) := by omega
    rw [total, Nat.add_mul_mod_self_left, Nat.mod_eq_of_lt below]
  · intro remainder
    have parts := Nat.div_add_mod q n
    rw [remainder] at parts
    have rest : q - i = n * (q / n) := by omega
    rw [rest, Nat.mul_mod_right]

/-- The minute of the day of a boundary, counted in blocks of `n` boundaries. -/
theorem minute_mod_block (divides : 1440 % (n * s) = 0) :
    q * (s * 60) % 86400 / 60 % (n * s) = q % n * s := by
  have day : q * (s * 60) % 86400 = q * s % 1440 * 60 := by
    rw [← Nat.mul_assoc, show 86400 = 1440 * 60 from rfl, Nat.mul_mod_mul_right]
  rw [day, Nat.mul_div_cancel _ (by decide), Nat.mod_mod_of_dvd _ (Nat.dvd_of_mod_eq_zero divides), Nat.mul_mod_mul_right]

theorem positive_of_divides (divides : 1440 % (n * s) = 0) : 0 < s := by
  refine Nat.pos_of_ne_zero fun zero => ?_
  rw [zero, Nat.mul_zero] at divides
  exact absurd divides (by decide)

end

/-! ### The slots of a gap -/

/-- A boundary a number of boundaries before the latest ends a block just when that number is what the latest leaves over. -/
theorem endsBlock_back_iff {t : Tariff} {s q i : Nat} (ready : t.state = .ready) (block : t.evaluation = .block)
    (divides : 1440 % (t.n * s) = 0) (below : i < t.n) (within : i ≤ q) :
    t.endsBlock s (q * (s * 60) - i * (s * 60)) = true ↔ q % t.n = i := by
  have positive := positive_of_divides divides
  rw [endsBlock_iff, ← Nat.sub_mul, minute_mod_block divides, Nat.mul_eq_zero, ← sub_mod_eq_zero_iff below within]
  constructor
  · rintro ⟨-, -, aligned | zero⟩
    · exact aligned
    · exact absurd zero (Nat.ne_of_gt positive)
  · exact fun aligned => ⟨ready, block, .inl aligned⟩

/-- Under no BLOCK tariff, or when the block began at least `k` boundaries ago, the slots of a gap fill the ring on. -/
theorem foldl_lastInstants_of_open {t : Tariff} {s k q : Nat} {a : Account} (inRing : a.ringPos < t.ringLength)
    (fits : k ≤ t.ringLength)
    (unended : ∀ i < k, t.endsBlock s (q * (s * 60) - i * (s * 60)) = false) :
    (lastInstants s k (q * (s * 60))).foldl (fun a b => a.enterOutage t s b) a = withOutages t.ringLength k a := by
  have length : (lastInstants s k (q * (s * 60))).length = k := length_lastInstants
  rw [foldl_of_open rfl (fun b member => ?_) inRing (Nat.le_trans (Nat.le_of_eq length) fits), length]
  obtain ⟨i, below, rfl⟩ := exists_of_mem_lastInstants member
  exact unended i below

/-- Under a BLOCK tariff whose block began fewer than `k` boundaries ago, the slots behind its start stand alone. -/
theorem foldl_lastInstants_of_end {t : Tariff} {s k q : Nat} {a : Account} (ready : t.state = .ready)
    (block : t.evaluation = .block) (divides : 1440 % (t.n * s) = 0) (fits : k ≤ t.n) (known : k ≤ q)
    (inside : q % t.n < k) :
    (lastInstants s k (q * (s * 60))).foldl (fun a b => a.enterOutage t s b) a =
      withOutages t.n (q % t.n) a.clearWindow := by
  have length : t.ringLength = t.n := if_pos ready
  have back {i : Nat} (below : i < k) :=
    endsBlock_back_iff (q := q) ready block divides (Nat.lt_of_lt_of_le below fits) (Nat.le_trans (Nat.le_of_lt below) known)
  obtain ⟨before, cut⟩ := lastInstants_split s (k - 1 - q % t.n) (q % t.n) (q * (s * 60))
  have all : k - 1 - q % t.n + 1 + q % t.n = k := by omega
  rw [all] at cut
  rw [cut, foldl_of_end ((back inside).mpr rfl), ← length]
  refine foldl_lastInstants_of_open ?_ ?_ fun i below => ?_
  · rw [length]
    exact Nat.lt_of_le_of_lt (Nat.zero_le _) (Nat.lt_of_lt_of_le inside fits)
  · rw [length]
    exact Nat.le_trans (Nat.le_of_lt inside) fits
  · rw [length] at below
    exact eq_false_of_ne_true (mt (back (Nat.lt_trans below inside)).mp (Nat.ne_of_gt below))

end Sys2Proof.Machine.OutageSlots
end

section
/-! The OUTAGE slots of a gap in the ledger (R133). -/

namespace Sys2Proof.Machine.OutageGap

open Sys2Proof Sys2Proof.Machine
open Sys2Proof.Machine.OutageSlots Sys2Proof.Machine.PeriodSettlement Sys2Proof.Machine.SlotClosures

section

variable {c : Calendar} {m : Nat} {l : Ledger} {i : Slot} {t : Tariff} {a : Account} {s n k q : Nat}

/-- The tariff's blocks reload the window. -/
def Blocks (t : Tariff) : Prop := t.state = .ready ∧ t.evaluation = .block

/-- The account with `k` more OUTAGE slots counted. -/
def countOutages (k : Nat) (a : Account) : Account :=
  { a with period := { a.period with outageSlots := min (a.period.outageSlots + k) 65535 } }

theorem enterOutages_of_inactive (inactive : (l.account i).state ≠ .active) : enterOutages c m i l = l := if_neg inactive

theorem enterOutages_of_active (sound : l.SoundAccount i) (active : (l.account i).phase = .active)
    (known : (l.checkTariff (l.account i).tariff).tariff (l.account i).tariff = t) (counted : min m t.ringLength = k)
    (steps : c.time / (c.params.subinterval * 60) = q) {entered : Account}
    (run : (lastInstants c.params.subinterval k (q * (c.params.subinterval * 60))).foldl
      (fun a b => a.enterOutage t c.params.subinterval b) (l.account i) = entered) :
    enterOutages c m i l = (l.checkTariff (l.account i).tariff).putAccount i (countOutages k entered) := by
  have state : (l.account i).state = .active := by rw [Account.state, sound.1, active]; rfl
  rw [enterOutages, if_pos state]
  dsimp only
  rw [checkAccount_of_soundAccount sound, if_neg (ne_true_of_eq_false sound.1), known, counted, boundaryAtOrBefore, steps, run]
  rfl

/-! ### Where the slots of a gap stand -/

/-- No missed boundary ends a block: the tariff is no READY BLOCK, or the block in which the gap ends is older than it. -/
theorem unended_of_old (length : t.ringLength = n) (fits : k ≤ n) (rules : Blocks t → 1440 % (n * s) = 0 ∧ k ≤ q)
    (old : ¬(Blocks t ∧ q % n < k)) (i : Nat) (below : i < k) :
    t.endsBlock s (q * (s * 60) - i * (s * 60)) = false := by
  refine eq_false_of_ne_true fun ends => ?_
  obtain ⟨ready, block, -⟩ := endsBlock_iff.mp ends
  obtain ⟨divides, known⟩ := rules ⟨ready, block⟩
  obtain rfl : t.n = n := (if_pos ready).symm.trans length
  have left := (endsBlock_back_iff ready block divides (Nat.lt_of_lt_of_le below fits)
    (Nat.le_trans (Nat.le_of_lt below) known)).mp ends
  exact old ⟨⟨ready, block⟩, left ▸ below⟩

/-- The gap reaches past the start of a block: the slots behind the start stand alone in the ring. -/
theorem gap_of_block (length : t.ringLength = n) (fits : k ≤ n) (rules : Blocks t → 1440 % (n * s) = 0 ∧ k ≤ q)
    (blocks : Blocks t) (inside : q % n < k) :
    (lastInstants s k (q * (s * 60))).foldl (fun a b => a.enterOutage t s b) a = withOutages n (q % n) a.clearWindow := by
  obtain ⟨divides, known⟩ := rules blocks
  obtain ⟨ready, block⟩ := blocks
  obtain rfl : t.n = n := (if_pos ready).symm.trans length
  exact foldl_lastInstants_of_end ready block divides fits known inside

/-- Otherwise the slots of the gap follow those in the ring. -/
theorem gap_of_old (length : t.ringLength = n) (inRing : a.ringPos < n) (fits : k ≤ n)
    (rules : Blocks t → 1440 % (n * s) = 0 ∧ k ≤ q) (old : ¬(Blocks t ∧ q % n < k)) :
    (lastInstants s k (q * (s * 60))).foldl (fun a b => a.enterOutage t s b) a = withOutages n k a := by
  subst length
  exact foldl_lastInstants_of_open inRing fits (unended_of_old rfl fits rules old)

/-- The window behind the start of a block. -/
theorem getElem_withOutages_clearWindow {r : Nat} (below : r < n) (j : Fin 12) :
    (withOutages n r a.clearWindow).window[j.val] = if j.val < r then WindowSlot.outage else .cleared := by
  have cleared : a.clearWindow.window[j.val] = .cleared := Vector.getElem_replicate _
  have front : a.clearWindow.ringPos = 0 := rfl
  rw [withOutages, getElem_outageWindow j.isLt, cleared, front, Nat.sub_zero, Nat.add_mod_right]
  refine ite_congr (propext ⟨fun reached => ?_, fun reached => ?_⟩) (fun _ => rfl) fun _ => rfl
  · obtain ⟨inside, reached⟩ := reached
    rwa [Nat.mod_eq_of_lt inside] at reached
  · have inside := Nat.lt_trans reached below
    exact ⟨inside, (Nat.mod_eq_of_lt inside).symm ▸ reached⟩

theorem ringPos_withOutages_clearWindow {r : Nat} (below : r < n) : (withOutages n r a.clearWindow).ringPos = r := by
  have front : a.clearWindow.ringPos = 0 := rfl
  rw [withOutages, front, Nat.zero_add, Nat.mod_eq_of_lt below]

theorem countOutages_of_block {r : Nat} (below : r < n) :
    countOutages k (withOutages n r a.clearWindow) =
      { a with
        window := (withOutages n r a.clearWindow).window
        ringPos := r
        period := { a.period with outageSlots := min (a.period.outageSlots + k) 65535 } } := by
  rw [countOutages, ringPos_withOutages_clearWindow below]
  rfl

/-- The OUTAGE slots of an ACTIVE account, by the two places where the run can stand. -/
theorem enterOutages_law (sound : l.SoundAccount i) (active : (l.account i).phase = .active)
    (known : (l.checkTariff (l.account i).tariff).tariff (l.account i).tariff = t) (length : t.ringLength = n)
    (inRing : (l.account i).ringPos < n) (counted : min m n = k) (steps : c.time / (c.params.subinterval * 60) = q)
    (rules : Blocks t → 1440 % (n * c.params.subinterval) = 0 ∧ k ≤ q) :
    (Blocks t ∧ q % n < k →
        enterOutages c m i l =
          (l.checkTariff (l.account i).tariff).putAccount i
            (countOutages k (withOutages n (q % n) (l.account i).clearWindow))) ∧
      (¬(Blocks t ∧ q % n < k) →
        enterOutages c m i l =
          (l.checkTariff (l.account i).tariff).putAccount i (countOutages k (withOutages n k (l.account i)))) := by
  subst length
  have fits : k ≤ t.ringLength := counted ▸ Nat.min_le_right m _
  exact ⟨fun ⟨blocks, inside⟩ =>
      enterOutages_of_active sound active known counted steps (gap_of_block rfl fits rules blocks inside),
    fun old => enterOutages_of_active sound active known counted steps (gap_of_old rfl inRing fits rules old)⟩

/-- The boundaries of a gap lie in the calendar when the whole gap does. -/
theorem le_steps {time : Seconds} (positive : 0 < s) (reaches : m * (s * 60) ≤ time) : m ≤ time / (s * 60) :=
  (Nat.le_div_iff_mul_le (Nat.mul_pos positive (by decide))).mpr reaches

/-- The subintervals since the block began, out of the minute of the day. -/
theorem sinceAligned_eq (divides : 1440 % (n * s) = 0) : q * (s * 60) % 86400 / 60 % (n * s) / s = q % n := by
  rw [minute_mod_block divides, Nat.mul_div_cancel _ (positive_of_divides divides)]

end

end Sys2Proof.Machine.OutageGap
end

section
/-! The restart catch-up (R131 to R135, R157, R158, R186): its operation on the records, and the entry to RUN. -/

namespace Sys2Proof.Machine.CatchUp

open Sys2Proof Sys2Proof.Machine
open Sys2Proof.Machine.CatchUpDues Sys2Proof.Machine.OutageSlots Sys2Proof.Machine.OutageGap
open Sys2Proof.Machine.ModeRequests Sys2Proof.Machine.AgeingFolds

/-! ### The calendar and the lanes -/

section

variable {s : State} {c : Calendar} {l : Ledger} {m : Nat} {last : Seconds}

theorem missedBoundaries_eq (known : c.lastBoundary = some last) :
    c.missedBoundaries = c.time / (c.params.subinterval * 60) - last / (c.params.subinterval * 60) := by
  rw [Calendar.missedBoundaries, known]
  rfl

/-- The calendar behind a gap of `m` boundaries. -/
def calendarAfter (c : Calendar) (m : Nat) (last : Seconds) : Calendar :=
  { c with
    currentTag := c.currentTag + BitVec.ofNat 8 m
    lastBoundary :=
      if m = 0 then some last else some (c.time / (c.params.subinterval * 60) * (c.params.subinterval * 60))
    lastMinute := some (c.time / 60 * 60)
    grace := none }

theorem caughtUp_eq (known : c.lastBoundary = some last) (missed : c.missedBoundaries = m) :
    c.caughtUp = calendarAfter c m last := by
  rw [Calendar.caughtUp, missed, known]
  rfl

/-- The catch-up's step, out of the ledger and the calendar that it reaches. -/
theorem restart_eq {c' : Calendar} (operation : catchUp s.calendar s.ledger = l) (clock : s.calendar.caughtUp = c') :
    s.restart =
      { s with
        ledger := l.raise .restartDone
        lanes := s.lanes.map (enteredLane (c'.currentTag - 1) c'.lastBoundary)
        mode := .run
        arbiter := { last := some .closingGroup, lastMember := some .intervalEngine }
        calendar := c' } := by
  have lanes : Lane.enterRun c'.endedTag c'.lastBoundary = enteredLane (c'.currentTag - 1) c'.lastBoundary :=
    funext fun n => enterRun_eq _ _ n
  rw [State.restart, operation, clock, ← lanes]
  rfl

theorem exec_of_due (turn : s.memberTurn .intervalEngine = true) (restarting : s.mode = .restarting)
    (swept : s.sweep.position = none) : exec .restartCatchUp s = .next s.restart := by
  have due : s.catchUpDue = true := by
    rw [State.catchUpDue, restarting, swept]
    rfl
  exact congrArg Host.Outcome.next (if_pos (Bool.and_eq_true_iff.mpr ⟨due, turn⟩))

/-! ### The operation on the records -/

/-- CLOSE_BLOCKED is raised when an account holds the flag. -/
theorem any_closeBlocked_iff : (allSlots.any fun i => (l.account i).closeBlocked) = true ↔
    ∃ i, (l.account i).closeBlocked = true := by
  rw [List.any_eq_true]
  exact ⟨fun ⟨i, _, blocked⟩ => ⟨i, blocked⟩, fun ⟨i, blocked⟩ => ⟨i, List.mem_finRange i, blocked⟩⟩

/-- The ledger with CLOSE_BLOCKED raised. -/
theorem raiseIf_closeBlocked [Decidable (∃ i, (l.account i).closeBlocked = true)] :
    l.raiseIf (allSlots.any fun i => (l.account i).closeBlocked) .closeBlocked =
      if ∃ i, (l.account i).closeBlocked = true then l.raise .closeBlocked else l := by
  rw [Ledger.raiseIf]
  exact ite_congr (propext any_closeBlocked_iff) (fun _ => rfl) fun _ => rfl

theorem catchUp_eq {closed bridged due : Ledger} (missed : c.missedBoundaries = m)
    (closes : eachOf allSlots (closeStale c) l = closed)
    (bridges : (if m = 0 then closed else eachOf allIntakes foldMissed (eachOf allSlots (enterOutages c m) closed)) = bridged)
    (dues : (if m = 0 then ageOwners c m bridged else eachOf allSlots (placeMissedDue c) (ageOwners c m bridged)) = due) :
    catchUp c l =
      (eachOf allSlots (examineMissed c.time) due).raiseIf
        (allSlots.any fun i => ((eachOf allSlots (examineMissed c.time) due).account i).closeBlocked) .closeBlocked := by
  rw [catchUp, missed, closes, bridgeGap, bridges, missedCloses, dues]

end

/-- Settles O58: the catch-up and the entry to RUN; then, record by record, the stale slots, the ageing, the folds, the
OUTAGE slots, the collapsed dues and their examination. -/
theorem catchUpEntersRun : Obligations.CatchUpEntersRun := by
  refine ⟨fun s last turn restarting swept known => ?entry, fun c i l => closeStale_eq c i l, fun c m l => ageOwners_law c m l,
    fun i l => foldMissed_eq i l, fun c m l i inactive => enterOutages_of_inactive inactive,
    fun c m l i sound active => ?outages, fun c last l i known lastInside timeInside sound => ?dues,
    fun now l i sound => ?examination⟩
  case entry =>
    intro c step m tag boundary closed bridged aged due examined ended
    have missed : c.missedBoundaries = m := missedBoundaries_eq known
    have operation : catchUp c s.ledger = ended :=
      (catchUp_eq missed rfl rfl rfl).trans raiseIf_closeBlocked
    rw [exec_of_due turn restarting swept, restart_eq operation (caughtUp_eq known missed)]
    rfl
  case outages =>
    intro a verified t n s latest blocks low ring inRing rules k sinceAligned outage empty
    have rules' : Blocks t → 1440 % (n * s) = 0 ∧ k ≤ c.time / (s * 60) := fun block => by
      obtain ⟨divides, reaches⟩ := rules block
      exact ⟨divides, Nat.le_trans (Nat.min_le_left m n) (le_steps (positive_of_divides divides) reaches)⟩
    have since (block : Blocks t) : sinceAligned = c.time / (s * 60) % n := sinceAligned_eq (rules block).1
    obtain ⟨ofBlock, ofOld⟩ :=
      enterOutages_law (c := c) (m := m) (t := t) (n := n) (k := k) (q := c.time / (s * 60)) sound active rfl rfl inRing rfl rfl
        rules'
    by_cases past : blocks ∧ sinceAligned < k
    · obtain ⟨block, inside⟩ := id past
      have below : sinceAligned < n := Nat.lt_of_lt_of_le inside (Nat.min_le_right m n)
      rw [if_pos past]
      refine ⟨(withOutages n sinceAligned a.clearWindow).window, ?_, fun j => ?_⟩
      · rw [since block] at inside below ⊢
        exact (ofBlock ⟨block, inside⟩).trans (congrArg (verified.putAccount i ·) (countOutages_of_block below))
      · rw [if_pos past]
        exact getElem_withOutages_clearWindow below j
    · rw [if_neg past]
      refine ⟨(withOutages n k a).window, ?_, fun j => ?_⟩
      · exact ofOld fun ⟨block, inside⟩ => past ⟨block, (since block).symm ▸ inside⟩
      · rw [if_neg past]
        exact getElem_outageWindow j.isLt
  case dues =>
    intro a missed dayLow dayHigh hourHigh
    exact placeMissedDue_law known lastInside timeInside sound dayLow dayHigh hourHigh
  case examination =>
    intro a blocked
    refine ⟨examineMissed_of_idle sound, fun due bills owed noSlot => ⟨fun settled => ?_, fun unsettled mark => ?_, ?_⟩⟩
    · exact examineMissed_of_settled sound bills owed noSlot settled
    · exact examineMissed_of_markedTariff sound bills owed noSlot unsettled mark
    · exact fun unsettled ready => examineMissed_of_ready sound bills owed noSlot unsettled ready

end Sys2Proof.Machine.CatchUp
end
